-- ==== Sys2Proof/Word.lean ====
section
/-! DEFINITION. The widths of the machine's words (spec/00_scope.md R2, R3). -/
namespace Sys2Proof

abbrev Byte := BitVec 8
abbrev Half := BitVec 16
abbrev Word := BitVec 32
abbrev DWord := BitVec 64
/-- One bit for each of a wave's 256 lanes (R9, R18). -/
abbrev Mask := BitVec 256

/-- A finite map from numbers, listed by rising key; what an unlisted key reads as is the owner's default. -/
abbrev Sparse (α : Type) := List (Nat × α)

end Sys2Proof
end

