-- ==== Sys2Proof/Syntax.lean ====
section
/-! DEFINITION. The steps of the machine: one constructor for each row of spec/opcode_table.json.
Instructions carry decoded operands (spec/02_encoding_and_assembly.md); the rows without an encoding, the steps other
agents take (spec/95_what_each_step_holds.md), carry what tells one such step from another. -/
namespace Sys2Proof

/-! ## Operands -/

abbrev VReg := Fin 96
abbrev SReg := Fin 64
abbrev PReg := Fin 8
abbrev FReg := Fin 8
/-- A tile register (R37). -/
abbrev XReg := Fin 32
/-- An accumulator (R37). -/
abbrev AReg := Fin 16

/-- A P-class 7-bit source field: v0 to v95, or s0 to s31 broadcast (R12). -/
inductive Src where
  | v (n : VReg)
  | s (n : Fin 32)
  deriving DecidableEq, Repr

/-- The second source of a scalar form: a register, or under .I an unsigned immediate (R44). -/
inductive SOpnd where
  | r (n : SReg)
  | imm (n : BitVec 6)
  deriving DecidableEq, Repr

/-- Guard, its negation and the lookahead of a P2 form (R32). -/
structure Tail where
  g : PReg
  neg : Bool
  la : Fin 16
  deriving DecidableEq, Repr

/-- The type of an FP modifier (R41). -/
inductive FTy where
  | f32 | f16x2 | bf16x2 | f64
  deriving DecidableEq, Repr

/-- The type of a uniform floating form (R43, R114). -/
inductive STy where
  | f32 | f16 | bf16 | f64
  deriving DecidableEq, Repr

/-- Rounding modes (R64). -/
inductive Rm where
  | rn | rz | ru | rd
  deriving DecidableEq, Repr

structure FpMod where
  ty : FTy
  rm : Rm
  ftz : Bool
  deriving DecidableEq, Repr

/-- The type codes of R41. -/
inductive Ty where
  | f32 | f16 | bf16 | f64 | s32 | u32 | s64 | u64 | e4m3 | e5m2 | e2m3 | e3m2 | e2m1 | int8 | int4 | e8m0
  deriving DecidableEq, Repr

/-- Integer conditions (R93). -/
inductive ICond where
  | eq | ne | lt | le | gt | ge | ltU | leU | gtU | geU
  deriving DecidableEq, Repr

/-- Floating conditions (R100). -/
inductive FCond where
  | eq | ne | lt | le | gt | ge | ord | uno
  deriving DecidableEq, Repr

inductive Size where
  | b8 | b16 | b32 | b64 | b128
  deriving DecidableEq, Repr

/-- The space of a memory form: global, or the workgroup's scratchpad (R27, R33). -/
inductive Space where
  | g | s
  deriving DecidableEq, Repr

/-- Atomic operations (R191). -/
inductive AOp where
  | add | min | max | and | or | xor | xchg | cas | incb | minU | maxU
  deriving DecidableEq, Repr

/-- WREDUCE and WSCAN operations (R41). -/
inductive ROp where
  | iadd | imin | imax | iminU | imaxU | and | or | xor | fadd | fmin | fmax
  deriving DecidableEq, Repr

inductive ShflMode where
  | idx | up | down | xor
  deriving DecidableEq, Repr

/-- Scopes (R43, R242). -/
inductive Scope where
  | wave | wg | cluster | dev | sys
  deriving DecidableEq, Repr

/-- Orders of ORD (R198). -/
inductive Order where
  | rlx | acq | rel | ar
  deriving DecidableEq, Repr

/-- Access paths (R43, R47). -/
inductive Path where
  | gld | gst | spd | acp | nev | eng
  deriving DecidableEq, Repr

/-- Conditions of MWAIT (R206). -/
inductive MCond where
  | ne | eq | geu | ltu
  deriving DecidableEq, Repr

/-- Layouts of a tile copy (R225). -/
inductive Layout where
  | none | t | b16 | tb16
  deriving DecidableEq, Repr

/-- Slot tags (R277). -/
inductive SlotTag where
  | empty | filling | full | draining
  deriving DecidableEq, Repr

/-- Tile format tags an instruction may name (R45); 15, POISON, is set by the device alone. -/
inductive Fmt where
  | none | bf16 | fp16 | e4m3 | e5m2 | e2m3 | e3m2 | e2m1 | int8 | int4 | fp32
  deriving DecidableEq, Repr

/-- Levels of PF (R133). -/
inductive PfLevel where
  | core | clus | msc
  deriving DecidableEq, Repr

/-- A memory operand: base, optional index with its scale exponent, signed offset (R33). -/
structure MemOp where
  a : Src
  ix : Option (Src × Fin 4)
  off : BitVec 12
  deriving DecidableEq, Repr

/-- The field of BFX and BFI: position and length minus 1, or a register that holds them (R95). -/
inductive Fld where
  | imm (pos lenM1 : Fin 32)
  | reg (b : Src)
  deriving DecidableEq, Repr

/-- The lane operand of SHFL (R150). -/
inductive ShflN where
  | reg (b : Src)
  | imm (n : Byte)
  deriving DecidableEq, Repr

/-- The lane operand of BCAST (R151). -/
inductive BcastN where
  | imm (n : Byte)
  | s (n : Fin 32)
  deriving DecidableEq, Repr

/-! ## Operand records of the formats -/

structure P1R where
  d : VReg
  a : Src
  b : Src
  g : PReg
  deriving DecidableEq, Repr
structure P1I where
  d : VReg
  a : Src
  imm : BitVec 7
  g : PReg
  deriving DecidableEq, Repr
structure P1S where
  d : VReg
  a : Src
  n : BitVec 5
  g : PReg
  deriving DecidableEq, Repr
structure P1U where
  d : VReg
  a : Src
  g : PReg
  deriving DecidableEq, Repr
structure P1M where
  d : VReg
  p : PReg
  g : PReg
  deriving DecidableEq, Repr
/-- Two-source floating forms (R98). -/
structure F2 where
  m : FpMod
  d : VReg
  a : Src
  b : Src
  t : Tail
  deriving DecidableEq, Repr
/-- Three-source floating forms (R98). -/
structure F3 where
  m : FpMod
  d : VReg
  a : Src
  b : Src
  c : Src
  t : Tail
  deriving DecidableEq, Repr
/-- One-source floating forms (R102). -/
structure F1 where
  m : FpMod
  d : VReg
  a : Src
  t : Tail
  deriving DecidableEq, Repr
structure FcmpF where
  cond : FCond
  ty : FTy
  ftz : Bool
  d : PReg
  a : Src
  b : Src
  t : Tail
  deriving DecidableEq, Repr
structure FclassF where
  ty : FTy
  mask : BitVec 10
  d : PReg
  a : Src
  t : Tail
  deriving DecidableEq, Repr
structure ImadF where
  d : VReg
  a : Src
  b : Src
  c : Src
  t : Tail
  deriving DecidableEq, Repr
structure ImulhF where
  u : Bool
  d : VReg
  a : Src
  b : Src
  t : Tail
  deriving DecidableEq, Repr
structure IcmpF where
  cond : ICond
  d : PReg
  a : Src
  b : Src
  t : Tail
  deriving DecidableEq, Repr
structure SelF where
  d : VReg
  a : Src
  b : Src
  p : PReg
  t : Tail
  deriving DecidableEq, Repr
structure MoviF where
  d : VReg
  imm : Half
  t : Tail
  deriving DecidableEq, Repr
structure BfxF where
  sgn : Bool
  fld : Fld
  d : VReg
  a : Src
  t : Tail
  deriving DecidableEq, Repr
structure BfiF where
  fld : Fld
  d : VReg
  a : Src
  t : Tail
  deriving DecidableEq, Repr
structure Idot4F where
  sa : Bool
  sb : Bool
  sat : Bool
  d : VReg
  a : Src
  b : Src
  c : Src
  t : Tail
  deriving DecidableEq, Repr
structure CvtF where
  src : Ty
  dst : Ty
  rm : Rm
  sat : Bool
  ftz : Bool
  d : VReg
  a : Src
  t : Tail
  deriving DecidableEq, Repr
structure CvtsrF where
  src : Ty
  dst : Ty
  rm : Rm
  sat : Bool
  ftz : Bool
  d : VReg
  a : Src
  c : Src
  t : Tail
  deriving DecidableEq, Repr
structure PackF where
  ty : Ty
  pos : Fin 8
  sat : Bool
  d : VReg
  a : Src
  t : Tail
  deriving DecidableEq, Repr
structure UnpkF where
  ty : Ty
  pos : Fin 8
  d : VReg
  a : Src
  t : Tail
  deriving DecidableEq, Repr
structure QblkF where
  ty : Ty
  rm : Rm
  d : VReg
  a : Src
  c : VReg
  t : Tail
  deriving DecidableEq, Repr
structure DqblkF where
  ty : Ty
  d : VReg
  a : Src
  c : Src
  t : Tail
  deriving DecidableEq, Repr
structure LdF where
  sp : Space
  size : Size
  d : VReg
  mem : MemOp
  t : Tail
  deriving DecidableEq, Repr
structure StF where
  sp : Space
  size : Size
  rc : Fin 16
  d : Src
  mem : MemOp
  t : Tail
  deriving DecidableEq, Repr
structure AtomF where
  op : AOp
  sp : Space
  size : Size
  d : VReg
  a : Src
  off : BitVec 12
  b : Src
  t : Tail
  deriving DecidableEq, Repr
structure RedF where
  op : AOp
  sp : Space
  size : Size
  a : Src
  off : BitVec 12
  b : Src
  t : Tail
  deriving DecidableEq, Repr
structure PfF where
  level : PfLevel
  mem : MemOp
  t : Tail
  deriving DecidableEq, Repr
structure AcpF where
  toG : Bool
  size : Size
  tb : Fin 16
  d : VReg
  mem : MemOp
  t : Tail
  deriving DecidableEq, Repr
structure RecldF where
  size : Size
  d : VReg
  rn : Option Src
  off : Fin 128
  t : Tail
  deriving DecidableEq, Repr
structure RecstF where
  size : Size
  d : Src
  a : Src
  off : Fin 128
  t : Tail
  deriving DecidableEq, Repr
structure NevalF where
  d : VReg
  a : VReg
  b : Src
  c : PReg
  nM1 : Fin 64
  mM1 : Fin 32
  t : Tail
  deriving DecidableEq, Repr
structure ShflF where
  mode : ShflMode
  n : ShflN
  d : VReg
  a : Src
  t : Tail
  deriving DecidableEq, Repr
structure WreduceF where
  op : ROp
  d : VReg
  a : Src
  t : Tail
  deriving DecidableEq, Repr
structure WscanF where
  op : ROp
  excl : Bool
  d : VReg
  a : Src
  t : Tail
  deriving DecidableEq, Repr
structure BcastF where
  n : BcastN
  d : VReg
  a : Src
  t : Tail
  deriving DecidableEq, Repr
structure SregPF where
  idx : Byte
  d : VReg
  t : Tail
  deriving DecidableEq, Repr
/-- Predicate branches (R145) and IF (R142). -/
structure PBr where
  p : PReg
  neg : Bool
  off : BitVec 28
  la : Fin 16
  deriving DecidableEq, Repr
structure BrfF where
  f : FReg
  neg : Bool
  off : BitVec 28
  la : Fin 16
  deriving DecidableEq, Repr
/-- Three-operand scalar integer forms (R109). -/
structure U3 where
  d : SReg
  a : SReg
  b : SOpnd
  w32 : Bool
  deriving DecidableEq, Repr
/-- SMIN and SMAX (R109). -/
structure UMM where
  d : SReg
  a : SReg
  b : SOpnd
  w32 : Bool
  u : Bool
  deriving DecidableEq, Repr
structure ScmpF where
  d : FReg
  a : SReg
  b : SOpnd
  w32 : Bool
  cond : ICond
  deriving DecidableEq, Repr
structure SselF where
  d : SReg
  a : SReg
  b : SReg
  f : FReg
  neg : Bool
  deriving DecidableEq, Repr
structure SlitF where
  d : SReg
  v : BitVec 28
  la : Fin 16
  deriving DecidableEq, Repr
structure SlitTopF where
  d : SReg
  v : Byte
  la : Fin 16
  deriving DecidableEq, Repr
structure SleaF where
  d : SReg
  a : SReg
  b : SOpnd
  k : Fin 4
  deriving DecidableEq, Repr
structure SCntF where
  d : SReg
  a : SReg
  w32 : Bool
  deriving DecidableEq, Repr
structure SbfxF where
  d : SReg
  a : SReg
  pos : Fin 64
  lenM1 : Fin 64
  sgn : Bool
  la : Fin 16
  deriving DecidableEq, Repr
structure SfF where
  d : SReg
  a : SReg
  b : SReg
  ty : STy
  rm : Rm
  ftz : Bool
  deriving DecidableEq, Repr
structure SfcmpF where
  d : FReg
  a : SReg
  b : SReg
  cond : FCond
  ty : STy
  deriving DecidableEq, Repr
structure ScvtF where
  d : SReg
  a : SReg
  src : Ty
  dst : Ty
  rm : Rm
  sat : Bool
  ftz : Bool
  la : Fin 16
  deriving DecidableEq, Repr
structure SldF where
  sp : Space
  size : Size
  d : SReg
  a : SReg
  off : BitVec 20
  la : Fin 16
  deriving DecidableEq, Repr
structure SstF where
  sp : Space
  size : Size
  rc : Fin 16
  a : SReg
  b : SReg
  off : BitVec 20
  la : Fin 16
  deriving DecidableEq, Repr
structure SatomF where
  op : AOp
  sp : Space
  size : Size
  d : SReg
  a : SReg
  b : SReg
  off : BitVec 20
  la : Fin 16
  deriving DecidableEq, Repr
structure MwaitF where
  cond : MCond
  sp : Space
  size : Size
  scope : Scope
  tmo : BitVec 22
  d : SReg
  a : SReg
  b : SReg
  la : Fin 16
  deriving DecidableEq, Repr
structure TcpF where
  mc : Option SReg
  layout : Layout
  tb : Fin 16
  a : SReg
  b : SReg
  la : Fin 16
  deriving DecidableEq, Repr
structure SS where
  a : SReg
  b : SReg
  deriving DecidableEq, Repr
structure SSL where
  a : SReg
  b : SReg
  la : Fin 16
  deriving DecidableEq, Repr
structure DA where
  d : SReg
  a : SReg
  deriving DecidableEq, Repr
structure SlotF where
  tag : SlotTag
  a : SReg
  b : SReg
  deriving DecidableEq, Repr
structure ForkF where
  t : Fin 4
  me : BitVec 14
  ce : BitVec 14
  a : SReg
  la : Fin 16
  deriving DecidableEq, Repr
structure OallocF where
  d : SReg
  a : SReg
  f : FReg
  wait : Bool
  e : Fin 8
  la : Fin 16
  deriving DecidableEq, Repr
structure EmitF where
  a : SReg
  b : SReg
  rel : Bool
  e : Fin 8
  deriving DecidableEq, Repr
structure SpawnF where
  d : SReg
  a : SReg
  b : SReg
  rel : Bool
  e : Fin 8
  la : Fin 16
  deriving DecidableEq, Repr
structure RboardF where
  a : SReg
  b : SReg
  nM1 : Byte
  la : Fin 16
  deriving DecidableEq, Repr
structure DbgrdF where
  d : SReg
  a : SReg
  off : BitVec 28
  la : Fin 16
  deriving DecidableEq, Repr
structure DbgwrF where
  a : SReg
  b : SReg
  off : BitVec 28
  la : Fin 16
  deriving DecidableEq, Repr
structure MldF where
  tag : Fmt
  d : XReg
  a : SReg
  b : SReg
  la : Fin 16
  deriving DecidableEq, Repr
structure MmaF where
  sp : Bool
  adp : Bool
  q : Fin 4
  mask : BitVec 4
  d : AReg
  a : XReg
  b : XReg
  la : Fin 16
  deriving DecidableEq, Repr
structure MstF where
  tag : Fmt
  rm : Rm
  a : AReg
  b : SReg
  la : Fin 16
  deriving DecidableEq, Repr
structure MstaF where
  ix : Option SReg
  sp : Space
  tag : Fmt
  rm : Rm
  a : AReg
  b : SReg
  la : Fin 16
  deriving DecidableEq, Repr
structure MadpF where
  a : SReg
  b : SReg
  r : BitVec 7
  la : Fin 16
  deriving DecidableEq, Repr
structure CqmetaF where
  q : Fin 4
  a : SReg
  n : Half
  la : Fin 16
  deriving DecidableEq, Repr

/-! ## What tells one step of another agent from another -/

/-- A party that issues instructions: a wave of a workgroup, or the relative hardware thread `t` of its reservation on the
matrix or the copy sequencer (R242, R294). -/
inductive Party where
  | wave (wg : Nat) (w : Nat)
  | mseq (wg : Nat) (t : Nat)
  | cseq (wg : Nat) (t : Nat)
  deriving DecidableEq, Repr

/-- The pipes of a core (R374). -/
inductive Pipe where
  | vector | memory | uniform
  deriving DecidableEq, Repr

/-- What an ISSUE step serves: one pipe of a core, or one sequencer hardware thread (R294, R374). -/
inductive IssueUnit where
  | pipe (core : Nat) (k : Pipe)
  | thread (p : Party)
  deriving DecidableEq, Repr

/-- What an EVICTION removes (R219, R221, R229): a leased copy of a sector in a core's L1 or a cluster cache, a line of the
memory-side cache, a node of a stack's counter tree. -/
inductive Evicted where
  | l1 (core : Nat) (sector : Nat)
  | clus (cluster : Nat) (sector : Nat)
  | line (n : Nat)
  | node (stack : Nat) (level : Nat) (n : Nat)
  deriving DecidableEq, Repr

/-- The registers of BAR0 that a plain write reaches (R441, R445, R450), and a vector's mask bit (R447). A mailbox ring's TAIL and an out
ring's OHEAD have steps of their own. -/
inductive BarReg where
  | devstat | evbase | evcfg | evshadow | cmdctl
  | ringState (ring : Nat)
  | ostat (ring : Nat)
  | vcfg (v : Nat)
  | vmask (v : Nat)
  deriving DecidableEq, Repr

/-- An attempt of firmware at an action of R448's table: the row, and the host address, vector or queue pair that it is made on. -/
structure FwAct where
  row : Nat
  what : Nat
  deriving DecidableEq, Repr

/-- What an exchange of the time base tells the device (R422): whether firmware has made it the time master, and else the correction. -/
structure Exchange where
  master : Bool
  step : Int
  deriving DecidableEq, Repr

/-- The kinds of inbound remote access (R415). -/
inductive AccKind where
  | read | write | atomic
  deriving DecidableEq, Repr

/-- The reasons an inbound Ethernet packet is not served (R424). -/
inductive BadPacket where
  | transport
  /-- an operation with immediate data or invalidation, for a queue pair -/
  | immediate (qp psn : Nat)
  deriving DecidableEq, Repr

/-- What a NAK reports (R424, R430, R432). -/
inductive NakKind where
  | remoteAccess | remoteOp | invalid
  deriving DecidableEq, Repr

/-- The records of one EMIT that a peer sends together, in handle order (R420). -/
structure RemoteRec where
  ctx : Nat
  node : Nat
  src : Nat
  depth : Nat
  recs : List (List Byte)
  deriving DecidableEq, Repr

/-- The steps of the machine, one for each row of the table. -/
inductive Instr where
  -- per-lane integer, one word
  | iadd (o : P1R) | iaddI (o : P1I) | isub (o : P1R) | isubI (o : P1I) | imul (o : P1R) | imulI (o : P1I)
  | imin (o : P1R) | iminU (o : P1R) | imax (o : P1R) | imaxU (o : P1R) | iabs (o : P1U) | ineg (o : P1U)
  | shl (o : P1R) | shlI (o : P1S) | shr (o : P1R) | shrI (o : P1S) | sar (o : P1R) | sarI (o : P1S)
  | iand (o : P1R) | iandI (o : P1I) | ior (o : P1R) | iorI (o : P1I) | ixor (o : P1R) | ixorI (o : P1I)
  | iandn (o : P1R) | inot (o : P1U) | popc (o : P1U) | clz (o : P1U) | brev (o : P1U) | mov (o : P1U)
  | leaX1 (o : P1R) | leaX2 (o : P1R) | leaX4 (o : P1R) | leaX8 (o : P1R) | mrank (o : P1M)
  -- per-lane floating point, two words
  | fadd (o : F2) | fsub (o : F2) | fmul (o : F2) | fmin (o : F2) | fmax (o : F2) | ffma (o : F3)
  | fcmp (o : FcmpF) | fclass (o : FclassF)
  | frnd (o : F1) | ffrac (o : F1) | frcp (o : F1) | frsq (o : F1) | fsqrt (o : F1)
  | fexp2 (o : F1) | flog2 (o : F1) | fsin (o : F1) | fcos (o : F1) | ftanh (o : F1)
  -- per-lane integer, two words, and conversions
  | imad (o : ImadF) | imadWide (o : ImadF) | imulh (o : ImulhF) | icmp (o : IcmpF) | sel (o : SelF)
  | movi (o : MoviF) | moviZ (o : MoviF) | moviHi (o : MoviF) | bfx (o : BfxF) | bfi (o : BfiF) | idot4 (o : Idot4F)
  | cvt (o : CvtF) | cvtsr (o : CvtsrF) | pack (o : PackF) | unpk (o : UnpkF) | qblk (o : QblkF) | dqblk (o : DqblkF)
  -- memory
  | ld (o : LdF) | st (o : StF) | stNb (o : StF) | atom (o : AtomF) | red (o : RedF) | pf (o : PfF) | acp (o : AcpF)
  | recld (o : RecldF) | recst (o : RecstF) | neval (o : NevalF)
  -- cross lane
  | shfl (o : ShflF) | wreduce (o : WreduceF) | wscan (o : WscanF) | bcast (o : BcastF) | sregPerLane (o : SregPF)
  -- control
  | nop | bra (off : BitVec 24) | brx (a : SReg) | call (off : BitVec 24) | ret (a : SReg) | brf (o : BrfF)
  | bany (o : PBr) | ball (o : PBr) | ifP (o : PBr) | elseP (off : BitVec 24) | endifP | loopP (off : BitVec 24)
  | breakP (p : PReg) (neg : Bool) | endloopP (off : BitVec 24) | exit
  -- uniform
  | sadd (o : U3) | ssub (o : U3) | smul (o : U3) | smad (o : U3) | smin (o : UMM) | smax (o : UMM)
  | sand (o : U3) | sor (o : U3) | sxor (o : U3) | sshl (o : U3) | sshr (o : U3) | ssar (o : U3)
  | scmp (o : ScmpF) | ssel (o : SselF) | smov (o : DA) | slit (o : SlitF) | slitMid (o : SlitF) | slitTop (o : SlitTopF)
  | slea (o : SleaF) | spopc (o : SCntF) | sclz (o : SCntF) | sbfx (o : SbfxF)
  | sfadd (o : SfF) | sfmul (o : SfF) | sffma (o : SfF) | sfcmp (o : SfcmpF) | scvt (o : ScvtF)
  | ballot (d : SReg) (p : PReg) | mcount (d : SReg) (p : PReg)
  | cselk (a : SReg) (la : Fin 16) | cselkCompletion (p : Party)
  | sld (o : SldF) | sst (o : SstF) | satom (o : SatomF)
  -- ordering and waiting
  | ord (order : Order) (scope : Scope) | fence (order : Order) (scope : Scope) | releaseWaitEnd (p : Party)
  | waitc (path : Path) (a : SReg) | bara (a : SReg) | barw (a : SReg) | baraw (a : SReg) | gbar (a : SReg)
  | mwait (o : MwaitF) | monitorReread (p : Party) | mwaitTimeout (p : Party)
  | sleep (n : BitVec 12) | sleepExpiry (p : Party) | yield
  -- completion objects
  | tcp (o : TcpF) | tbinit (o : SS) | tbarv (o : SS) | tbexp (o : SS) | tbwait (o : SS)
  | cntadd (o : SS) | cntwait (o : SSL) | slotset (o : SlotF) | slotwait (o : SlotF)
  -- work graph and engines
  | fork (o : ForkF) | rdv (p : Fin 16) | mrsv (f : FReg) (nM1 : Fin 4) | mrel (m : BitVec 4)
  | oalloc (o : OallocF) | emit (o : EmitF) | spawn (o : SpawnF) | join | phase | qdepth (d : SReg) (e : Fin 8) | done
  | npin (o : DA) | nunpin (a : SReg) | rboard (o : RboardF) | rwait (o : DA) | rstat (o : DA)
  | qpost (o : SSL) | qstat (o : DA)
  -- system
  | trap (n : BitVec 12) | brk (n : BitVec 12) | sreg (d : SReg) (idx : Byte) | sset (a : SReg) (idx : Byte) | clk (d : SReg)
  | dbgrd (o : DbgrdF) | dbgwr (o : DbgwrF)
  -- matrix and copy extensions
  | mld (o : MldF) | mft (o : MldF) | mldr (o : MldF) | mma (o : MmaF) | mzero (d : AReg) | mst (o : MstF) | msta (o : MstaF)
  | mtag (d : XReg) (t : Fmt) | mqbind (q : Fin 4) (a : SReg) | msync | madp (o : MadpF) | munpin (d : XReg)
  | cq (a : SReg) (la : Fin 16) | cqmeta (o : CqmetaF) | csync
  -- issue, memory and translation steps
  | issue (u : IssueUnit) | promotion (p : Party) | storeStarved (p : Party)
  | requestGroup (p : Party) (id : Nat) | homeWrite (n : Nat) | acknowledgement (n : Nat) | eviction (e : Evicted)
  | rekey (region : Nat) (slot : Byte) | revival (region : Nat)
  | atsReply (ctx : Nat) (va : Nat) (reply : Option (Nat × Nat)) | pageRequestGroupResponse (ctx : Nat) (va : Nat) (ok : Bool)
  | atsInvalidationRequest (ctx : Nat) (va : Nat) (len : Nat)
  | pageMove (ctx : Nat) (va : Nat) (frame : Nat) (finish : Bool) | rewalk (p : Party)
  -- scheduler, faults and debugging
  | gatherTimer (ctx : Nat) (node : Nat) (die : Nat) | schedulerDecision | workgroupEnd (wg : Nat)
  | periodBoundary | drainDeadline (ctx : Nat) | sliceEnd | save (wg : Nat)
  | haltreq (n : Nat) | resume (n : Nat) | wpWrite (n : Nat) | registerWrite (r : BarReg) (v : DWord)
  -- engines
  | lineOperation (cmd : Nat) | signals (cmd : Nat) | tagRetest (cmd : Nat)
  | nevalGatherTimer (cluster : Nat) (ctx : Nat) (h : Nat) | tileOperation (cluster : Nat)
  -- ring
  | injection (ring : Nat) | frameArrival (ring : Nat) (cluster : Nat) (crcOk : Bool) | lapBoundary
  | boardingWindowOpen (ctx : Nat) (node : Nat) | fallback (p : Party) (layer : Nat)
  -- steps of the outside world that a home or a port may hold
  | hostWrite (pa : Nat) (key : Byte) (bytes : List Byte) | inboundWrite (src : Nat) (off : Nat) (bytes : List Byte)
  | inboundAtomic (src : Nat) (off : Nat) (op : AOp) (size : Size) (v cmp : DWord)
  | remoteResponse (req : Nat) (bytes : List Byte) (poison : Bool) | inboundSend (qp : Nat) (psn : Nat) (bytes : List Byte)
  | inboundRdmaWrite (qp : Nat) (psn : Nat) (rkey : Word) (va : DWord) (bytes : List Byte)
  | inboundRdmaRead (qp : Nat) (psn : Nat) (rkey : Word) (va : DWord) (len : Nat)
  | inboundFetchAdd (qp : Nat) (psn : Nat) (rkey : Word) (va : DWord) (v : DWord)
  | inboundCmpSwap (qp : Nat) (psn : Nat) (rkey : Word) (va : DWord) (cmp new : DWord)
  -- host link
  | tail (ring : Nat) (bytes : List Byte) (v : Word)
  | merge (ctx : Nat) | ohead (ring : Nat) (v : Word)
  | holdoff (v : Nat) | evcfgEn (v : DWord) | restart | deviceReset (primaryOk goldenOk : Bool) | watchdog
  | powerGovernor (watts : Nat) | bound (act : FwAct)
  -- firmware commands
  | ctxCreate | ctxDestroy | ctxReset | graphInstall | invalidate | planSubmit | debugSetTrapNode | debugSetMailbox
  | serviceListEnter | serviceListLeave | qpSetCreate | qpSetToRts | qpSetFromError | qpSetDestroy | qpSetApprove | qpSetWithdraw
  | mrWrite | exportWrite | edgeBindRemote | edgeBindOutRing | edgeUnbind
  | keySetCreate | keySetClear | keySetGrant | keySetRevoke | ringCreateMailbox | ringCreateOut | stopRead | powerCap
  | dmaWindowAdd | dmaWindowRemove | memWrite (bytes : List Byte) | memWriteZeroFill | imageUpdate (verified : Bool)
  -- attestation
  | getVersion | getCapabilities | negotiateAlgorithms | getDigests | getCertificate | challenge (nonce : List Byte)
  | getMeasurements
  -- pod
  | inboundRead (src : Nat) (off : Nat) (len : Nat) | errorCompletion (req : Nat) | remoteTimeout (req : Nat)
  | remoteRecord (r : RemoteRec) | timeBaseExchange (e : Exchange) (confirmed : Bool) | unsynchronised
  | laneRemap (link : Nat) | linkFailure (die : Nat) | stationTraining (station : Nat) (lanes : Nat)
  -- remote memory access
  | workRequestStart (qp : Nat) | rdmaAcknowledgement (qp : Nat) (bytes : List Byte) | acknowledgementTimeout (qp : Nat)
  | rnrNak (qp : Nat) | nak (qp : Nat) (k : NakKind) | contextFetch (qp : Nat) | cnp (qp : Nat)
  -- inner steps of engines, host and ports
  | kBlockBoundary (p : Party) (id : Nat) | tileFill (p : Party) (id : Nat) | scratchpadPass (p : Party) (id : Nat)
  | unmask (v : Nat) | unreliablePacket (port : Nat) (k : BadPacket) | priorityFlowControl (port : Nat) (prio : Nat) (pause : Bool)
  | goldenReloadEnd | descriptorRewrite (ctx : Nat) (d : BitVec 512) | mctpRequest
  deriving DecidableEq, Repr

end Sys2Proof
end

