-- ==== Sys2Proof/Config.lean ====
section
/-! DEFINITION. What the package fixes (spec/00_scope.md R1) and the free values: constants without a body, one for each
value that the spec leaves open. A field of the state counts the free values taken (`tick`). -/
namespace Sys2Proof.Config

/-! ## Figures of the package (R1) -/

def clusters : Nat := 32
def coresPerCluster : Nat := 6
def cores : Nat := 192
def slotsPerCore : Nat := 128
def contexts : Nat := 64
/-- Budget period in nanoseconds (R365). -/
def periodNs : Nat := 20000
/-- Entries of a store queue (R136). -/
def storeQueueEntries : Nat := 512
/-- Largest number of output slots of a workgroup (R172). -/
def outputSlots : Nat := 4096
/-- Lines that a core L1, a cluster cache and a slice of the memory-side cache hold: 256 KiB, 16 MiB and 512 MiB (R1, R211). -/
def l1Lines : Nat := 2048
def clusterLines : Nat := 131072
def sliceLines : Nat := 4194304

/-! ## Free values

Nothing says what these are: a claim about the machine holds whatever they are. -/

/-- A free 64-bit value, for a use numbered `k` within the tick. -/
opaque freeWord : (tick k : Nat) → DWord
/-- A free choice, for a use numbered `k` within the tick: which of two values an early read sees (R24), and the like. -/
opaque freeBit : (tick k : Nat) → Bool
/-- A free number. -/
opaque freeNat : (tick k : Nat) → Nat
/-- The section that a page of a graph image belongs to, of an image with these node descriptors: 0 code, 1 .const, else .data. The image
does not say it of a page at which no section of code begins (R458, log 123). -/
opaque pageSection : (nodes : List Nat) → (page : Nat) → Nat
/-- A free byte: contents that the spec does not give. -/
opaque freeByte : (tick k : Nat) → Byte
/-- The value an approximate function writes for an operand with no exact result stated (R81, R327): `f` is the function,
`x` the operand's bits. -/
opaque approx : (f : Nat) → (x : DWord) → DWord
/-- The device's own UALink identifier (R410, R412). -/
opaque deviceId : Nat
/-- Firmware-reserved memory, by lines: the spec gives its place no address (R441, R451). -/
opaque firmwareReserved : (line : Nat) → Bool
/-- The bytes of a measurement (R457), by its number: mask ROM, bitstream, firmware image, configuration record; `golden` tells the
golden pair from the primary one, and `pair` numbers the pairs that IMAGE_UPDATE has written. -/
opaque measurement : (index : Nat) → (golden : Bool) → (pair : Nat) → List Byte
/-- The certificate chain of the identity key (R454, R457), and its digests. -/
opaque certificate : List Byte
opaque digests : List Byte
/-- The signature of some bytes under the identity key, ECDSA P-384 with SHA-384 (R454, R457). -/
opaque signature : List Byte → List Byte
/-- The hash that gives the station for a line of a peer (R414, log 117). -/
opaque station : (dev line : Nat) → Nat
/-- Where a unit's count of main-clock cycles stands beside the device's (R404), by the unit's number: cores first. -/
opaque clockOffset : (unit : Nat) → Nat
/-- The adapter tables that the key of a record of an .adapterkey node names (R168): an address in the context's space and a length. The spec
does not say how a key names them (log 125). -/
opaque adapterTables : (key : List Byte) → Nat × Nat
/-- AES-256 in counter mode (R334): the keystream byte `k` under a key and a counter. -/
opaque keystream : (key counter k : Nat) → Byte
/-- The step that the outside world or an engine takes next when no step is queued (log 1). -/
opaque happening : (tick : Nat) → Option (Nat × Instr)

/-- A bit error in one of the protected levels (R230, R386): the level, the place in it by a free number, and whether it can be
corrected. -/
inductive Level where
  | register | scratchpad | l1 | cluster | memorySide | tier | recordStore
  deriving DecidableEq, Repr
structure SoftError where
  level : Level
  place : Nat
  correctable : Bool
  deriving DecidableEq, Repr
/-- The soft error that meets the package while time passes, if any (log 33). -/
opaque softError : (tick : Nat) → Option SoftError

end Sys2Proof.Config
end

