-- ==== Sys2Proof/WellFormed.lean ====
section
/-! DEFINITION. Which instructions are encodings of the maps: the operand conditions that hold of the two words alone
(R49 row 3), apart from those the types of `Syntax` already say. Conditions on the executor and on the wave's
allocation are the issue's (R50). -/
namespace Sys2Proof

/-- The place of a 64-bit operand: an even register of a pair, or a broadcast register (R11, R12). -/
def Src.pairOk : Src → Bool
  | .v n => n.val % 2 == 0
  | .s _ => true

def Src.isV : Src → Bool
  | .v _ => true
  | .s _ => false

/-- A v register whose number is a multiple of 4 (R124, R192). -/
def Src.quadOk : Src → Bool
  | .v n => n.val % 4 == 0
  | .s _ => false

/-- An even v register (R192). -/
def Src.evenV : Src → Bool
  | .v n => n.val % 2 == 0
  | .s _ => false

def evenReg (d : VReg) : Bool := d.val % 2 == 0

/-- Types that take a 64-bit place (R103). -/
def Ty.wide : Ty → Bool
  | .f64 | .s64 | .u64 => true
  | _ => false

/-- Types of codes 0 to 7. -/
def Ty.basic : Ty → Bool
  | .f32 | .f16 | .bf16 | .f64 | .s32 | .u32 | .s64 | .u64 => true
  | _ => false

/-- The destinations that CVT accepts for a source (R72). -/
def Ty.dsts : Ty → List Ty
  | .f32 => [.f16, .bf16, .f64, .s32, .u32, .s64, .u64, .e4m3, .e5m2, .e2m3, .e3m2, .e2m1, .int8, .int4, .e8m0]
  | .f16 => [.f32, .f64, .bf16, .s32, .u32, .s64, .u64, .e4m3, .e5m2, .e2m3, .e3m2, .e2m1]
  | .bf16 => [.f32, .f64, .f16, .s32, .u32, .s64, .u64, .e4m3, .e5m2, .e2m3, .e3m2, .e2m1]
  | .f64 => [.f32, .f16, .bf16, .s32, .u32, .s64, .u64]
  | .s32 => [.f32, .f16, .bf16, .f64, .u32, .s64, .u64, .int8, .int4]
  | .u32 => [.f32, .f16, .bf16, .f64, .s32, .s64, .u64]
  | .s64 => [.f32, .f16, .bf16, .f64, .s32, .u32, .u64]
  | .u64 => [.f32, .f16, .bf16, .f64, .s32, .u32, .s64]
  | .e4m3 | .e5m2 | .e2m3 | .e3m2 | .e2m1 => [.f32, .f16, .bf16]
  | .int8 | .int4 => [.f32, .s32]
  | .e8m0 => [.f32]

def Ty.convertible (src dst : Ty) : Bool := src.dsts.contains dst

/-- The destinations of CVTSR (R78). -/
def Ty.srDst : Ty → Bool
  | .f16 | .bf16 | .e4m3 | .e5m2 | .e2m3 | .e3m2 | .e2m1 => true
  | _ => false

/-- Number of slots of an element type in a register for PACK and UNPK, 0 where it has none (R106). -/
def Ty.slots : Ty → Nat
  | .f16 | .bf16 => 2
  | .e4m3 | .e5m2 | .int8 | .e2m3 | .e3m2 => 4
  | .e2m1 | .int4 => 8
  | _ => 0

/-- The element types of QBLK and DQBLK (R107, R108). -/
def Ty.block : Ty → Bool
  | .e4m3 | .e5m2 | .e2m3 | .e3m2 | .e2m1 | .int8 | .int4 => true
  | _ => false

/-- Under .F64 every register operand is a pair (R97). -/
def FTy.regsOk (ty : FTy) (d : VReg) (srcs : List Src) : Bool :=
  ty != .f64 || (evenReg d && srcs.all Src.pairOk)

def Tail.guarded (t : Tail) : Bool := t.g.val != 0

/-- The LD destination of a size (R124). -/
def Size.dstOk : Size → VReg → Bool
  | .b64, d => d.val % 2 == 0
  | .b128, d => d.val % 4 == 0
  | _, _ => true

/-- The ST data of a size (R124). -/
def Size.dataOk : Size → Src → Bool
  | .b64, d => d.pairOk
  | .b128, d => d.quadOk
  | _, _ => true

/-- The base of a memory form (R124). -/
def Space.baseOk : Space → Src → Bool
  | .g, a => a.pairOk
  | .s, _ => true

/-- Sizes of an atomic (R192). -/
def Size.atomOk : Size → Bool
  | .b32 | .b64 => true
  | _ => false

/-- The operand of an atomic (R192). -/
def AOp.dataOk (op : AOp) (size : Size) (b : Src) : Bool :=
  if op == .cas then (if size == .b64 then b.quadOk else b.evenV)
  else size != .b64 || b.pairOk

/-- Operations RED accepts (R193). -/
def AOp.redOk : AOp → Bool
  | .xchg | .cas | .incb => false
  | _ => true

/-- The special registers of R14. -/
def sregKnown (idx : Byte) : Bool :=
  idx.toNat ≤ 9 || idx == 0x20 || idx == 0x21 || idx == 0x30

/-- Functions of opcode 0x63 that take .RN and the types of R81's table. -/
def F1.approxOk (o : F1) : Bool := o.m.rm == .rn && (o.m.ty == .f32 || o.m.ty == .f16x2)

def Fld.ok : Fld → Bool
  | .imm pos lenM1 => pos.val + lenM1.val + 1 ≤ 32
  | .reg _ => true

/-- Output tags of MST (R309) and MSTA (R310). -/
def Fmt.mstOk : Fmt → Bool
  | .bf16 | .fp16 | .e4m3 | .e5m2 | .fp32 => true
  | _ => false

def Fmt.mstaOk : Fmt → Bool
  | .bf16 | .fp16 | .fp32 => true
  | _ => false

/-- The operand conditions of R49 row 3 that depend on the words alone. -/
def Instr.wf : Instr → Bool
  | .leaX1 o | .leaX2 o | .leaX4 o | .leaX8 o => evenReg o.d && o.a.pairOk
  | .fadd o | .fsub o | .fmul o => o.m.ty.regsOk o.d [o.a, o.b]
  | .fmin o | .fmax o => o.m.ty.regsOk o.d [o.a, o.b] && o.m.rm == .rn
  | .ffma o => o.m.ty.regsOk o.d [o.a, o.b, o.c]
  | .fcmp o => o.ty != .f64 || (o.a.pairOk && o.b.pairOk)
  | .fclass o => o.ty != .f64 || o.a.pairOk
  | .frnd o => o.m.ty.regsOk o.d [o.a]
  | .ffrac o => o.m.ty.regsOk o.d [o.a] && o.m.rm == .rn
  | .fsqrt o => o.m.ty.regsOk o.d [o.a] && o.m.ty != .bf16x2
  | .frcp o | .frsq o | .fexp2 o | .flog2 o | .fsin o | .fcos o | .ftanh o => o.approxOk
  | .imadWide o => evenReg o.d && o.c.pairOk
  | .bfx o => o.fld.ok
  | .bfi o => o.fld.ok
  | .cvt o =>
    o.src.convertible o.dst && (!o.src.wide || o.a.pairOk) && (!o.dst.wide || evenReg o.d)
  | .cvtsr o => o.src == .f32 && o.dst.srDst && o.rm == .rn
  | .pack o => o.pos.val < o.ty.slots
  | .unpk o => o.pos.val < o.ty.slots
  | .qblk o => o.ty.block && o.c != o.d
  | .dqblk o => o.ty.block
  | .ld o => o.size.dstOk o.d && o.sp.baseOk o.mem.a
  | .st o => o.size.dataOk o.d && o.sp.baseOk o.mem.a && (o.sp == .g || o.rc == 0)
  | .stNb o => o.size.dataOk o.d && o.sp == .g && o.mem.a.pairOk && o.t.guarded
  | .atom o => o.size.atomOk && o.size.dstOk o.d && o.sp.baseOk o.a && o.op.dataOk o.size o.b
  | .red o => o.size.atomOk && o.sp.baseOk o.a && o.op.redOk && o.op.dataOk o.size o.b
  | .pf o => o.mem.a.pairOk
  | .acp o =>
    (o.size == .b32 || o.size == .b64 || o.size == .b128) && o.mem.a.pairOk && (!o.toG || o.tb == 0)
  | .recld o => o.size.dstOk o.d
  | .recst o => o.size.dataOk o.d
  | .neval o => o.d.val + o.mM1.val < 96 && o.a.val + o.nM1.val < 96
  | .sregPerLane o => sregKnown o.idx && (o.idx != 0x30 || evenReg o.d)
  | .sbfx o => o.pos.val + o.lenM1.val + 1 ≤ 64
  | .scvt o => o.src.basic && o.dst.basic && o.src.convertible o.dst
  | .ballot d _ => d.val % 4 == 0
  | .sld o => o.size != .b128
  | .sst o => o.size != .b128 && (o.sp == .g || o.rc == 0)
  | .satom o => o.size.atomOk && (o.op != .cas || o.b.val ≤ 62)
  | .fence order _ => order != .rlx
  | .mwait o => o.size.atomOk
  | .sleep n => n != 0 && n.toNat < 2048
  | .tcp o => o.a.val % 2 == 0
  | .trap n | .brk n => n.toNat < 2048
  | .sreg _ idx => sregKnown idx && idx != 0
  | .sset _ idx => idx == 0x20 || idx == 0x21
  | .mld o | .mft o | .mldr o => o.tag != .none
  | .mst o => o.tag.mstOk && o.b.val % 2 == 0
  | .msta o => o.tag.mstaOk && o.b.val % 2 == 0
  | .madp o => 1 ≤ o.r.toNat && o.r.toNat ≤ 64
  | .cqmeta o => o.n != 0
  | _ => true

end Sys2Proof
end

