-- ==== Sys2Proof/Decode.lean ====
section
/-! DEFINITION. From words to instructions and back (spec/02_encoding_and_assembly.md R30 to R50). Fields are cut out
here, once. A word that is no instruction is rejected by the row of R49 that it meets. Every bit that a map gives no
name is read as reserved (DEDUCED, log 5). -/
namespace Sys2Proof

/-- Why bytes are no instruction: rows 2 and 3 of R49, or fewer bytes than the form has. -/
inductive Reject where
  | illegalOpcode | illegalOperand | truncated
  deriving DecidableEq, Repr

abbrev Dec := Except Reject

/-- Bits [lo+n-1 : lo] of a word. -/
def field (w lo n : Nat) : Nat := w / 2 ^ lo % 2 ^ n

/-- Row 2 of R49: reserved fields must be 0. -/
def reserved (ok : Bool) : Dec Unit := if ok then .ok () else .error .illegalOpcode
/-- Row 3 of R49: the value must be one the maps list. -/
def listed (ok : Bool) : Dec Unit := if ok then .ok () else .error .illegalOperand
def pick {α : Type} : Option α → Dec α
  | some x => .ok x
  | none => .error .illegalOperand

/-! ## Register fields (R12, R37) -/

def src (n : Nat) : Src := if h : n < 96 then .v ⟨n, h⟩ else .s (Fin.ofNat 32 (n - 96))
def vreg (n : Nat) : Dec VReg := if h : n < 96 then .ok ⟨n, h⟩ else .error .illegalOperand
def preg (n : Nat) : Dec PReg := if h : n < 8 then .ok ⟨n, h⟩ else .error .illegalOperand
def xreg (n : Nat) : Dec XReg := if h : n < 32 then .ok ⟨n, h⟩ else .error .illegalOperand
def areg (n : Nat) : Dec AReg := if h : n < 16 then .ok ⟨n, h⟩ else .error .illegalOperand
def p3 (n : Nat) : PReg := Fin.ofNat 8 n
def sr (n : Nat) : SReg := Fin.ofNat 64 n

def Src.code : Src → Nat
  | .v n => n.val
  | .s n => 96 + n.val

/-! ## Coded fields -/

def fty (n : Nat) : FTy := match n with | 0 => .f32 | 1 => .f16x2 | 2 => .bf16x2 | _ => .f64
def FTy.code : FTy → Nat | .f32 => 0 | .f16x2 => 1 | .bf16x2 => 2 | .f64 => 3
def sty (n : Nat) : STy := match n with | 0 => .f32 | 1 => .f16 | 2 => .bf16 | _ => .f64
def STy.code : STy → Nat | .f32 => 0 | .f16 => 1 | .bf16 => 2 | .f64 => 3
def rmode (n : Nat) : Rm := match n with | 0 => .rn | 1 => .rz | 2 => .ru | _ => .rd
def Rm.code : Rm → Nat | .rn => 0 | .rz => 1 | .ru => 2 | .rd => 3
def ty (n : Nat) : Ty :=
  match n with
  | 0 => .f32 | 1 => .f16 | 2 => .bf16 | 3 => .f64 | 4 => .s32 | 5 => .u32 | 6 => .s64 | 7 => .u64
  | 8 => .e4m3 | 9 => .e5m2 | 10 => .e2m3 | 11 => .e3m2 | 12 => .e2m1 | 13 => .int8 | 14 => .int4 | _ => .e8m0
def Ty.code : Ty → Nat
  | .f32 => 0 | .f16 => 1 | .bf16 => 2 | .f64 => 3 | .s32 => 4 | .u32 => 5 | .s64 => 6 | .u64 => 7
  | .e4m3 => 8 | .e5m2 => 9 | .e2m3 => 10 | .e3m2 => 11 | .e2m1 => 12 | .int8 => 13 | .int4 => 14 | .e8m0 => 15
def icond (n : Nat) : Option ICond :=
  match n with
  | 0 => some .eq | 1 => some .ne | 2 => some .lt | 3 => some .le | 4 => some .gt | 5 => some .ge
  | 6 => some .ltU | 7 => some .leU | 8 => some .gtU | 9 => some .geU | _ => none
def ICond.code : ICond → Nat
  | .eq => 0 | .ne => 1 | .lt => 2 | .le => 3 | .gt => 4 | .ge => 5 | .ltU => 6 | .leU => 7 | .gtU => 8 | .geU => 9
def fcond (n : Nat) : Option FCond :=
  match n with
  | 0 => some .eq | 1 => some .ne | 2 => some .lt | 3 => some .le | 4 => some .gt | 5 => some .ge
  | 6 => some .ord | 7 => some .uno | _ => none
def FCond.code : FCond → Nat
  | .eq => 0 | .ne => 1 | .lt => 2 | .le => 3 | .gt => 4 | .ge => 5 | .ord => 6 | .uno => 7
def size (n : Nat) : Option Size :=
  match n with
  | 0 => some .b8 | 1 => some .b16 | 2 => some .b32 | 3 => some .b64 | 4 => some .b128 | _ => none
def Size.code : Size → Nat | .b8 => 0 | .b16 => 1 | .b32 => 2 | .b64 => 3 | .b128 => 4
def space (n : Nat) : Space := if n = 0 then .g else .s
def Space.code : Space → Nat | .g => 0 | .s => 1
def aop (n : Nat) : Option AOp :=
  match n with
  | 0 => some .add | 1 => some .min | 2 => some .max | 3 => some .and | 4 => some .or | 5 => some .xor
  | 6 => some .xchg | 7 => some .cas | 8 => some .incb | 9 => some .minU | 10 => some .maxU | _ => none
def AOp.code : AOp → Nat
  | .add => 0 | .min => 1 | .max => 2 | .and => 3 | .or => 4 | .xor => 5 | .xchg => 6 | .cas => 7 | .incb => 8
  | .minU => 9 | .maxU => 10
def rop (n : Nat) : Option ROp :=
  match n with
  | 0 => some .iadd | 1 => some .imin | 2 => some .imax | 3 => some .iminU | 4 => some .imaxU | 5 => some .and
  | 6 => some .or | 7 => some .xor | 8 => some .fadd | 9 => some .fmin | 10 => some .fmax | _ => none
def ROp.code : ROp → Nat
  | .iadd => 0 | .imin => 1 | .imax => 2 | .iminU => 3 | .imaxU => 4 | .and => 5 | .or => 6 | .xor => 7 | .fadd => 8
  | .fmin => 9 | .fmax => 10
def shflMode (n : Nat) : ShflMode := match n with | 0 => .idx | 1 => .up | 2 => .down | _ => .xor
def ShflMode.code : ShflMode → Nat | .idx => 0 | .up => 1 | .down => 2 | .xor => 3
def scope (n : Nat) : Option Scope :=
  match n with
  | 0 => some .wave | 1 => some .wg | 2 => some .cluster | 3 => some .dev | 4 => some .sys | _ => none
def Scope.code : Scope → Nat | .wave => 0 | .wg => 1 | .cluster => 2 | .dev => 3 | .sys => 4
def order (n : Nat) : Order := match n with | 0 => .rlx | 1 => .acq | 2 => .rel | _ => .ar
def Order.code : Order → Nat | .rlx => 0 | .acq => 1 | .rel => 2 | .ar => 3
def path (n : Nat) : Option Path :=
  match n with
  | 0 => some .gld | 1 => some .gst | 2 => some .spd | 3 => some .acp | 4 => some .nev | 5 => some .eng | _ => none
def Path.code : Path → Nat | .gld => 0 | .gst => 1 | .spd => 2 | .acp => 3 | .nev => 4 | .eng => 5
def mcond (n : Nat) : MCond := match n with | 0 => .ne | 1 => .eq | 2 => .geu | _ => .ltu
def MCond.code : MCond → Nat | .ne => 0 | .eq => 1 | .geu => 2 | .ltu => 3
def layout (n : Nat) : Layout := match n with | 0 => .none | 1 => .t | 2 => .b16 | _ => .tb16
def Layout.code : Layout → Nat | .none => 0 | .t => 1 | .b16 => 2 | .tb16 => 3
def slotTag (n : Nat) : SlotTag := match n with | 0 => .empty | 1 => .filling | 2 => .full | _ => .draining
def SlotTag.code : SlotTag → Nat | .empty => 0 | .filling => 1 | .full => 2 | .draining => 3
def fmt (n : Nat) : Option Fmt :=
  match n with
  | 0 => some .none | 1 => some .bf16 | 2 => some .fp16 | 3 => some .e4m3 | 4 => some .e5m2 | 5 => some .e2m3
  | 6 => some .e3m2 | 7 => some .e2m1 | 8 => some .int8 | 9 => some .int4 | 10 => some .fp32 | _ => none
def Fmt.code : Fmt → Nat
  | .none => 0 | .bf16 => 1 | .fp16 => 2 | .e4m3 => 3 | .e5m2 => 4 | .e2m3 => 5 | .e3m2 => 6 | .e2m1 => 7 | .int8 => 8
  | .int4 => 9 | .fp32 => 10
def pfLevel (n : Nat) : Option PfLevel := match n with | 0 => some .core | 1 => some .clus | 2 => some .msc | _ => none
def PfLevel.code : PfLevel → Nat | .core => 0 | .clus => 1 | .msc => 2


/-! ## Formats, word to record -/

def op7 (w1 : Nat) : Nat := field w1 24 7

def tail (w1 w2 : Nat) : Tail :=
  ⟨p3 (field w1 0 3), field w2 20 1 == 1, Fin.ofNat 16 (field w2 21 4)⟩
def fpMod (imm : Nat) : FpMod := ⟨fty (field imm 0 2), rmode (field imm 2 2), field imm 4 1 == 1⟩
def FpMod.code (m : FpMod) : Nat := m.ty.code + m.rm.code * 4 + m.ftz.toNat * 16

def dP1R (mk : P1R → Instr) (w : Nat) : Dec Instr := do
  let d ← vreg (field w 17 7)
  pure (mk ⟨d, src (field w 10 7), src (field w 3 7), p3 (field w 0 3)⟩)
def dP1I (mk : P1I → Instr) (w : Nat) : Dec Instr := do
  let d ← vreg (field w 17 7)
  pure (mk ⟨d, src (field w 10 7), BitVec.ofNat 7 (field w 3 7), p3 (field w 0 3)⟩)
def dP1S (mk : P1S → Instr) (w : Nat) : Dec Instr := do
  reserved (field w 8 2 == 0)
  let d ← vreg (field w 17 7)
  pure (mk ⟨d, src (field w 10 7), BitVec.ofNat 5 (field w 3 5), p3 (field w 0 3)⟩)
def dP1U (mk : P1U → Instr) (w : Nat) : Dec Instr := do
  reserved (field w 3 7 == 0)
  let d ← vreg (field w 17 7)
  pure (mk ⟨d, src (field w 10 7), p3 (field w 0 3)⟩)
def dP1M (mk : P1M → Instr) (w : Nat) : Dec Instr := do
  reserved (field w 3 7 == 0)
  let d ← vreg (field w 17 7)
  let p ← preg (field w 10 7)
  pure (mk ⟨d, p, p3 (field w 0 3)⟩)

/-- The one-word P-class opcodes (R39). -/
def decodeP1 (w : Nat) : Dec Instr :=
  match op7 w with
  | 0x01 => dP1R .iadd w | 0x02 => dP1I .iaddI w | 0x03 => dP1R .isub w | 0x04 => dP1I .isubI w
  | 0x05 => dP1R .imul w | 0x06 => dP1I .imulI w | 0x07 => dP1R .imin w | 0x08 => dP1R .iminU w
  | 0x09 => dP1R .imax w | 0x0A => dP1R .imaxU w | 0x0B => dP1U .iabs w | 0x0C => dP1U .ineg w
  | 0x0D => dP1R .shl w | 0x0E => dP1S .shlI w | 0x0F => dP1R .shr w | 0x10 => dP1S .shrI w
  | 0x11 => dP1R .sar w | 0x12 => dP1S .sarI w | 0x13 => dP1R .iand w | 0x14 => dP1I .iandI w
  | 0x15 => dP1R .ior w | 0x16 => dP1I .iorI w | 0x17 => dP1R .ixor w | 0x18 => dP1I .ixorI w
  | 0x19 => dP1R .iandn w | 0x1A => dP1U .inot w | 0x1B => dP1U .popc w | 0x1C => dP1U .clz w
  | 0x1D => dP1U .brev w | 0x1E => dP1U .mov w | 0x1F => dP1R .leaX1 w | 0x20 => dP1R .leaX2 w
  | 0x21 => dP1R .leaX4 w | 0x22 => dP1R .leaX8 w | 0x23 => dP1M .mrank w
  | _ => .error .illegalOpcode

/-! ## Two-word P forms (R32, R40) -/

/-- Fields of the two words of a P2 form. -/
abbrev fD (w1 : Nat) : Nat := field w1 17 7
abbrev fA (w1 : Nat) : Nat := field w1 10 7
abbrev fB (w1 : Nat) : Nat := field w1 3 7
abbrev fC (w2 : Nat) : Nat := field w2 25 7
abbrev fSub (w2 : Nat) : Nat := field w2 16 4
abbrev fImm (w2 : Nat) : Nat := field w2 0 16

/-- 0x60: FADD to FFMA. -/
def d60 (w1 w2 : Nat) : Dec Instr := do
  reserved (field w2 5 11 == 0)
  reserved (fC w2 == 0 || fSub w2 == 5)
  listed (decide (fSub w2 ≤ 5))
  let d ← vreg (fD w1)
  let o : F2 := ⟨fpMod (fImm w2), d, src (fA w1), src (fB w1), tail w1 w2⟩
  pure (match fSub w2 with
    | 0 => .fadd o | 1 => .fsub o | 2 => .fmul o | 3 => .fmin o | 4 => .fmax o
    | _ => .ffma ⟨o.m, o.d, o.a, o.b, src (fC w2), o.t⟩)

def d61 (w1 w2 : Nat) : Dec Instr := do
  reserved (fC w2 == 0 && field w2 5 11 == 0 && field w2 2 2 == 0)
  let c ← pick (fcond (fSub w2))
  let d ← preg (fD w1)
  pure (.fcmp ⟨c, fty (field w2 0 2), field w2 4 1 == 1, d, src (fA w1), src (fB w1), tail w1 w2⟩)

def d62 (w1 w2 : Nat) : Dec Instr := do
  reserved (fC w2 == 0 && fB w1 == 0 && field w2 12 4 == 0)
  listed (fSub w2 == 0)
  let d ← preg (fD w1)
  pure (.fclass ⟨fty (field w2 0 2), BitVec.ofNat 10 (field w2 2 10), d, src (fA w1), tail w1 w2⟩)

def d63 (w1 w2 : Nat) : Dec Instr := do
  reserved (fC w2 == 0 && fB w1 == 0 && field w2 5 11 == 0)
  listed (decide (fSub w2 ≤ 9))
  let d ← vreg (fD w1)
  let o : F1 := ⟨fpMod (fImm w2), d, src (fA w1), tail w1 w2⟩
  pure (match fSub w2 with
    | 0 => .frnd o | 1 => .ffrac o | 2 => .frcp o | 3 => .frsq o | 4 => .fsqrt o
    | 5 => .fexp2 o | 6 => .flog2 o | 7 => .fsin o | 8 => .fcos o | _ => .ftanh o)

def d64 (w1 w2 : Nat) : Dec Instr := do
  reserved (fImm w2 == 0)
  listed (decide (fSub w2 ≤ 1))
  let d ← vreg (fD w1)
  let o : ImadF := ⟨d, src (fA w1), src (fB w1), src (fC w2), tail w1 w2⟩
  pure (match fSub w2 with | 0 => .imad o | _ => .imadWide o)

def d65 (w1 w2 : Nat) : Dec Instr := do
  reserved (fImm w2 == 0 && fC w2 == 0)
  let c ← pick (icond (fSub w2))
  let d ← preg (fD w1)
  pure (.icmp ⟨c, d, src (fA w1), src (fB w1), tail w1 w2⟩)

def d66 (w1 w2 : Nat) : Dec Instr := do
  reserved (fImm w2 == 0)
  listed (fSub w2 == 0)
  let d ← vreg (fD w1)
  let p ← preg (fC w2)
  pure (.sel ⟨d, src (fA w1), src (fB w1), p, tail w1 w2⟩)

/-- The field operand of BFX and BFI (R95). -/
def fld (w1 w2 : Nat) : Fld :=
  if field w2 17 1 == 1 then .reg (src (fB w1))
  else .imm (Fin.ofNat 32 (field w2 0 5)) (Fin.ofNat 32 (field w2 5 5))

def fldRes (w1 w2 : Nat) : Bool :=
  if field w2 17 1 == 1 then fImm w2 == 0 else fB w1 == 0 && field w2 10 6 == 0

def d67 (w1 w2 : Nat) : Dec Instr := do
  reserved (fC w2 == 0 && field w2 18 2 == 0 && fldRes w1 w2)
  let d ← vreg (fD w1)
  pure (.bfx ⟨field w2 16 1 == 1, fld w1 w2, d, src (fA w1), tail w1 w2⟩)

def d68 (w1 w2 : Nat) : Dec Instr := do
  reserved (fC w2 == 0 && field w2 18 2 == 0 && field w2 16 1 == 0 && fldRes w1 w2)
  let d ← vreg (fD w1)
  pure (.bfi ⟨fld w1 w2, d, src (fA w1), tail w1 w2⟩)

def d69 (w1 w2 : Nat) : Dec Instr := do
  reserved (fImm w2 == 0 && field w2 19 1 == 0)
  let d ← vreg (fD w1)
  pure (.idot4 ⟨field w2 16 1 == 1, field w2 17 1 == 1, field w2 18 1 == 1, d, src (fA w1), src (fB w1), src (fC w2),
    tail w1 w2⟩)

def d6A (w1 w2 : Nat) : Dec Instr := do
  reserved (fA w1 == 0 && fB w1 == 0 && fC w2 == 0)
  listed (decide (fSub w2 ≤ 2))
  let d ← vreg (fD w1)
  let o : MoviF := ⟨d, BitVec.ofNat 16 (fImm w2), tail w1 w2⟩
  pure (match fSub w2 with | 0 => .movi o | 1 => .moviZ o | _ => .moviHi o)

def d6B (w1 w2 : Nat) : Dec Instr := do
  reserved (fImm w2 == 0 && fC w2 == 0)
  listed (decide (fSub w2 ≤ 1))
  let d ← vreg (fD w1)
  pure (.imulh ⟨fSub w2 == 1, d, src (fA w1), src (fB w1), tail w1 w2⟩)

def d6C (w1 w2 : Nat) : Dec Instr := do
  reserved (fB w1 == 0 && fC w2 == 0 && field w2 8 8 == 0)
  let d ← vreg (fD w1)
  pure (.cvt ⟨ty (fSub w2), ty (field w2 0 4), rmode (field w2 4 2), field w2 6 1 == 1, field w2 7 1 == 1, d,
    src (fA w1), tail w1 w2⟩)

def d6D (w1 w2 : Nat) : Dec Instr := do
  reserved (fB w1 == 0 && field w2 8 8 == 0)
  let d ← vreg (fD w1)
  pure (.cvtsr ⟨ty (fSub w2), ty (field w2 0 4), rmode (field w2 4 2), field w2 6 1 == 1, field w2 7 1 == 1, d,
    src (fA w1), src (fC w2), tail w1 w2⟩)

def d6E (w1 w2 : Nat) : Dec Instr := do
  reserved (fB w1 == 0 && fC w2 == 0 && field w2 3 3 == 0 && field w2 7 9 == 0)
  let d ← vreg (fD w1)
  pure (.pack ⟨ty (fSub w2), Fin.ofNat 8 (field w2 0 3), field w2 6 1 == 1, d, src (fA w1), tail w1 w2⟩)

def d6F (w1 w2 : Nat) : Dec Instr := do
  reserved (fB w1 == 0 && fC w2 == 0 && field w2 3 13 == 0)
  let d ← vreg (fD w1)
  pure (.unpk ⟨ty (fSub w2), Fin.ofNat 8 (field w2 0 3), d, src (fA w1), tail w1 w2⟩)

def d70 (w1 w2 : Nat) : Dec Instr := do
  reserved (fB w1 == 0 && field w2 0 4 == 0 && field w2 6 10 == 0)
  let d ← vreg (fD w1)
  let c ← vreg (fC w2)
  pure (.qblk ⟨ty (fSub w2), rmode (field w2 4 2), d, src (fA w1), c, tail w1 w2⟩)

def d71 (w1 w2 : Nat) : Dec Instr := do
  reserved (fB w1 == 0 && fImm w2 == 0)
  let d ← vreg (fD w1)
  pure (.dqblk ⟨ty (fSub w2), d, src (fA w1), src (fC w2), tail w1 w2⟩)

/-! Memory forms (R33, R42) -/

/-- The memory operand with an optional index. -/
def memOp (w1 w2 : Nat) : MemOp :=
  ⟨src (fA w1), if field w2 14 1 == 1 then some (src (fB w1), Fin.ofNat 4 (field w2 12 2)) else none,
    BitVec.ofNat 12 (field w2 0 12)⟩
/-- Without an index, b and the scale are reserved (R124). -/
def ixRes (w1 w2 : Nat) : Bool := field w2 14 1 == 1 || (fB w1 == 0 && field w2 12 2 == 0)

def d72 (w1 w2 : Nat) : Dec Instr := do
  reserved (field w2 25 3 == 0 && field w2 15 1 == 0 && ixRes w1 w2)
  listed (fSub w2 == 0)
  let sz ← pick (size (field w2 29 3))
  let d ← vreg (fD w1)
  pure (.ld ⟨space (field w2 28 1), sz, d, memOp w1 w2, tail w1 w2⟩)

def d73 (w1 w2 : Nat) : Dec Instr := do
  reserved (field w2 25 3 == 0 && ixRes w1 w2)
  let sz ← pick (size (field w2 29 3))
  let o : StF := ⟨space (field w2 28 1), sz, Fin.ofNat 16 (fSub w2), src (fD w1), memOp w1 w2, tail w1 w2⟩
  pure (if field w2 15 1 == 1 then .stNb o else .st o)

def d74 (w1 w2 : Nat) : Dec Instr := do
  reserved (field w2 25 3 == 0 && field w2 12 4 == 0)
  let sz ← pick (size (field w2 29 3))
  let op ← pick (aop (fSub w2))
  let d ← vreg (fD w1)
  pure (.atom ⟨op, space (field w2 28 1), sz, d, src (fA w1), BitVec.ofNat 12 (field w2 0 12), src (fB w1), tail w1 w2⟩)

def d75 (w1 w2 : Nat) : Dec Instr := do
  reserved (field w2 25 3 == 0 && field w2 12 4 == 0 && fD w1 == 0)
  let sz ← pick (size (field w2 29 3))
  let op ← pick (aop (fSub w2))
  pure (.red ⟨op, space (field w2 28 1), sz, src (fA w1), BitVec.ofNat 12 (field w2 0 12), src (fB w1), tail w1 w2⟩)

def d76 (w1 w2 : Nat) : Dec Instr := do
  reserved (field w2 25 3 == 0 && field w2 15 1 == 0 && ixRes w1 w2 && fD w1 == 0)
  listed (field w2 29 3 == 0 && field w2 28 1 == 0)
  let lv ← pick (pfLevel (fSub w2))
  pure (.pf ⟨lv, memOp w1 w2, tail w1 w2⟩)

def d77 (w1 w2 : Nat) : Dec Instr := do
  reserved (field w2 25 3 == 0 && field w2 15 1 == 0 && ixRes w1 w2)
  let sz ← pick (size (field w2 29 3))
  let d ← vreg (fD w1)
  pure (.acp ⟨field w2 28 1 == 1, sz, Fin.ofNat 16 (fSub w2), d, memOp w1 w2, tail w1 w2⟩)

/-- R171. -/
def d78 (w1 w2 : Nat) : Dec Instr := do
  reserved (field w2 25 3 == 0 && field w2 15 1 == 0 && field w2 28 1 == 0 && field w2 12 2 == 0 && fA w1 == 0 &&
    (field w2 14 1 == 1 || fB w1 == 0))
  listed (fSub w2 == 0 && decide (field w2 0 12 < 128))
  let sz ← pick (size (field w2 29 3))
  let d ← vreg (fD w1)
  pure (.recld ⟨sz, d, if field w2 14 1 == 1 then some (src (fB w1)) else none, Fin.ofNat 128 (field w2 0 12), tail w1 w2⟩)

/-- R175. -/
def d79 (w1 w2 : Nat) : Dec Instr := do
  reserved (field w2 25 3 == 0 && field w2 15 1 == 0 && field w2 28 1 == 0 && field w2 12 2 == 0 && field w2 14 1 == 0 &&
    fB w1 == 0)
  listed (fSub w2 == 0 && decide (field w2 0 12 < 128))
  let sz ← pick (size (field w2 29 3))
  pure (.recst ⟨sz, src (fD w1), src (fA w1), Fin.ofNat 128 (field w2 0 12), tail w1 w2⟩)

/-- R323. -/
def d7A (w1 w2 : Nat) : Dec Instr := do
  reserved (field w2 11 5 == 0)
  listed (fSub w2 == 0)
  let d ← vreg (fD w1)
  let a ← vreg (fA w1)
  let c ← preg (fC w2)
  pure (.neval ⟨d, a, src (fB w1), c, Fin.ofNat 64 (field w2 0 6), Fin.ofNat 32 (field w2 6 5), tail w1 w2⟩)

/-- R150. -/
def d7B (w1 w2 : Nat) : Dec Instr := do
  reserved (fC w2 == 0 && (if 4 ≤ fSub w2 && fSub w2 ≤ 7 then fB w1 == 0 && field w2 8 8 == 0 else fImm w2 == 0))
  listed (decide (fSub w2 ≤ 7))
  let d ← vreg (fD w1)
  pure (.shfl ⟨shflMode (field w2 16 2),
    if field w2 18 1 == 1 then .imm (BitVec.ofNat 8 (field w2 0 8)) else .reg (src (fB w1)), d, src (fA w1), tail w1 w2⟩)

def d7C (w1 w2 : Nat) : Dec Instr := do
  reserved (fC w2 == 0 && fB w1 == 0 && fImm w2 == 0)
  let op ← pick (rop (fSub w2))
  let d ← vreg (fD w1)
  pure (.wreduce ⟨op, d, src (fA w1), tail w1 w2⟩)

def d7D (w1 w2 : Nat) : Dec Instr := do
  reserved (fC w2 == 0 && fB w1 == 0 && field w2 1 15 == 0)
  let op ← pick (rop (fSub w2))
  let d ← vreg (fD w1)
  pure (.wscan ⟨op, field w2 0 1 == 1, d, src (fA w1), tail w1 w2⟩)

/-- R151. -/
def d7E (w1 w2 : Nat) : Dec Instr := do
  reserved (fC w2 == 0 && (if fSub w2 == 0 then fB w1 == 0 && field w2 8 8 == 0 else fImm w2 == 0))
  listed (decide (fSub w2 ≤ 1) && (fSub w2 == 0 || decide (96 ≤ fB w1)))
  let d ← vreg (fD w1)
  pure (.bcast ⟨if fSub w2 == 0 then .imm (BitVec.ofNat 8 (field w2 0 8)) else .s (Fin.ofNat 32 (fB w1 - 96)), d,
    src (fA w1), tail w1 w2⟩)

def d7F (w1 w2 : Nat) : Dec Instr := do
  reserved (fC w2 == 0 && fA w1 == 0 && fB w1 == 0 && field w2 8 8 == 0)
  listed (fSub w2 == 0)
  let d ← vreg (fD w1)
  pure (.sregPerLane ⟨BitVec.ofNat 8 (field w2 0 8), d, tail w1 w2⟩)

/-- The two-word P-class opcodes (R40, R42). -/
def decodeP2 (w1 w2 : Nat) : Dec Instr :=
  match op7 w1 with
  | 0x60 => d60 w1 w2 | 0x61 => d61 w1 w2 | 0x62 => d62 w1 w2 | 0x63 => d63 w1 w2 | 0x64 => d64 w1 w2
  | 0x65 => d65 w1 w2 | 0x66 => d66 w1 w2 | 0x67 => d67 w1 w2 | 0x68 => d68 w1 w2 | 0x69 => d69 w1 w2
  | 0x6A => d6A w1 w2 | 0x6B => d6B w1 w2 | 0x6C => d6C w1 w2 | 0x6D => d6D w1 w2 | 0x6E => d6E w1 w2
  | 0x6F => d6F w1 w2 | 0x70 => d70 w1 w2 | 0x71 => d71 w1 w2 | 0x72 => d72 w1 w2 | 0x73 => d73 w1 w2
  | 0x74 => d74 w1 w2 | 0x75 => d75 w1 w2 | 0x76 => d76 w1 w2 | 0x77 => d77 w1 w2 | 0x78 => d78 w1 w2
  | 0x79 => d79 w1 w2 | 0x7A => d7A w1 w2 | 0x7B => d7B w1 w2 | 0x7C => d7C w1 w2 | 0x7D => d7D w1 w2
  | 0x7E => d7E w1 w2 | 0x7F => d7F w1 w2
  | _ => .error .illegalOpcode

/-! ## U-class forms (R34 to R36, R43 to R46) -/

abbrev uD (w : Nat) : Nat := field w 18 6
abbrev uA (w : Nat) : Nat := field w 12 6
abbrev uB (w : Nat) : Nat := field w 6 6
abbrev uMod (w : Nat) : Nat := field w 0 6
abbrev uF (w2 : Nat) : Nat := field w2 0 28
def uLa (w2 : Nat) : Fin 16 := Fin.ofNat 16 (field w2 28 4)

def sopnd (imm : Bool) (n : Nat) : SOpnd := if imm then .imm (BitVec.ofNat 6 n) else .r (sr n)
def SOpnd.code : SOpnd → Nat | .r n => n.val | .imm n => n.toNat
def SOpnd.isImm : SOpnd → Bool | .r _ => false | .imm _ => true

/-- Scalar integer U1 forms (R44). -/
def dU3 (mk : U3 → Instr) (w : Nat) : Dec Instr := do
  reserved (field w 0 4 == 0)
  pure (mk ⟨sr (uD w), sr (uA w), sopnd (field w 5 1 == 1) (uB w), field w 4 1 == 1⟩)
def dUMM (mk : UMM → Instr) (w : Nat) : Dec Instr := do
  reserved (field w 1 3 == 0)
  pure (mk ⟨sr (uD w), sr (uA w), sopnd (field w 5 1 == 1) (uB w), field w 4 1 == 1, field w 0 1 == 1⟩)
def dSf (mk : SfF → Instr) (w : Nat) : Dec Instr := do
  reserved (field w 5 1 == 0)
  pure (mk ⟨sr (uD w), sr (uA w), sr (uB w), sty (field w 0 2), rmode (field w 2 2), field w 4 1 == 1⟩)
def dSCnt (mk : SCntF → Instr) (w : Nat) : Dec Instr := do
  reserved (uB w == 0 && field w 0 4 == 0 && field w 5 1 == 0)
  pure (mk ⟨sr (uD w), sr (uA w), field w 4 1 == 1⟩)
/-- U1 forms with no field but `a`. -/
def dA (mk : SReg → Instr) (w : Nat) : Dec Instr := do
  reserved (uD w == 0 && uB w == 0 && uMod w == 0)
  pure (mk (sr (uA w)))
/-- U1 forms with `d` and `a`. -/
def dDA (mk : DA → Instr) (w : Nat) : Dec Instr := do
  reserved (uB w == 0 && uMod w == 0)
  pure (mk ⟨sr (uD w), sr (uA w)⟩)
/-- U1 forms with `a` and `b`. -/
def dAB (mk : SS → Instr) (w : Nat) : Dec Instr := do
  reserved (uD w == 0 && uMod w == 0)
  pure (mk ⟨sr (uA w), sr (uB w)⟩)
/-- Words whose 24 low bits are all reserved. -/
def dZ (i : Instr) (w : Nat) : Dec Instr := do
  reserved (field w 0 24 == 0)
  pure i
def dUB (mk : BitVec 24 → Instr) (w : Nat) : Dec Instr := pure (mk (BitVec.ofNat 24 (field w 0 24)))
/-- A 12-bit immediate with d and a reserved. -/
def dImm12 (mk : BitVec 12 → Instr) (w : Nat) : Dec Instr := do
  reserved (uD w == 0 && uA w == 0)
  pure (mk (BitVec.ofNat 12 (field w 0 12)))

def dScmp (w : Nat) : Dec Instr := do
  let c ← pick (icond (field w 0 4))
  let d ← preg (uD w)
  pure (.scmp ⟨d, sr (uA w), sopnd (field w 5 1 == 1) (uB w), field w 4 1 == 1, c⟩)
def dSfcmp (w : Nat) : Dec Instr := do
  reserved (field w 5 1 == 0)
  let c ← pick (fcond (field w 0 3))
  let d ← preg (uD w)
  pure (.sfcmp ⟨d, sr (uA w), sr (uB w), c, sty (field w 3 2)⟩)
def dSsel (w : Nat) : Dec Instr := do
  reserved (field w 4 2 == 0)
  pure (.ssel ⟨sr (uD w), sr (uA w), sr (uB w), p3 (field w 0 3), field w 3 1 == 1⟩)
def dSlea (w : Nat) : Dec Instr := do
  reserved (field w 2 3 == 0)
  pure (.slea ⟨sr (uD w), sr (uA w), sopnd (field w 5 1 == 1) (uB w), Fin.ofNat 4 (field w 0 2)⟩)
/-- BALLOT, MCOUNT and QDEPTH: d and a 3-bit selector. -/
def dSel3 (mk : SReg → Fin 8 → Instr) (w : Nat) : Dec Instr := do
  reserved (uA w == 0 && uB w == 0 && field w 3 3 == 0)
  pure (mk (sr (uD w)) (p3 (field w 0 3)))
def dBreak (w : Nat) : Dec Instr := do
  reserved (uD w == 0 && uA w == 0 && uB w == 0 && field w 4 2 == 0)
  pure (.breakP (p3 (field w 0 3)) (field w 3 1 == 1))
/-- ORD and FENCE (R198, R251). -/
def dOrd (mk : Order → Scope → Instr) (w : Nat) : Dec Instr := do
  reserved (uD w == 0 && uA w == 0 && uB w == 0 && field w 5 1 == 0)
  let sc ← pick (scope (field w 2 3))
  pure (mk (order (field w 0 2)) sc)
def dWaitc (w : Nat) : Dec Instr := do
  reserved (uD w == 0 && uB w == 0 && field w 3 3 == 0)
  let p ← pick (path (field w 0 3))
  pure (.waitc p (sr (uA w)))
def dSlot (mk : SlotF → Instr) (w : Nat) : Dec Instr := do
  reserved (uD w == 0 && field w 2 4 == 0)
  pure (mk ⟨slotTag (field w 0 2), sr (uA w), sr (uB w)⟩)
def dRdv (w : Nat) : Dec Instr := do
  reserved (uD w == 0 && uA w == 0 && uB w == 0 && field w 4 2 == 0)
  pure (.rdv (Fin.ofNat 16 (field w 0 4)))
def dMrsv (w : Nat) : Dec Instr := do
  reserved (uD w == 0 && uA w == 0 && uB w == 0 && field w 5 1 == 0)
  pure (.mrsv (p3 (field w 0 3)) (Fin.ofNat 4 (field w 3 2)))
def dMrel (w : Nat) : Dec Instr := do
  reserved (uD w == 0 && uA w == 0 && uB w == 0 && field w 4 2 == 0)
  pure (.mrel (BitVec.ofNat 4 (field w 0 4)))
def dEmit (w : Nat) : Dec Instr := do
  reserved (uD w == 0 && field w 4 2 == 0)
  pure (.emit ⟨sr (uA w), sr (uB w), field w 3 1 == 1, p3 (field w 0 3)⟩)
/-- SREG and SSET (R402, R403). -/
def dSreg (w : Nat) : Dec Instr := do
  reserved (uA w == 0 && field w 8 4 == 0)
  pure (.sreg (sr (uD w)) (BitVec.ofNat 8 (field w 0 8)))
def dSset (w : Nat) : Dec Instr := do
  reserved (uD w == 0 && field w 8 4 == 0)
  pure (.sset (sr (uA w)) (BitVec.ofNat 8 (field w 0 8)))
def dClk (w : Nat) : Dec Instr := do
  reserved (field w 0 18 == 0)
  pure (.clk (sr (uD w)))
def dMzero (w : Nat) : Dec Instr := do
  reserved (field w 0 18 == 0)
  let d ← areg (uD w)
  pure (.mzero d)
def dMtag (w : Nat) : Dec Instr := do
  reserved (uA w == 0 && uB w == 0 && field w 4 2 == 0)
  let t ← pick (fmt (field w 0 4))
  let d ← xreg (uD w)
  pure (.mtag d t)
def dMqbind (w : Nat) : Dec Instr := do
  reserved (uB w == 0 && uMod w == 0)
  listed (decide (uD w < 4))
  pure (.mqbind (Fin.ofNat 4 (uD w)) (sr (uA w)))
def dMunpin (w : Nat) : Dec Instr := do
  reserved (field w 0 18 == 0)
  let d ← xreg (uD w)
  pure (.munpin d)

/-- The one-word U-class opcodes. -/
def decodeU1 (w : Nat) : Dec Instr :=
  match op7 w with
  | 0x00 => dZ .nop w | 0x01 => dUB .bra w | 0x02 => dA .brx w | 0x03 => dUB .call w | 0x04 => dA .ret w
  | 0x09 => dUB .elseP w | 0x0A => dZ .endifP w | 0x0B => dUB .loopP w | 0x0C => dBreak w | 0x0D => dUB .endloopP w
  | 0x0E => dZ .exit w
  | 0x10 => dU3 .sadd w | 0x11 => dU3 .ssub w | 0x12 => dU3 .smul w | 0x13 => dU3 .smad w
  | 0x14 => dUMM .smin w | 0x15 => dUMM .smax w | 0x16 => dU3 .sand w | 0x17 => dU3 .sor w | 0x18 => dU3 .sxor w
  | 0x19 => dU3 .sshl w | 0x1A => dU3 .sshr w | 0x1B => dU3 .ssar w
  | 0x1C => dScmp w | 0x1D => dSsel w | 0x1E => dDA .smov w | 0x20 => dSlea w
  | 0x21 => dSCnt .spopc w | 0x22 => dSCnt .sclz w
  | 0x24 => dSf .sfadd w | 0x25 => dSf .sfmul w | 0x26 => dSf .sffma w | 0x27 => dSfcmp w
  | 0x29 => dSel3 .ballot w | 0x2A => dSel3 .mcount w
  | 0x2F => dOrd .ord w | 0x30 => dOrd .fence w | 0x31 => dWaitc w
  | 0x32 => dA .bara w | 0x33 => dA .barw w | 0x34 => dA .baraw w | 0x35 => dA .gbar w
  | 0x37 => dImm12 .sleep w | 0x38 => dZ .yield w
  | 0x3A => dAB .tbinit w | 0x3B => dAB .tbarv w | 0x3C => dAB .tbexp w | 0x3D => dAB .tbwait w | 0x3E => dAB .cntadd w
  | 0x40 => dSlot .slotset w | 0x41 => dSlot .slotwait w
  | 0x43 => dRdv w | 0x44 => dMrsv w | 0x45 => dMrel w | 0x47 => dEmit w
  | 0x49 => dZ .join w | 0x4A => dZ .phase w | 0x4B => dSel3 .qdepth w | 0x4C => dZ .done w
  | 0x4D => dDA .npin w | 0x4E => dA .nunpin w | 0x50 => dDA .rwait w | 0x51 => dDA .rstat w | 0x53 => dDA .qstat w
  | 0x54 => dImm12 .trap w | 0x55 => dImm12 .brk w | 0x56 => dSreg w | 0x57 => dSset w | 0x58 => dClk w
  | 0x64 => dMzero w | 0x67 => dMtag w | 0x68 => dMqbind w | 0x69 => dZ .msync w | 0x6B => dMunpin w
  | 0x72 => dZ .csync w
  | _ => .error .illegalOpcode

/-- Branches on a predicate, and IF. -/
def dPBr (mk : PBr → Instr) (w1 w2 : Nat) : Dec Instr := do
  reserved (uD w1 == 0 && uA w1 == 0 && uB w1 == 0 && field w1 4 2 == 0)
  pure (mk ⟨p3 (field w1 0 3), field w1 3 1 == 1, BitVec.ofNat 28 (uF w2), uLa w2⟩)
def dBrf (w1 w2 : Nat) : Dec Instr := do
  reserved (uD w1 == 0 && uA w1 == 0 && uB w1 == 0 && field w1 4 2 == 0)
  pure (.brf ⟨p3 (field w1 0 3), field w1 3 1 == 1, BitVec.ofNat 28 (uF w2), uLa w2⟩)
/-- SLIT (R111). -/
def dSlit (w1 w2 : Nat) : Dec Instr := do
  reserved (uA w1 == 0 && uB w1 == 0 && field w1 2 4 == 0)
  reserved (field w1 0 2 != 2 || field w2 8 20 == 0)
  listed (field w1 0 2 != 3)
  pure (match field w1 0 2 with
    | 0 => .slit ⟨sr (uD w1), BitVec.ofNat 28 (uF w2), uLa w2⟩
    | 1 => .slitMid ⟨sr (uD w1), BitVec.ofNat 28 (uF w2), uLa w2⟩
    | _ => .slitTop ⟨sr (uD w1), BitVec.ofNat 8 (field w2 0 8), uLa w2⟩)
def dSbfx (w1 w2 : Nat) : Dec Instr := do
  reserved (uB w1 == 0 && uMod w1 == 0 && field w2 13 15 == 0)
  pure (.sbfx ⟨sr (uD w1), sr (uA w1), Fin.ofNat 64 (field w2 0 6), Fin.ofNat 64 (field w2 6 6), field w2 12 1 == 1, uLa w2⟩)
def dScvt (w1 w2 : Nat) : Dec Instr := do
  reserved (uB w1 == 0 && uMod w1 == 0 && field w2 0 16 == 0)
  pure (.scvt ⟨sr (uD w1), sr (uA w1), ty (field w2 24 4), ty (field w2 20 4), rmode (field w2 18 2), field w2 17 1 == 1,
    field w2 16 1 == 1, uLa w2⟩)
def dCselk (w1 w2 : Nat) : Dec Instr := do
  reserved (uD w1 == 0 && uB w1 == 0 && uMod w1 == 0 && uF w2 == 0)
  pure (.cselk (sr (uA w1)) (uLa w2))
def dSld (w1 w2 : Nat) : Dec Instr := do
  reserved (uB w1 == 0 && uMod w1 == 0 && field w2 20 4 == 0)
  let sz ← pick (size (field w2 25 3))
  pure (.sld ⟨space (field w2 24 1), sz, sr (uD w1), sr (uA w1), BitVec.ofNat 20 (field w2 0 20), uLa w2⟩)
def dSst (w1 w2 : Nat) : Dec Instr := do
  reserved (uD w1 == 0 && uMod w1 == 0)
  let sz ← pick (size (field w2 25 3))
  pure (.sst ⟨space (field w2 24 1), sz, Fin.ofNat 16 (field w2 20 4), sr (uA w1), sr (uB w1), BitVec.ofNat 20 (field w2 0 20),
    uLa w2⟩)
def dSatom (w1 w2 : Nat) : Dec Instr := do
  reserved (uMod w1 == 0)
  let sz ← pick (size (field w2 25 3))
  let op ← pick (aop (field w2 20 4))
  pure (.satom ⟨op, space (field w2 24 1), sz, sr (uD w1), sr (uA w1), sr (uB w1), BitVec.ofNat 20 (field w2 0 20), uLa w2⟩)
/-- R206. -/
def dMwait (w1 w2 : Nat) : Dec Instr := do
  reserved (field w1 3 3 == 0)
  let sz ← pick (size (field w2 25 3))
  let sc ← pick (scope (field w1 0 3))
  pure (.mwait ⟨mcond (field w2 22 2), space (field w2 24 1), sz, sc, BitVec.ofNat 22 (field w2 0 22), sr (uD w1), sr (uA w1),
    sr (uB w1), uLa w2⟩)
/-- R269. -/
def dTcp (w1 w2 : Nat) : Dec Instr := do
  reserved (field w1 3 3 == 0 && field w2 0 24 == 0 && (field w1 0 1 == 1 || uD w1 == 0))
  pure (.tcp ⟨if field w1 0 1 == 1 then some (sr (uD w1)) else none, layout (field w1 1 2), Fin.ofNat 16 (field w2 24 4),
    sr (uA w1), sr (uB w1), uLa w2⟩)
def dCntwait (w1 w2 : Nat) : Dec Instr := do
  reserved (uD w1 == 0 && uMod w1 == 0 && uF w2 == 0)
  pure (.cntwait ⟨sr (uA w1), sr (uB w1), uLa w2⟩)
/-- R293. -/
def dFork (w1 w2 : Nat) : Dec Instr := do
  reserved (uD w1 == 0 && uB w1 == 0 && field w1 2 4 == 0)
  pure (.fork ⟨Fin.ofNat 4 (field w1 0 2), BitVec.ofNat 14 (field w2 14 14), BitVec.ofNat 14 (field w2 0 14), sr (uA w1), uLa w2⟩)
/-- R173. -/
def dOalloc (w1 w2 : Nat) : Dec Instr := do
  reserved (uB w1 == 0 && field w1 4 2 == 0 && field w2 3 25 == 0)
  pure (.oalloc ⟨sr (uD w1), sr (uA w1), p3 (field w1 0 3), field w1 3 1 == 1, p3 (field w2 0 3), uLa w2⟩)
/-- R179. -/
def dSpawn (w1 w2 : Nat) : Dec Instr := do
  reserved (field w1 0 3 == 0 && field w1 4 2 == 0 && field w2 3 25 == 0)
  pure (.spawn ⟨sr (uD w1), sr (uA w1), sr (uB w1), field w1 3 1 == 1, p3 (field w2 0 3), uLa w2⟩)
def dRboard (w1 w2 : Nat) : Dec Instr := do
  reserved (uD w1 == 0 && uMod w1 == 0 && field w2 8 20 == 0)
  pure (.rboard ⟨sr (uA w1), sr (uB w1), BitVec.ofNat 8 (field w2 0 8), uLa w2⟩)
def dQpost (w1 w2 : Nat) : Dec Instr := do
  reserved (uD w1 == 0 && uMod w1 == 0 && uF w2 == 0)
  pure (.qpost ⟨sr (uA w1), sr (uB w1), uLa w2⟩)
def dDbgrd (w1 w2 : Nat) : Dec Instr := do
  reserved (uB w1 == 0 && uMod w1 == 0)
  pure (.dbgrd ⟨sr (uD w1), sr (uA w1), BitVec.ofNat 28 (uF w2), uLa w2⟩)
def dDbgwr (w1 w2 : Nat) : Dec Instr := do
  reserved (uD w1 == 0 && uMod w1 == 0)
  pure (.dbgwr ⟨sr (uA w1), sr (uB w1), BitVec.ofNat 28 (uF w2), uLa w2⟩)
/-- R299. -/
def dMld (mk : MldF → Instr) (w1 w2 : Nat) : Dec Instr := do
  reserved (uMod w1 == 0 && field w2 0 24 == 0)
  let t ← pick (fmt (field w2 24 4))
  let d ← xreg (uD w1)
  pure (mk ⟨t, d, sr (uA w1), sr (uB w1), uLa w2⟩)
/-- R304. -/
def dMma (w1 w2 : Nat) : Dec Instr := do
  reserved (field w1 2 4 == 0 && field w2 0 22 == 0)
  let d ← areg (uD w1)
  let a ← xreg (uA w1)
  let b ← xreg (uB w1)
  pure (.mma ⟨field w1 0 1 == 1, field w1 1 1 == 1, Fin.ofNat 4 (field w2 26 2), BitVec.ofNat 4 (field w2 22 4), d, a, b, uLa w2⟩)
/-- R309. -/
def dMst (w1 w2 : Nat) : Dec Instr := do
  reserved (uD w1 == 0 && uMod w1 == 0 && field w2 0 22 == 0)
  let t ← pick (fmt (field w2 24 4))
  let a ← areg (uA w1)
  pure (.mst ⟨t, rmode (field w2 22 2), a, sr (uB w1), uLa w2⟩)
/-- R310. -/
def dMsta (w1 w2 : Nat) : Dec Instr := do
  reserved (field w1 2 4 == 0 && field w2 0 22 == 0 && (field w1 0 1 == 1 || uD w1 == 0))
  let t ← pick (fmt (field w2 24 4))
  let a ← areg (uA w1)
  pure (.msta ⟨if field w1 0 1 == 1 then some (sr (uD w1)) else none, space (field w1 1 1), t, rmode (field w2 22 2), a,
    sr (uB w1), uLa w2⟩)
def dMadp (w1 w2 : Nat) : Dec Instr := do
  reserved (uD w1 == 0 && uMod w1 == 0 && field w2 7 21 == 0)
  pure (.madp ⟨sr (uA w1), sr (uB w1), BitVec.ofNat 7 (field w2 0 7), uLa w2⟩)
def dCq (w1 w2 : Nat) : Dec Instr := do
  reserved (uD w1 == 0 && uB w1 == 0 && uMod w1 == 0 && uF w2 == 0)
  pure (.cq (sr (uA w1)) (uLa w2))
def dCqmeta (w1 w2 : Nat) : Dec Instr := do
  reserved (uB w1 == 0 && uMod w1 == 0 && field w2 16 12 == 0)
  listed (decide (uD w1 < 4))
  pure (.cqmeta ⟨Fin.ofNat 4 (uD w1), sr (uA w1), BitVec.ofNat 16 (field w2 0 16), uLa w2⟩)

/-- The two-word U-class opcodes. -/
def decodeU2 (w1 w2 : Nat) : Dec Instr :=
  match op7 w1 with
  | 0x05 => dBrf w1 w2 | 0x06 => dPBr .bany w1 w2 | 0x07 => dPBr .ball w1 w2 | 0x08 => dPBr .ifP w1 w2
  | 0x1F => dSlit w1 w2 | 0x23 => dSbfx w1 w2 | 0x28 => dScvt w1 w2 | 0x2B => dCselk w1 w2
  | 0x2C => dSld w1 w2 | 0x2D => dSst w1 w2 | 0x2E => dSatom w1 w2 | 0x36 => dMwait w1 w2 | 0x39 => dTcp w1 w2
  | 0x3F => dCntwait w1 w2 | 0x42 => dFork w1 w2 | 0x46 => dOalloc w1 w2 | 0x48 => dSpawn w1 w2
  | 0x4F => dRboard w1 w2 | 0x52 => dQpost w1 w2 | 0x59 => dDbgrd w1 w2 | 0x5A => dDbgwr w1 w2
  | 0x60 => dMld .mld w1 w2 | 0x61 => dMld .mft w1 w2 | 0x62 => dMld .mldr w1 w2 | 0x63 => dMma w1 w2
  | 0x65 => dMst w1 w2 | 0x66 => dMsta w1 w2 | 0x6A => dMadp w1 w2 | 0x70 => dCq w1 w2 | 0x71 => dCqmeta w1 w2
  | _ => .error .illegalOpcode

/-! ## The decoder -/

/-- The U-class opcodes of form U2. -/
def u2Ops : List Nat :=
  [0x05, 0x06, 0x07, 0x08, 0x1F, 0x23, 0x28, 0x2B, 0x2C, 0x2D, 0x2E, 0x36, 0x39, 0x3F, 0x42, 0x46, 0x48, 0x4F, 0x52,
   0x59, 0x5A, 0x60, 0x61, 0x62, 0x63, 0x65, 0x66, 0x6A, 0x70, 0x71]

/-- Whether a first word is that of a two-word form. -/
def twoWords (w1 : Nat) : Bool :=
  if field w1 31 1 == 0 then decide (0x60 ≤ op7 w1) else u2Ops.contains (op7 w1)

/-- What issues an instruction (R48). -/
inductive Executor where
  | core | matrix | copy
  deriving DecidableEq, Repr

/-- General opcodes that a core alone runs (column "On" of R43). -/
def coreOnlyOps : List Nat :=
  [0x06, 0x07, 0x08, 0x09, 0x0A, 0x0B, 0x0C, 0x0D, 0x29, 0x2A, 0x2B, 0x31, 0x32, 0x33, 0x34, 0x35, 0x38, 0x3A, 0x3B,
   0x3C, 0x3D, 0x40, 0x41, 0x42, 0x44, 0x45, 0x46, 0x47, 0x48, 0x49, 0x4A, 0x4C, 0x4D, 0x4E, 0x52, 0x53, 0x57, 0x59, 0x5A]

/-- Whether an executor runs the opcode of a first word (R48). TCP runs on C and Q, RBOARD and RWAIT on M, RSTAT on C and
M; the extensions run on their own sequencer. -/
def permitted (x : Executor) (w1 : Nat) : Bool :=
  let op := op7 w1
  if field w1 31 1 == 0 then x == .core
  else if op < 0x60 then
    if op == 0x39 then x != .matrix
    else if op == 0x4F || op == 0x50 then x == .matrix
    else if op == 0x51 then x != .copy
    else if coreOnlyOps.contains op then x == .core
    else true
  else if op < 0x70 then x == .matrix
  else x == .copy

/-- The instruction of two words; the second is not looked at in a one-word form. -/
def decodeWords (w1 w2 : Nat) : Dec Instr := do
  let i ← if field w1 31 1 == 0 then (if twoWords w1 then decodeP2 w1 w2 else decodeP1 w1)
    else (if twoWords w1 then decodeU2 w1 w2 else decodeU1 w1)
  if i.wf then .ok i else .error .illegalOperand

/-- Four bytes, the lowest address first, as a word (R2). -/
def leWord (a b c d : Byte) : Nat := a.toNat + b.toNat * 2 ^ 8 + c.toNat * 2 ^ 16 + d.toNat * 2 ^ 24

/-- The instruction at the head of a list of bytes, and the bytes after it. -/
def decode (bs : List Byte) : Dec (Instr × List Byte) :=
  match bs with
  | a :: b :: c :: d :: rest =>
    let w1 := leWord a b c d
    if twoWords w1 then
      match rest with
      | e :: f :: g :: h :: rest' => (decodeWords w1 (leWord e f g h)).map fun i => (i, rest')
      | _ => .error .truncated
    else (decodeWords w1 0).map fun i => (i, rest)
  | _ => .error .truncated

/-! ## The encoder -/

def encP1 (op d a b g : Nat) : List Nat := [op * 2 ^ 24 + d * 2 ^ 17 + a * 2 ^ 10 + b * 2 ^ 3 + g]
def encP2 (op d a b : Nat) (t : Tail) (c sub imm : Nat) : List Nat :=
  [op * 2 ^ 24 + d * 2 ^ 17 + a * 2 ^ 10 + b * 2 ^ 3 + t.g.val,
   c * 2 ^ 25 + t.la.val * 2 ^ 21 + t.neg.toNat * 2 ^ 20 + sub * 2 ^ 16 + imm]
/-- The second word of a memory form (R33): `rest` is bits [15:0]. -/
def encM (op d a b : Nat) (t : Tail) (size space sub rest : Nat) : List Nat :=
  [op * 2 ^ 24 + d * 2 ^ 17 + a * 2 ^ 10 + b * 2 ^ 3 + t.g.val,
   size * 2 ^ 29 + space * 2 ^ 28 + t.la.val * 2 ^ 21 + t.neg.toNat * 2 ^ 20 + sub * 2 ^ 16 + rest]
def encU1 (op d a b m : Nat) : List Nat := [2 ^ 31 + op * 2 ^ 24 + d * 2 ^ 18 + a * 2 ^ 12 + b * 2 ^ 6 + m]
def encUB (op off : Nat) : List Nat := [2 ^ 31 + op * 2 ^ 24 + off]
def encU2 (op d a b m la f : Nat) : List Nat :=
  [2 ^ 31 + op * 2 ^ 24 + d * 2 ^ 18 + a * 2 ^ 12 + b * 2 ^ 6 + m, la * 2 ^ 28 + f]

def P1R.enc (op : Nat) (o : P1R) : List Nat := encP1 op o.d.val o.a.code o.b.code o.g.val
def P1I.enc (op : Nat) (o : P1I) : List Nat := encP1 op o.d.val o.a.code o.imm.toNat o.g.val
def P1S.enc (op : Nat) (o : P1S) : List Nat := encP1 op o.d.val o.a.code o.n.toNat o.g.val
def P1U.enc (op : Nat) (o : P1U) : List Nat := encP1 op o.d.val o.a.code 0 o.g.val
def P1M.enc (op : Nat) (o : P1M) : List Nat := encP1 op o.d.val o.p.val 0 o.g.val
def F2.enc (sub : Nat) (o : F2) : List Nat := encP2 0x60 o.d.val o.a.code o.b.code o.t 0 sub o.m.code
def F1.enc (sub : Nat) (o : F1) : List Nat := encP2 0x63 o.d.val o.a.code 0 o.t 0 sub o.m.code
def ImadF.enc (sub : Nat) (o : ImadF) : List Nat := encP2 0x64 o.d.val o.a.code o.b.code o.t o.c.code sub 0
def MoviF.enc (sub : Nat) (o : MoviF) : List Nat := encP2 0x6A o.d.val 0 0 o.t 0 sub o.imm.toNat
def Fld.b : Fld → Nat | .imm _ _ => 0 | .reg b => b.code
def Fld.sub : Fld → Nat | .imm _ _ => 0 | .reg _ => 2
def Fld.bits : Fld → Nat | .imm p l => p.val + l.val * 32 | .reg _ => 0
def cvtBits (dst : Ty) (rm : Rm) (sat ftz : Bool) : Nat :=
  dst.code + rm.code * 16 + sat.toNat * 64 + ftz.toNat * 128
def MemOp.b (m : MemOp) : Nat := match m.ix with | some (b, _) => b.code | none => 0
def MemOp.rest (m : MemOp) : Nat :=
  (match m.ix with | some (_, k) => 2 ^ 14 + k.val * 2 ^ 12 | none => 0) + m.off.toNat
def StF.enc (nb : Nat) (o : StF) : List Nat :=
  encM 0x73 o.d.code o.mem.a.code o.mem.b o.t o.size.code o.sp.code o.rc.val (nb * 2 ^ 15 + o.mem.rest)
def ShflN.b : ShflN → Nat | .reg b => b.code | .imm _ => 0
def ShflN.sub : ShflN → Nat | .reg _ => 0 | .imm _ => 4
def ShflN.bits : ShflN → Nat | .reg _ => 0 | .imm n => n.toNat
def BcastN.b : BcastN → Nat | .imm _ => 0 | .s n => 96 + n.val
def BcastN.sub : BcastN → Nat | .imm _ => 0 | .s _ => 1
def BcastN.bits : BcastN → Nat | .imm n => n.toNat | .s _ => 0
def PBr.enc (op : Nat) (o : PBr) : List Nat := encU2 op 0 0 0 (o.p.val + o.neg.toNat * 8) o.la.val o.off.toNat
def smod (b : SOpnd) (w32 : Bool) : Nat := b.isImm.toNat * 32 + w32.toNat * 16
def U3.enc (op : Nat) (o : U3) : List Nat := encU1 op o.d.val o.a.val o.b.code (smod o.b o.w32)
def UMM.enc (op : Nat) (o : UMM) : List Nat := encU1 op o.d.val o.a.val o.b.code (smod o.b o.w32 + o.u.toNat)
def SfF.enc (op : Nat) (o : SfF) : List Nat :=
  encU1 op o.d.val o.a.val o.b.val (o.ty.code + o.rm.code * 4 + o.ftz.toNat * 16)
def DA.enc (op : Nat) (o : DA) : List Nat := encU1 op o.d.val o.a.val 0 0
def SS.enc (op : Nat) (o : SS) : List Nat := encU1 op 0 o.a.val o.b.val 0
def SlotF.enc (op : Nat) (o : SlotF) : List Nat := encU1 op 0 o.a.val o.b.val o.tag.code
def MldF.enc (op : Nat) (o : MldF) : List Nat :=
  encU2 op o.d.val o.a.val o.b.val 0 o.la.val (o.tag.code * 2 ^ 24)

/-- The words of an instruction, first word first. The steps of other agents have none. -/
def encode : Instr → List Nat
  | .iadd o => o.enc 0x01 | .iaddI o => o.enc 0x02 | .isub o => o.enc 0x03 | .isubI o => o.enc 0x04
  | .imul o => o.enc 0x05 | .imulI o => o.enc 0x06 | .imin o => o.enc 0x07 | .iminU o => o.enc 0x08
  | .imax o => o.enc 0x09 | .imaxU o => o.enc 0x0A | .iabs o => o.enc 0x0B | .ineg o => o.enc 0x0C
  | .shl o => o.enc 0x0D | .shlI o => o.enc 0x0E | .shr o => o.enc 0x0F | .shrI o => o.enc 0x10
  | .sar o => o.enc 0x11 | .sarI o => o.enc 0x12 | .iand o => o.enc 0x13 | .iandI o => o.enc 0x14
  | .ior o => o.enc 0x15 | .iorI o => o.enc 0x16 | .ixor o => o.enc 0x17 | .ixorI o => o.enc 0x18
  | .iandn o => o.enc 0x19 | .inot o => o.enc 0x1A | .popc o => o.enc 0x1B | .clz o => o.enc 0x1C
  | .brev o => o.enc 0x1D | .mov o => o.enc 0x1E | .leaX1 o => o.enc 0x1F | .leaX2 o => o.enc 0x20
  | .leaX4 o => o.enc 0x21 | .leaX8 o => o.enc 0x22 | .mrank o => o.enc 0x23
  | .fadd o => o.enc 0 | .fsub o => o.enc 1 | .fmul o => o.enc 2 | .fmin o => o.enc 3 | .fmax o => o.enc 4
  | .ffma o => encP2 0x60 o.d.val o.a.code o.b.code o.t o.c.code 5 o.m.code
  | .fcmp o => encP2 0x61 o.d.val o.a.code o.b.code o.t 0 o.cond.code (o.ty.code + o.ftz.toNat * 16)
  | .fclass o => encP2 0x62 o.d.val o.a.code 0 o.t 0 0 (o.ty.code + o.mask.toNat * 4)
  | .frnd o => o.enc 0 | .ffrac o => o.enc 1 | .frcp o => o.enc 2 | .frsq o => o.enc 3 | .fsqrt o => o.enc 4
  | .fexp2 o => o.enc 5 | .flog2 o => o.enc 6 | .fsin o => o.enc 7 | .fcos o => o.enc 8 | .ftanh o => o.enc 9
  | .imad o => o.enc 0 | .imadWide o => o.enc 1
  | .imulh o => encP2 0x6B o.d.val o.a.code o.b.code o.t 0 o.u.toNat 0
  | .icmp o => encP2 0x65 o.d.val o.a.code o.b.code o.t 0 o.cond.code 0
  | .sel o => encP2 0x66 o.d.val o.a.code o.b.code o.t o.p.val 0 0
  | .movi o => o.enc 0 | .moviZ o => o.enc 1 | .moviHi o => o.enc 2
  | .bfx o => encP2 0x67 o.d.val o.a.code o.fld.b o.t 0 (o.fld.sub + o.sgn.toNat) o.fld.bits
  | .bfi o => encP2 0x68 o.d.val o.a.code o.fld.b o.t 0 o.fld.sub o.fld.bits
  | .idot4 o => encP2 0x69 o.d.val o.a.code o.b.code o.t o.c.code (o.sa.toNat + o.sb.toNat * 2 + o.sat.toNat * 4) 0
  | .cvt o => encP2 0x6C o.d.val o.a.code 0 o.t 0 o.src.code (cvtBits o.dst o.rm o.sat o.ftz)
  | .cvtsr o => encP2 0x6D o.d.val o.a.code 0 o.t o.c.code o.src.code (cvtBits o.dst o.rm o.sat o.ftz)
  | .pack o => encP2 0x6E o.d.val o.a.code 0 o.t 0 o.ty.code (o.pos.val + o.sat.toNat * 64)
  | .unpk o => encP2 0x6F o.d.val o.a.code 0 o.t 0 o.ty.code o.pos.val
  | .qblk o => encP2 0x70 o.d.val o.a.code 0 o.t o.c.val o.ty.code (o.rm.code * 16)
  | .dqblk o => encP2 0x71 o.d.val o.a.code 0 o.t o.c.code o.ty.code 0
  | .ld o => encM 0x72 o.d.val o.mem.a.code o.mem.b o.t o.size.code o.sp.code 0 o.mem.rest
  | .st o => o.enc 0 | .stNb o => o.enc 1
  | .atom o => encM 0x74 o.d.val o.a.code o.b.code o.t o.size.code o.sp.code o.op.code o.off.toNat
  | .red o => encM 0x75 0 o.a.code o.b.code o.t o.size.code o.sp.code o.op.code o.off.toNat
  | .pf o => encM 0x76 0 o.mem.a.code o.mem.b o.t 0 0 o.level.code o.mem.rest
  | .acp o => encM 0x77 o.d.val o.mem.a.code o.mem.b o.t o.size.code o.toG.toNat o.tb.val o.mem.rest
  | .recld o =>
    encM 0x78 o.d.val 0 (match o.rn with | some b => b.code | none => 0) o.t o.size.code 0 0
      ((match o.rn with | some _ => 2 ^ 14 | none => 0) + o.off.val)
  | .recst o => encM 0x79 o.d.code o.a.code 0 o.t o.size.code 0 0 o.off.val
  | .neval o => encP2 0x7A o.d.val o.a.val o.b.code o.t o.c.val 0 (o.nM1.val + o.mM1.val * 64)
  | .shfl o => encP2 0x7B o.d.val o.a.code o.n.b o.t 0 (o.mode.code + o.n.sub) o.n.bits
  | .wreduce o => encP2 0x7C o.d.val o.a.code 0 o.t 0 o.op.code 0
  | .wscan o => encP2 0x7D o.d.val o.a.code 0 o.t 0 o.op.code o.excl.toNat
  | .bcast o => encP2 0x7E o.d.val o.a.code o.n.b o.t 0 o.n.sub o.n.bits
  | .sregPerLane o => encP2 0x7F o.d.val 0 0 o.t 0 0 o.idx.toNat
  | .nop => encUB 0x00 0 | .bra off => encUB 0x01 off.toNat | .brx a => encU1 0x02 0 a.val 0 0
  | .call off => encUB 0x03 off.toNat | .ret a => encU1 0x04 0 a.val 0 0
  | .brf o => encU2 0x05 0 0 0 (o.f.val + o.neg.toNat * 8) o.la.val o.off.toNat
  | .bany o => o.enc 0x06 | .ball o => o.enc 0x07 | .ifP o => o.enc 0x08
  | .elseP off => encUB 0x09 off.toNat | .endifP => encUB 0x0A 0 | .loopP off => encUB 0x0B off.toNat
  | .breakP p neg => encU1 0x0C 0 0 0 (p.val + neg.toNat * 8) | .endloopP off => encUB 0x0D off.toNat
  | .exit => encUB 0x0E 0
  | .sadd o => o.enc 0x10 | .ssub o => o.enc 0x11 | .smul o => o.enc 0x12 | .smad o => o.enc 0x13
  | .smin o => o.enc 0x14 | .smax o => o.enc 0x15 | .sand o => o.enc 0x16 | .sor o => o.enc 0x17 | .sxor o => o.enc 0x18
  | .sshl o => o.enc 0x19 | .sshr o => o.enc 0x1A | .ssar o => o.enc 0x1B
  | .scmp o => encU1 0x1C o.d.val o.a.val o.b.code (smod o.b o.w32 + o.cond.code)
  | .ssel o => encU1 0x1D o.d.val o.a.val o.b.val (o.f.val + o.neg.toNat * 8)
  | .smov o => o.enc 0x1E
  | .slit o => encU2 0x1F o.d.val 0 0 0 o.la.val o.v.toNat
  | .slitMid o => encU2 0x1F o.d.val 0 0 1 o.la.val o.v.toNat
  | .slitTop o => encU2 0x1F o.d.val 0 0 2 o.la.val o.v.toNat
  | .slea o => encU1 0x20 o.d.val o.a.val o.b.code (o.b.isImm.toNat * 32 + o.k.val)
  | .spopc o => encU1 0x21 o.d.val o.a.val 0 (o.w32.toNat * 16)
  | .sclz o => encU1 0x22 o.d.val o.a.val 0 (o.w32.toNat * 16)
  | .sbfx o => encU2 0x23 o.d.val o.a.val 0 0 o.la.val (o.pos.val + o.lenM1.val * 64 + o.sgn.toNat * 4096)
  | .sfadd o => o.enc 0x24 | .sfmul o => o.enc 0x25 | .sffma o => o.enc 0x26
  | .sfcmp o => encU1 0x27 o.d.val o.a.val o.b.val (o.cond.code + o.ty.code * 8)
  | .scvt o =>
    encU2 0x28 o.d.val o.a.val 0 0 o.la.val (o.src.code * 2 ^ 24 + o.dst.code * 2 ^ 20 + o.rm.code * 2 ^ 18 +
      o.sat.toNat * 2 ^ 17 + o.ftz.toNat * 2 ^ 16)
  | .ballot d p => encU1 0x29 d.val 0 0 p.val | .mcount d p => encU1 0x2A d.val 0 0 p.val
  | .cselk a la => encU2 0x2B 0 a.val 0 0 la.val 0
  | .sld o => encU2 0x2C o.d.val o.a.val 0 0 o.la.val (o.size.code * 2 ^ 25 + o.sp.code * 2 ^ 24 + o.off.toNat)
  | .sst o =>
    encU2 0x2D 0 o.a.val o.b.val 0 o.la.val (o.size.code * 2 ^ 25 + o.sp.code * 2 ^ 24 + o.rc.val * 2 ^ 20 + o.off.toNat)
  | .satom o =>
    encU2 0x2E o.d.val o.a.val o.b.val 0 o.la.val
      (o.size.code * 2 ^ 25 + o.sp.code * 2 ^ 24 + o.op.code * 2 ^ 20 + o.off.toNat)
  | .ord ord sc => encU1 0x2F 0 0 0 (ord.code + sc.code * 4) | .fence ord sc => encU1 0x30 0 0 0 (ord.code + sc.code * 4)
  | .waitc p a => encU1 0x31 0 a.val 0 p.code
  | .bara a => encU1 0x32 0 a.val 0 0 | .barw a => encU1 0x33 0 a.val 0 0 | .baraw a => encU1 0x34 0 a.val 0 0
  | .gbar a => encU1 0x35 0 a.val 0 0
  | .mwait o =>
    encU2 0x36 o.d.val o.a.val o.b.val o.scope.code o.la.val
      (o.size.code * 2 ^ 25 + o.sp.code * 2 ^ 24 + o.cond.code * 2 ^ 22 + o.tmo.toNat)
  | .sleep n => encUB 0x37 n.toNat | .yield => encUB 0x38 0
  | .tcp o =>
    encU2 0x39 (match o.mc with | some d => d.val | none => 0) o.a.val o.b.val
      ((match o.mc with | some _ => 1 | none => 0) + o.layout.code * 2) o.la.val (o.tb.val * 2 ^ 24)
  | .tbinit o => o.enc 0x3A | .tbarv o => o.enc 0x3B | .tbexp o => o.enc 0x3C | .tbwait o => o.enc 0x3D
  | .cntadd o => o.enc 0x3E | .cntwait o => encU2 0x3F 0 o.a.val o.b.val 0 o.la.val 0
  | .slotset o => o.enc 0x40 | .slotwait o => o.enc 0x41
  | .fork o => encU2 0x42 0 o.a.val 0 o.t.val o.la.val (o.me.toNat * 2 ^ 14 + o.ce.toNat)
  | .rdv p => encU1 0x43 0 0 0 p.val | .mrsv f n => encU1 0x44 0 0 0 (f.val + n.val * 8) | .mrel m => encU1 0x45 0 0 0 m.toNat
  | .oalloc o => encU2 0x46 o.d.val o.a.val 0 (o.f.val + o.wait.toNat * 8) o.la.val o.e.val
  | .emit o => encU1 0x47 0 o.a.val o.b.val (o.e.val + o.rel.toNat * 8)
  | .spawn o => encU2 0x48 o.d.val o.a.val o.b.val (o.rel.toNat * 8) o.la.val o.e.val
  | .join => encUB 0x49 0 | .phase => encUB 0x4A 0 | .qdepth d e => encU1 0x4B d.val 0 0 e.val | .done => encUB 0x4C 0
  | .npin o => o.enc 0x4D | .nunpin a => encU1 0x4E 0 a.val 0 0
  | .rboard o => encU2 0x4F 0 o.a.val o.b.val 0 o.la.val o.nM1.toNat
  | .rwait o => o.enc 0x50 | .rstat o => o.enc 0x51
  | .qpost o => encU2 0x52 0 o.a.val o.b.val 0 o.la.val 0 | .qstat o => o.enc 0x53
  | .trap n => encUB 0x54 n.toNat | .brk n => encUB 0x55 n.toNat
  | .sreg d idx => encUB 0x56 (d.val * 2 ^ 18 + idx.toNat) | .sset a idx => encUB 0x57 (a.val * 2 ^ 12 + idx.toNat)
  | .clk d => encU1 0x58 d.val 0 0 0
  | .dbgrd o => encU2 0x59 o.d.val o.a.val 0 0 o.la.val o.off.toNat
  | .dbgwr o => encU2 0x5A 0 o.a.val o.b.val 0 o.la.val o.off.toNat
  | .mld o => o.enc 0x60 | .mft o => o.enc 0x61 | .mldr o => o.enc 0x62
  | .mma o =>
    encU2 0x63 o.d.val o.a.val o.b.val (o.sp.toNat + o.adp.toNat * 2) o.la.val (o.q.val * 2 ^ 26 + o.mask.toNat * 2 ^ 22)
  | .mzero d => encU1 0x64 d.val 0 0 0
  | .mst o => encU2 0x65 0 o.a.val o.b.val 0 o.la.val (o.tag.code * 2 ^ 24 + o.rm.code * 2 ^ 22)
  | .msta o =>
    encU2 0x66 (match o.ix with | some d => d.val | none => 0) o.a.val o.b.val
      ((match o.ix with | some _ => 1 | none => 0) + o.sp.code * 2) o.la.val (o.tag.code * 2 ^ 24 + o.rm.code * 2 ^ 22)
  | .mtag d t => encU1 0x67 d.val 0 0 t.code | .mqbind q a => encU1 0x68 q.val a.val 0 0 | .msync => encUB 0x69 0
  | .madp o => encU2 0x6A 0 o.a.val o.b.val 0 o.la.val o.r.toNat | .munpin d => encU1 0x6B d.val 0 0 0
  | .cq a la => encU2 0x70 0 a.val 0 0 la.val 0
  | .cqmeta o => encU2 0x71 o.q.val o.a.val 0 0 o.la.val o.n.toNat | .csync => encUB 0x72 0
  | _ => []

/-- An instruction has an encoding: it is no step of another agent. -/
def Instr.isCode (i : Instr) : Bool := !(encode i).isEmpty

/-! ## Facts of an encoding -/

/-- The first word, 0 for a step with no encoding. -/
def Instr.word1 (i : Instr) : Nat := (encode i).headD 0
/-- Number of words. -/
def Instr.words (i : Instr) : Nat := (encode i).length
/-- The lookahead of a two-word form, 0 for a one-word form (R22). -/
def Instr.la (i : Instr) : Nat :=
  match encode i with
  | [w1, w2] => if field w1 31 1 == 0 then field w2 21 4 else field w2 28 4
  | _ => 0
def Instr.runsOn (i : Instr) (x : Executor) : Bool := permitted x i.word1

/-- The access path a form counts on, on a core (R47). -/
def Instr.path : Instr → Option Path
  | .ld o => some (if o.sp == .g then .gld else .spd)
  | .atom o => some (if o.sp == .g then .gld else .spd)
  | .recld _ | .dbgrd _ => some .gld
  | .sld o => some (if o.sp == .g then .gld else .spd)
  | .satom o => some (if o.sp == .g then .gld else .spd)
  | .st o | .stNb o => some (if o.sp == .g then .gst else .spd)
  | .red o => some (if o.sp == .g then .gst else .spd)
  | .recst _ | .dbgwr _ => some .gst
  | .sst o => some (if o.sp == .g then .gst else .spd)
  | .acp _ => some .acp
  | .neval _ => some .nev
  | .cselk _ _ | .tcp _ | .fork _ | .qpost _ => some .eng
  | _ => none

/-! ## What the host asks of the decoder -/

/-- The little-endian bytes of a number. -/
def leBytes : (count n : Nat) → List Byte
  | 0, _ => []
  | k + 1, n => BitVec.ofNat 8 n :: leBytes k (n / 256)

/-- The instruction of a word numbered as spec/opcode_table.json numbers it: the first 32-bit word is the low half, a second
word follows; what the table gives no bits is 0. The words are laid out as the hardware stores them and decoded. -/
def decodeTableWord (nbits w : Nat) : Option Instr :=
  match decode (leBytes 8 (w % 2 ^ nbits)) with
  | .ok (i, _) => some i
  | .error _ => none

end Sys2Proof
end

