-- ==== Sys2Proof/Machine/Num.lean ====
section
/-! DEFINITION. Number formats and exact arithmetic (spec/03_number_formats.md R62 to R80, R459). A value is computed
exactly and rounded once; flags are the low six bits of %fpst (R69). -/
namespace Sys2Proof

/-! ## Flags (R69) -/

abbrev FlagSet := BitVec 6
def flNX : FlagSet := 1
def flUF : FlagSet := 2
def flOF : FlagSet := 4
def flDZ : FlagSet := 8
def flIV : FlagSet := 16
def flSAT : FlagSet := 32

def flagIf (c : Bool) (f : FlagSet) : FlagSet := if c then f else 0

/-- A result's bits, and the flags its computation raises. -/
structure Res where
  bits : Nat
  fl : FlagSet
  deriving DecidableEq, Repr

/-! ## Formats (R62) -/

structure FloatFmt where
  /-- mantissa bits -/
  mb : Nat
  /-- exponent bits -/
  eb : Nat
  bias : Nat
  /-- pattern of the largest finite magnitude -/
  maxBits : Nat
  /-- pattern of infinity -/
  inf : Option Nat
  /-- canonical NaN -/
  nan : Option Nat
  /-- whether .FTZ acts on the format (R66, R104) -/
  ftz : Bool
  deriving DecidableEq, Repr

def fF64 : FloatFmt := ⟨52, 11, 1023, 0x7FEFFFFFFFFFFFFF, some 0x7FF0000000000000, some 0x7FF8000000000000, true⟩
def fF32 : FloatFmt := ⟨23, 8, 127, 0x7F7FFFFF, some 0x7F800000, some 0x7FC00000, true⟩
def fF16 : FloatFmt := ⟨10, 5, 15, 0x7BFF, some 0x7C00, some 0x7E00, true⟩
def fBF16 : FloatFmt := ⟨7, 8, 127, 0x7F7F, some 0x7F80, some 0x7FC0, true⟩
def fE4M3 : FloatFmt := ⟨3, 4, 7, 0x7E, none, some 0x7F, false⟩
def fE5M2 : FloatFmt := ⟨2, 5, 15, 0x7B, some 0x7C, some 0x7E, false⟩
def fE2M3 : FloatFmt := ⟨3, 2, 1, 0x1F, none, none, false⟩
def fE3M2 : FloatFmt := ⟨2, 3, 3, 0x1F, none, none, false⟩
def fE2M1 : FloatFmt := ⟨1, 2, 1, 0x7, none, none, false⟩

def FloatFmt.signBit (f : FloatFmt) : Nat := 2 ^ (f.mb + f.eb)
def FloatFmt.withSign (f : FloatFmt) (neg : Bool) (mag : Nat) : Nat := if neg then f.signBit + mag else mag
/-- Exponent of the unit of a subnormal. -/
def FloatFmt.eSub (f : FloatFmt) : Int := 1 - f.bias - f.mb
/-- Exponent of the smallest normal value. -/
def FloatFmt.eMin (f : FloatFmt) : Int := 1 - f.bias

/-- The value of a pattern: a NaN, an infinity, or (−1)^neg × m × 2^e. -/
inductive FVal where
  | nan (signalling : Bool)
  | inf (neg : Bool)
  | fin (neg : Bool) (m : Nat) (e : Int)
  deriving DecidableEq, Repr

/-- The value of a pattern (R62, R63). -/
def FloatFmt.value (f : FloatFmt) (x : Nat) : FVal :=
  let neg := x / f.signBit % 2 == 1
  let mag := x % f.signBit
  let num :=
    if mag / 2 ^ f.mb = 0 then FVal.fin neg mag f.eSub
    else FVal.fin neg (mag % 2 ^ f.mb + 2 ^ f.mb) (((mag / 2 ^ f.mb : Nat) : Int) - 1 + f.eSub)
  match f.inf, f.nan with
  | some i, _ =>
    if mag = i then .inf neg
    else if i < mag then .nan (mag / 2 ^ (f.mb - 1) % 2 == 0)
    else num
  | none, some n => if mag = n then .nan false else num
  | none, none => num

/-- Under .FTZ a subnormal source is read as zero of its sign (R66). -/
def FloatFmt.read (f : FloatFmt) (ftz : Bool) (x : Nat) : FVal :=
  match f.value x with
  | .fin neg m e => if ftz && f.ftz && decide (m < 2 ^ f.mb) then .fin neg 0 e else .fin neg m e
  | v => v

/-! ## Rounding (R64, R65, R66, R68) -/

/-- Whether the magnitude `q + r/h2` (`r` of a remainder, `2·half` its range) is rounded up. -/
def roundsUp (rm : Rm) (neg : Bool) (q r half : Nat) : Bool :=
  match rm with
  | .rn => decide (half < r) || (r == half && q % 2 == 1)
  | .rz => false
  | .ru => !neg && r != 0
  | .rd => neg && r != 0

/-- m / 2^s rounded to an integer, and whether that is inexact. -/
def shiftRound (rm : Rm) (neg : Bool) (m : Nat) (s : Int) : Nat × Bool :=
  if s ≤ 0 then (m * 2 ^ (-s).toNat, false)
  else
    let k := s.toNat
    let q := m / 2 ^ k
    let r := m % 2 ^ k
    (if roundsUp rm neg q r (2 ^ (k - 1)) then q + 1 else q, r != 0)

/-- The exponent of the leading bit of m × 2^e, for m ≠ 0. -/
def leadExp (m : Nat) (e : Int) : Int := (m.log2 : Int) + e

/-- What a finite value rounds to before limits are applied: the magnitude as an encoded pattern that may exceed the
largest finite one, whether it is inexact, and whether it is tiny (R68). -/
structure Rounded where
  mag : Nat
  inexact : Bool
  tiny : Bool
  deriving DecidableEq, Repr

def FloatFmt.roundMag (f : FloatFmt) (rm : Rm) (neg : Bool) (m : Nat) (e : Int) : Rounded :=
  if m = 0 then ⟨0, false, false⟩
  else
    let top := leadExp m e
    let unit := max (top - f.mb) f.eSub
    let (n, inexact) := shiftRound rm neg m (unit - e)
    let (n', _) := shiftRound rm neg m (top - f.mb - e)
    -- with an unbounded exponent the result is n' × 2^(top − mb)
    let tiny := decide (top < f.eMin) && !(decide (2 ^ (f.mb + 1) ≤ n') && decide (f.eMin ≤ top + 1))
    ⟨(unit - f.eSub).toNat * 2 ^ f.mb + n, inexact, tiny⟩

/-- The value that replaces an overflow (R65). -/
def FloatFmt.overflow (f : FloatFmt) (rm : Rm) (neg : Bool) : Nat :=
  let toInf := match rm with | .rn => true | .rz => false | .ru => !neg | .rd => neg
  f.withSign neg (match toInf, f.inf with | true, some i => i | _, _ => f.maxBits)

/-- A finite exact value written to a format with infinities: R64, R65, R66, R68, R459. -/
def FloatFmt.writeFin (f : FloatFmt) (rm : Rm) (ftz : Bool) (neg : Bool) (m : Nat) (e : Int) : Res :=
  let r := f.roundMag rm neg m e
  if f.maxBits < r.mag then ⟨f.overflow rm neg, flOF ||| flNX⟩
  else if ftz && f.ftz && r.mag != 0 && decide (r.mag < 2 ^ f.mb) then ⟨f.withSign neg 0, flUF ||| flNX⟩
  else ⟨f.withSign neg r.mag, flagIf r.inexact flNX ||| flagIf (r.inexact && r.tiny) flUF⟩

/-- Any exact result written to a binary format; a NaN is canonical (R67). -/
def FloatFmt.write (f : FloatFmt) (rm : Rm) (ftz : Bool) : FVal → Res
  | .nan _ => ⟨f.nan.getD 0, 0⟩
  | .inf neg => ⟨f.withSign neg (f.inf.getD f.maxBits), 0⟩
  | .fin neg m e => f.writeFin rm ftz neg m e

/-! ## Exact operations (R65, R98) -/

def signedM (neg : Bool) (m : Nat) : Int := if neg then -(m : Int) else m

def addFin (rm : Rm) (n1 : Bool) (m1 : Nat) (e1 : Int) (n2 : Bool) (m2 : Nat) (e2 : Int) : FVal :=
  let e := min e1 e2
  let x := signedM n1 (m1 * 2 ^ (e1 - e).toNat) + signedM n2 (m2 * 2 ^ (e2 - e).toNat)
  if x = 0 then .fin (if n1 == n2 then n1 else rm == .rd) 0 e
  else .fin (decide (x < 0)) x.natAbs e

/-- The sum, and whether it is invalid. -/
def addV (rm : Rm) : FVal → FVal → FVal × Bool
  | .nan s, .nan s' => (.nan false, s || s')
  | .nan s, _ => (.nan false, s)
  | _, .nan s => (.nan false, s)
  | .inf a, .inf b => if a == b then (.inf a, false) else (.nan false, true)
  | .inf a, _ => (.inf a, false)
  | _, .inf b => (.inf b, false)
  | .fin n1 m1 e1, .fin n2 m2 e2 => (addFin rm n1 m1 e1 n2 m2 e2, false)

def negV : FVal → FVal
  | .nan s => .nan s
  | .inf n => .inf (!n)
  | .fin n m e => .fin (!n) m e

def mulV : FVal → FVal → FVal × Bool
  | .nan s, .nan s' => (.nan false, s || s')
  | .nan s, _ => (.nan false, s)
  | _, .nan s => (.nan false, s)
  | .inf a, .inf b => (.inf (a != b), false)
  | .inf a, .fin n m _ => if m = 0 then (.nan false, true) else (.inf (a != n), false)
  | .fin n m _, .inf b => if m = 0 then (.nan false, true) else (.inf (n != b), false)
  | .fin n1 m1 e1, .fin n2 m2 e2 => (.fin (n1 != n2) (m1 * m2) (e1 + e2), false)

/-- a × b + c (R98): 0 × ∞ is invalid even when c is a quiet NaN. -/
def fmaV (rm : Rm) (a b c : FVal) : FVal × Bool :=
  let (p, bad) := mulV a b
  let (r, bad') := addV rm p c
  (r, bad || bad')

/-- Compares two finite or infinite values; `none` when one is a NaN. -/
def cmpV : FVal → FVal → Option Ordering
  | .nan _, _ => none
  | _, .nan _ => none
  | .inf a, .inf b => some (if a == b then .eq else if a then .lt else .gt)
  | .inf a, _ => some (if a then .lt else .gt)
  | _, .inf b => some (if b then .gt else .lt)
  | .fin n1 m1 e1, .fin n2 m2 e2 =>
    let e := min e1 e2
    some (compare (signedM n1 (m1 * 2 ^ (e1 - e).toNat)) (signedM n2 (m2 * 2 ^ (e2 - e).toNat)))

def FVal.isSNaN : FVal → Bool
  | .nan s => s
  | _ => false
def FVal.isNaN : FVal → Bool
  | .nan _ => true
  | _ => false
def FVal.neg : FVal → Bool
  | .nan _ => false
  | .inf n => n
  | .fin n _ _ => n
def FVal.isZero : FVal → Bool
  | .fin _ m _ => m == 0
  | _ => false

/-- m × 2^e rounded to an integer. -/
def toInteger (rm : Rm) (neg : Bool) (m : Nat) (e : Int) : Nat × Bool := shiftRound rm neg m (-e)

/-- ⌊√n⌋, by bits from `k` down. -/
def isqrt (n : Nat) : (k : Nat) → Nat → Nat
  | 0, r => r
  | k + 1, r => let r' := r + 2 ^ k; isqrt n k (if r' * r' ≤ n then r' else r)

/-- √(m × 2^e) as a value whose last bit stands for everything below it, enough for any rounding (R64). -/
def sqrtFin (m : Nat) (e : Int) : FVal :=
  let (m, e) := if e % 2 = 0 then (m, e) else (2 * m, e - 1)
  let n := m * 2 ^ 128
  let r := isqrt n (n.log2 / 2 + 1) 0
  .fin false (2 * r + (if r * r = n then 0 else 1)) (e / 2 - 65)

/-! ## Conversions (R72 to R78) -/

/-- Into a format with infinities: R73, and E5M2's row of R74. -/
def cvtIeee (f : FloatFmt) (rm : Rm) (sat ftz : Bool) : FVal → Res
  | .nan s => ⟨f.nan.getD 0, flagIf s flIV⟩
  | .inf neg =>
    if sat then ⟨f.withSign neg f.maxBits, flSAT⟩ else ⟨f.withSign neg (f.inf.getD f.maxBits), 0⟩
  | .fin neg m e =>
    if sat && decide (f.maxBits < (f.roundMag rm neg m e).mag) then ⟨f.withSign neg f.maxBits, flSAT ||| flOF ||| flNX⟩
    else f.writeFin rm ftz neg m e

/-- A rounded magnitude written to an MX format, or its out-of-range replacement (R74). -/
def cvtE4M3 (rm : Rm) (sat : Bool) : FVal → Res
  | .nan s => ⟨0x7F, flagIf s flIV⟩
  | .inf neg => if sat then ⟨fE4M3.withSign neg 0x7E, flSAT⟩ else ⟨0x7F, flIV⟩
  | .fin neg m e =>
    let r := fE4M3.roundMag rm neg m e
    if fE4M3.maxBits < r.mag then
      if sat then ⟨fE4M3.withSign neg 0x7E, flOF ||| flSAT ||| flNX⟩ else ⟨0x7F, flOF ||| flNX⟩
    else ⟨fE4M3.withSign neg r.mag, flagIf r.inexact flNX ||| flagIf (r.inexact && r.tiny) flUF⟩

/-- E2M3, E3M2 and E2M1 (R74). -/
def cvtSmall (f : FloatFmt) (rm : Rm) : FVal → Res
  | .nan _ => ⟨0, flIV⟩
  | .inf neg => ⟨f.withSign neg f.maxBits, flSAT⟩
  | .fin neg m e =>
    let r := f.roundMag rm neg m e
    if f.maxBits < r.mag then ⟨f.withSign neg f.maxBits, flOF ||| flSAT ||| flNX⟩
    else ⟨f.withSign neg r.mag, flagIf r.inexact flNX ||| flagIf (r.inexact && r.tiny) flUF⟩

/-- The float format of a type code, if it is one with a sign and a mantissa. -/
def Ty.fmt : Ty → Option FloatFmt
  | .f32 => some fF32 | .f16 => some fF16 | .bf16 => some fBF16 | .f64 => some fF64
  | .e4m3 => some fE4M3 | .e5m2 => some fE5M2 | .e2m3 => some fE2M3 | .e3m2 => some fE3M2 | .e2m1 => some fE2M1
  | _ => none

/-- A value into a float type (R73, R74). -/
def cvtToFloat (dst : Ty) (rm : Rm) (sat ftz : Bool) (v : FVal) : Res :=
  match dst with
  | .f64 => cvtIeee fF64 rm sat ftz v
  | .f16 => cvtIeee fF16 rm sat ftz v
  | .bf16 => cvtIeee fBF16 rm sat ftz v
  | .e5m2 => cvtIeee fE5M2 rm sat ftz v
  | .e4m3 => cvtE4M3 rm sat v
  | .e2m3 => cvtSmall fE2M3 rm v
  | .e3m2 => cvtSmall fE3M2 rm v
  | .e2m1 => cvtSmall fE2M1 rm v
  | _ => cvtIeee fF32 rm sat ftz v

/-- Width and signedness of an integer type. -/
def Ty.intForm : Ty → Option (Nat × Bool)
  | .s32 => some (32, true) | .u32 => some (32, false) | .s64 => some (64, true) | .u64 => some (64, false)
  | .int8 => some (8, true) | .int4 => some (4, true)
  | _ => none

def intMin (w : Nat) (signed : Bool) : Int := if signed then -(2 ^ (w - 1) : Nat) else 0
def intMax (w : Nat) (signed : Bool) : Int := if signed then (2 ^ (w - 1) : Nat) - 1 else (2 ^ w : Nat) - 1
/-- The low w bits of an integer. -/
def wrapInt (w : Nat) (x : Int) : Nat := (x % (2 ^ w : Nat)).toNat
/-- An integer read from its low w bits. -/
def readInt (w : Nat) (signed : Bool) (x : Nat) : Int :=
  let x := x % 2 ^ w
  if signed && decide (2 ^ (w - 1) ≤ x) then (x : Int) - (2 ^ w : Nat) else x

/-- From a float to an integer (R75). -/
def cvtToInt (w : Nat) (signed : Bool) (rm : Rm) : FVal → Res
  | .nan _ => ⟨0, flIV⟩
  | .inf neg => ⟨wrapInt w (if neg then intMin w signed else intMax w signed), flIV⟩
  | .fin neg m e =>
    let (n, inexact) := toInteger rm neg m e
    let x := signedM neg n
    if x < intMin w signed then ⟨wrapInt w (intMin w signed), flIV⟩
    else if intMax w signed < x then ⟨wrapInt w (intMax w signed), flIV⟩
    else ⟨wrapInt w x, flagIf inexact flNX⟩

/-- Between integers, from w₀ bits to w (R76): into a wider one it extends, else it wraps or, under .SAT, clamps. -/
def cvtIntInt (w₀ w : Nat) (signed : Bool) (sat : Bool) (x : Int) : Res :=
  let sat := sat && decide (w ≤ w₀)
  if sat && decide (x < intMin w signed) then ⟨wrapInt w (intMin w signed), flSAT ||| flNX⟩
  else if sat && decide (intMax w signed < x) then ⟨wrapInt w (intMax w signed), flSAT ||| flNX⟩
  else ⟨wrapInt w x, 0⟩

def intV (x : Int) : FVal := .fin (decide (x < 0)) x.natAbs 0

/-- From F32 to E8M0 (R77). -/
def cvtToE8M0 (rm : Rm) : FVal → Res
  | .nan _ => ⟨0xFF, flIV⟩
  | .inf _ => ⟨0xFF, flIV⟩
  | .fin _ m e =>
    if m = 0 then ⟨0, 0⟩
    else
      let k := leadExp m e
      let pow := m == 2 ^ m.log2
      -- |x| = 2^k × m / 2^(log2 m); 1.5 × 2^k and above go up under .RN
      let up := match rm with
        | .rn => decide (3 * 2 ^ m.log2 ≤ 2 * m)
        | .ru => !pow
        | _ => false
      let k' := if up then k + 1 else k
      if leadExp m e < -127 || (k == -127 && pow) then ⟨0, flagIf (!(k == -127 && pow)) (flUF ||| flNX)⟩
      else if 127 < k' then ⟨0xFE, flOF ||| flNX⟩
      else ⟨(k' + 127).toNat, flagIf (!pow || up) flNX⟩

/-- From E8M0 to F32 (R77). A zero that .FTZ writes in place of 2^-127 raises UF (R68) and NX (R459). -/
def cvtFromE8M0 (ftz : Bool) (x : Nat) : Res :=
  if x = 0xFF then ⟨0x7FC00000, 0⟩ else if x = 0 then (if ftz then ⟨0, flUF ||| flNX⟩ else ⟨0x00400000, 0⟩)
  else ⟨x * 2 ^ 23, 0⟩

/-- The value of an E8M0 scale, `none` for 0xFF. -/
def scaleExp (x : Nat) : Option Int := if x = 0xFF then none else some ((x : Int) - 127)

/-- The bits of a source of a type, read from the place of R103. -/
def Ty.place : Ty → Nat
  | .f32 | .s32 | .u32 => 32
  | .f64 | .s64 | .u64 => 64
  | .f16 | .bf16 => 16
  | .e4m3 | .e5m2 | .int8 | .e8m0 => 8
  | .e2m3 | .e3m2 => 6
  | .e2m1 | .int4 => 4

/-- CVT and SCVT, one element (R104): bits at the source's place to bits at the destination's. R76 gives .SAT no meaning from an integer to a
float, so it is ignored there. -/
def convert (src dst : Ty) (rm : Rm) (sat ftz : Bool) (x : Nat) : Res :=
  let x := x % 2 ^ src.place
  match src.fmt, src.intForm, dst.intForm with
  | some f, _, some (w, sg) => cvtToInt w sg rm (f.read ftz x)
  | some f, _, none => if dst == .e8m0 then cvtToE8M0 rm (f.read ftz x) else cvtToFloat dst rm sat ftz (f.read ftz x)
  | none, some (w, sg), some (w', sg') => cvtIntInt w w' sg' sat (readInt w sg x)
  | none, some (w, sg), none => cvtToFloat dst rm false ftz (intV (readInt w sg x))
  | none, none, _ => cvtFromE8M0 ftz x

/-! ## Stochastic rounding (R78) -/

/-- The result of CVTSR for a finite value: between the neighbours lo and hi of |x| on the destination's grid, hi is
taken when R < T. -/
def cvtsrFin (dst : Ty) (f : FloatFmt) (sat ftz : Bool) (r : Nat) (neg : Bool) (m : Nat) (e : Int) : Res :=
  if m = 0 then cvtToFloat dst .rn sat ftz (.fin neg 0 e)
  else
    let unit := max (leadExp m e - f.mb) f.eSub
    let (lo, inexact) := shiftRound .rz false m (unit - e)
    if !inexact then
      -- on the grid: no underflow, whatever its size
      cvtToFloat dst .rn sat ftz (.fin neg m e)
    else
      let k := (unit - e).toNat
      let t := 65536 * (m % 2 ^ k) / 2 ^ k
      let v := if r < t then lo + 1 else lo
      let c := cvtToFloat dst .rn sat ftz (.fin neg v unit)
      let low := decide (leadExp m e < f.eMin)
      ⟨c.bits, c.fl ||| flNX ||| flagIf low flUF⟩

def cvtsr (dst : Ty) (sat ftz : Bool) (r : Nat) (x : Nat) : Res :=
  match fF32.read ftz x with
  | .fin neg m e => cvtsrFin dst ((Ty.fmt dst).getD fF32) sat ftz r neg m e
  | v => cvtToFloat dst .rn sat ftz v

/-! ## Block scales (R79, R80) -/

/-- emax of R79. -/
def Ty.emax : Ty → Int
  | .e4m3 => 8 | .e5m2 => 15 | .e2m3 => 2 | .e3m2 => 4 | .e2m1 => 2 | .int8 => 6 | _ => 2

/-- The larger of two magnitudes. -/
def magMax (a b : Nat × Int) : Nat × Int :=
  let e := min a.2 b.2
  if a.1 * 2 ^ (a.2 - e).toNat < b.1 * 2 ^ (b.2 - e).toNat then b else a

/-- The scale X of a block of F32 patterns: `none` where an input is a NaN or an infinity; 0 where all are zeros. -/
inductive BlockScale where
  | invalid
  | zero
  | exp (s : Int)
  deriving DecidableEq, Repr

def blockScale (ty : Ty) (xs : List Nat) : BlockScale :=
  let vs := xs.map fF32.value
  if vs.any (fun v => match v with | .fin _ _ _ => false | _ => true) then .invalid
  else
    let amax := vs.foldl (fun a v => match v with | .fin _ m e => magMax a (m, e) | _ => a) (0, 0)
    if amax.1 = 0 then .zero else .exp (max (-127) (leadExp amax.1 amax.2 - Ty.emax ty))

def BlockScale.bits : BlockScale → Nat
  | .invalid => 0xFF
  | .zero => 0
  | .exp s => (s + 127).toNat

/-- One element of a block. -/
def blockElem (ty : Ty) (rm : Rm) (x : Nat) : BlockScale → Res
  | .invalid => ⟨match ty with | .e4m3 => 0x7F | .e5m2 => 0x7E | _ => 0, flIV⟩
  | .zero =>
    let neg := (fF32.value x).neg
    ⟨match Ty.fmt ty with | some f => f.withSign neg 0 | none => 0, 0⟩
  | .exp s =>
    match fF32.value x with
    | .fin neg m e =>
      match ty with
      | .int8 | .int4 =>
        let lim : Int := if ty == .int8 then 127 else 7
        let (n, inexact) := toInteger rm neg m (e - s)
        let v := signedM neg n
        let w := if ty == .int8 then 8 else 4
        if lim < v then ⟨wrapInt w lim, flSAT ||| flNX⟩
        else if v < -lim then ⟨wrapInt w (-lim), flSAT ||| flNX⟩
        else ⟨wrapInt w v, flagIf inexact flNX⟩
      | _ => cvtToFloat ty rm true false (.fin neg m (e - s))
    | _ => ⟨0, 0⟩

/-- An element times its scale (R80). -/
def dequant (ty : Ty) (x : Nat) (scale : Nat) : Res :=
  match scaleExp (scale % 256) with
  | none => ⟨0x7FC00000, 0⟩
  | some s =>
    let x := x % 2 ^ ty.place
    let v := match Ty.fmt ty with
      | some f => f.value x
      | none => intV (readInt ty.place true x)
    match v with
    | .fin neg m e =>
      let r := fF32.writeFin .rn false neg m (e + s)
      ⟨r.bits, r.fl &&& (flOF ||| flUF)⟩
    | v => fF32.write .rn false v

end Sys2Proof
end

