-- ==== Sys2Proof/Machine/Approx.lean ====
section
/-! DEFINITION. The approximate functions (spec/03_number_formats.md R81). The exact result is worked out here to far
more places than any bound needs; the result written is a free value inside the stated error bound, and the nearest
representable value where the free value falls outside it. -/
namespace Sys2Proof

inductive Fn where
  | rcp | rsq | exp2 | log2 | sin | cos | tanh
  deriving DecidableEq, Repr

def Fn.code : Fn → Nat
  | .rcp => 0 | .rsq => 1 | .exp2 => 2 | .log2 => 3 | .sin => 4 | .cos => 5 | .tanh => 6

/-- Fraction bits of the fixed-point work. -/
def fxBits : Nat := 256
/-- 2/π × 2^512. -/
def twoOverPi : Nat :=
  0xa2f9836e4e441529fc2757d1f534ddc0db6295993c439041fe5163abdebbc561b7246e3a424dd2e006492eea09d1921cfe1deb1cb129a73ee88235f52ebb4484
/-- π/2 × 2^256. -/
def halfPi : Nat := 0x1921fb54442d18469898cc51701b839a252049c1114cf98e804177d4c76273644
/-- ln 2 × 2^256. -/
def ln2 : Nat := 0xb17217f7d1cf79abc9e3b39803f2f6af40f343267298b62d8a0d175b8baafa2b

/-- m × 2^e as a fixed-point number of `k` fraction bits, cut off. -/
def toFx (k : Nat) (m : Nat) (e : Int) : Nat :=
  let s := e + k
  if 0 ≤ s then m * 2 ^ s.toNat else m / 2 ^ (-s).toNat

/-- Σ t^i/i!, `n` terms from the i-th on, with `p` the current term. -/
def expSum (t : Nat) : (n i p acc : Nat) → Nat
  | 0, _, _, acc => acc
  | n + 1, i, p, acc => let p' := p * t / 2 ^ fxBits / (i + 1); expSum t n (i + 1) p' (acc + p)

/-- e^t for 0 ≤ t < 1, in fixed point. -/
def expFx (t : Nat) : Nat := expSum t 80 0 (2 ^ fxBits) 0

/-- Σ z^(2i+1)/(2i+1), the series of artanh. -/
def atanhSum (z2 : Nat) : (n i p acc : Nat) → Nat
  | 0, _, _, acc => acc
  | n + 1, i, p, acc => atanhSum z2 n (i + 2) (p * z2 / 2 ^ fxBits) (acc + p / i)

/-- log₂ of m / 2^(log2 m), in fixed point. -/
def log2Frac (m : Nat) : Nat :=
  let one := 2 ^ m.log2
  let z := (m - one) * 2 ^ fxBits / (m + one)
  2 * atanhSum (z * z / 2 ^ fxBits) 90 1 z 0 * 2 ^ fxBits / ln2

/-- The alternating series of the sine (from i = 1, term t) and the cosine (from i = 0, term 1): `acc` plus and minus
t^i/i! for every second i. -/
def trigSum (t2 : Nat) : (n i p : Nat) → (sub : Bool) → Int → Int
  | 0, _, _, _, acc => acc
  | n + 1, i, p, sub, acc =>
    trigSum t2 n (i + 2) (p * t2 / 2 ^ fxBits / ((i + 1) * (i + 2))) (!sub) (if sub then acc - p else acc + p)

/-- sin or cos of a finite value, in fixed point; the argument is reduced exactly (R81). -/
def trigFx (cosine : Bool) (neg : Bool) (m : Nat) (e : Int) : Int :=
  -- |x| × 2/π in units of 2^-fxBits
  let s := e - 512 + fxBits
  let q := if 0 ≤ s then m * twoOverPi * 2 ^ s.toNat else m * twoOverPi / 2 ^ (-s).toNat
  let quad := q / 2 ^ fxBits % 4
  let t := q % 2 ^ fxBits * halfPi / 2 ^ fxBits
  let t2 := t * t / 2 ^ fxBits
  let sn := trigSum t2 40 1 t false 0
  let cs := trigSum t2 40 0 (2 ^ fxBits) false 0
  if cosine then (match quad with | 0 => cs | 1 => -sn | 2 => -cs | _ => sn)
  else
    let v := match quad with | 0 => sn | 1 => cs | 2 => -sn | _ => -cs
    if neg then -v else v

/-- e^(−t) for a fixed-point t ≥ 0 below 2^8, in fixed point. -/
def expNegFx (t : Nat) : Nat :=
  -- e^(−t) = 2^(−k) × 2^(−f)
  let y := t * 2 ^ fxBits / ln2
  let k := y / 2 ^ fxBits
  let f := y % 2 ^ fxBits
  2 ^ fxBits * 2 ^ fxBits / expFx (f * ln2 / 2 ^ fxBits) / 2 ^ k

/-- What a function gives: a value the table states exactly, with its flags, or a value close to the exact result whose
written form may differ from it within the bound; or a value that the spec does not state (log 131). -/
inductive FnOut where
  | exact (v : FVal) (fl : FlagSet)
  | near (neg : Bool) (m : Nat) (e : Int)
  | unstated
  deriving DecidableEq, Repr

def fxV (x : Int) : FVal := .fin (decide (x < 0)) x.natAbs (-fxBits)

def isPow2 (m : Nat) : Bool := m == 2 ^ m.log2

/-- The functions on a finite nonzero value. -/
def Fn.finite (f : Fn) (neg : Bool) (m : Nat) (e : Int) : FnOut :=
  match f with
  | .rcp =>
    if isPow2 m then .exact (.fin neg 1 (-(leadExp m e))) 0
    else .near neg (2 ^ (2 * fxBits) / m * 2 + 1) (-e - (2 * fxBits : Nat) - 1)
  | .rsq =>
    if neg then .exact (.nan false) flIV
    else
      let (m, e) := if e % 2 = 0 then (m, e) else (2 * m, e - 1)
      let q := 2 ^ (4 * fxBits) / m
      let r := isqrt q (q.log2 / 2 + 1) 0
      if r * r * m = 2 ^ (4 * fxBits) then .near false r (-e / 2 - (2 * fxBits : Nat))
      else .near false (2 * r + 1) (-e / 2 - (2 * fxBits : Nat) - 1)
  | .exp2 =>
    -- x = k + fr, with 0 ≤ fr < 1
    if 12 < leadExp m e then
      if neg then .near false 1 (-100000) else .exact (.inf false) flOF
    else
      let x : Int := if neg then -(toFx fxBits m e : Int) else toFx fxBits m e
      let k := x / (2 ^ fxBits : Nat)
      let fr := (x % (2 ^ fxBits : Nat)).toNat
      if fr = 0 then .exact (.fin false 1 k) 0 else .near false (expFx (fr * ln2 / 2 ^ fxBits)) (k - fxBits)
  | .log2 =>
    if neg then .exact (.nan false) flIV
    else if isPow2 m then .exact (intV (leadExp m e)) 0
    else
      match fxV (leadExp m e * (2 ^ fxBits : Nat) + log2Frac m) with
      | .fin n m' e' => .near n m' e'
      | v => .exact v 0
  | .sin =>
    match fxV (trigFx false neg m e) with
    | .fin n m' e' => .near n m' e'
    | v => .exact v 0
  | .cos =>
    match fxV (trigFx true neg m e) with
    | .fin n m' e' => .near n m' e'
    | v => .exact v 0
  | .tanh =>
    if 6 < leadExp m e then .near neg (2 ^ fxBits - 1) (-fxBits)
    else
      -- the result is below 1, also where e^(−2x) is too small to be seen here
      let q := max 1 (expNegFx (2 * toFx fxBits m e))
      .near neg ((2 ^ fxBits - q) * 2 ^ fxBits / (2 ^ fxBits + q)) (-fxBits)

/-- The special results of R81's table, and the exact or near value otherwise. The table states no result of FLOG2 for +∞: it is a free
value, and raises none of the flags that the table states (log 131). -/
def Fn.apply (f : Fn) : FVal → FnOut
  | .nan s => .exact (.nan false) (flagIf s flIV)
  | .inf neg =>
    match f with
    | .rcp => .exact (.fin neg 0 0) 0
    | .rsq => if neg then .exact (.nan false) flIV else .exact (.fin false 0 0) 0
    | .exp2 => if neg then .exact (.fin false 0 0) 0 else .exact (.inf false) 0
    | .log2 => if neg then .exact (.nan false) flIV else .unstated
    | .sin | .cos => .exact (.nan false) flIV
    | .tanh => .exact (.fin neg 1 0) 0
  | .fin neg m e =>
    if m = 0 then
      match f with
      | .rcp | .rsq => .exact (.inf neg) flDZ
      | .exp2 => .exact (.fin false 1 0) 0
      | .log2 => .exact (.inf true) flDZ
      | .sin | .tanh => .exact (.fin neg 0 0) 0
      | .cos => .exact (.fin false 1 0) 0
    else f.finite neg m e

/-- The error bound as a multiple m × 2^e, given the exact result's leading exponent (R81). `x` is the operand. -/
def Fn.bound (f : Fn) (fm : FloatFmt) (x : FVal) (top : Int) : Nat × Int :=
  let ulp := max (top - fm.mb) fm.eSub
  match f with
  | .rcp | .rsq => (1, ulp)
  | .exp2 | .tanh => (2, ulp)
  | .log2 =>
    match x with
    | .fin _ m e =>
      let k := leadExp m e
      if k == -1 || k == 0 || (k == 1 && isPow2 m) then magMax (2, ulp) (1, -22) else (2, ulp)
    | _ => (2, ulp)
  | .sin | .cos => (1, -22)

def absDiffLe (a b : FVal) (m : Nat) (e : Int) : Bool :=
  match a, b with
  | .fin n1 m1 e1, .fin n2 m2 e2 =>
    match addFin .rn n1 m1 e1 (!n2) m2 e2 with
    | .fin _ d ed => cmpV (.fin false d ed) (.fin false m e) != some .gt
    | _ => false
  | _, _ => false

/-- Whether a tiny exact result differs from what is written (R81's last bullet). -/
def tinyFlag (fm : FloatFmt) (neg : Bool) (m : Nat) (e : Int) (written : Nat) : FlagSet :=
  let same := match fm.value written with
    | .fin n m' e' => addFin .rn n m' e' (!neg) m e |>.isZero
    | _ => false
  flagIf ((fm.roundMag .rn neg m e).tiny && !same) flUF

/-- The result in a format, `free` being the free value of this operand (R81). -/
def Fn.result (f : Fn) (fm : FloatFmt) (ftz : Bool) (free : DWord) (x : FVal) : Res :=
  match f.apply x with
  | .exact v fl =>
    let r := fm.write .rn ftz v
    ⟨r.bits, fl ||| (r.fl &&& (flOF ||| flUF))⟩
  | .unstated => ⟨free.toNat % (2 * fm.signBit), 0⟩
  | .near neg m e =>
    let cand := free.toNat % (2 * fm.signBit)
    let bd := f.bound fm x (leadExp m e)
    let ok := absDiffLe (fm.value cand) (.fin neg m e) bd.1 bd.2 &&
      (f != .tanh || cmpV (.fin false 1 0) (match fm.value cand with | .fin _ a b => .fin false a b | v => v) != some .lt)
    let r0 := fm.writeFin .rn false neg m e
    let bits := if ok then cand else r0.bits
    let flush := ftz && bits % fm.signBit != 0 && decide (bits % fm.signBit < 2 ^ fm.mb)
    let w := if flush then fm.withSign neg 0 else bits
    ⟨w, (r0.fl &&& flOF) ||| tinyFlag fm neg m e w ||| flagIf flush flUF⟩

/-- Under .F16X2 the result is computed in binary32 and rounded to binary16. -/
def Fn.resultHalf (f : Fn) (ftz : Bool) (free : DWord) (x : FVal) : Res :=
  let a := f.result fF32 false free x
  let r := fF16.write .rn ftz (fF32.value a.bits)
  let uf := match f.apply x with
    | .near neg m e => tinyFlag fF16 neg m e r.bits
    | .exact (.fin neg m e) _ => if m = 0 then 0 else tinyFlag fF16 neg m e r.bits
    | .exact _ _ | .unstated => 0
  let flush := r.bits != (fF16.write .rn false (fF32.value a.bits)).bits
  ⟨r.bits, (a.fl &&& (flIV ||| flDZ ||| flOF)) ||| (r.fl &&& flOF) ||| uf ||| flagIf flush flUF⟩

end Sys2Proof
end

