-- ==== Sys2Proof/Machine/FloatOps.lean ====
section
/-! DEFINITION. Floating-point operations on the elements of a register (spec/04_arithmetic_instructions.md R97 to R102,
R152's floating operations use them too). -/
namespace Sys2Proof

/-- One element: `fadd` to `ffma` and `fsub` are exact operations rounded once (R98). -/
def elAdd (m : FpMod) (f : FloatFmt) (a b : Nat) : Res :=
  let (v, bad) := addV m.rm (f.read m.ftz a) (f.read m.ftz b)
  let r := f.write m.rm m.ftz v
  ⟨r.bits, r.fl ||| flagIf bad flIV⟩
def elSub (m : FpMod) (f : FloatFmt) (a b : Nat) : Res :=
  let (v, bad) := addV m.rm (f.read m.ftz a) (negV (f.read m.ftz b))
  let r := f.write m.rm m.ftz v
  ⟨r.bits, r.fl ||| flagIf bad flIV⟩
def elMul (m : FpMod) (f : FloatFmt) (a b : Nat) : Res :=
  let (v, bad) := mulV (f.read m.ftz a) (f.read m.ftz b)
  let r := f.write m.rm m.ftz v
  ⟨r.bits, r.fl ||| flagIf bad flIV⟩
def elFma (m : FpMod) (f : FloatFmt) (a b c : Nat) : Res :=
  let (v, bad) := fmaV m.rm (f.read m.ftz a) (f.read m.ftz b) (f.read m.ftz c)
  let r := f.write m.rm m.ftz v
  ⟨r.bits, r.fl ||| flagIf bad flIV⟩

/-- The order of FMIN and FMAX: −0 is below +0 (R99). -/
def minLe (a b : FVal) : Bool :=
  match cmpV a b with
  | some .lt => true
  | some .gt => false
  | _ => a.neg || !b.neg

def elMinMax (isMin : Bool) (m : FpMod) (f : FloatFmt) (a b : Nat) : Res :=
  let x := f.read m.ftz a
  let y := f.read m.ftz b
  let v := if x.isNaN then y else if y.isNaN then x else if minLe x y == isMin then x else y
  ⟨(f.write .rn false v).bits, flagIf (x.isSNaN || y.isSNaN) flIV⟩

/-- R100: the condition and whether it raises IV. -/
def elCmp (c : FCond) (ftz : Bool) (f : FloatFmt) (a b : Nat) : Bool × FlagSet :=
  let x := f.read ftz a
  let y := f.read ftz b
  let o := cmpV x y
  let r := match c with
    | .eq => o == some .eq
    | .ne => o != some .eq
    | .lt => o == some .lt
    | .le => o == some .lt || o == some .eq
    | .gt => o == some .gt
    | .ge => o == some .gt || o == some .eq
    | .ord => o.isSome
    | .uno => o.isNone
  let bad := match c with
    | .lt | .le | .gt | .ge => o.isNone
    | _ => x.isSNaN || y.isSNaN
  (r, flagIf bad flIV)

/-- The class bit of a pattern (R101). -/
def elClass (f : FloatFmt) (a : Nat) : Nat :=
  match f.value a with
  | .nan s => if s then 0 else 1
  | .inf neg => if neg then 2 else 9
  | .fin neg m _ =>
    if m = 0 then (if neg then 5 else 6)
    else if m < 2 ^ f.mb then (if neg then 4 else 7)
    else if neg then 3 else 8

/-- FRND (R102). -/
def elRnd (m : FpMod) (f : FloatFmt) (a : Nat) : Res :=
  match f.read m.ftz a with
  | .fin neg x e => ⟨(f.writeFin .rn false neg (toInteger m.rm neg x e).1 0).bits, 0⟩
  | v => ⟨(f.write .rn false v).bits, flagIf v.isSNaN flIV⟩

/-- FFRAC (R102). -/
def elFrac (m : FpMod) (f : FloatFmt) (a : Nat) : Res :=
  match f.read m.ftz a with
  | .nan s => ⟨f.nan.getD 0, flagIf s flIV⟩
  | .inf _ => ⟨f.nan.getD 0, flIV⟩
  | .fin neg x e =>
    if 0 ≤ e then ⟨0, 0⟩
    else
      let k := (-e).toNat
      let fr := x % 2 ^ k
      let v := if neg && fr != 0 then 2 ^ k - fr else fr
      let r := f.writeFin .rd false false v e
      ⟨r.bits, r.fl &&& flNX⟩

/-- FSQRT (R81). -/
def elSqrt (m : FpMod) (f : FloatFmt) (a : Nat) : Res :=
  match f.read m.ftz a with
  | .nan s => ⟨f.nan.getD 0, flagIf s flIV⟩
  | .inf neg => if neg then ⟨f.nan.getD 0, flIV⟩ else ⟨f.inf.getD 0, 0⟩
  | .fin neg x e =>
    if x = 0 then ⟨f.withSign neg 0, 0⟩
    else if neg then ⟨f.nan.getD 0, flIV⟩
    else f.write m.rm m.ftz (sqrtFin x e)

/-- One approximate element. A half is worked in binary32 (R81). -/
def elFn (fn : Fn) (m : FpMod) (f : FloatFmt) (a : Nat) : Res :=
  let free := Config.approx (fn.code * 2 + if f == fF32 then 0 else 1) (BitVec.ofNat 64 a)
  if f == fF32 then fn.result fF32 m.ftz free (f.read m.ftz a)
  else fn.resultHalf m.ftz free (f.read m.ftz a)

/-! ## Registers of elements (R71, R97) -/

/-- The elements' format, their width and their number. -/
def ftyFmt : FTy → FloatFmt
  | .f32 => fF32 | .f16x2 => fF16 | .bf16x2 => fBF16 | .f64 => fF64
def styFmt : STy → FloatFmt
  | .f32 => fF32 | .f16 => fF16 | .bf16 => fBF16 | .f64 => fF64
def ftyPacked : FTy → Bool
  | .f16x2 | .bf16x2 => true
  | _ => false

def elem (x : DWord) (i w : Nat) : Nat := x.toNat / 2 ^ (i * w) % 2 ^ w

/-- Applies an operation of three operands to each element. -/
def perElem (t : FTy) (op : FloatFmt → Nat → Nat → Nat → Res) (a b c : DWord) : DWord × FlagSet :=
  let f := ftyFmt t
  if ftyPacked t then
    let lo := op f (elem a 0 16) (elem b 0 16) (elem c 0 16)
    let hi := op f (elem a 1 16) (elem b 1 16) (elem c 1 16)
    (BitVec.ofNat 64 (lo.bits + hi.bits * 2 ^ 16), lo.fl ||| hi.fl)
  else
    let w := f.mb + f.eb + 1
    let r := op f (elem a 0 w) (elem b 0 w) (elem c 0 w)
    (BitVec.ofNat 64 r.bits, r.fl)

/-- A predicate over each element; packed types need both. -/
def perElemP (t : FTy) (op : FloatFmt → Nat → Nat → Bool × FlagSet) (a b : DWord) : Bool × FlagSet :=
  let f := ftyFmt t
  if ftyPacked t then
    let lo := op f (elem a 0 16) (elem b 0 16)
    let hi := op f (elem a 1 16) (elem b 1 16)
    (lo.1 && hi.1, lo.2 ||| hi.2)
  else
    let w := f.mb + f.eb + 1
    op f (elem a 0 w) (elem b 0 w)

end Sys2Proof
end

