-- ==== Sys2Proof/Machine/IntOps.lean ====
section
/-! DEFINITION. Integer operations on words (spec/04_arithmetic_instructions.md R90 to R96, R109 to R113). -/
namespace Sys2Proof

def bitList (w x : Nat) : List Bool := (List.range w).map x.testBit
def popCount (w x : Nat) : Nat := (bitList w x).count true
/-- Number of 0 bits above the highest 1 bit of a w-bit value. -/
def leadZeros (w x : Nat) : Nat := if x = 0 then w else w - 1 - x.log2
def bitsToNat (bs : List Bool) : Nat := bs.foldr (fun b n => b.toNat + 2 * n) 0
def reverseBits (w x : Nat) : Nat := bitsToNat (bitList w x).reverse

/-- An integer condition on two values of one width (R93). -/
def icmp {w : Nat} (c : ICond) (a b : BitVec w) : Bool :=
  match c with
  | .eq => a == b
  | .ne => a != b
  | .lt => a.slt b
  | .le => a.sle b
  | .gt => b.slt a
  | .ge => b.sle a
  | .ltU => a.ult b
  | .leU => a.ule b
  | .gtU => b.ult a
  | .geU => b.ule a

/-- Field masks of R95. -/
def fieldMask (pos len : Nat) : Word := BitVec.ofNat 32 ((2 ^ len - 1) * 2 ^ pos)

/-- BFX's field, zero- or sign-extended from its top bit. -/
def bfx (sgn : Bool) (pos len : Nat) (a : Word) : Word :=
  let f := a.toNat / 2 ^ pos % 2 ^ len
  if sgn then BitVec.ofNat 32 (wrapInt 32 (readInt len true f)) else BitVec.ofNat 32 f

def bfi (pos len : Nat) (old a : Word) : Word :=
  (old &&& ~~~(fieldMask pos len)) ||| ((a <<< pos) &&& fieldMask pos len)

/-- Position and length under .REG (R95). -/
def regField (b : Word) : Nat × Nat :=
  let pos := b.toNat % 32
  (pos, min (b.toNat / 256 % 32 + 1) (32 - pos))

/-- IDOT4 (R96). -/
def idot4 (sa sb sat : Bool) (a b c : Word) : Word :=
  let signed := sa || sb
  let term (i : Nat) : Int := readInt 8 sa (a.toNat / 2 ^ (8 * i)) * readInt 8 sb (b.toNat / 2 ^ (8 * i))
  let sum := readInt 32 signed c.toNat + term 0 + term 1 + term 2 + term 3
  let sum := if sat then max (intMin 32 signed) (min (intMax 32 signed) sum) else sum
  BitVec.ofNat 32 (wrapInt 32 sum)

/-- A uniform integer operation at the width of .W32 or of the register (R109). -/
def uop (w32 : Bool) (op : (w : Nat) → BitVec w → BitVec w → BitVec w) (a b : DWord) : DWord :=
  if w32 then ((op 32 (a.setWidth 32) (b.setWidth 32)).setWidth 64) else op 64 a b

end Sys2Proof
end

