-- ==== Sys2Proof/Machine/Sparse.lean ====
section
/-! DEFINITION. Finite maps from numbers as lists of pairs by rising key, with no pair that holds the default. -/
namespace Sys2Proof.Sparse

variable {α : Type} [DecidableEq α]

/-- The value of a key: the default where the key is not listed. -/
def get (dflt : α) : Sparse α → Nat → α
  | [], _ => dflt
  | (k, v) :: m, i => if i = k then v else get dflt m i

/-- Puts a pair before the first higher key. -/
def place (i : Nat) (x : α) : Sparse α → Sparse α
  | [] => [(i, x)]
  | e :: m => if i < e.1 then (i, x) :: e :: m else e :: place i x m

/-- Writes a value in place of the key's pair; writing the default only removes the pair. -/
def set (dflt : α) (m : Sparse α) (i : Nat) (x : α) : Sparse α :=
  let rest := m.filter fun e => e.1 != i
  if x = dflt then rest else place i x rest

/-- Every key of a list is above `lo`, keys rise, and no value is the default. -/
def wfFrom (dflt : α) : Sparse α → Nat → Bool
  | [], _ => true
  | (k, v) :: m, lo => decide (lo ≤ k) && !decide (v = dflt) && wfFrom dflt m (k + 1)

def wf (dflt : α) (m : Sparse α) : Bool := wfFrom dflt m 0

/-- Keeps the keys that a test accepts. -/
def keep (p : Nat → Bool) (m : Sparse α) : Sparse α := m.filter (fun e => p e.1)

end Sys2Proof.Sparse
end

