-- ==== Sys2Proof/Machine/State.lean ====
section
/-! DEFINITION. The state of the device as plain data, and its value right after reset. Each field's docstring names the
rule of spec/ that gives the machine that state; INVENTORY.md lists the reset values. -/
namespace Sys2Proof.Machine

/-- Why a step stops for good. -/
inductive Fault where
  /-- Raised by `execHostWrite` where the host writes to a physical address that lies in neither memory tier (R215): safe, since the
  machine stops where the spec gives such an address no memory. -/
  | noSuchAddress
  deriving DecidableEq, Repr

/-- Why a step has no meaning. -/
inductive Refusal where
  /-- Raised by an arm of `exec` for a row that has no meaning yet: safe, since nothing is claimed of it. -/
  | notModelled (mnemonic : String)
  deriving DecidableEq, Repr

/-! ## Causes (R377) -/

inductive Cause where
  | illegalOpcode | illegalOperand | privileged | misaligned | pageFault | protection | scratchBound | windowClosed
  | formatPairing | recordOverflow | recursionDepth | coresidency | ringCorrupt | remoteFault | remoteTimeout
  | eccRegister | eccScratch | storeStarved | drainDeadline | counterExhausted | breakpoint | singleStep | watchpoint
  | softwareTrap
  deriving DecidableEq, Repr

/-- The classes of R377. -/
inductive CauseClass where
  | halt | replay | kill | trap | ladder | firmware
  deriving DecidableEq, Repr

/-- Units that write stop records (R380). -/
inductive StopUnit where
  | core | matrix | copySeq | copyEngine | gatherer | boarding | rdma | select | recordStore
  deriving DecidableEq, Repr

/-- A stop, trap or error record (R380). -/
structure StopRec where
  time : Nat
  iaddr : Nat
  faddr : Nat
  cause : Option Cause
  unit : StopUnit
  prim : Bool
  fetch : Bool
  lane : Option Nat
  core : Nat
  cluster : Nat
  slot : Nat
  ctx : Nat
  node : Nat
  wgid : Nat
  qmask : Nat
  code : Nat
  detail : Nat
  /-- what a boarding port's record lists beside its 64 bytes (R350, log 105): layer and window of each live registration, with the tile
  register and segment of each claim not served -/
  claims : List (Nat × Nat × List (Nat × Nat)) := []
  deriving DecidableEq, Repr

/-! ## Threads of control -/

/-- A register that an instruction writes, as a window tracks it (R24). -/
inductive RegKey where
  | v (r l : Nat)
  | s (n : Nat)
  | p (k l : Nat)
  | f (n : Nat)
  | nevst
  /-- a tile register of the reservation (R297) -/
  | x (n : Nat)
  deriving DecidableEq, Repr

/-- One lane's access of a memory instruction with its sources as read at issue (R21): `va` a virtual address or a
scratchpad offset, `pa` the physical address once it is translated, `key` the page's key slot, `v` the data or operand, `cmp`
the compared value of CAS, `old` what a load or an atomic found and `bad` whether that is poisoned, `done` the done mask of
R197. -/
structure Access where
  lane : Nat
  va : Nat
  pa : Option Nat
  key : Nat
  lease : Nat
  host : Bool
  v : Nat
  cmp : Nat
  old : Option Nat
  bad : Bool
  done : Bool
  deriving DecidableEq, Repr

/-- An instruction in flight: issued, and its results not all assured (R22, R25, R138). -/
structure Flight where
  id : Nat
  i : Instr
  /-- address of its first word -/
  pc : Nat
  /-- instructions the party may still issue before its results are written; none for a detached one (R22) -/
  left : Option Nat
  /-- it has a register, predicate or flag result -/
  res : Bool
  /-- it counts on an access path and has not been lowered (R138) -/
  counted : Bool
  /-- results written, or stores acknowledged, or engine work complete -/
  done : Bool
  accs : List Access
  /-- scratchpad passes still to be served (R214) -/
  passes : Nat
  /-- values that an early read may still see (R24) -/
  olds : List (RegKey × Nat)
  /-- registers written by instructions inside its window (R24) -/
  clob : List RegKey
  order : Order
  scope : Scope
  /-- number of its store-queue entries not yet acknowledged -/
  owed : Nat
  /-- floating-point flags it raised, which reach %fpst by the end of its window (R70) -/
  fl : FlagSet
  /-- what a unit keeps for it: offset and, above bit 32, contents of the selection descriptor of a CSELK (R156, R159); the bits of
  %nevst that a NEVAL has set (R329) -/
  arg : Nat
  /-- the lowest lane that a peer refused or did not answer, with its cause and address (R417) -/
  fail : Option (Nat × Cause × Nat)
  deriving DecidableEq, Repr

/-- What a party waits in after its instruction has issued (R210, R252). -/
inductive Park where
  /-- a release wait at a scope before the instruction's own effect (R252) -/
  | release (i : Instr) (pc : Nat) (scope : Scope)
  /-- BARW's or BARAW's wait for PHASE to leave `phase` (R200) -/
  | barrier (off phase : Nat)
  /-- GBAR at an address and its place: its arrival is queued or performed, phase known once performed (R203) -/
  | gbar (addr pa key : Nat) (phase : Option Nat)
  /-- MWAIT's monitor (R207): address, place, key slot, value compared, deadline where there is a timeout -/
  | mwait (o : MwaitF) (addr pa key : Nat) (cmp : DWord) (deadline : Option Nat)
  /-- CNTWAIT's monitor: address, place, key slot (R276) -/
  | cntwait (addr pa key : Nat) (target : DWord)
  /-- SLEEP's deadline (R208) -/
  | sleep (until_ : Nat)
  /-- OALLOC.WAIT (R173) -/
  | oalloc (o : OallocF) (pc : Nat)
  /-- arrived at a phase boundary; `join` tells JOIN from PHASE (R181) -/
  | boundary (join : Bool)
  /-- an RDV arrival awaiting its round (R296) -/
  | rdv (point round : Nat)
  deriving DecidableEq, Repr

/-- A cause deferred to the party's next wait (R205, R283). -/
structure Deferred where
  path : Path
  cause : Cause
  faddr : Nat
  iaddr : Nat
  deriving DecidableEq, Repr

/-- What a wave and a sequencer hardware thread share (R9, R16, R294). -/
structure Thread where
  /-- program counter, 57 bits (R16) -/
  pc : Nat
  /-- s0 to s63 (R9) -/
  sregs : Sparse DWord
  /-- f1 to f7 in bits 1 to 7 (R9) -/
  fregs : BitVec 8
  /-- poison marks of s registers (R231) -/
  smark : BitVec 64
  /-- instructions in flight, oldest first -/
  flights : List Flight
  /-- number of the next instruction in flight -/
  nextId : Nat
  /-- completion registers W_CLUSTER, W_DEV and W_SYS (R250) -/
  wCluster : Nat
  wDev : Nat
  wSys : Nat
  /-- a pending ORD (R198) -/
  ord : Option (Order × Scope)
  park : Option Park
  deferred : List Deferred
  /-- when the store at issue began to stall (R224) -/
  stallFrom : Option Nat
  /-- acquires whose earlier loads may not all be performed: number of the first instruction that each bars (R252) -/
  acqFences : List Nat
  /-- cycles that its CLK does not count: those of its saves; while it is saved, the count at which that began (R404) -/
  away : Nat := 0
  deriving DecidableEq, Repr

/-- Kinds of mask-stack entries (R141). -/
inductive MaskKind where
  | ifK | elseK | loopK
  deriving DecidableEq, Repr

structure MaskEntry where
  kind : MaskKind
  mask : Mask
  addr : Nat
  deriving DecidableEq, Repr

/-- Debug state of a wave (R400). -/
structure Debug where
  halted : Bool
  step : Bool
  skipbp : Bool
  haltreq : Bool
  reason : Nat
  /-- a class-T cause to route at the wave's next instruction boundary (R394): cause, code, faddr, lane, iaddr -/
  pending : Option (Cause × Nat × Nat × Option Nat × Nat)
  /-- the trap record that its halt put to the debug mailbox (R393, R446) -/
  record : Option (List Byte) := none
  deriving DecidableEq, Repr

/-- A wave (R9 to R19). -/
structure Wave where
  t : Thread
  /-- v registers: register r of lane l under 256·r + l (R9) -/
  vregs : Sparse Word
  /-- poison marks of v registers, by the same keys (R231) -/
  vmark : List Nat
  /-- p1 to p7 (R9) -/
  preds : Sparse Mask
  /-- execution mask (R18) -/
  e : Mask
  /-- mask stack, top first (R18) -/
  stack : List MaskEntry
  fpst : FlagSet
  nevst : Word
  /-- allocated v registers (R10) -/
  nregs : Nat
  waveid : Nat
  core : Nat
  slot : Nat
  /-- barrier token: offset and phase (R200) -/
  token : Option (Nat × Nat)
  /-- issue stamp, times passed over, promotions (R374) -/
  stamp : Nat
  passed : Nat
  promoted : Nat
  dbg : Debug
  ended : Bool
  /-- recorded evaluations that a restore has still to submit again, in issue order (R331) -/
  resub : List Nat := []
  deriving DecidableEq, Repr

/-! ## Matrix engine (R287 to R312) -/

/-- A tile register: 128 rows of 256 bytes, tag 0 to 15, 16 scales a row under 16·row + j, marks of rows (R288). A scale not
listed is 0x7F (R289). -/
structure Tile where
  data : Sparse Byte
  tag : Nat
  scales : Sparse Byte
  marks : List Nat
  /-- an MFT alias: its bytes are pinned in the cluster cache (R301) -/
  pinned : Bool
  deriving DecidableEq, Repr

/-- An accumulator: element (i, n) under 128·i + n, and marks of elements (R288). -/
structure Acc where
  vals : Sparse Word
  marks : List Nat
  deriving DecidableEq, Repr

/-- A metadata queue of a sequencer pair (R306): capacity, entries of 512 bytes with their poison marks, oldest first. -/
structure MetaQ where
  cap : Nat
  entries : List (List Byte × Bool)
  deriving DecidableEq, Repr

/-- An adapter binding (R307). -/
structure Adapter where
  desc : BitVec 512
  handles : List Nat
  alpha : Nat
  rank : Nat
  cursor : Nat
  deriving DecidableEq, Repr

/-- The states of a registration (R341). -/
inductive RegState where
  | armed | capturing | done | fetching | refused
  deriving DecidableEq, Repr

/-- A claim of a segment for a tile register (R342): its flight, frames captured, whether one of them was corrupt, the tile so far, and
whether it is complete and only waits for an earlier claim on the same register. -/
structure Claim where
  id : Nat
  x : Nat
  tag : Nat
  seg : Nat
  got : Nat
  corrupt : Bool
  tile : Tile
  complete : Bool
  /-- what the fallback has read of the segment's image (R345) -/
  image : List Byte := []
  /-- the lap whose frames it has captured (R342) -/
  lap : Nat := 0
  deriving DecidableEq, Repr

/-- A layer entry of a lap plan (R336). -/
structure PlanLayer where
  maddr : Nat
  ctxmask : BitVec 64
  layer : Nat
  nseg : Nat
  key : Nat
  lead : Nat
  die : Nat
  ring : Nat
  scl : Bool
  fbok : Bool
  deriving DecidableEq, Repr

/-- A live ring registration of a matrix thread (R340, R341): layer, window, state, status bits of R348, the lap that served the last
claim, cycles stalled in this pass, the claims not served, in issue order, and the layer's entry when it registered. -/
structure Registration where
  layer : Nat
  win : Nat
  frames : Nat
  state : RegState
  next : Bool
  stall : Bool
  bad : Bool
  pois : Bool
  fb : Bool
  lap : Option Nat
  stalled : Nat
  claims : List Claim
  image : Option PlanLayer
  /-- the cycles at which the slots of its window that hold frames are free again (R343) -/
  busy : List Nat := []
  deriving DecidableEq, Repr

/-- A tensor record as it was read (R238). -/
structure Tensor where
  base : Nat
  oob : Nat
  elt : Nat
  rank : Nat
  ext : List Nat
  org : List Int
  step : List Nat
  tile : List Nat
  deriving DecidableEq, Repr

/-- What an MMA still has to do, with its operands as they were at its issue (R297, R305 to R308): tiles, the second one under
.SP with its queue, the adapter with its cursor, the next K block, and whether a poisoned entry was popped. -/
structure Mul where
  a : Tile
  b : Tile
  sp : Option (Tile × Nat)
  adp : Option Adapter
  k : Nat
  allBad : Bool
  /-- what it has read of the handle table: sectors with their marks (R308) -/
  table : Option (List (Nat × List Byte × Bool)) := none
  deriving DecidableEq, Repr

/-- Where MST and MSTA drain an accumulator to: memory under a tensor record and coordinate, or scratchpad rows by offset,
stride, rows and columns; `idx` the target rows under .IX (R309 to R311). -/
inductive DrainTo where
  | mem (t : Tensor) (coord : Nat) (add : Bool) (idx : Option (List Nat))
  | pad (off stride rows cols : Nat) (idx : Option (List Nat))
  deriving DecidableEq, Repr

/-- An instruction of a matrix thread that the engine has not finished: a fill of a tile register by MLD or MFT, a product into
an accumulator, a drain of one. -/
inductive MatWork where
  /-- `recs` the records read so far: the elements', and the scales' where there are any (R238) -/
  | fill (x : Nat) (tag : Nat) (pin : Bool) (va coord : Nat) (recs : List (Option Tensor))
  | mul (d : Nat) (m : Mul)
  | drain (d : Nat) (tag : Fmt) (rm : Rm) (dst : DrainTo)
  deriving DecidableEq, Repr

structure MatOp where
  /-- its flight -/
  id : Nat
  work : MatWork
  /-- since when its writes wait for write-lane credit (R284, R313) -/
  stallFrom : Option Nat
  /-- it met a replayable fault and waits for the restore (R313, R316) -/
  faulted : Bool
  deriving DecidableEq, Repr

/-- A sequencer hardware thread of a reservation (R293, R294). -/
structure SeqThread where
  matrix : Bool
  idx : Nat
  t : Thread
  running : Bool
  /-- the FORK instruction in flight it belongs to: wave and id -/
  fork : Nat × Nat
  adp : Option Adapter
  regs : List Registration
  /-- work not finished, in issue order -/
  ops : List MatOp
  /-- what tiles held before an instruction whose window may be open wrote them: flight, tile, contents (R24, R297) -/
  oldTiles : List (Nat × Nat × Tile)
  deriving DecidableEq, Repr

/-- A quadrant reservation (R287, R290): physical quadrants by rising number, tiles, accumulators, the pairs' queues and
threads, rounds of the rendezvous points. -/
structure Reservation where
  quads : List Nat
  tiles : List Tile
  accs : List Acc
  queues : List (Nat × Nat × MetaQ)
  threads : List SeqThread
  /-- rendezvous: point, round, parties arrived -/
  rdv : List (Nat × Nat × List Party)
  deriving DecidableEq, Repr

/-! ## Workgroups (R160 to R190, R381 to R389) -/

/-- An input record of a workgroup, or a record in a queue (R161). -/
structure Rec where
  bytes : List Byte
  depth : Nat
  /-- workgroup whose join counter it is linked to -/
  parent : Option Nat
  /-- when it was committed -/
  time : Nat
  deriving DecidableEq, Repr

/-- A reserved output slot (R172). -/
structure OutSlot where
  idx : Nat
  edge : Nat
  wave : Nat
  bytes : List Byte
  deriving DecidableEq, Repr

/-- Where a workgroup is: its waves on a core; its waves stopped while a save is under way or could not be written (R382);
in a save frame; in a frame of a wintered context (R389); in a phase record waiting for its children or for a place (R182);
ending (R186). -/
inductive WgStatus where
  | resident | stopped | saved | wintered | phase (queued : Bool) | ending
  deriving DecidableEq, Repr

/-- What a stopped or saved workgroup waits for before it may be restored (R174, R381, R383). -/
inductive SaveWhy where
  | fault (va : Nat) | space
  deriving DecidableEq, Repr

structure Workgroup where
  id : Nat
  ctx : Nat
  node : Nat
  wgid : Nat
  launch : Nat
  depth : Nat
  /-- cores of the span; the first is the workgroup's own (R373) -/
  cores : List Nat
  status : WgStatus
  why : List SaveWhy
  records : List Rec
  doneTaken : Bool
  join : Nat
  slots : List OutSlot
  /-- scratchpad allocation in bytes and its core-local start (R212) -/
  scratchSize : Nat
  scratchBase : Nat
  scratch : Sparse Byte
  scratchBad : List Nat
  waves : List Wave
  resv : Option Reservation
  /-- when it was placed -/
  placed : Nat
  /-- the records of the faults that stopped it (R239, R381) -/
  faultAt : List StopRec := []
  /-- its frame could not be written: it stays where it is with its waves stopped (R382) -/
  saveFailed : Bool := false
  deriving DecidableEq, Repr

/-! ## Contexts and graphs -/

/-- A node of an installed graph (R60). -/
structure Node where
  entry : Nat
  msec : Nat
  cseq : Nat
  /-- lengths of the two sequencer sections (R57, R293) -/
  mlen : Nat
  clen : Nat
  nodeid : Nat
  intype : Nat
  edge0 : Nat
  nout : Nat
  kind : Nat
  prio : Nat
  wavesM1 : Nat
  regs8 : Nat
  spanM1 : Nat
  depth : Nat
  scratchK : Nat
  phased : Bool
  idemp : Bool
  dbg : Bool
  isEntry : Bool
  cores : Nat
  timer : Nat
  akv : Bool
  akoff : Nat
  bfirst : Nat
  blast : Nat
  carry : BitVec 96
  /-- distance of R169 key 4 -/
  dist : Nat
  deriving DecidableEq, Repr

/-- Where an edge's records go (R420, R446). -/
inductive EdgeBind where
  | here
  | remote (dev ctx node : Nat)
  | outRing (ring : Nat)
  deriving DecidableEq, Repr

/-- An edge-table entry (R59, R163). -/
structure Edge where
  target : Nat
  rtype : Nat
  high : Nat
  recursive : Bool
  bind : EdgeBind
  deriving DecidableEq, Repr

structure Graph where
  base : Nat
  nodes : List Node
  types : List Nat
  edges : List Edge
  entries : List Nat
  deriving DecidableEq, Repr

/-- A slice of a node's queue on a die (R164), oldest first. -/
structure Slice where
  node : Nat
  die : Nat
  recs : List Rec
  deriving DecidableEq, Repr

/-- A workgroup formed and not yet placed (R167, R168). `member` is the launch and %wgid of a killed member of a co-resident launch,
which alone is launched again (R187). -/
structure Formed where
  node : Nat
  die : Nat
  recs : List Rec
  time : Nat
  member : Option (Nat × Nat) := none
  deriving DecidableEq, Repr

/-- A pinned network handle (R318): its descriptor's snapshot, and whether it still accepts rows (R322). -/
structure NetHandle where
  h : Nat
  desc : BitVec 1024
  accepting : Bool
  deriving DecidableEq, Repr

/-- A step of the pre-emption ladder (R387, R388): draining, with the command tag of a CTX_DESTROY that started or joined it; or
halted, its frames being written. -/
inductive Ladder where
  | none
  | drain (deadline : Nat) (destroy : Option Nat)
  | winter
  deriving DecidableEq, Repr

/-- Whether a context runs (R379, R389): halted with its state resident or, once wintered, never thawed; or wintered by the ladder. -/
inductive CtxRun where
  | running
  | halted (wintered : Bool)
  | winteredOut
  deriving DecidableEq, Repr

/-- A translation that a TLB of the package may still hold: page base, offset bits, frame, and the leaf's fields (R236, R237). -/
structure Tlb where
  va : Nat
  bits : Nat
  pa : Nat
  key : Nat
  lease : Nat
  transient : Bool
  r : Bool
  w : Bool
  x : Bool
  /-- the frame is in host memory, as an ATS reply gave it (R239) -/
  host : Bool := false
  deriving DecidableEq, Repr

/-- A context (R363 to R376). -/
structure Context where
  id : Nat
  desc : BitVec 512
  /-- descriptor rewrite that takes effect at the next period (R363) -/
  newDesc : Option (BitVec 512)
  /-- bucket levels in bytes or core cycles (R365) -/
  bktCore : Int
  bktRead : Int
  bktWrite : Int
  bktEnergy : Int
  /-- core tokens spent this period (R368) -/
  used : Nat
  runnableSince : Option Nat
  owed : Option Nat
  placements : Nat
  /-- a co-resident launch that is chosen and waits for room: its node and die (R170) -/
  holding : Option (Nat × Nat)
  graph : Option Graph
  slices : List Slice
  formed : List Formed
  handles : List NetHandle
  keys : List Nat
  run : CtxRun
  ladder : Ladder
  stops : List StopRec
  trapNode : Option Nat
  /-- debug mailbox: its out ring (R392) -/
  mailbox : Option Nat
  bps : List DWord
  /-- hotness sampler: write index, lost, accesses since the last sample (R240) -/
  smpIdx : Nat
  smpLost : Nat
  smpCount : Nat
  events : Option Nat
  /-- trap records waiting for record space (R393) -/
  trapWait : List StopRec
  /-- ATS replies held: virtual address, host address, length (R239) -/
  ats : List (Nat × Nat × Nat)
  /-- pages of page requests sent to the host and not answered (R239) -/
  pri : List Nat
  /-- pages that the host has denied, whose page request waits for the save of the workgroup that met the fault (R239, R381) -/
  denied : List Nat := []
  /-- translations used since the last invalidation that covers them (R237) -/
  tlb : List Tlb
  /-- what entries named before they were rewritten, since the last invalidation that covers them: address and length of the range,
  place and length of the frame, for leaves and for tables (R226, R237) -/
  named : List (Nat × Nat × Nat × Nat) := []
  /-- when the index of the hotness sampler may pass the samples written, oldest first (R240) -/
  smpDue : List Nat := []
  /-- the turns left of a round of the merge unit that had to wait, in their order (R443) -/
  merging : List Nat := []
  deriving DecidableEq, Repr

/-! ## Homes, caches and queues -/

/-- Memory: bytes by rising physical address, none of them 0, since an unlisted byte reads as 0 (R227, R456). -/
abbrev Memory := List Host.Cell

/-- The canonical form of memory. -/
def Memory.wf (m : Memory) : Bool := Sparse.wf (0 : Byte) m

/-- A leased copy of a 32-byte sector (R219, R245). `core` none for the cluster cache. -/
structure Copy where
  cluster : Nat
  core : Option Nat
  sector : Nat
  data : List Byte
  bad : Bool
  expiry : Nat
  deriving DecidableEq, Repr

/-- What a home remembers of a grant, for the completion times of R248. `core` none for a cluster cache, `peer` for a peer
device. -/
structure Grant where
  line : Nat
  cluster : Nat
  core : Option Nat
  peer : Bool
  expiry : Nat
  deriving DecidableEq, Repr

/-- A line with a reader count (R221) and the bytes its backing memory holds. -/
structure CountLine where
  line : Nat
  left : Nat
  backing : List Byte
  /-- poisoned sectors of the backing memory, and the key that wrote it -/
  bpois : List Nat := []
  bkey : Nat := 0
  deriving DecidableEq, Repr

/-- What a store-queue entry does at its home (R195, R203, R275). -/
inductive QKind where
  | store (rc : Nat)
  | atomic (op : AOp) (size : Size)
  /-- MSTA: each access adds a binary32 value, rounded in the output format (R310) -/
  | accum (t : Fmt) (rm : Rm)
  | arrive (total : Nat)
  | add (v : DWord)
  | debug (target : Nat) (off : Nat) (v : DWord)
  deriving DecidableEq, Repr

/-- Who a queue entry belongs to: an instruction in flight of a party, an engine command, a work request. -/
inductive Owner where
  | flight (p : Party) (id : Nat)
  | cmd (n : Nat)
  /-- a work request of a queue pair (R429) -/
  | wr (n : Nat)
  /-- the answer of a queue pair's responder to a packet (R436) -/
  | reply (qp psn : Nat)
  /-- a formed tile of a cluster's gatherer (R328) -/
  | tile (cluster n : Nat)
  | other
  deriving DecidableEq, Repr

/-- A write on its way to its home, in queue order (R136, R243, R248): bytes by physical address for a store, accesses for
an atomic. `times` are T_C, T_D and T_S once it is applied. -/
structure QEntry where
  n : Nat
  owner : Owner
  ctx : Nat
  cluster : Nat
  core : Option Nat
  kind : QKind
  line : Nat
  key : Nat
  lease : Nat
  host : Bool
  bytes : List (Nat × Byte)
  accs : List Access
  times : Option (Nat × Nat × Nat)
  /-- held at a frozen or reviving region (R227, R229) -/
  held : Bool
  /-- its data is poisoned (R231) -/
  bad : Bool
  /-- its place among the writes that reached their homes: of its arrival while it is held, of its application then (R229, R244) -/
  seq : Nat := 0
  /-- one more than the time at which the line's zero-length period had begun when it was applied, 0 for none (R253) -/
  since : Nat := 0
  /-- the virtual address of its first byte, where it has no accesses that tell (R417) -/
  vaddr : Nat := 0
  deriving DecidableEq, Repr

/-- A write of the host or of a peer that is held at frozen or reviving regions: its arrival number, the regions, the step it is, and
whether that is to happen again (R227, R229). -/
structure HeldWrite where
  seq : Nat
  regions : List Nat
  what : Instr
  again : Bool
  /-- areas that firmware has given another key slot since: place, length, slot (R229) -/
  keys : List (Nat × Nat × Nat) := []
  deriving DecidableEq, Repr

structure Home where
  mem : Memory
  /-- poison marks of 32-byte sectors (R231) -/
  poison : List Nat
  /-- number of the key that wrote each line, 0 for none (R229, R235) -/
  lineKey : Sparse Nat
  /-- liveness bits of 2 MiB regions (R226) -/
  live : List Nat
  reviving : List Nat
  frozen : List Nat
  counts : List CountLine
  dirty : List Nat
  /-- write counters of lines, by line, and of tree nodes, by 16 times the stack plus the level and by node (R229) -/
  wctr : Sparse Nat
  tree : List (Nat × Sparse Nat)
  /-- time of the last write applied to a line (R246) -/
  lastWrite : Sparse Nat
  grants : List Grant
  copies : List Copy
  /-- elided-read counters of stacks (R227) -/
  elided : Sparse Nat
  /-- writes that have reached their homes (R229, R244) -/
  seq : Nat := 0
  /-- one more than the time at which a line's present zero-length period began (R246, R253) -/
  zeroFrom : Sparse Nat := []
  /-- writes from outside the device that are held, by arrival (R229) -/
  held : List HeldWrite := []
  /-- COUNTER_EXHAUSTED events that firmware has not dealt with, oldest first: the regions that each froze (R229) -/
  exhausted : List (List Nat) := []
  deriving DecidableEq, Repr

/-! ## Copy engine (R261 to R285) -/

/-- A place that a copy reads or writes: a virtual address, with its translation where that was made at issue (place, key slot,
lease class, host); an offset in the workgroup's scratchpad allocation; a window address (R216); or bytes that the engine makes. -/
inductive Loc where
  | mem (va : Nat) (x : Option (Nat × Nat × Nat × Bool))
  | pad (off : Nat)
  | win (a : Nat)
  | made (bs : List Byte)
  deriving DecidableEq, Repr

/-- Some bytes of a line operation. -/
structure Piece where
  src : Loc
  dst : Loc
  n : Nat
  /-- the lane of an ACP that it serves -/
  lane : Nat := 0
  deriving DecidableEq, Repr

/-- What a command was issued to do (R264, R269, R279, R281): a CQ by the address of its descriptor, then by the descriptor as it was
read. -/
inductive CmdReq where
  | acp
  | tile (record coord dst layout : Nat)
  | cq (va : Nat)
  | desc (d : BitVec 512)
  | cqmeta (queue va count : Nat)
  deriving DecidableEq, Repr

/-- How far a command is: not accepted, held on a slot tag (R277), running, giving its signals: the number of the next; or, a CQ whose
remote access failed, before it writes its error dwords: the faulting address and the cause's code (R418). -/
inductive CmdStage where
  | new | tagHeld | running | signals (k : Nat) | failed (faddr code : Nat)
  deriving DecidableEq, Repr

/-- A command of the copy engine (R261 to R263). -/
structure Command where
  n : Nat
  req : CmdReq
  party : Party
  flight : Nat
  ctx : Nat
  wg : Nat
  cluster : Nat
  /-- address of the instruction -/
  iaddr : Nat
  stage : CmdStage
  /-- line operations still to be performed, each a list of pieces -/
  ops : List (List Piece)
  /-- base-die tile layout in use (R225) -/
  staged : Bool
  /-- transaction barrier offset, bytes of the whole command, bytes counted (R263) -/
  tb : Option Nat
  total : Nat
  counted : Nat
  /-- workgroups that take scratchpad parts, and parts kept for one that is saved: workgroup, bytes by offset with their marks, and how
  many its barrier counts (R270) -/
  targets : List Nat
  late : List (Nat × List (Nat × Byte × Bool) × Nat)
  tag : Option (Nat × Nat)
  counter : Option (Nat × Nat)
  acquire : Bool
  release : Option Scope
  rc : Nat
  /-- bytes past an allocation were dropped (R283) -/
  overrun : Bool
  /-- met a replayable fault and waits for the restore (R284) -/
  faulted : Bool
  /-- since when a write waits for write-lane credit (R284) -/
  stallFrom : Option Nat
  owedAcks : Nat
  wCluster : Nat
  wDev : Nat
  wSys : Nat
  /-- it has set its slot to FILLING (R277) -/
  filling : Bool := false
  /-- the bytes read so far of a metadata entry, with their marks (R281) -/
  part : List (Byte × Bool) := []
  /-- the launch of its workgroup, which a multicast mask names (R270) -/
  launch : Nat := 0
  /-- global places that an ACP has written: the place and its lane (R266) -/
  landed : List (Nat × Nat) := []
  deriving DecidableEq, Repr

/-! ## Evaluation gatherer (R318 to R331) -/

structure Row where
  ctx : Nat
  h : Nat
  wg : Nat
  wave : Nat
  flight : Nat
  lane : Nat
  inputs : List Nat
  time : Nat
  deriving DecidableEq, Repr

/-- A formed tile of at most 128 rows of one network (R326). -/
structure NTile where
  ctx : Nat
  h : Nat
  rows : List Row
  /-- formed by the gather timer (R329) -/
  timer : Bool
  /-- its number in its cluster -/
  n : Nat := 0
  deriving DecidableEq, Repr

/-- A cluster's gatherer: rows in arrival order, formed tiles, use of reserved quadrants this period (R312). -/
structure Gatherer where
  cluster : Nat
  rows : List Row
  tiles : List NTile
  used : List (Nat × Nat)
  /-- tiles formed so far -/
  formed : Nat := 0
  deriving DecidableEq, Repr

/-! ## Solstice ring (R332 to R350) -/

/-- A lap plan (R335) with its owner context. -/
structure LapPlan where
  ctx : Nat
  tempo : Nat
  stallUs : Nat
  layers : List PlanLayer
  /-- where the plan itself lies: address and length (R226) -/
  place : Nat × Nat := (0, 0)
  /-- the PLAN_SUBMITs that its taking effect answers: tags (R337, R449) -/
  tags : List Nat := []
  deriving DecidableEq, Repr

/-- A frame on its way: ring, place in the ring's sequence, header (R333), payload as it travels (R334). -/
structure RingFrame where
  ring : Nat
  idx : Nat
  head : BitVec 128
  bytes : List Byte
  deriving DecidableEq, Repr

structure Ring where
  plan : Option LapPlan
  newPlan : Option LapPlan
  /-- the plan ends at the next lap boundary: its owner is reset or destroyed (R337) -/
  ends : Bool
  lap : Nat
  /-- when the lap began -/
  start : Nat
  /-- frames of each ring injected in this lap -/
  injected : List Nat
  /-- frames seen at a cluster's stop of a ring in this lap, under 32·ring + cluster -/
  seen : Sparse Nat
  flying : List RingFrame
  /-- cycles that each ring has stalled in this lap (R344) -/
  stalls : List Nat
  /-- corrupt frames counted by each port, under 32·ring + cluster (R346) -/
  corrupt : Sparse Nat
  /-- what a ring's loader has read of its next frame: ring, bytes, whether a sector was poisoned (R334) -/
  loading : List (Nat × List Byte × Bool) := []
  /-- the cycle at which each cluster's tile store takes its next frame (R343) -/
  port : Sparse Nat := []
  deriving DecidableEq, Repr

/-! ## Remote memory access (R424 to R439) -/

inductive QpState where
  | init | rts | error
  deriving DecidableEq, Repr

/-- How far a work request is (R429, R433): posted; its packets on their way since a time; its local writes under way, with the bytes
not written; its signals; flushed with a status code, before and after the error dwords are written. -/
inductive WrStage where
  | waiting
  | started (sentAt : Nat)
  | landing (off : Nat) (rest : List Byte)
  | release
  | add
  | flush (code : Nat)
  | flushed
  deriving DecidableEq, Repr

/-- A work request in a queue (R426): its address and bits, who waits for it, first packet's number, bytes sent, and its local writes not
acknowledged with their completion times. -/
structure WorkReq where
  n : Nat
  va : Nat
  wr : BitVec 512
  party : Party
  flight : Nat
  stage : WrStage
  psn : Nat
  data : List Byte
  owedAcks : Nat
  wCluster : Nat
  wDev : Nat
  wSys : Nat
  /-- a RECV that a SEND has consumed (R434) -/
  consumed : Bool := false
  deriving DecidableEq, Repr

/-- Packets that the ports send. -/
inductive WireKind where
  | send | write | readReq | fetchAdd | cmpSwap | ack | response | rnrNak | nakInvalid | nakAccess | nakOp
  deriving DecidableEq, Repr

/-- An answer of a responder that has not left: it waits for writes on their way to a peer or the host (R259, R436). -/
structure QpReply where
  kind : WireKind
  psn : Nat
  bytes : List Byte
  owed : Nat
  deriving DecidableEq, Repr

/-- A queue pair (R424, R425, R433, R437, R438). -/
structure QPair where
  n : Nat
  ctx : Nat
  state : QpState
  firstErr : Nat
  /-- the payload of the QP_SET that created it (R451) -/
  params : BitVec 512
  sends : List WorkReq
  recvs : List WorkReq
  scc : Nat
  rcc : Nat
  flc : Nat
  /-- PSN of the next packet to send, and of the next expected -/
  nextPsn : Nat
  expPsn : Nat
  /-- acknowledgement timeouts and RNR NAKs since the last progress -/
  retries : Nat
  rnr : Nat
  approved : Bool
  /-- the last 16 atomics answered: PSN and old value, newest first -/
  replay : List (Nat × DWord)
  cached : Bool
  /-- sending rate under congestion notification -/
  rate : Nat
  /-- the PSN answered with an RNR NAK because the port's buffer was full (R438) -/
  refused : Option Nat := none
  /-- answers not sent yet, and the time before which none leaves (R259) -/
  replies : List QpReply := []
  ackFrom : Nat := 0
  deriving DecidableEq, Repr

/-- A packet that has come for a queue pair: requests with their first PSN (R430, R435), answers (R429, R430, R432), and a request with
immediate data or invalidation (R424). -/
inductive Arrival where
  | send (psn : Nat) (bytes : List Byte)
  | write (psn rkey va : Nat) (bytes : List Byte)
  | read (psn rkey va len : Nat)
  | fetchAdd (psn rkey va v : Nat)
  | cmpSwap (psn rkey va cmp new : Nat)
  | answer (bytes : List Byte)
  | rnrNak
  | nak (k : NakKind)
  | immediate (psn : Nat)
  deriving DecidableEq, Repr

/-- A packet that waits in its port's buffer (R436, R438). -/
structure Packet where
  port : Nat
  qp : Nat
  what : Arrival
  deriving DecidableEq, Repr

/-- A message sent to the other end of a queue pair: its first PSN, bytes, and when it leaves. -/
structure Wire where
  qp : Nat
  kind : WireKind
  psn : Nat
  bytes : List Byte
  time : Nat
  deriving DecidableEq, Repr

/-- A memory region entry (R435). -/
structure Region where
  n : Nat
  bits : BitVec 128
  deriving DecidableEq, Repr

/-! ## Peers (R411 to R423) -/

/-- An outstanding remote request (R415, R416), and who it is for. -/
structure RemoteReq where
  n : Nat
  owner : Owner
  ctx : Nat
  addr : Nat
  len : Nat
  write : Bool
  issued : Nat
  iaddr : Nat
  /-- records on their way to a node of a peer: edge-table index, their depth, and their bytes (R420) -/
  recs : Option (Nat × Nat × List (List Byte))
  /-- the virtual address that was translated, of a fault's record (R417) -/
  va : Nat := 0
  /-- a write: its queue entry, and which of the entry's accesses it carries where they are sent one by one (R414) -/
  entry : Option Nat := none
  part : Option Nat := none
  deriving DecidableEq, Repr

structure Peers where
  exports : List (Nat × DWord)
  reqs : List RemoteReq
  /-- sectors that peers have returned to engines: for whom, address, bytes, poison (R419); no bytes for one refused, or, with the
  last set, not answered -/
  returned : List (Owner × Nat × List Byte × Bool)
  /-- answers to inbound requests, newest first: source device, bytes, the sectors of the window that are poisoned among them, and T_S; or
  an error completion (R231, R413, R415) -/
  answers : List (Nat × Option (List Byte × List Nat × Nat))
  timeoutNs : Nat
  share : Nat
  /-- the skew is confirmed; when that was last done, once the device is in a pod; since when, while it is not synchronised (R423) -/
  synced : Bool
  lastSync : Option Nat
  confirmedSince : Option Nat
  /-- lanes remapped on fabric links, failed dies, disabled stations -/
  remaps : List (Nat × Nat)
  failedDies : List Nat
  stations : List (Nat × Nat)
  /-- the device is its pod's time master; what the time base has still to gain or lose, and the nanoseconds that have passed since it last
  did, as far as they count (R422) -/
  master : Bool := false
  adjust : Int := 0
  pace : Nat := 0
  deriving DecidableEq, Repr

/-! ## Host link and firmware (R440 to R457) -/

inductive RingState where
  | absent | idle | running | stopped
  deriving DecidableEq, Repr

/-- A mailbox ring (R441, R442). -/
structure Mailbox where
  n : Nat
  ctx : Nat
  size : Nat
  weight : Nat
  state : RingState
  err : Nat
  head : Nat
  tail : Nat
  /-- bytes the host has written, by offset in the ring -/
  bytes : Sparse Byte
  /-- unread bytes of each TAIL write, oldest first, the time that the time base must pass before its records are committed, and its
  place among the host's writes (R259) -/
  due : List (Nat × Nat × Nat)
  deriving DecidableEq, Repr

/-- An out ring (R444, R445): records written and not yet freed. -/
structure OutRing where
  n : Nat
  ctx : Option Nat
  kind : Nat
  vec : Nat
  base : Nat
  size : Nat
  state : RingState
  tail : Nat
  ohead : Nat
  shadow : Nat
  recs : List (List Byte)
  lost : Nat
  deriving DecidableEq, Repr

structure Vector where
  n : Nat
  cfg : DWord
  masked : Bool
  pending : Bool
  unreported : Nat
  oldest : Option Nat
  fired : Nat
  deriving DecidableEq, Repr

inductive FwState where
  | off | running | reloading
  deriving DecidableEq, Repr

/-- What the device signs and hashes with (R457). -/
inductive SpdmSign where
  | ecdsaP384
  deriving DecidableEq, Repr
inductive SpdmHash where
  | sha384
  deriving DecidableEq, Repr

/-- Answers through DOE (R457): what each carries, the signatures with the bytes they sign. -/
inductive SpdmReply where
  | version (major minor : Nat)
  | capabilities
  | algorithms (sign : SpdmSign) (hash : SpdmHash)
  | digests (bs : List Byte)
  | certificate (bs : List Byte)
  | challenge (nonce signature : List Byte)
  | measurements (ms : List (List Byte))
  deriving DecidableEq, Repr

structure HostLink where
  mailboxes : List Mailbox
  /-- ring 0 -/
  ring0 : Mailbox
  outs : List OutRing
  vectors : List Vector
  devstat : DWord
  evbase : DWord
  evcfg : DWord
  evshadow : DWord
  cmdctl : DWord
  windows : List (Nat × Nat × Nat)
  /-- firmware events held before out ring 0 exists or during a reload: out ring and record, and how many were dropped
  (R446, R450, R453) -/
  heldEvents : List (Nat × List Byte)
  heldLost : Nat
  bounds : Sparse Nat
  fw : FwState
  /-- bytes the device has written to host memory, newest first: address and bytes -/
  hostWrites : List (Nat × List Byte)
  mctpReplies : List (List Byte)
  spdmReplies : List SpdmReply
  /-- the latest T_S of host writes to device memory (R259) -/
  writeTs : Nat
  /-- HEAD writes dropped and counted (R445) -/
  headDrops : Nat
  /-- where the image pair that was last written to module flash came from: host address and length (R451, R456) -/
  flash : Option (Nat × Nat)
  /-- how many pairs have been written there, which numbers the one that is there, and the number of the one that was loaded (R451, R456) -/
  images : Nat := 0
  loaded : Nat := 0
  /-- whether the primary pair and the golden pair verified at this reset, and when bring-up's present step ends (R456) -/
  pairs : Bool × Bool := (false, false)
  bootAt : Nat := 0
  /-- when firmware last signalled the watchdog (R453) -/
  signal : Nat := 0
  /-- TAIL of rings that do not exist: the register holds what the host writes (R441) -/
  tails : Sparse Nat := []
  /-- of each vector, when firmware last sent its MSI-X message directly (R448) -/
  fwMsi : List (Nat × Nat) := []
  deriving DecidableEq, Repr

structure Power where
  capW : Nat
  mhz : Nat
  updated : Bool
  deriving DecidableEq, Repr

/-- Service lists (R375): the mode, a change that waits for the period boundary with the tags of its commands, the valid entries, the
entry that runs, when its slice began, and whether it is over and only waits for its context's resources. -/
structure Service where
  active : Bool
  enter : Option (List DWord)
  leave : Bool
  tags : List Nat
  list : List DWord
  pos : Nat
  sliceFrom : Nat
  ending : Bool
  deriving DecidableEq, Repr

/-- A step that another agent takes, and the nanoseconds that pass before it. -/
structure Stimulus where
  after : Nat
  what : Instr
  deriving DecidableEq, Repr

/-! ## The device -/

structure State where
  /-- the party whose instruction issues now, chosen by ISSUE (log 1) -/
  cur : Option Party
  /-- parties found waiting at issue since anything last changed (log 1) -/
  blocked : List Party
  /-- steps of other agents to come, first first (log 1) -/
  agenda : List Stimulus
  /-- free values taken so far (log 2) -/
  tick : Nat
  /-- time base in nanoseconds (R14) -/
  time : Nat
  /-- main-clock cycles since device reset (R404) -/
  cycles : Nat
  wgs : List Workgroup
  ctxs : List Context
  nextWg : Nat
  nextLaunch : Nat
  home : Home
  /-- store queues of the cores and sequencers, in order of entry (R134, R136) -/
  queue : List QEntry
  nextQ : Nat
  /-- key slots: slot and key number (R229, R454) -/
  keys : List (Nat × Nat)
  nextKey : Nat
  /-- WP0 to WP3 of each core with the bound workgroup: core, n, value, workgroup (R398) -/
  wps : List (Nat × Nat × DWord × Nat)
  /-- GEN of each wave slot, under 128·core + slot (R400) -/
  gen : Sparse Nat
  cmds : List Command
  nextCmd : Nat
  gatherers : List Gatherer
  ring : Ring
  qps : List QPair
  /-- packets in the ports' buffers, oldest first -/
  inbox : List Packet := []
  regions : List Region
  nextWr : Nat
  /-- what the Ethernet ports have sent, newest first -/
  wire : List Wire
  /-- priority pauses of ports, and counts of packets not served (R424) -/
  paused : List (Nat × Nat)
  dropped : Sparse Nat
  /-- packets that a paused priority holds back, oldest first (R424) -/
  wireHeld : List Wire := []
  /-- congestion notifications sent for packets that came marked, newest first: queue pair and time (R424) -/
  notified : List (Nat × Nat) := []
  peers : Peers
  host : HostLink
  power : Power
  service : Service
  /-- time of the last period boundary (R365) -/
  period : Nat
  /-- corrected errors, by protected level: register files, scratchpads, memory-side cache, tiers, record store (R230, R386) -/
  corrected : Sparse Nat := []
  /-- of each core, the pipe last filled in its present cycle and the parties chosen in that cycle (R374) -/
  filled : List (Nat × Nat × List Party) := []
  /-- the stamp that the next wave placed, restored or yielding takes (R209, R374) -/
  nextStamp : Nat := 0
  deriving DecidableEq, Repr

/-! ## Reset -/

/-- A mailbox with nothing in it: ring 0 before READY (R450). -/
def Mailbox.zero : Mailbox := ⟨0, 0, 0, 0, .idle, 0, 0, 0, [], []⟩

def Home.reset : Home :=
  { mem := [], poison := [], lineKey := [], live := [], reviving := [], frozen := [], counts := [], dirty := [],
    wctr := [], tree := [], lastWrite := [], grants := [], copies := [], elided := [] }

def HostLink.reset : HostLink :=
  { mailboxes := [], ring0 := Mailbox.zero, outs := [], vectors := [], devstat := 0, evbase := 0, evcfg := 0, evshadow := 0,
    cmdctl := 0, windows := [], heldEvents := [], heldLost := 0, bounds := [], fw := .off, hostWrites := [], mctpReplies := [],
    spdmReplies := [], writeTs := 0, headDrops := 0, flash := none }

/-- The device right after reset: no context, no graph and no wave exists, every liveness bit is clear (R456), every key slot
is empty (R454). The values the spec does not give are named in logs 1, 2 and 4. -/
def State.reset : State :=
  { cur := none, blocked := [], agenda := [], tick := 0, time := 0, cycles := 0, wgs := [], ctxs := [], nextWg := 0, nextLaunch := 0,
    home := Home.reset, queue := [], nextQ := 0, keys := [], nextKey := 2, wps := [], gen := [], cmds := [], nextCmd := 0,
    gatherers := [], ring := ⟨none, none, false, 0, 0, [0, 0], [], [], [0, 0], [], [], []⟩, qps := [], regions := [], nextWr := 0, wire := [], paused := [],
    dropped := [], peers := ⟨[], [], [], [], 100000, 2, true, none, none, [], [], [], false, 0, 0⟩, host := HostLink.reset, power := ⟨4400, 2500, false⟩,
    service := ⟨false, none, false, [], [], 0, 0, false⟩, period := 0 }

end Sys2Proof.Machine
end

