-- ==== Sys2Proof/Machine/Flags.lean ====
section
/-! DEFINITION. The sticky floating-point flags of a wave (spec/03_number_formats.md R69, R70) and the status registers as
SREG and SSET see them (spec/19_faults_and_preemption.md R402, R403). The flags of one operation are computed in Num.lean. -/
namespace Sys2Proof.Machine

/-- The flags that instructions in flight have raised. -/
def flagsOf (fs : List Flight) : FlagSet := fs.foldl (fun a f => a ||| f.fl) 0
/-- %fpst with every flag raised so far. -/
def Wave.flags (w : Wave) : FlagSet := w.fpst ||| flagsOf w.t.flights
/-- %fpst as a read inside windows sees it: the flags of each instruction in flight, or not (R70). -/
def Wave.rfpst (w : Wave) (tick : Nat) : FlagSet :=
  w.fpst ||| flagsOf (w.t.flights.filter fun f => Config.freeBit tick (36000 + f.id))

/-- SSET writes %fpst: Reserved bits ignore the value (R403). The flags of an instruction whose window is open either follow
the write or came before it (R70). -/
def Wave.setFpst (w : Wave) (tick : Nat) (x : Word) : Wave :=
  { w with
    fpst := x.setWidth 6
    t := { w.t with flights := w.t.flights.map fun f =>
      if Config.freeBit tick (37000 + f.id) then f else { f with fl := 0 } } }

end Sys2Proof.Machine
end

