-- ==== Sys2Proof/Machine/Operands.lean ====
section
/-! DEFINITION. Which registers an instruction names (R9 to R12), how they are read inside and outside windows (R21, R24),
and how results are written (R24, R84). -/
namespace Sys2Proof.Machine

/-! ## Registers named by an instruction -/

/-- Number of 32-bit registers a value of a size takes. -/
def sizeRegs : Size → Nat
  | .b64 => 2 | .b128 => 4 | _ => 1
def sizeBytes : Size → Nat
  | .b8 => 1 | .b16 => 2 | .b32 => 4 | .b64 => 8 | .b128 => 16

def ftyRegs (t : FTy) : Nat := if t == .f64 then 2 else 1
def tyRegs (t : Ty) : Nat := if t.wide then 2 else 1

/-- v registers written: first register and count. -/
def vDsts : Instr → List (Nat × Nat)
  | .iadd o | .isub o | .imul o | .imin o | .iminU o | .imax o | .imaxU o | .shl o | .shr o | .sar o | .iand o | .ior o
  | .ixor o | .iandn o => [(o.d, 1)]
  | .leaX1 o | .leaX2 o | .leaX4 o | .leaX8 o => [(o.d, 2)]
  | .iaddI o | .isubI o | .imulI o | .iandI o | .iorI o | .ixorI o => [(o.d, 1)]
  | .shlI o | .shrI o | .sarI o => [(o.d, 1)]
  | .iabs o | .ineg o | .inot o | .popc o | .clz o | .brev o | .mov o => [(o.d, 1)]
  | .mrank o => [(o.d, 1)]
  | .fadd o | .fsub o | .fmul o | .fmin o | .fmax o => [(o.d, ftyRegs o.m.ty)]
  | .ffma o => [(o.d, ftyRegs o.m.ty)]
  | .frnd o | .ffrac o | .frcp o | .frsq o | .fsqrt o | .fexp2 o | .flog2 o | .fsin o | .fcos o | .ftanh o =>
    [(o.d, ftyRegs o.m.ty)]
  | .imad o => [(o.d, 1)]
  | .imadWide o => [(o.d, 2)]
  | .imulh o => [(o.d, 1)]
  | .sel o => [(o.d, 1)]
  | .movi o | .moviZ o | .moviHi o => [(o.d, 1)]
  | .bfx o => [(o.d, 1)]
  | .bfi o => [(o.d, 1)]
  | .idot4 o => [(o.d, 1)]
  | .cvt o => [(o.d, tyRegs o.dst)]
  | .cvtsr o => [(o.d, 1)]
  | .pack o => [(o.d, 1)]
  | .unpk o => [(o.d, 1)]
  | .qblk o => [(o.d, 1), (o.c, 1)]
  | .dqblk o => [(o.d, 1)]
  | .ld o => [(o.d, sizeRegs o.size)]
  | .atom o => [(o.d, sizeRegs o.size)]
  | .recld o => [(o.d, sizeRegs o.size)]
  | .neval o => [(o.d, o.mM1 + 1)]
  | .shfl o => [(o.d, 1)]
  | .wreduce o => [(o.d, 1)]
  | .wscan o => [(o.d, 1)]
  | .bcast o => [(o.d, 1)]
  | .sregPerLane o => [(o.d, if o.idx == 0x30 then 2 else 1)]
  | _ => []

/-- Source fields of P-class forms: the field and how many 32-bit registers it takes. -/
def vSrcs : Instr → List (Src × Nat)
  | .iadd o | .isub o | .imul o | .imin o | .iminU o | .imax o | .imaxU o | .shl o | .shr o | .sar o | .iand o | .ior o
  | .ixor o | .iandn o => [(o.a, 1), (o.b, 1)]
  | .leaX1 o | .leaX2 o | .leaX4 o | .leaX8 o => [(o.a, 2), (o.b, 1)]
  | .iaddI o | .isubI o | .imulI o | .iandI o | .iorI o | .ixorI o => [(o.a, 1)]
  | .shlI o | .shrI o | .sarI o => [(o.a, 1)]
  | .iabs o | .ineg o | .inot o | .popc o | .clz o | .brev o | .mov o => [(o.a, 1)]
  | .fadd o | .fsub o | .fmul o | .fmin o | .fmax o => [(o.a, ftyRegs o.m.ty), (o.b, ftyRegs o.m.ty)]
  | .ffma o => [(o.a, ftyRegs o.m.ty), (o.b, ftyRegs o.m.ty), (o.c, ftyRegs o.m.ty)]
  | .fcmp o => [(o.a, ftyRegs o.ty), (o.b, ftyRegs o.ty)]
  | .fclass o => [(o.a, ftyRegs o.ty)]
  | .frnd o | .ffrac o | .frcp o | .frsq o | .fsqrt o | .fexp2 o | .flog2 o | .fsin o | .fcos o | .ftanh o =>
    [(o.a, ftyRegs o.m.ty)]
  | .imad o => [(o.a, 1), (o.b, 1), (o.c, 1)]
  | .imadWide o => [(o.a, 1), (o.b, 1), (o.c, 2)]
  | .imulh o => [(o.a, 1), (o.b, 1)]
  | .icmp o => [(o.a, 1), (o.b, 1)]
  | .sel o => [(o.a, 1), (o.b, 1)]
  | .moviHi o => [(.v o.d, 1)]
  | .bfx o => (o.a, 1) :: (match o.fld with | .reg b => [(b, 1)] | .imm _ _ => [])
  | .bfi o => (.v o.d, 1) :: (o.a, 1) :: (match o.fld with | .reg b => [(b, 1)] | .imm _ _ => [])
  | .idot4 o => [(o.a, 1), (o.b, 1), (o.c, 1)]
  | .cvt o => [(o.a, tyRegs o.src)]
  | .cvtsr o => [(o.a, 1), (o.c, 1)]
  | .pack o => [(.v o.d, 1), (o.a, 1)]
  | .unpk o => [(o.a, 1)]
  | .qblk o => [(o.a, 1)]
  | .dqblk o => [(o.a, 1), (o.c, 1)]
  | .ld o => (o.mem.a, if o.sp == .g then 2 else 1) :: (match o.mem.ix with | some (b, _) => [(b, 1)] | none => [])
  | .st o | .stNb o =>
    (o.d, sizeRegs o.size) :: (o.mem.a, if o.sp == .g then 2 else 1) ::
      (match o.mem.ix with | some (b, _) => [(b, 1)] | none => [])
  | .pf o => (o.mem.a, 2) :: (match o.mem.ix with | some (b, _) => [(b, 1)] | none => [])
  | .acp o => (.v o.d, 1) :: (o.mem.a, 2) :: (match o.mem.ix with | some (b, _) => [(b, 1)] | none => [])
  | .atom o =>
    [(o.a, if o.sp == .g then 2 else 1), (o.b, if o.op == .cas then 2 * sizeRegs o.size else sizeRegs o.size)]
  | .red o => [(o.a, if o.sp == .g then 2 else 1), (o.b, sizeRegs o.size)]
  | .recld o => match o.rn with | some b => [(b, 1)] | none => []
  | .recst o => [(o.a, 1), (o.d, sizeRegs o.size)]
  | .neval o => (.v o.a, o.nM1 + 1) :: [(o.b, 1)]
  | .shfl o => (o.a, 1) :: (match o.n with | .reg b => [(b, 1)] | .imm _ => [])
  | .wreduce o => [(o.a, 1)]
  | .wscan o => [(o.a, 1)]
  | .bcast o => (o.a, 1) :: (match o.n with | .s n => [(.s n, 1)] | .imm _ => [])
  | _ => []

def sopndRegs : SOpnd → List Nat
  | .r n => [n]
  | .imm _ => []

/-- s registers read by U-class forms. -/
def sSrcs : Instr → List Nat
  | .brx a | .ret a => [a]
  | .sadd o | .ssub o | .smul o | .sand o | .sor o | .sxor o | .sshl o | .sshr o | .ssar o => o.a.val :: sopndRegs o.b
  | .smad o => o.d.val :: o.a.val :: sopndRegs o.b
  | .smin o | .smax o => o.a.val :: sopndRegs o.b
  | .scmp o => o.a.val :: sopndRegs o.b
  | .ssel o => [o.a, o.b]
  | .smov o => [o.a]
  | .slitMid o => [o.d]
  | .slitTop o => [o.d]
  | .slea o => o.a.val :: sopndRegs o.b
  | .spopc o | .sclz o => [o.a]
  | .sbfx o => [o.a]
  | .sfadd o | .sfmul o => [o.a, o.b]
  | .sffma o => [o.d, o.a, o.b]
  | .sfcmp o => [o.a, o.b]
  | .scvt o => [o.a]
  | .cselk a _ => [a]
  | .sld o => [o.a]
  | .sst o => [o.a, o.b]
  | .satom o => if o.op == .cas then [o.a, o.b, o.b.val + 1] else [o.a, o.b]
  | .waitc _ a | .bara a | .barw a | .baraw a | .gbar a => [a]
  | .mwait o => [o.a, o.b]
  | .tcp o => [o.a.val, o.a.val + 1, o.b.val] ++ (match o.mc with | some d => [d.val] | none => []) ++
    (if o.tb.val = 0 then [] else [o.tb.val])
  | .acp o => if o.tb.val = 0 then [] else [o.tb.val]
  | .tbinit o | .tbarv o | .tbexp o | .tbwait o | .cntadd o => [o.a, o.b]
  | .cntwait o => [o.a, o.b]
  | .slotset o | .slotwait o => [o.a, o.b]
  | .fork o => [o.a]
  | .oalloc o => [o.a]
  | .emit o => [o.a, o.b]
  | .spawn o => [o.a, o.b]
  | .npin o => [o.a]
  | .nunpin a => [a]
  | .rboard o => [o.a, o.b]
  | .rwait o | .rstat o => [o.a]
  | .qpost o => [o.a, o.b]
  | .qstat o => [o.a]
  | .sset a _ => [a]
  | .dbgrd o => [o.a]
  | .dbgwr o => [o.a, o.b]
  | .mld o | .mft o | .mldr o => [o.a, o.b]
  | .mst o => [o.b, o.b.val + 1]
  | .msta o => [o.b.val, o.b.val + 1] ++ (match o.ix with | some d => [d.val] | none => [])
  | .mqbind _ a => [a]
  | .madp o => [o.a, o.b]
  | .cq a _ => [a]
  | .cqmeta o => [o.a]
  | _ => []

/-- The guard of a P-class form: predicate and negation (R31, R32). -/
def guard : Instr → Nat × Bool
  | .iadd o | .isub o | .imul o | .imin o | .iminU o | .imax o | .imaxU o | .shl o | .shr o | .sar o | .iand o | .ior o
  | .ixor o | .iandn o | .leaX1 o | .leaX2 o | .leaX4 o | .leaX8 o => (o.g, false)
  | .iaddI o | .isubI o | .imulI o | .iandI o | .iorI o | .ixorI o => (o.g, false)
  | .shlI o | .shrI o | .sarI o => (o.g, false)
  | .iabs o | .ineg o | .inot o | .popc o | .clz o | .brev o | .mov o => (o.g, false)
  | .mrank o => (o.g, false)
  | .fadd o | .fsub o | .fmul o | .fmin o | .fmax o => (o.t.g, o.t.neg)
  | .ffma o => (o.t.g, o.t.neg) | .fcmp o => (o.t.g, o.t.neg) | .fclass o => (o.t.g, o.t.neg)
  | .frnd o | .ffrac o | .frcp o | .frsq o | .fsqrt o | .fexp2 o | .flog2 o | .fsin o | .fcos o | .ftanh o =>
    (o.t.g, o.t.neg)
  | .imad o | .imadWide o => (o.t.g, o.t.neg) | .imulh o => (o.t.g, o.t.neg) | .icmp o => (o.t.g, o.t.neg)
  | .sel o => (o.t.g, o.t.neg) | .movi o | .moviZ o | .moviHi o => (o.t.g, o.t.neg) | .bfx o => (o.t.g, o.t.neg)
  | .bfi o => (o.t.g, o.t.neg) | .idot4 o => (o.t.g, o.t.neg) | .cvt o => (o.t.g, o.t.neg) | .cvtsr o => (o.t.g, o.t.neg)
  | .pack o => (o.t.g, o.t.neg) | .unpk o => (o.t.g, o.t.neg) | .qblk o => (o.t.g, o.t.neg) | .dqblk o => (o.t.g, o.t.neg)
  | .ld o => (o.t.g, o.t.neg) | .st o | .stNb o => (o.t.g, o.t.neg) | .atom o => (o.t.g, o.t.neg)
  | .red o => (o.t.g, o.t.neg) | .pf o => (o.t.g, o.t.neg) | .acp o => (o.t.g, o.t.neg) | .recld o => (o.t.g, o.t.neg)
  | .recst o => (o.t.g, o.t.neg) | .neval o => (o.t.g, o.t.neg) | .shfl o => (o.t.g, o.t.neg)
  | .wreduce o => (o.t.g, o.t.neg) | .wscan o => (o.t.g, o.t.neg) | .bcast o => (o.t.g, o.t.neg)
  | .sregPerLane o => (o.t.g, o.t.neg)
  | _ => (0, false)

def srcTop : Src × Nat → Nat
  | (.v r, n) => r.val + n
  | (.s _, _) => 0

/-- One more than the highest v register named (R10). -/
def vTop (i : Instr) : Nat :=
  ((vDsts i).map (fun e => e.1 + e.2) ++ (vSrcs i).map srcTop).foldl max 0

/-! ## Lanes -/

def lanesOf (m : Mask) : List Nat := (List.range 256).filter m.getLsbD

/-! ## Reading registers (R21, R24) -/

def keyCode : RegKey → Nat
  | .v r l => 256 * r + l
  | .s n => 30000 + n
  | .p k l => 31000 + 256 * k + l
  | .f n => 34000 + n
  | .nevst => 35001
  | .x n => 35100 + n

/-- A window is open while the party may still issue inside it. -/
def Flight.isOpen (f : Flight) : Bool := f.left != some 0

/-- The older values that a read of a register may still see. -/
def Thread.early (t : Thread) (k : RegKey) : List Nat :=
  (t.flights.filter Flight.isOpen).flatMap fun f => f.olds.filterMap fun e => if e.1 = k then some e.2 else none

/-- The value a read sees: the register's, or a free choice among it and the older values inside a window (R24). -/
def Thread.view (t : Thread) (tick : Nat) (k : RegKey) (x : Nat) : Nat :=
  match t.early k with
  | [] => x
  | olds => (x :: olds).getD (Config.freeNat tick (keyCode k) % (olds.length + 1)) x

/-- s register n. -/
def Thread.rs (t : Thread) (tick n : Nat) : DWord :=
  BitVec.ofNat 64 (t.view tick (.s n) (Sparse.get (0 : DWord) t.sregs n).toNat)
/-- Flag fN; f0 reads true (R9). -/
def Thread.rf (t : Thread) (tick n : Nat) : Bool :=
  n = 0 || t.view tick (.f n) (t.fregs.getLsbD n).toNat == 1
/-- v register r of a lane. -/
def Wave.rv (w : Wave) (tick r l : Nat) : Word :=
  BitVec.ofNat 32 (w.t.view tick (.v r l) (Sparse.get (0 : Word) w.vregs (256 * r + l)).toNat)
/-- Bit of a predicate; p0 reads 1 (R9). -/
def Wave.rp (w : Wave) (tick k l : Nat) : Bool :=
  k = 0 || w.t.view tick (.p k l) ((Sparse.get (0 : Mask) w.preds k).getLsbD l).toNat == 1
/-- A predicate whole. -/
def Wave.rpMask (w : Wave) (tick k : Nat) : Mask :=
  BitVec.ofNat 256 (bitsToNat ((List.range 256).map (w.rp tick k)))
def Wave.rnevst (w : Wave) (tick : Nat) : Word := BitVec.ofNat 32 (w.t.view tick .nevst w.nevst.toNat)

/-- A 32-bit source of a lane: a v register, or bits [31:0] of a broadcast register (R12). -/
def Wave.src32 (w : Wave) (tick l : Nat) : Src → Word
  | .v r => w.rv tick r l
  | .s n => (w.t.rs tick n).setWidth 32
/-- A 64-bit source: an even pair, or the whole broadcast register (R11, R12). -/
def Wave.src64 (w : Wave) (tick l : Nat) : Src → DWord
  | .v r => (w.rv tick (r + 1) l) ++ (w.rv tick r l)
  | .s n => w.t.rs tick n
/-- A source of n registers as a number. -/
def Wave.srcN (w : Wave) (tick l n : Nat) (a : Src) : Nat :=
  match a with
  | .v r => (List.range n).foldr (fun k acc => (w.rv tick (r + k) l).toNat + 2 ^ 32 * acc) 0
  | .s n => (w.t.rs tick n).toNat

/-- Second operand of a scalar form (R44). -/
def Thread.ropnd (t : Thread) (tick : Nat) : SOpnd → DWord
  | .r n => t.rs tick n
  | .imm n => n.setWidth 64

/-- The lanes that execute a P-class form: the mask bit and the guard are 1 (R18, R31, R32). -/
def Wave.active (w : Wave) (tick : Nat) (i : Instr) : List Nat :=
  let (g, neg) := guard i
  (lanesOf w.e).filter fun l => w.rp tick g l != neg

/-- The lane that SHFL reads for a lane (R150). -/
def shflLane (m : ShflMode) (l n : Nat) : Nat :=
  match m with
  | .idx => n
  | .up => if n ≤ l then l - n else l
  | .down => if l + n ≤ 255 then l + n else l
  | .xor => Nat.xor l n

/-- The lane of which an active lane reads the first source of SHFL and of BCAST (R150, R151), whether or not that lane is active. -/
def Wave.shflFrom (w : Wave) (tick l : Nat) (o : ShflF) : Nat :=
  shflLane o.mode l (match o.n with | .reg b => (w.src32 tick l b).toNat % 256 | .imm n => n.toNat)
def Wave.bcastFrom (w : Wave) (tick : Nat) (o : BcastF) : Nat :=
  match o.n with | .imm n => n.toNat | .s n => (w.t.rs tick n).toNat % 256

/-- The lane of which an active lane reads source field `k` of a form. -/
def Wave.srcLane (w : Wave) (tick l : Nat) (i : Instr) (k : Nat) : Nat :=
  match i, k with
  | .shfl o, 0 => w.shflFrom tick l o
  | .bcast o, 0 => w.bcastFrom tick o
  | _, _ => l

/-- An active lane reads a source register marked poisoned, its own or, across lanes, another's (R86, R140, R231). -/
def Wave.readsMark (w : Wave) (tick : Nat) (i : Instr) (l : Nat) : Bool :=
  (vSrcs i).zipIdx.any fun e => match e.1.1 with
    | .v r => (List.range e.1.2).any fun k => w.vmark.contains (256 * (r + k) + w.srcLane tick l i e.2)
    | .s n => w.t.smark.getLsbD n

/-- A source register marked poisoned that the instruction reads (R86, R231). -/
def Wave.markedSrc (w : Wave) (tick : Nat) (i : Instr) : Bool :=
  !(w.vmark.isEmpty && w.t.smark == 0) &&
    ((w.active tick i).any (w.readsMark tick i) || (sSrcs i).any (fun n => w.t.smark.getLsbD n))

/-- The lane that the stop record of a marked source names: the lowest-numbered active lane that reads one (R127, R380); none for
a source of a uniform form. -/
def Wave.markedLane (w : Wave) (tick : Nat) (i : Instr) : Option Nat := (w.active tick i).find? (w.readsMark tick i)

/-! ## Writing registers (R24, R84) -/

/-- Inside the window of an instruction that has written a register, a later writer leaves either value (R24). -/
def Thread.settle (t : Thread) (tick : Nat) (k : RegKey) (cur new : Nat) : Nat :=
  if (t.early k).isEmpty then new else if Config.freeBit tick (keyCode k) then new else cur

/-- Notes that a register was written inside the windows of instructions whose results are still to come, and lets reads
inside a window see the value it had (R24). Where the writer's own value does not stay, no read sees it either (log 132). -/
def Thread.clobber (t : Thread) (k : RegKey) (cur : Nat) : Thread :=
  { t with flights := t.flights.map fun f =>
      { f with
        clob := if f.res && !f.done then k :: f.clob else f.clob
        olds := f.olds.map fun e => if e.1 = k then (k, cur) else e } }

def Thread.putS (t : Thread) (tick n : Nat) (x : DWord) : Thread :=
  let cur := Sparse.get (0 : DWord) t.sregs n
  { t.clobber (.s n) cur.toNat with
    sregs := Sparse.set 0 t.sregs n (BitVec.ofNat 64 (t.settle tick (.s n) cur.toNat x.toNat))
    smark := t.smark &&& ~~~(BitVec.twoPow 64 n) }
/-- Writing f0 has no effect (R9). -/
def Thread.putF (t : Thread) (tick n : Nat) (b : Bool) : Thread :=
  if n = 0 then t
  else
    let v := t.settle tick (.f n) (t.fregs.getLsbD n).toNat b.toNat == 1
    { t.clobber (.f n) (t.fregs.getLsbD n).toNat with fregs := if v then t.fregs ||| BitVec.twoPow 8 n else t.fregs &&& ~~~(BitVec.twoPow 8 n) }

def Wave.putV (w : Wave) (tick r l : Nat) (x : Word) : Wave :=
  let cur := Sparse.get (0 : Word) w.vregs (256 * r + l)
  { w with
    vregs := Sparse.set 0 w.vregs (256 * r + l) (BitVec.ofNat 32 (w.t.settle tick (.v r l) cur.toNat x.toNat))
    vmark := w.vmark.filter (· != 256 * r + l)
    t := w.t.clobber (.v r l) cur.toNat }
/-- Writing p0 has no effect (R9). -/
def Wave.putP (w : Wave) (tick k l : Nat) (b : Bool) : Wave :=
  if k = 0 then w
  else
    let cur := Sparse.get (0 : Mask) w.preds k
    let v := w.t.settle tick (.p k l) (cur.getLsbD l).toNat b.toNat == 1
    { w with
      preds := Sparse.set 0 w.preds k (if v then cur ||| BitVec.twoPow 256 l else cur &&& ~~~(BitVec.twoPow 256 l))
      t := w.t.clobber (.p k l) (cur.getLsbD l).toNat }

/-- One result. -/
structure Write where
  k : RegKey
  x : Nat
  deriving DecidableEq, Repr

/-- The value a register holds now, for a window's early reads. -/
def Wave.now (w : Wave) : RegKey → Nat
  | .v r l => (Sparse.get (0 : Word) w.vregs (256 * r + l)).toNat
  | .s n => (Sparse.get (0 : DWord) w.t.sregs n).toNat
  | .p k l => ((Sparse.get (0 : Mask) w.preds k).getLsbD l).toNat
  | .f n => (w.t.fregs.getLsbD n).toNat
  | .nevst => w.nevst.toNat
  | .x _ => 0
def Thread.now (t : Thread) : RegKey → Nat
  | .s n => (Sparse.get (0 : DWord) t.sregs n).toNat
  | .f n => (t.fregs.getLsbD n).toNat
  | _ => 0

/-- Writes one result. The bits of %nevst are sticky: they are set beside those that it has (R329). -/
def Wave.put (w : Wave) (tick : Nat) (e : Write) : Wave :=
  match e.k with
  | .v r l => w.putV tick r l (BitVec.ofNat 32 e.x)
  | .s n => { w with t := w.t.putS tick n (BitVec.ofNat 64 e.x) }
  | .p k l => w.putP tick k l (e.x == 1)
  | .f n => { w with t := w.t.putF tick n (e.x == 1) }
  | .nevst => { w with nevst := w.nevst ||| BitVec.ofNat 32 e.x }
  | .x _ => w
def Thread.put (t : Thread) (tick : Nat) (e : Write) : Thread :=
  match e.k with
  | .s n => t.putS tick n (BitVec.ofNat 64 e.x)
  | .f n => t.putF tick n (e.x == 1)
  | _ => t

/-- SSET writes %nevst; inside the window of a NEVAL it may be followed by the bits that that one set (R70, R329). -/
def Wave.setNevst (w : Wave) (tick : Nat) (x : Word) : Wave :=
  let bits := (w.t.flights.filter fun f => f.isOpen && f.done).foldl (fun b f => match f.i with
    | .neval _ => b ||| BitVec.ofNat 32 f.arg
    | _ => b) (0 : Word)
  let flights := w.t.flights.map fun f => { f with olds := f.olds.map fun e => if e.1 = .nevst then (.nevst, x.toNat) else e }
  { w with nevst := if Config.freeBit tick 35001 then x ||| bits else x, t := { w.t with flights := flights } }

def Wave.putAll (w : Wave) (tick : Nat) (es : List Write) : Wave := es.foldl (fun w e => w.put tick e) w
def Thread.putAll (t : Thread) (tick : Nat) (es : List Write) : Thread := es.foldl (fun t e => t.put tick e) t

/-- The results of a lane's n-register value. -/
def writesN (r l n x : Nat) : List Write :=
  (List.range n).map fun k => ⟨.v (r + k) l, x / 2 ^ (32 * k) % 2 ^ 32⟩

end Sys2Proof.Machine
end

