-- ==== Sys2Proof/Machine/Home.lean ====
section
/-! DEFINITION. Memory at its homes: reading and writing lines, poison, reader counts, leased copies and completion times
(spec/09_memory_levels.md R215 to R231, spec/11_consistency_model.md R243 to R250). -/
namespace Sys2Proof.Machine

/-- A number from its bytes, the lowest address first (R2). -/
def fromBytes (bs : List Byte) : Nat := bs.foldr (fun b n => b.toNat + 256 * n) 0
def zeros (n : Nat) : List Byte := List.replicate n 0
/-- Contents that the spec leaves open. -/
def freeBytes (tick n : Nat) : List Byte := (List.range n).map (Config.freeByte tick)
/-- Bytes at rising addresses. -/
def located (a : Nat) (bs : List Byte) : List (Nat × Byte) := (List.range bs.length).zipWith (fun k b => (a + k, b)) bs
def nubPairs (xs : List (Nat × Nat)) : List (Nat × Nat) := xs.foldr (fun x acc => x :: acc.filter (· != x)) []
/-- Removes repeats, keeping the first of each. -/
def nubNat (xs : List Nat) : List Nat := xs.foldr (fun x acc => x :: acc.filter (· != x)) []

/-- The first of some things with the least key. -/
def least {α : Type} (key : α → Nat) (xs : List α) : Option α :=
  xs.foldl (fun m x => match m with | none => some x | some y => if key x < key y then some x else some y) none

/-! ## The physical map (R215) -/

def lineOf (pa : Nat) : Nat := pa / 128
def sectorOf (pa : Nat) : Nat := pa / 32
def regionOf (pa : Nat) : Nat := pa / 2 ^ 21
def inFirst (pa : Nat) : Bool := pa < 0xC000000000
def inSecond (pa : Nat) : Bool := 0x10000000000 ≤ pa && pa < 0x30000000000
def inMemory (pa : Nat) : Bool := inFirst pa || inSecond pa
/-- The peer half of host and peer space (R412). -/
def inPeer (pa : Nat) : Bool := 0x4000000000000 ≤ pa && pa < 0x6000000000000
def inHost (pa : Nat) : Bool := 0x6000000000000 ≤ pa && pa < 0x8000000000000
/-- The home slice of a line (R218). -/
def homeSlice (pa : Nat) : Nat :=
  if inFirst pa then pa / 0x1800000000 else Nat.xor (pa / 2 ^ 12 % 8) (pa / 2 ^ 20 % 8)

/-! ## Keys (R229, R230, R235) -/

/-- The number of the key in a slot, 0 for an empty slot. Slot 0 always holds the firmware's key, number 1 (log 20). -/
def State.keyOf (s : State) (slot : Nat) : Nat := if slot = 0 then 1 else (s.keys.lookup slot).getD 0
/-- The line was written under another key, so its MAC fails (R230, R235). -/
def State.mismatch (s : State) (line slot : Nat) : Bool :=
  let k := Sparse.get 0 s.home.lineKey line
  k != 0 && k != s.keyOf slot

/-! ## Reading at the home -/

def Home.byte (h : Home) (a : Nat) : Byte := Sparse.get 0 h.mem a
def Home.bytes (h : Home) (a n : Nat) : List Byte := (List.range n).map fun k => h.byte (a + k)

/-- What a read at the home finds: bytes, and whether they are poisoned. -/
structure Peek where
  bytes : List Byte
  bad : Bool
  deriving DecidableEq, Repr

def State.isLive (s : State) (pa : Nat) : Bool := s.home.live.contains (regionOf pa)

/-- Reads bytes of one sector (R227, R230, R231). The bytes of a poisoned sector are free. -/
def State.peek (s : State) (slot pa n : Nat) : Peek :=
  if !s.isLive pa then ⟨zeros n, false⟩
  else if s.home.poison.contains (sectorOf pa) || s.mismatch (lineOf pa) slot then ⟨freeBytes s.tick n, true⟩
  else ⟨s.home.bytes pa n, false⟩

/-- Reads bytes over any number of sectors. -/
def State.peekRun (s : State) (slot pa : Nat) : Nat → Peek
  | 0 => ⟨[], false⟩
  | n + 1 =>
    let p := s.peek slot pa 1
    let q := s.peekRun slot (pa + 1) n
    ⟨p.bytes ++ q.bytes, p.bad || q.bad⟩

/-- A read of a region whose liveness bit is clear adds to the stack's elided-read counter (R227). -/
def State.countElided (s : State) (pa : Nat) : State :=
  if s.isLive pa then s
  else
    let k := homeSlice pa + (if inFirst pa then 0 else 8)
    { s with home := { s.home with elided := Sparse.set 0 s.home.elided k (Sparse.get 0 s.home.elided k + 1) } }

/-! ## Reader counts (R221) -/

/-- One request group read sectors of these lines at their homes: each count falls by one, and a line whose count reaches 0
is dropped, so that its backing contents are read from then on. -/
def Home.lower (h : Home) (line : Nat) : Home :=
  match h.counts.find? (fun c => c.line == line) with
  | none => h
  | some c =>
    if c.left ≤ 1 then
      { h with
        counts := h.counts.filter (fun c => c.line != line)
        dirty := h.dirty.filter (· != line)
        poison := c.bpois ++ h.poison.filter (fun x => x / 4 != line)
        lineKey := Sparse.set 0 h.lineKey line c.bkey
        mem := (located (128 * line) c.backing).foldl (fun m e => Sparse.set 0 m e.1 e.2) h.mem }
    else { h with counts := h.counts.map fun c => if c.line == line then { c with left := c.left - 1 } else c }

def State.lowerCounts (s : State) (lines : List Nat) : State :=
  { s with home := (nubNat lines).foldl Home.lower s.home }

/-- A write with .RC n gives the line a count; one without makes it ordinary. The backing contents are those from before the
first counted store (log 21). -/
def Home.recount (h : Home) (line rc : Nat) : Home :=
  if rc = 0 then { h with counts := h.counts.filter (fun c => c.line != line) }
  else
    let c : CountLine := match h.counts.find? (fun c => c.line == line) with
      | some c => { c with left := rc }
      | none => ⟨line, rc, h.bytes (128 * line) 128, h.poison.filter (fun x => x / 4 == line), Sparse.get 0 h.lineKey line⟩
    { h with counts := c :: h.counts.filter (fun c => c.line != line) }

/-! ## Write counters and their trees (R229) -/

/-- The tree of a line and the line's number in it: one tree for each stack of the first tier and one for each home slice of the
second, whose pages of 4 KiB alternate between the slices (R218). -/
def treePlace (line : Nat) : Nat × Nat :=
  if inFirst (128 * line) then (line / 0x30000000, line % 0x30000000)
  else (8 + homeSlice (128 * line), (line - 0x200000000) / 256 * 32 + line % 32)

/-- The level of a tree's root, which is kept on the die and is never written back. -/
def rootLevel (stack : Nat) : Nat := if stack < 8 then 9 else 10

/-- Lines of a tree beneath one of its nodes: level 0 holds a block of eight line counters. -/
def nodeLines (level : Nat) : Nat := 8 ^ (level + 1)

/-- The counter of a tree node, in its parent. -/
def Home.nodeCtr (h : Home) (stack level n : Nat) : Nat := Sparse.get 0 ((h.tree.lookup (16 * stack + level)).getD []) n

/-- The regions beneath a node: 16,384 lines of a stack's tree, 2,048 of a slice's. -/
def regionsUnder (stack level n : Nat) : List Nat :=
  let (lo, per, count) := if stack < 8 then (49152 * stack, 16384, 49152) else (524288, 2048, 1048576)
  let a := n * nodeLines level
  let z := min ((a + nodeLines level - 1) / per + 1) count
  (List.range (z - a / per)).map (lo + a / per + ·)

/-- Regions beneath an exhausted counter are frozen, and a COUNTER_EXHAUSTED event tells firmware of them; the dirty line or node stays. -/
def State.freeze (s : State) (rs : List Nat) : State :=
  { s with home := { s.home with
      frozen := nubNat (s.home.frozen ++ rs)
      exhausted := if rs.all s.home.frozen.contains then s.home.exhausted else s.home.exhausted ++ [rs] } }

/-- A dirty line is written back, advancing its counter, or is refused where the counter is at its maximum. -/
def State.writeBack (s : State) (n : Nat) : State :=
  let h := s.home
  if !h.dirty.contains n then s
  else
    let k := Sparse.get 0 h.wctr n
    if 2 ^ 56 - 1 ≤ k then s.freeze [regionOf (128 * n)]
    else { s with home := { h with wctr := Sparse.set 0 h.wctr n (k + 1), dirty := h.dirty.filter (· != n) } }

/-- The memory-side cache evicts a line, writing it back where it is dirty (R221). -/
def State.evictLine (s : State) (n : Nat) : State :=
  let s := s.writeBack n
  if s.home.dirty.contains n then s
  else { s with home := { s.home with counts := s.home.counts.filter fun c => c.line != n } }

/-- Lines of each slice that spill regions and Wintering stores take (R220, R363): an eighth of a region from each slice, where the spec
does not say how a region is spread (log 130). -/
def State.carved (s : State) : Nat :=
  s.ctxs.foldl (fun n c => n + (field c.desc.toNat 302 11 + field c.desc.toNat 291 11) * 1024) 0

/-- A slice whose dirty lines exceed its capacity evicts, one after another, lines that are not pinned in frozen regions; which ones is free
(R1, R211, R220, R229). A clean line is as the memory holds it. -/
def State.evictDown (s : State) (slice : Nat) : (fuel : Nat) → State
  | 0 => s
  | k + 1 =>
    let mine := s.home.dirty.filter fun l => homeSlice (128 * l) == slice
    if mine.length + s.carved ≤ Config.sliceLines then s
    else match mine.filter fun l => !s.home.frozen.contains (regionOf (128 * l)) with
      | [] => s
      | l :: ls => (s.evictLine ((l :: ls).getD (Config.freeNat s.tick (47001 + 2 ^ 64 * (8 * k + slice)) % (ls.length + 1)) l)).evictDown slice k
def State.trimSlice (s : State) (slice : Nat) : State := s.evictDown slice s.home.dirty.length
/-- Every slice keeps to its capacity. -/
def State.trimSlices (s : State) : State := (List.range 8).foldl State.trimSlice s

/-! ## Writing at the home -/

/-- Sets a region's liveness bit; the region reads as zeros (R227). -/
def State.revive (s : State) (pa : Nat) : State :=
  if s.isLive pa then s
  else { s with home := { s.home with live := regionOf pa :: s.home.live } }

/-- One more than the start of the zero-length period that a line is in: the 4 µs after each write to it (R246, R253); 0 where it is
in none. -/
def State.zeroPeriod (s : State) (line : Nat) : Nat :=
  let w := Sparse.get 0 s.home.lastWrite line
  if w != 0 && s.time < w - 1 + 4000 then Sparse.get 0 s.home.zeroFrom line else 0

/-- Bytes of one sector written under a key slot. A line that another key wrote fails its MAC when it fills, so all four
sectors are poisoned first (R230); a write of all 32 bytes clears a sector's mark, a partial write keeps it (R231). -/
def State.pokeSector (s : State) (slot sector : Nat) (bs : List (Nat × Byte)) : State :=
  let h := s.home
  let line := sector / 4
  let marks := if s.mismatch line slot then (List.range 4).map (4 * line + ·) ++ h.poison.filter (fun x => x / 4 != line)
    else h.poison
  let whole := (nubNat (bs.map (·.1))).length == 32
  { s with home := { h with
      mem := bs.foldl (fun m e => Sparse.set 0 m e.1 e.2) h.mem
      poison := if whole then marks.filter (· != sector) else marks
      lineKey := Sparse.set 0 h.lineKey line (s.keyOf slot)
      lastWrite := Sparse.set 0 h.lastWrite line (s.time + 1)
      zeroFrom := if s.zeroPeriod line = 0 then Sparse.set 0 h.zeroFrom line (s.time + 1) else h.zeroFrom
      dirty := if h.dirty.contains line then h.dirty else line :: h.dirty } }

/-- Bytes anywhere in the tiers written at their homes, with a reader count for every line written. -/
def State.poke (s : State) (slot rc : Nat) (bs : List (Nat × Byte)) : State :=
  let s := bs.foldl (fun s e => s.revive e.1) s
  let lines := nubNat (bs.map fun e => lineOf e.1)
  let s := { s with home := lines.foldl (fun h l => h.recount l rc) s.home }
  let s := (nubNat (bs.map fun e => sectorOf e.1)).foldl
    (fun s sec => s.pokeSector slot sec (bs.filter fun e => sectorOf e.1 == sec)) s
  (nubNat (lines.map fun l => homeSlice (128 * l))).foldl State.trimSlice s

/-- Marks the sectors of a range poisoned (R231). -/
def State.poisonRange (s : State) (pa n : Nat) : State :=
  if n = 0 then s
  else
    let secs := (List.range (sectorOf (pa + n - 1) - sectorOf pa + 1)).map (sectorOf pa + ·)
    { s with home := { s.home with poison := nubNat (secs ++ s.home.poison) } }

/-- The bytes of some places read as zeros (R226). -/
def State.zeroWhere (s : State) (p : Nat → Bool) : State :=
  let out (a : Nat) : Bool := !p a
  let h := s.home
  { s with home := { h with
      mem := Sparse.keep out h.mem
      poison := h.poison.filter (fun x => out (32 * x))
      lineKey := Sparse.keep (fun l => out (128 * l)) h.lineKey
      counts := h.counts.filter (fun c => out (128 * c.line))
      dirty := h.dirty.filter (fun l => out (128 * l)) } }

def State.zeroRange (s : State) (pa n : Nat) : State := s.zeroWhere fun a => pa ≤ a && a < pa + n

/-- Clears a region's liveness bit (R226). -/
def State.clearLive (s : State) (region : Nat) : State :=
  let s := s.zeroRange (region * 2 ^ 21) (2 ^ 21)
  { s with home := { s.home with live := s.home.live.filter (· != region) } }

/-! ## Leases (R245 to R247) -/

/-- Length of a grant: the class of the page, 0 for host pages and for 4 µs after a write to the line. -/
def State.leaseLen (s : State) (line lease : Nat) (host : Bool) : Nat :=
  let w := Sparse.get 0 s.home.lastWrite line
  if host || (w != 0 && s.time < w - 1 + 4000) then 0
  else match lease with | 0 => 1000 | 1 => 50000 | _ => 0

/-- The usable copy of a sector in a core's L1 or in a cluster cache. -/
def State.copyOf (s : State) (cluster : Nat) (core : Option Nat) (sector : Nat) : Option Copy :=
  s.home.copies.find? fun c => c.cluster == cluster && c.core == core && c.sector == sector && !c.bad && s.time < c.expiry

/-- Lines that the leased copies of a cache may take: those of an L1, or what tiles pinned by MFT leave of a cluster cache, 32 KiB
each (R1, R211, R219, R301). -/
def State.cacheLines (s : State) (cluster : Nat) (core : Option Nat) : Nat :=
  if core.isSome then Config.l1Lines
  else Config.clusterLines - s.wgs.foldl (fun n g => if g.cores.headD 0 / Config.coresPerCluster = cluster then
    n + 256 * (match g.resv with | some r => (r.tiles.filter (·.pinned)).length | none => 0) else n) 0

/-- A cache past its capacity drops lines other than the newest, silently; which ones is free (R219). -/
def State.dropDown (s : State) (cluster : Nat) (core : Option Nat) : (fuel : Nat) → State
  | 0 => s
  | k + 1 =>
    let mine (c : Copy) : Bool := c.cluster == cluster && c.core == core
    let lines := nubNat ((s.home.copies.filter mine).map fun c => c.sector / 4)
    if lines.length ≤ s.cacheLines cluster core then s
    else
      let line := lines.getD (1 + Config.freeNat s.tick (47000 + 2 ^ 64 * k) % (lines.length - 1)) (lines.headD 0)
      ({ s with home := { s.home with copies := s.home.copies.filter fun c => !(mine c && c.sector / 4 == line) } } : State).dropDown
        cluster core k
def State.trimCache (s : State) (cluster : Nat) (core : Option Nat) : State := s.dropDown cluster core s.home.copies.length

/-- Puts a copy in place of an older one of the same sector and cache. -/
def State.addCopy (s : State) (c : Copy) : State :=
  { s with home := { s.home with
      copies := c :: s.home.copies.filter fun d => !(d.cluster == c.cluster && d.core == c.core && d.sector == c.sector)
      grants := ⟨c.sector / 4, c.cluster, c.core, false, c.expiry⟩ :: s.home.grants.filter (fun g => s.time < g.expiry) } }.trimCache
    c.cluster c.core

/-- Copies that pass a test stay; any copy may go at any time (R219, R245). -/
def State.keepCopies (s : State) (p : Copy → Bool) : State := { s with home := { s.home with copies := s.home.copies.filter p } }

/-- The copies of sectors that a cluster's cache and one of its cores hold go (R244): a party that has read at the home reads nothing
older from them. -/
def State.dropOwn (s : State) (cluster : Nat) (core : Option Nat) (secs : List Nat) : State :=
  s.keepCopies fun c => !(c.cluster == cluster && (c.core.isNone || c.core == core) && secs.contains c.sector)

/-- An acknowledgement of a write to the line is on its way to the cluster: messages about one line keep their order, so nothing read
at the home later arrives before it (R249, R256). -/
def State.ackDue (s : State) (cluster line : Nat) : Bool :=
  s.queue.any fun e => e.line == line && e.cluster == cluster && e.times.isSome

/-- One sector as an access gets it. -/
structure Got where
  bytes : List Byte
  bad : Bool
  /-- the read reached the home -/
  atHome : Bool
  deriving DecidableEq, Repr

/-- A read of a sector through a core's L1 and its cluster cache (R219, R245). -/
def State.readSector (s : State) (cluster : Nat) (core : Option Nat) (slot lease sector : Nat) : State × Got :=
  match (if core.isSome then s.copyOf cluster core sector else none) with
  | some c => (s, ⟨c.data, false, false⟩)
  | none =>
    match s.copyOf cluster none sector with
    | some c => (if core.isSome then s.addCopy { c with core := core } else s, ⟨c.data, false, false⟩)
    | none =>
      let p := s.peek slot (32 * sector) 32
      let len := s.leaseLen (sector / 4) lease false
      let s' := s.countElided (32 * sector)
      if p.bad || len = 0 then (s', ⟨p.bytes, p.bad, true⟩)
      else
        let c : Copy := ⟨cluster, none, sector, p.bytes, false, s.time + len⟩
        let s' := s'.addCopy c
        (if core.isSome then s'.addCopy { c with core := core } else s', ⟨p.bytes, false, true⟩)

/-- An acknowledgement updates the writer's own copies of the bytes (R249); a copy of a sector that the write poisoned goes (R231). -/
def Copy.update (bs : List (Nat × Byte)) (c : Copy) : Copy :=
  let put (k : Nat) (b : Byte) : Byte := (bs.reverse.lookup (32 * c.sector + k)).getD b
  { c with data := (List.range c.data.length).zipWith put c.data }
def State.updateCopies (s : State) (cluster : Nat) (core : Option Nat) (bs : List (Nat × Byte)) (bad : Bool) : State :=
  if bad then s.dropOwn cluster core (nubNat (bs.map fun b => sectorOf b.1))
  else { s with home := { s.home with copies := s.home.copies.map fun c =>
      if c.cluster == cluster && (c.core == none || c.core == core) then c.update bs else c } }

def latest (gs : List Grant) : Nat := gs.foldl (fun m g => max m g.expiry) 0

/-- The write completion times of a write applied now: the latest expiries of copies granted before it (R248). A copy in the writer's
cluster cache may yet fill the L1 of another core. -/
def State.completion (s : State) (line cluster : Nat) (core : Option Nat) : Nat × Nat × Nat :=
  let gs := s.home.grants.filter fun g => g.line == line && s.time < g.expiry
  let dev := gs.filter fun g => !g.peer
  (latest (dev.filter fun g => g.cluster == cluster && (g.core.isNone || g.core != core)), latest dev, latest gs)

end Sys2Proof.Machine
end

