-- ==== Sys2Proof/Machine/Walk.lean ====
section
/-! DEFINITION. Contexts and workgroups by number, the context descriptor's fields (R363), the page walk and the checks of a
translated access (spec/10_address_translation.md R232 to R240, spec/21_package_and_peers.md R412). -/
namespace Sys2Proof.Machine

/-! ## Looking up and replacing -/

def State.ctx? (s : State) (k : Nat) : Option Context := s.ctxs.find? (fun c => c.id == k)
def State.setCtx (s : State) (c : Context) : State := { s with ctxs := s.ctxs.map fun d => if d.id = c.id then c else d }
def State.updCtx (s : State) (k : Nat) (f : Context → Context) : State :=
  { s with ctxs := s.ctxs.map fun d => if d.id = k then f d else d }
def State.wg? (s : State) (k : Nat) : Option Workgroup := s.wgs.find? (fun g => g.id == k)
def State.updWg (s : State) (k : Nat) (f : Workgroup → Workgroup) : State :=
  { s with wgs := s.wgs.map fun g => if g.id = k then f g else g }
def Context.node? (c : Context) (n : Nat) : Option Node := c.graph.bind fun g => g.nodes.find? (fun d => d.nodeid == n)

/-! ## The context descriptor (R363) -/

def Context.fld (c : Context) (lo n : Nat) : Nat := field c.desc.toNat lo n
def Context.ptRoot (c : Context) : Nat := c.fld 472 40 * 4096
def Context.clmask (c : Context) : Nat := c.fld 440 32
def Context.weight (c : Context) : Nat := c.fld 432 8
def Context.coreTok (c : Context) : Nat := c.fld 416 16
def Context.readTok (c : Context) : Nat := c.fld 400 16
def Context.wrTok (c : Context) : Nat := c.fld 384 16
def Context.enTok (c : Context) : Nat := c.fld 368 16
def Context.ovr (c : Context) : Nat := c.fld 364 4
/-- Store-stall limit in nanoseconds (R224). -/
def Context.stallNs (c : Context) : Nat := c.fld 350 10 * 10000
def Context.nevs (c : Context) : Nat := c.fld 346 4
/-- Gather timer of the evaluation gatherer in nanoseconds (R326). -/
def Context.nevNs (c : Context) : Nat := (c.fld 338 8 + 1) * 250
def Context.drainUs (c : Context) : Nat := c.fld 326 12
def Context.wok (c : Context) : Bool := c.fld 325 1 == 1
def Context.rstore (c : Context) : Nat := c.fld 313 10 * 65536
def Context.spill (c : Context) : Nat := c.fld 302 11 * 2 ^ 20
def Context.wstore (c : Context) : Nat := c.fld 291 11 * 2 ^ 20
def Context.smpK (c : Context) : Nat := c.fld 286 5
def Context.smpSize (c : Context) : Nat := 2 ^ (12 + c.fld 281 5)
def Context.smpBase (c : Context) : Nat := c.fld 236 45 * 4096

/-- A token field of all ones means that the bucket is unlimited (R363). -/
def limited (tok : Nat) : Bool := tok != 0xFFFF
def Context.chargeRead (c : Context) (n : Nat) : Context :=
  if limited c.readTok then { c with bktRead := c.bktRead - n } else c
def Context.chargeWrite (c : Context) (n : Nat) : Context :=
  if limited c.wrTok then { c with bktWrite := c.bktWrite - n } else c
/-- The write-lane bucket covers a charge (R136, R367). -/
def Context.covers (c : Context) (n : Nat) : Bool := !limited c.wrTok || decide ((n : Int) ≤ c.bktWrite)
/-- The read-byte bucket is not empty (R340, R345). -/
def Context.readsLeft (c : Context) : Bool := !limited c.readTok || decide (0 < c.bktRead)
/-- A charge is covered; in service-list mode no bucket is consulted (R375). -/
def State.covers (s : State) (c : Context) (n : Nat) : Bool := s.service.active || c.covers n
def State.readsLeft (s : State) (c : Context) : Bool := s.service.active || c.readsLeft

/-! ## The walk -/

/-- Bits [63:57] all equal bit 56 (R26). -/
def canonical (va : Nat) : Bool := field va 56 8 == 0 || field va 56 8 == 0xFF

/-- How a translation ends. -/
inductive Walk where
  | ok (pa key lease : Nat) (host transient r w x : Bool)
  | cause (c : Cause)
  /-- an ATS request is outstanding (R239) -/
  | wait
  deriving DecidableEq, Repr

/-- A reserved bit set, or a bit at a level that does not permit it (R233, R234). -/
def pteBad (level e : Nat) : Bool :=
  let leaf := level == 0 || ((level == 1 || level == 2) && field e 7 1 == 1)
  if leaf then
    field e 9 3 != 0 || (field e 8 1 == 1 && level != 0) || field e 7 1 != 1 || field e 6 1 != 0 || field e 1 2 != 0 ||
      field e 54 2 == 3 || (field e 4 1 == 1 && field e 3 1 == 0)
  else field e 52 12 != 0 || field e 1 11 != 0

/-- Offset bits of a leaf's page (R232). -/
def leafBits (level e : Nat) : Nat :=
  match level with
  | 0 => if field e 8 1 == 1 then 16 else 12
  | 1 => 21
  | _ => 30

/-- The page lies wholly within a tier, or within the peer range (R234). -/
def pageIn (pa n : Nat) : Bool :=
  (inFirst pa && inFirst (pa + n - 1)) || (inSecond pa && inSecond (pa + n - 1)) || (inPeer pa && inPeer (pa + n - 1))

/-- A leaf's translation of an address (R233, R234, R239, R412). -/
def State.leafEnd (s : State) (c : Context) (va level e : Nat) : Walk :=
  let bits := leafBits level e
  let base := field e 12 40 * 4096
  let key := field e 56 8
  let lease := field e 54 2
  let off := va % 2 ^ bits
  let r := field e 3 1 == 1
  let w := field e 4 1 == 1
  let x := field e 5 1 == 1
  let transient := field e 53 1 == 1
  if field e 52 1 == 1 then
    if base != 0 then .cause .protection
    else match c.ats.find? (fun a => a.1 ≤ va && va < a.1 + a.2.2) with
      | some a =>
        if a.2.1 + (va - a.1) ≥ 2 ^ 49 then .cause .protection
        else .ok (0x6000000000000 + a.2.1 + (va - a.1)) key lease true transient r w x
      | none => if c.pri.contains (va / 4096) || c.denied.contains (va / 4096) then .cause .pageFault else .wait
  else if base % 2 ^ bits != 0 || !pageIn base (2 ^ bits) then .cause .protection
  else if inMemory base && (!c.keys.contains key || s.keyOf key == 0) then .cause .protection
  else .ok (base + off) key lease false transient r w x

/-- The walk over the levels still to be read (R232). -/
def State.walkFrom (s : State) (c : Context) (va : Nat) : (levels : List Nat) → (table : Nat) → Walk
  | [], _ => .cause .pageFault
  | level :: rest, table =>
    if !inMemory table then .cause .protection
    else
      let e := fromBytes (s.peekRun 0 (table + 8 * field va (12 + 9 * level) 9) 8).bytes
      if field e 0 1 == 0 then .cause .pageFault
      else if pteBad level e then .cause .protection
      else if level == 0 || field e 7 1 == 1 then s.leafEnd c va level e
      else s.walkFrom c va rest (field e 12 40 * 4096)

def State.walk (s : State) (c : Context) (va : Nat) : Walk := s.walkFrom c va [4, 3, 2, 1, 0] c.ptRoot

/-! ## TLBs (R236, R237)

Until an invalidation completes, an access uses the entry it finds by a walk or an older one that a TLB holds. -/

/-- The entry maps an address. -/
def Tlb.covers (t : Tlb) (va : Nat) : Bool := t.va ≤ va && va < t.va + 2 ^ t.bits
def Tlb.result (t : Tlb) (va : Nat) : Walk := .ok (t.pa + (va - t.va)) t.key t.lease t.host t.transient t.r t.w t.x

/-- The walk's result, or that of an older entry: a free choice for each access, by its page and lane. -/
def State.lookup (s : State) (c : Context) (va : Nat) (lane : Nat := 0) : Walk :=
  let fresh := s.walk c va
  match (((c.tlb.filter fun t => t.covers va).map fun t => t.result va).filter fun x => x != fresh) with
  | [] => fresh
  | olds => (fresh :: olds).getD (Config.freeNat s.tick (50000 + va / 4096 + 2 ^ 60 * lane) % (olds.length + 1)) fresh

/-- The leaf that maps an address now, with its level and the address of its entry. -/
def State.leafFrom (s : State) (va : Nat) : (levels : List Nat) → (table : Nat) → Option (Nat × Nat × Nat)
  | [], _ => none
  | level :: rest, table =>
    let at_ := table + 8 * field va (12 + 9 * level) 9
    let e := fromBytes (s.peekRun 0 at_ 8).bytes
    if !inMemory table || field e 0 1 == 0 || pteBad level e then none
    else if level == 0 || field e 7 1 == 1 then some (at_, level, e)
    else s.leafFrom va rest (field e 12 40 * 4096)
def State.leafOf (s : State) (c : Context) (va : Nat) : Option (Nat × Nat × Nat) := s.leafFrom va [4, 3, 2, 1, 0] c.ptRoot

/-- A TLB keeps the translation that an access of a page used: the entry's own page, or its own 4 KiB of a 64 KiB page (R232), and of host
memory 4 KiB. -/
def State.keepTlb (s : State) (ctx va : Nat) : State :=
  match s.ctx? ctx with
  | none => s
  | some c =>
    match s.walk c va, s.leafOf c va with
    | .ok pa key lease host transient r w x, some (_, level, e) =>
      let bits := if level = 0 || host then 12 else leafBits level e
      let t : Tlb := ⟨va - va % 2 ^ bits, bits, pa - va % 2 ^ bits, key, lease, transient, r, w, x, host⟩
      if c.tlb.contains t then s else s.updCtx ctx fun c => { c with tlb := t :: c.tlb }
    | _, _ => s

/-- The entry that a walk reads in a region whose liveness bit is clear, where it meets one: it reads as zeros, so the walk ends there. -/
def State.deadEntry (s : State) (va : Nat) : (levels : List Nat) → (table : Nat) → Option Nat
  | [], _ => none
  | level :: rest, table =>
    let at_ := table + 8 * field va (12 + 9 * level) 9
    let e := fromBytes (s.peekRun 0 at_ 8).bytes
    if !inMemory table then none
    else if !s.isLive at_ then some at_
    else if field e 0 1 == 0 || pteBad level e || level == 0 || field e 7 1 == 1 then none
    else s.deadEntry va rest (field e 12 40 * 4096)
/-- A walk that ends without a leaf has read at the home: an entry in a region that is not live counts as an elided read (R227). -/
def State.countWalk (s : State) (c : Context) (va : Nat) : State :=
  match s.deadEntry va [4, 3, 2, 1, 0] c.ptRoot with
  | some pa => s.countElided pa
  | none => s

/-! ## Page tables as a whole -/

/-- The numbers of a table's entries that hold anything. -/
def Home.entriesOf (h : Home) (table : Nat) : List Nat :=
  nubNat ((h.mem.filter fun e => table ≤ e.1 && e.1 < table + 4096).map fun e => (e.1 - table) / 8)

/-- Every valid leaf of a table: address of its entry, virtual address, level, entry. -/
def State.leaves (s : State) : (levels : List Nat) → (table va : Nat) → List (Nat × Nat × Nat × Nat)
  | [], _, _ => []
  | level :: rest, table, va =>
    (s.home.entriesOf table).flatMap fun k =>
      let at_ := table + 8 * k
      let e := fromBytes (s.home.bytes at_ 8)
      let v := va + k * 2 ^ (12 + 9 * level)
      if !inMemory table || field e 0 1 == 0 || pteBad level e then []
      else if level == 0 || field e 7 1 == 1 then [(at_, v, level, e)]
      else s.leaves rest (field e 12 40 * 4096) v

def State.leavesOf (s : State) (c : Context) : List (Nat × Nat × Nat × Nat) := s.leaves [4, 3, 2, 1, 0] c.ptRoot 0

/-- The frames of a table's own pages, each with the address and length of the range that it serves. -/
def State.tables (s : State) : (levels : List Nat) → (table va : Nat) → List (Nat × Nat × Nat × Nat)
  | [], _, _ => []
  | level :: rest, table, va =>
    (va, 2 ^ (21 + 9 * level), table, 4096) :: (s.home.entriesOf table).flatMap fun k =>
      let e := fromBytes (s.home.bytes (table + 8 * k) 8)
      if !inMemory table || field e 0 1 == 0 || pteBad level e || level == 0 || field e 7 1 == 1 then []
      else s.tables rest (field e 12 40 * 4096) (va + k * 2 ^ (12 + 9 * level))

def State.tablesOf (s : State) (c : Context) : List (Nat × Nat × Nat × Nat) := s.tables [4, 3, 2, 1, 0] c.ptRoot 0

/-- A range of 57-bit addresses in the 64-bit space: the root table serves all of it. -/
def wideRange (x : Nat × Nat × Nat × Nat) : Nat × Nat × Nat × Nat :=
  if 2 ^ 57 ≤ x.2.1 then (0, 2 ^ 64, x.2.2) else if x.1 < 2 ^ 56 then x else (x.1 + (2 ^ 64 - 2 ^ 57), x.2)

/-- What a context's tables name: for each leaf and each table, the range it serves and its frame. -/
def State.namesOf (s : State) (c : Context) : List (Nat × Nat × Nat × Nat) :=
  ((s.leavesOf c).map (fun (l : Nat × Nat × Nat × Nat) => (l.2.1, 2 ^ leafBits l.2.2.1 l.2.2.2, field l.2.2.2 12 40 * 4096, 2 ^ leafBits l.2.2.1 l.2.2.2)) ++
    s.tablesOf c).map wideRange

/-- Bytes are written: where they lie in a table of a context, what its tables name before the write stays known until an invalidation
covers it (R226, R237). -/
def State.noteRewrite (s : State) (places : List Nat) : State :=
  { s with ctxs := s.ctxs.map fun c =>
      if (s.tablesOf c).any fun t => places.any fun a => t.2.2.1 ≤ a && a < t.2.2.1 + 4096 then
        { c with named := (s.namesOf c).filter (fun x => !c.named.contains x) ++ c.named }
      else c }

/-- The use of a page that an access needs. -/
inductive Need where
  | read | write | both | exec
  deriving DecidableEq, Repr

/-- A translated access: its place, or a cause, or a wait at translation, for an ATS reply or (`moving`) for the end of a
page's move. -/
inductive Xl where
  | ok (pa key lease : Nat) (host : Bool)
  | cause (c : Cause)
  | wait (moving : Bool)
  deriving DecidableEq, Repr

/-- Checks 2 to 4 of R126 on a global address; a write to a page being moved is held (R241). -/
def State.translate (s : State) (c : Context) (va : Nat) (need : Need) (lane : Nat := 0) : Xl :=
  if !canonical va then .cause .protection
  else match s.lookup c va lane with
    | .cause k => .cause k
    | .wait => .wait false
    | .ok pa key lease host transient r w x =>
      let allowed := match need with | .read => r | .write => w | .both => r && w | .exec => x
      if !allowed || (inMemory pa && s.keyOf key == 0) then .cause .protection
      else if transient && (need == .write || need == .both) then .wait true
      else .ok pa key lease host

/-! ## Hotness sampling (R240) -/

def tierCode (pa : Nat) : Nat := if inFirst pa then 0 else if inSecond pa then 1 else 2

/-- A sample record (R240). -/
def sampleBytes (time va core kind tier : Nat) : List Byte :=
  leBytes 14 0 ++ [BitVec.ofNat 8 (tier + 16 * kind), BitVec.ofNat 8 core] ++ leBytes 8 va ++ leBytes 8 time

/-- The sampler's index passes the samples whose release at system scope is over. -/
def Context.passSamples (c : Context) (now : Nat) : Context :=
  let n := (c.smpDue.takeWhile (· ≤ now)).length
  if n = 0 then c else { c with smpIdx := (c.smpIdx + n) % (c.smpSize / 32), smpDue := c.smpDue.drop n }

/-- Counts one translated sector access of a context and, at every N-th, writes a sample, which the index passes once it is released at
system scope; a full ring drops it. Whether the ring is full is free: the spec gives the reader of the ring no register (log 22). -/
def State.sample (s : State) (ctx va core kind pa : Nat) : State :=
  match s.ctx? ctx with
  | none => s
  | some c =>
    if c.smpK = 0 then s
    else if c.smpCount + 1 < 2 ^ c.smpK then s.updCtx ctx fun c => { c with smpCount := c.smpCount + 1 }
    else
      let s := s.updCtx ctx fun c => { c with smpCount := 0 }
      let at_ := (c.smpBase + 32 * ((c.smpIdx + c.smpDue.length) % (c.smpSize / 32))) % 2 ^ 57
      match (if Config.freeBit s.tick 40000 then Walk.wait else s.walk c (if at_ < 2 ^ 56 then at_ else at_ + 2 ^ 64 - 2 ^ 57)) with
      | .ok pa' key _ false _ _ _ _ =>
        if inMemory pa' then
          let last := (s.completion (lineOf pa') Config.clusters none).2.2
          (s.poke key 0 (located pa' (sampleBytes s.time va core kind (tierCode pa)))).updCtx ctx
            fun c => ({ c with smpDue := c.smpDue ++ [if last = 0 then s.time else last + 20] } : Context).passSamples s.time
        else s.updCtx ctx fun c => { c with smpLost := c.smpLost + 1 }
      | _ => s.updCtx ctx fun c => { c with smpLost := c.smpLost + 1 }

end Sys2Proof.Machine
end

