-- ==== Sys2Proof/Machine/Events.lean ====
section
/-! DEFINITION. Out rings, interrupt vectors, firmware events and the stop-record layout (spec/23_host_firmware_and_boot.md
R442, R444 to R447, R450, R452; spec/19_faults_and_preemption.md R377, R380). -/
namespace Sys2Proof.Machine

/-! ## Records on an out ring -/

/-- A record's header word (R442). -/
def header (skip : Bool) (entry len : Nat) : Nat := skip.toNat * 2 ^ 31 + entry % 256 * 2 ^ 16 + len % 65536
/-- A whole record: header and payload. -/
def outRecord (entry : Nat) (payload : List Byte) : List Byte := leBytes 4 (header false entry payload.length) ++ payload

/-- Bytes that a record of n bytes takes at a ring's tail, with the skip record that goes before it where it would cross the
end. -/
def OutRing.need (r : OutRing) (n : Nat) : Nat := if r.tail + n > r.size then r.size - r.tail + n else n
/-- Room for the record with at least 4 bytes to spare before HEAD (R445). -/
def OutRing.space (r : OutRing) (n : Nat) : Bool :=
  r.state == .running && (r.tail + r.size - r.ohead) % r.size + r.need n + 4 ≤ r.size

/-- A run of host memory lies in a window that the host has registered, or in the range of out ring 0 (R448, R450). -/
def State.inWindow (s : State) (a n : Nat) : Bool :=
  s.host.windows.any (fun w => w.2.1 ≤ a && a + n ≤ w.2.1 + w.2.2) ||
    s.host.outs.any fun r => r.n == 0 && r.base ≤ a && a + n ≤ r.base + r.size
/-- The ring and its shadow dword lie in windows; out ring 0 is one by itself (R448, R450). -/
def State.windowed (s : State) (r : OutRing) : Bool := r.n == 0 || (s.inWindow r.base r.size && s.inWindow r.shadow 8)
/-- The device may write a record now. -/
def State.outRoom (s : State) (r : OutRing) (n : Nat) : Bool := r.space n && s.windowed r

def State.writeHost (s : State) (a : Nat) (bs : List Byte) : State :=
  { s with host := { s.host with hostWrites := (a, bs) :: s.host.hostWrites } }
def State.outRing? (s : State) (n : Nat) : Option OutRing := s.host.outs.find? (fun r => r.n == n)
def State.updOut (s : State) (n : Nat) (f : OutRing → OutRing) : State :=
  { s with host := { s.host with outs := s.host.outs.map fun r => if r.n == n then f r else r } }

/-! ## Vectors (R447) -/

def Vector.zero (n : Nat) : Vector := ⟨n, 0, false, false, 0, none, 0⟩
def State.vector (s : State) (n : Nat) : Vector := (s.host.vectors.find? (fun v => v.n == n)).getD (Vector.zero n)
def State.setVector (s : State) (v : Vector) : State :=
  { s with host := { s.host with vectors := v :: s.host.vectors.filter (fun w => w.n != v.n) } }
/-- Threshold N and holdoff H in nanoseconds (R445). -/
def Vector.threshold (v : Vector) : Nat := field v.cfg.toNat 0 8 + 1
def Vector.holdoff (v : Vector) : Nat := (field v.cfg.toNat 8 6 + 1) * 1000

/-- Fires, or stays pending while masked. -/
def Vector.fire (v : Vector) : Vector :=
  if v.masked then { v with pending := true }
  else { v with pending := false, unreported := 0, oldest := none, fired := v.fired + 1 }
/-- Whether a vector would fire at a time. -/
def Vector.due (v : Vector) (time : Nat) : Bool :=
  v.unreported != 0 &&
    (v.threshold ≤ v.unreported || (match v.oldest with | some t => t + v.holdoff ≤ time | none => false))
/-- A completion: a record written to an out ring of the vector. -/
def State.completed (s : State) (n : Nat) : State :=
  let v := s.vector n
  let v := { v with unreported := v.unreported + 1, oldest := v.oldest.or (some s.time) }
  s.setVector (if v.due s.time then v.fire else v)

/-! ## Writing (R444) -/

/-- Payload, then header, then the shadow TAIL, as posted writes in that order. -/
def State.putRecord (s : State) (r : OutRing) (rec : List Byte) : State :=
  let n := rec.length
  let skip := r.tail + n > r.size
  let s := if skip then s.writeHost (r.base + r.tail) (leBytes 4 (header true 0 (r.size - r.tail - 4))) else s
  let at_ := if skip then 0 else r.tail
  let tail := (at_ + n) % r.size
  let s := s.writeHost (r.base + at_ + 4) (rec.drop 4)
  let s := s.writeHost (r.base + at_) (rec.take 4)
  let s := s.writeHost r.shadow (leBytes 8 tail)
  (s.updOut r.n fun r => { r with tail := tail }).completed r.vec

/-- A record of a DEBUG or EDGE ring; the spec gives its ENTRY field no value, so it is free (log 23). -/
def State.plainRecord (s : State) (payload : List Byte) : List Byte :=
  outRecord (Config.freeNat s.tick 41000 % 256) payload

/-- Writes waiting records while there is room, then one LOST event (R446). -/
def State.flushOut (s : State) (n : Nat) : (fuel : Nat) → State
  | 0 => s
  | fuel + 1 =>
    match s.outRing? n with
    | none => s
    | some r =>
      match r.recs with
      | rec :: rest =>
        if s.outRoom r rec.length then ((s.putRecord r rec).updOut n fun r => { r with recs := rest }).flushOut n fuel else s
      | [] =>
        if r.lost = 0 || !s.outRoom r 12 then s
        else (s.putRecord r (outRecord 0x05 (leBytes 8 r.lost))).updOut n fun r => { r with lost := 0 }

/-- A record for an out ring: written, or held until there is room; an EVENTS ring drops what exceeds 4,096 held events. -/
def State.queueOut (s : State) (n : Nat) (rec : List Byte) : State :=
  match s.outRing? n with
  | none => s
  | some r =>
    if r.recs.isEmpty && r.lost == 0 && s.outRoom r rec.length then s.putRecord r rec
    else if r.kind = 0 && 4096 ≤ r.recs.length then s.updOut n fun r => { r with lost := r.lost + 1 }
    else s.updOut n fun r => { r with recs := r.recs ++ [rec] }

/-- Firmware's event for an out ring, by one of two ways of writing it; held before EN is set and during a reload (R446, R450, R453). -/
def State.eventBy (s : State) (put : State → Nat → List Byte → State) (ring : Nat) (msg : List Byte) : State :=
  if s.host.fw == .reloading || (s.outRing? ring).isNone then
    if 4096 ≤ s.host.heldEvents.length then { s with host := { s.host with heldLost := s.host.heldLost + 1 } }
    else { s with host := { s.host with heldEvents := s.host.heldEvents ++ [(ring, msg)] } }
  else put s ring msg

/-- An attempt beyond a bound of R448 is blocked, counted and reported. -/
def State.reportBound (s : State) (row : Nat) : State :=
  let s : State := { s with host := { s.host with bounds := Sparse.set 0 s.host.bounds row (Sparse.get 0 s.host.bounds row + 1) } }
  s.eventBy State.queueOut 0 (outRecord 0x08 (leBytes 4 row ++ leBytes 4 1))

/-- A record for an out ring. A write to a ring that no window covers is blocked; the record waits for one (R448, log 94). -/
def State.emitOut (s : State) (n : Nat) (rec : List Byte) : State :=
  let s' := s.queueOut n rec
  match s.outRing? n with
  | some r => if s.windowed r then s' else s'.reportBound 1
  | none => s'

/-- A firmware event: of a context's EVENTS ring, or of out ring 0 (R450). -/
def State.event (s : State) (ctx : Option Nat) (code : Nat) (payload : List Byte) : State :=
  s.eventBy State.emitOut (((ctx.bind s.ctx?).bind (·.events)).getD 0) (outRecord code payload)

/-- The response to a command: tag, status (0 done, 1 refused, 2 busy), code, result (R452). -/
def State.respond (s : State) (tag status code result : Nat) : State :=
  s.event none 0x01 (leBytes 4 tag ++ leBytes 1 status ++ leBytes 1 code ++ leBytes 2 0 ++ leBytes 8 result)

/-- The held events go out once their ring exists and firmware runs. -/
def State.releaseEvents (s : State) : State :=
  let held := s.host.heldEvents
  let lost := s.host.heldLost
  let s := held.foldl (fun s e => s.emitOut e.1 e.2)
    { s with host := { s.host with heldEvents := [], heldLost := 0 } }
  let s := if lost = 0 then s else s.updOut 0 fun r => { r with lost := r.lost + lost }
  (s.host.outs.filter fun r => r.kind == 0).foldl (fun s r => s.flushOut r.n 8192) s

/-! ## Causes and stop records (R377, R380) -/

def Cause.code : Cause → Nat
  | .illegalOpcode => 0x01 | .illegalOperand => 0x02 | .privileged => 0x03 | .misaligned => 0x04 | .pageFault => 0x05
  | .protection => 0x06 | .scratchBound => 0x07 | .windowClosed => 0x08 | .formatPairing => 0x09 | .recordOverflow => 0x0A
  | .recursionDepth => 0x0B | .coresidency => 0x0C | .ringCorrupt => 0x0D | .remoteFault => 0x0E | .remoteTimeout => 0x0F
  | .eccRegister => 0x10 | .eccScratch => 0x11 | .storeStarved => 0x12 | .drainDeadline => 0x13 | .counterExhausted => 0x14
  | .breakpoint => 0x15 | .singleStep => 0x16 | .watchpoint => 0x17 | .softwareTrap => 0x18

def Cause.class_ : Cause → CauseClass
  | .pageFault => .replay
  | .ringCorrupt | .eccScratch => .kill
  | .drainDeadline => .ladder
  | .counterExhausted => .firmware
  | .breakpoint | .singleStep | .watchpoint | .softwareTrap => .trap
  | _ => .halt

def StopUnit.code : StopUnit → Nat
  | .core => 0 | .matrix => 1 | .copySeq => 2 | .copyEngine => 3 | .gatherer => 4 | .boarding => 5 | .rdma => 6
  | .select => 7 | .recordStore => 8

/-- The 512 bits of a stop, trap or error record. -/
def StopRec.bits (r : StopRec) : Nat :=
  let f (lo n x : Nat) : Nat := x % 2 ^ n * 2 ^ lo
  f 448 64 r.time + f 384 64 r.iaddr + f 320 64 r.faddr + f 312 8 ((r.cause.map Cause.code).getD 0) + f 308 4 r.unit.code +
  f 307 1 r.prim.toNat + f 306 1 r.fetch.toNat + f 305 1 r.lane.isSome.toNat + f 297 8 (r.lane.getD 0) + f 289 8 r.core +
  f 284 5 r.cluster + f 277 7 r.slot + f 271 6 r.ctx + f 255 16 r.node + f 240 15 r.wgid + f 236 4 r.qmask + f 224 12 r.code +
  f 192 32 r.detail

def StopRec.bytes (r : StopRec) : List Byte := leBytes 64 r.bits

end Sys2Proof.Machine
end

