-- ==== Sys2Proof/Machine/RingPlan.lean ====
section
/-! DEFINITION. The lap plan's geometry, and boarding windows (spec/15_solstice_ring.md R332, R336, R338, R339). -/
namespace Sys2Proof.Machine

/-- Frames of a segment, G. -/
def PlanLayer.g (l : PlanLayer) : Nat := if l.scl then 17 else 16
def PlanLayer.total (l : PlanLayer) : Nat := l.nseg * l.g
def LapPlan.onRing (p : LapPlan) (r : Nat) : List PlanLayer := p.layers.filter fun l => l.ring == r
def LapPlan.find (p : LapPlan) (layer : Nat) : Option PlanLayer := p.layers.find? fun l => l.layer == layer
/-- Frames of a ring's sequence. -/
def LapPlan.frames (p : LapPlan) (r : Nat) : Nat := (p.onRing r).foldl (fun n l => n + l.total) 0

/-- The place in a ring's sequence of a layer's first frame. -/
def startIn : (layers : List PlanLayer) → (layer : Nat) → Nat
  | [], _ => 0
  | l :: ls, k => if l.layer = k then 0 else l.total + startIn ls k
def LapPlan.startOf (p : LapPlan) (l : PlanLayer) : Nat := startIn (p.onRing l.ring) l.layer

/-- What the i-th frame of a sequence is: layer, segment, frame, whether it is the layer's last. -/
def frameIn : List PlanLayer → (i : Nat) → Option (PlanLayer × Nat × Nat × Bool)
  | [], _ => none
  | l :: ls, i => if i < l.total then some (l, i / l.g, i % l.g, i + 1 = l.total) else frameIn ls (i - l.total)

/-- Hops from a die's stop to another's (R332). -/
def hops (ring i j : Nat) : Nat := if ring = 0 then (j + 8 - i) % 8 else (i + 8 - j) % 8

/-- Frames of a ring seen at a cluster's stop in this lap. -/
def Ring.seenAt (r : Ring) (ring cluster : Nat) : Nat := Sparse.get 0 r.seen (32 * ring + cluster)

/-- Frame 0 of the layer has not reached the cluster in this lap. -/
def Ring.ahead (r : Ring) (p : LapPlan) (l : PlanLayer) (cluster : Nat) : Bool := r.seenAt l.ring cluster ≤ p.startOf l
/-- The layer is passing a cluster. -/
def Ring.passing (r : Ring) (p : LapPlan) (l : PlanLayer) (cluster : Nat) : Bool :=
  let n := r.seenAt l.ring cluster
  p.startOf l < n && n < p.startOf l + l.total

/-- When frame 0 of a layer reaches a cluster at nominal tempo, moved by the stalls so far. -/
def State.nominal (s : State) (p : LapPlan) (l : PlanLayer) (cluster : Nat) : Nat :=
  let cycles := 16 * p.startOf l / p.tempo + 4 * hops l.ring l.die (cluster / 4) + s.ring.stalls.getD l.ring 0
  s.ring.start + cycles * 1000 / s.power.mhz

/-- When the next lap begins at nominal tempo, moved by the stalls so far of the ring that is over last (R337). -/
def State.nextLap (s : State) (p : LapPlan) : Nat :=
  let passed (r : Nat) : Nat := 16 * p.frames r / p.tempo + s.ring.stalls.getD r 0
  max s.time (s.ring.start + (max (passed 0) (passed 1) + 64) * 1000 / s.power.mhz)

/-- When frame 0 of a layer reaches a cluster in the next lap at nominal tempo. -/
def State.nominalNext (s : State) (p : LapPlan) (l : PlanLayer) (cluster : Nat) : Nat :=
  s.nextLap p + (16 * p.startOf l / p.tempo + 4 * hops l.ring l.die (cluster / 4)) * 1000 / s.power.mhz

/-- The boarding window of a layer is open at a cluster (R339): this lap's, or once frame 0 has passed the next lap's, unless the plan
ends or gives way with this lap. -/
def State.windowOpen (s : State) (p : LapPlan) (l : PlanLayer) (cluster : Nat) : Bool :=
  if s.ring.ahead p l cluster then s.nominal p l cluster ≤ s.time + l.lead * 1000
  else !s.ring.ends && s.ring.newPlan.isNone && decide (s.nominalNext p l cluster ≤ s.time + l.lead * 1000)

/-- The layer whose windows defer a node's workgroups: BFIRST names it in the plan in effect, and it admits the context. -/
def State.deferral (s : State) (c : Context) (n : Node) : Option (LapPlan × PlanLayer) :=
  match s.ring.plan with
  | none => none
  | some p => match p.find n.bfirst with
    | some l => if l.ctxmask.getLsbD c.id then some (p, l) else none
    | none => none

/-- A workgroup of the node may be placed on a cluster. -/
def State.mayBoard (s : State) (c : Context) (n : Node) (cluster : Nat) : Bool :=
  match s.deferral c n with
  | none => true
  | some (p, l) => s.windowOpen p l cluster

end Sys2Proof.Machine
end

