-- ==== Sys2Proof/Machine/Records.lean ====
section
/-! DEFINITION. Record space, queues and the gathering of records into workgroups (spec/07_work_graph.md R160 to R170, R180,
R182), and the routes of error records (spec/19_faults_and_preemption.md R385). -/
namespace Sys2Proof.Machine

/-! ## Partitions -/

def clustersPerDie : Nat := 4
def dieOfCluster (k : Nat) : Nat := k / clustersPerDie
def clusterOfCore (k : Nat) : Nat := k / Config.coresPerCluster
def Context.clusters (c : Context) : List Nat := (List.range Config.clusters).filter c.clmask.testBit
/-- The dies of a partition, in die order. -/
def Context.dies (c : Context) : List Nat := nubNat (c.clusters.map dieOfCluster)
def Context.partCores (c : Context) : List Nat := (List.range Config.cores).filter fun k => c.clmask.testBit (clusterOfCore k)
def Workgroup.core (g : Workgroup) : Nat := g.cores.headD 0
def Workgroup.cluster (g : Workgroup) : Nat := clusterOfCore g.core
def Workgroup.die (g : Workgroup) : Nat := dieOfCluster g.cluster

/-! ## Graphs -/

def Context.typeSize (c : Context) (t : Nat) : Nat := (c.graph.bind fun g => g.types[t]?).getD 0
/-- The edge-table index of a node's edge e (R60). -/
def Node.edgeIdx (n : Node) (e : Nat) : Nat := n.edge0 + e
def Context.edge? (c : Context) (k : Nat) : Option Edge := c.graph.bind fun g => g.edges[k]?
def Node.quota (n : Node) : Nat := if n.kind = 0 then 256 else 1
def Node.waves (n : Node) : Nat := n.wavesM1 + 1

/-! ## Record space (R165) -/

def recSpace (n : Nat) : Nat := (n + 31) / 32 * 32
def sumBy {α : Type} (f : α → Nat) (xs : List α) : Nat := xs.foldl (fun n x => n + f x) 0
def recsSpace (rs : List Rec) : Nat := sumBy (fun r => recSpace r.bytes.length) rs
/-- Space of a wave's phase record (R182). -/
def Wave.phaseSpace (w : Wave) (carry : BitVec 96) : Nat :=
  recSpace (1024 * popCount 96 carry.toNat + 832 + 48 * w.stack.length)
def Workgroup.phaseSpace (g : Workgroup) (c : Context) : Nat :=
  match c.node? g.node with
  | none => 0
  | some n => sumBy (fun w => if w.ended then 0 else w.phaseSpace n.carry) g.waves
def Workgroup.inPhase (g : Workgroup) : Bool := match g.status with | .phase _ => true | _ => false
/-- The workgroup still holds its input records; a co-resident launch's one record is held by the first that does. -/
def State.holdsInput (s : State) (c : Context) (g : Workgroup) : Bool :=
  !g.doneTaken &&
    (match c.node? g.node with
     | some n => n.cores = 0 || (s.wgs.find? fun h => h.ctx == g.ctx && h.launch == g.launch && !h.doneTaken).map (·.id) == some g.id
     | none => true)
/-- What a formed workgroup holds: its records. The one record of a co-resident launch, of which a killed member is formed again, is held
by a member of the launch that is in place, or else by the first that is formed again. -/
def State.formedHeld (s : State) (c : Context) (f : Formed) : Nat :=
  match f.member with
  | none => recsSpace f.recs
  | some (launch, _) =>
    if s.wgs.any (fun h => h.ctx == c.id && h.launch == launch && !h.doneTaken) then 0
    else if (c.formed.find? fun e => e.member.any fun m => m.1 == launch).any (·.member == f.member) then recsSpace f.recs
    else 0
def State.recordsHeld (s : State) (c : Context) : Nat :=
  sumBy (fun q => recsSpace q.recs) c.slices + sumBy (s.formedHeld c) c.formed +
  sumBy (fun g => if g.ctx != c.id then 0 else
    (if s.holdsInput c g then recsSpace g.records else 0) + sumBy (fun o => recSpace o.bytes.length) g.slots +
    (if g.inPhase then g.phaseSpace c else 0)) s.wgs +
  sumBy (fun r => if r.ctx == some c.id && r.kind == 2 then sumBy (fun b => recSpace (b.length - 4)) r.recs else 0) s.host.outs +
  sumBy (fun r => if r.ctx != c.id then 0 else match r.recs with
    | some (_, _, bs) => sumBy (fun b => recSpace b.length) bs
    | none => 0) s.peers.reqs
def Context.recordSpace (c : Context) : Nat := c.rstore * c.dies.length + c.spill
/-- Room for more bytes of records. -/
def State.recordRoom (s : State) (c : Context) (n : Nat) : Bool := s.recordsHeld c + n ≤ c.recordSpace

/-! ## Queues (R164, R169) -/

def Context.addSlice (c : Context) (node die : Nat) (rs : List Rec) : Context :=
  if c.slices.any (fun q => q.node == node && q.die == die) then
    { c with slices := c.slices.map fun q => if q.node == node && q.die == die then { q with recs := q.recs ++ rs } else q }
  else { c with slices := c.slices ++ [⟨node, die, rs⟩] }
/-- depth(N): committed, unbound records in all slices. -/
def Context.depth (c : Context) (node : Nat) : Nat :=
  sumBy (fun q => if q.node == node then q.recs.length else 0) c.slices
/-- H(N) (R163). -/
def Context.high (c : Context) (n : Node) : Nat := min 65535 (max 64 (n.quota * c.partCores.length))
/-- Records on an edge bound to a remote node or to an out ring await delivery (R420, R446). -/
def State.awaiting (s : State) (c : Context) (node : Nat) : Bool :=
  match c.graph with
  | none => false
  | some g => (List.range g.edges.length).any fun k => match g.edges[k]? with
    | some e => e.target == node && (match e.bind with
      | .here => false
      | .remote _ _ _ => s.peers.reqs.any fun r => r.ctx == c.id && (r.recs.map (·.1)) == some k
      | .outRing n => match s.outRing? n with | some r => !r.recs.isEmpty | none => false)
    | none => false
/-- above(N) (R169). -/
def State.above (s : State) (c : Context) (node : Nat) : Bool :=
  (match c.node? node with | some n => c.high n < c.depth node | none => false) || s.awaiting c node

/-! ## Gathering (R167) -/

/-- Takes the oldest n records of a depth out of a list: those taken and those left. -/
def takeDepth (d : Nat) : (n : Nat) → List Rec → List Rec × List Rec
  | _, [] => ([], [])
  | 0, rs => ([], rs)
  | n + 1, r :: rs =>
    if r.depth = d then let (a, b) := takeDepth d n rs; (r :: a, b)
    else let (a, b) := takeDepth d (n + 1) rs; (a, r :: b)

/-- Forms workgroups of a slice's records: every full quota, and one from the oldest record once that has waited long enough; and so
again, as long as one of these is due. -/
def formQuota (quota : Nat) (lapsed : Rec → Bool) : (fuel : Nat) → List Rec → List (List Rec) × List Rec
  | 0, rs => ([], rs)
  | _, [] => ([], [])
  | fuel + 1, r :: rs =>
    let (a, b) := takeDepth r.depth quota (r :: rs)
    if a.length = quota || lapsed r then let (fs, left) := formQuota quota lapsed fuel b; (a :: fs, left)
    else ([], r :: rs)

/-- Gathers the records of a node's slice into formed workgroups; with the time, those of a thread kind whose oldest record has waited
TIMER, which counts quarter microseconds. -/
def Context.gather (c : Context) (node die : Nat) (now : Option Nat) : Context :=
  match c.node? node, c.slices.find? (fun q => q.node == node && q.die == die) with
  | some n, some q =>
    let lapsed (r : Rec) : Bool := match now with
      | some t => n.kind == 0 && n.cores == 0 && decide (r.time + n.timer * 250 ≤ t)
      | none => false
    let (fs, left) := formQuota n.quota lapsed (q.recs.length + 1) q.recs
    { c with
      slices := c.slices.map fun q => if q.node == node && q.die == die then { q with recs := left } else q
      formed := c.formed ++ fs.map fun rs => ⟨node, die, rs, (rs.head?.map (·.time)).getD 0, none⟩ }
  | _, _ => c

/-- Workgroups of the node may be formed now: always, unless boarding windows defer them (R339). -/
def State.mayForm (s : State) (c : Context) (node : Nat) : Bool :=
  match c.node? node with
  | some n => c.clusters.any fun k => s.mayBoard c n k
  | none => false

/-- Commits records to the slice of a node's queue on a die, and gathers. A wave or group kind, and a full thread kind, form at
once, unless boarding windows defer them. -/
def State.commit (s : State) (ctx node die : Nat) (rs : List Rec) : State :=
  s.updCtx ctx fun c =>
    let c' := c.addSlice node die rs
    if s.mayForm c node then c'.gather node die none else c'

/-! ## Join counters (R180) -/

/-- Lowers the join counter of a record's parent; a continuation waiting for it is queued at 0 (R182). -/
def Workgroup.lowerJoin (g : Workgroup) (n : Nat) : Workgroup :=
  let j := (g.join + (2 ^ 32 - n % 2 ^ 32)) % 2 ^ 32
  { g with join := j, status := if j = 0 && g.status == .phase false then .phase true else g.status }
def State.lowerParents (s : State) (rs : List Rec) : State :=
  rs.foldl (fun s r => match r.parent with | some k => s.updWg k fun g => g.lowerJoin 1 | none => s) s

/-! ## Error and trap records (R385, R393) -/

/-- Commits a record to the context's trap node at depth 0, or lets it wait for record space. -/
def State.toTrapNode (s : State) (ctx node die : Nat) (r : StopRec) : State :=
  match s.ctx? ctx with
  | none => s
  | some c =>
    if c.trapWait.isEmpty && s.recordRoom c 64 then s.commit ctx node die [⟨r.bytes, 0, none, s.time⟩]
    else s.updCtx ctx fun c => { c with trapWait := c.trapWait ++ [r] }

/-- An error record's route: the trap node, the debug mailbox, or a firmware event. -/
def State.errorRecord (s : State) (r : StopRec) : State :=
  match s.ctx? r.ctx with
  | none => s
  | some c =>
    match c.trapNode, c.mailbox with
    | some n, _ => s.toTrapNode r.ctx n (dieOfCluster r.cluster) r
    | none, some ring => s.emitOut ring (s.plainRecord r.bytes)
    | none, none => s.event (some r.ctx) 0x06 r.bytes

end Sys2Proof.Machine
end

