-- ==== Sys2Proof/Machine/Ops.lean ====
section
/-! DEFINITION. The named operations every meaning is written over: parties and where they are, taking a cause (R377 to R395),
the return from a debug halt (R399), the checks at issue (R10, R22, R49, R86, R138, R198), and what the issue of an instruction
leaves behind (R16, R20 to R25). -/
namespace Sys2Proof

def Party.wg : Party → Nat
  | .wave g _ | .mseq g _ | .cseq g _ => g
def Party.executor : Party → Executor
  | .wave _ _ => .core
  | .mseq _ _ => .matrix
  | .cseq _ _ => .copy

/-- Forms whose performance or acknowledgement a release waits for (R252). -/
def Instr.isMem : Instr → Bool
  | .ld _ | .st _ | .stNb _ | .atom _ | .red _ | .recld _ | .recst _ | .sld _ | .sst _ | .satom _ | .cntadd _ | .dbgwr _ | .dbgrd _
  | .mst _ | .msta _ | .mld _ | .mft _ | .gbar _ => true
  | _ => false
/-- Loads and atomics that return a value. -/
def Instr.isLoad : Instr → Bool
  | .ld _ | .atom _ | .recld _ | .sld _ | .satom _ | .dbgrd _ => true
  | _ => false

/-- A scratchpad form of a memory instruction. -/
def Instr.isScratch : Instr → Bool
  | .ld o => o.sp == .s | .st o | .stNb o => o.sp == .s | .atom o => o.sp == .s | .red o => o.sp == .s
  | .sld o => o.sp == .s | .sst o => o.sp == .s | .satom o => o.sp == .s
  | _ => false

end Sys2Proof

namespace Sys2Proof.Machine

/-! ## Parties -/

def Workgroup.wave? (g : Workgroup) (k : Nat) : Option Wave := g.waves.find? (fun w => w.waveid == k)
def Workgroup.seq? (g : Workgroup) (matrix : Bool) (k : Nat) : Option SeqThread :=
  g.resv.bind fun r => r.threads.find? (fun t => t.matrix == matrix && t.idx == k)
def Workgroup.thread? (g : Workgroup) : Party → Option Thread
  | .wave _ k => (g.wave? k).map (·.t)
  | .mseq _ k => (g.seq? true k).map (·.t)
  | .cseq _ k => (g.seq? false k).map (·.t)

def Workgroup.updWave (g : Workgroup) (k : Nat) (f : Wave → Wave) : Workgroup :=
  { g with waves := g.waves.map fun w => if w.waveid = k then f w else w }
def Workgroup.updSeq (g : Workgroup) (matrix : Bool) (k : Nat) (f : SeqThread → SeqThread) : Workgroup :=
  { g with resv := g.resv.map fun r =>
      { r with threads := r.threads.map fun t => if t.matrix = matrix ∧ t.idx = k then f t else t } }
def Workgroup.updThread (g : Workgroup) (p : Party) (f : Thread → Thread) : Workgroup :=
  match p with
  | .wave _ k => g.updWave k fun w => { w with t := f w.t }
  | .mseq _ k => g.updSeq true k fun t => { t with t := f t.t }
  | .cseq _ k => g.updSeq false k fun t => { t with t := f t.t }

def State.updWave (s : State) (g k : Nat) (f : Wave → Wave) : State := s.updWg g fun g => g.updWave k f
def State.updThread (s : State) (p : Party) (f : Thread → Thread) : State := s.updWg p.wg fun g => g.updThread p f

/-- Where an instruction executes: its party, workgroup, context and node, the wave on a core, and the thread's state. -/
structure Site where
  p : Party
  g : Workgroup
  c : Context
  n : Node
  w : Option Wave
  t : Thread
  deriving DecidableEq, Repr

def State.siteOf (s : State) (p : Party) : Option Site :=
  match s.wg? p.wg with
  | none => none
  | some g =>
    match s.ctx? g.ctx, g.thread? p with
    | some c, some t =>
      match c.node? g.node with
      | some n => some ⟨p, g, c, n, (match p with | .wave _ k => g.wave? k | _ => none), t⟩
      | none => none
    | _, _ => none

/-- The site of the instruction that issues now. -/
def State.site (s : State) : Option Site := s.cur.bind s.siteOf

def Site.core (σ : Site) : Option Nat := σ.w.map (·.core)
def Site.cluster (σ : Site) : Nat := match σ.w with | some w => clusterOfCore w.core | none => σ.g.cluster
def Site.spanning (σ : Site) : Bool := 1 < σ.g.cores.length

/-- The 64-bit address of a 57-bit program counter (R16, R26). -/
def va64 (pc : Nat) : Nat := if pc % 2 ^ 57 < 2 ^ 56 then pc % 2 ^ 57 else pc % 2 ^ 57 + (2 ^ 64 - 2 ^ 57)

/-! ## Stop records and the halt line (R378 to R380) -/

/-- A work request has packets on the wire, or is completing (R439). -/
def WorkReq.inFlight (w : WorkReq) : Bool :=
  match w.stage with | .waiting | .flush _ | .flushed => false | _ => true

/-- Physical quadrants as a mask (R314). -/
def Workgroup.qmask (g : Workgroup) : Nat :=
  match g.resv with | some r => sumBy (fun q => 2 ^ q) r.quads | none => 0

/-- The physical thread of a relative one (R294). -/
def Workgroup.physical (g : Workgroup) (k : Nat) : Nat := match g.resv with | some r => r.quads.getD k k | none => k

/-- What a record says of a cause beyond the place it arose in. -/
structure Detail where
  cause : Cause
  iaddr : Nat
  faddr : Nat
  lane : Option Nat
  fetch : Bool
  code : Nat
  deriving DecidableEq, Repr

/-- The workgroup has waves, threads or engines' work where it was placed. -/
def Workgroup.onCore (g : Workgroup) : Bool := g.status == .resident || g.status == .stopped || g.status == .ending

/-- Sequencer hardware threads of a context's workgroups on a cluster. -/
def State.seqThreads (s : State) (ctx cluster : Nat) : List SeqThread :=
  (s.wgs.filter fun g => g.ctx == ctx && g.onCore && g.cluster == cluster).flatMap fun g =>
    match g.resv with | some r => r.threads | none => []

/-- What a unit's record counts (R380): the work not finished of the matrix engine, of the copy sequencers and of the copy engine; live
registrations of the boarding port; the work requests in flight of the remote memory access engine (R439). -/
def State.unitDetail (s : State) (unit : StopUnit) (ctx cluster : Nat) : Nat :=
  match unit with
  | .matrix => sumBy (fun t : SeqThread => t.ops.length) (s.seqThreads ctx cluster)
  | .copySeq => (s.cmds.filter fun c => c.ctx == ctx && c.cluster == cluster && c.party.executor == .copy).length
  | .copyEngine => (s.cmds.filter fun c => c.ctx == ctx && c.cluster == cluster).length
  | .boarding => sumBy (fun t : SeqThread => t.regs.length) (s.seqThreads ctx cluster)
  | .rdma => sumBy (fun q : QPair => if q.ctx = ctx then (q.sends.filter (·.inFlight)).length else 0) s.qps
  | _ => 0

/-- The record of a party that met a cause. -/
def State.recordFor (s : State) (p : Party) (prim : Bool) (d : Detail) : StopRec :=
  let z : StopRec := ⟨s.time, d.iaddr, d.faddr, some d.cause, .core, prim, d.fetch, d.lane, 0xFF, 0, 0, 0, 0xFFFF, 0, 0, d.code, 0, []⟩
  match s.wg? p.wg with
  | none => z
  | some g =>
    let z := { z with cluster := g.cluster, ctx := g.ctx, node := g.node, wgid := g.wgid, qmask := g.qmask }
    match p with
    | .wave _ k => match g.wave? k with
      | some w => { z with core := w.core, cluster := clusterOfCore w.core, slot := w.slot }
      | none => z
    | .mseq _ k => { z with unit := .matrix, slot := g.physical k, detail := s.unitDetail .matrix g.ctx g.cluster }
    | .cseq _ k => { z with unit := .copySeq, slot := g.physical k, detail := s.unitDetail .copySeq g.ctx g.cluster }

/-- A column-select unit of a cluster has a CSELK of the context (R159). -/
def State.selecting (s : State) (ctx cluster : Nat) : Bool :=
  s.wgs.any fun g => g.ctx == ctx && g.onCore && g.waves.any fun w => clusterOfCore w.core == cluster &&
    w.t.flights.any fun f => !f.done && (match f.i with | .cselk _ _ => true | _ => false)

/-- Units that stop for a context, each by one record (R378, R380): every core that has a wave of it, and in every cluster each engine
that has work of it. -/
def State.unitsOf (s : State) (ctx : Nat) : List StopRec :=
  let z : StopRec := ⟨s.time, 0, 0, none, .core, false, false, none, 0xFF, 0, 0, ctx, 0xFFFF, 0, 0, 0, 0, []⟩
  let gs := s.wgs.filter fun g => g.ctx == ctx && g.onCore
  let cores := nubNat (gs.flatMap fun g => (g.waves.filter fun w => !w.ended || !w.t.flights.isEmpty).map (·.core))
  let each (k : Nat) : List StopRec :=
    let z := { z with cluster := k }
    let ts := s.seqThreads ctx k
    let has (b : Bool) (r : StopRec) : List StopRec := if b then [{ r with detail := s.unitDetail r.unit ctx k }] else []
    has (ts.any fun t => t.matrix && (t.running || !t.ops.isEmpty))
      { z with unit := .matrix, qmask := sumBy (fun g => if g.cluster = k then g.qmask else 0) gs } ++
    has (ts.any fun t => !t.matrix && t.running) { z with unit := .copySeq } ++
    has (s.cmds.any fun c => c.ctx == ctx && c.cluster == k) { z with unit := .copyEngine } ++
    has (s.gatherers.any fun r => r.cluster == k && (r.rows.any (fun x => x.ctx == ctx) || r.tiles.any fun x => x.ctx == ctx))
      { z with unit := .gatherer } ++
    has (ts.any fun t => !t.regs.isEmpty) { z with unit := .boarding, claims := ts.flatMap fun t => t.regs.map fun r =>
      (r.layer, r.win, r.claims.map fun c => (c.x, c.seg)) } ++
    has (s.selecting ctx k) { z with unit := .select }
  cores.map (fun k => { z with core := k, cluster := clusterOfCore k }) ++ (List.range Config.clusters).flatMap each ++
  (if s.qps.any fun q => q.ctx == ctx && q.sends.any (·.inFlight) then [{ z with unit := .rdma, detail := s.unitDetail .rdma ctx 0 }] else [])

/-- Two records are of one unit. -/
def StopRec.sameUnit (a b : StopRec) : Bool :=
  a.unit == b.unit && (match a.unit with | .core => a.core == b.core | .rdma | .recordStore => true | _ => a.cluster == b.cluster)

/-- The records of the other units that stop for a context. -/
def State.otherStops (s : State) (ctx : Nat) (prim : StopRec) : List StopRec :=
  (s.unitsOf ctx).filter fun r => !r.sameUnit prim

/-- A cause met after the halt goes into its own unit's record, unless that already names one (R379, R380). -/
def addStop (stops : List StopRec) (r : StopRec) : List StopRec :=
  match stops.find? (StopRec.sameUnit r) with
  | none => stops ++ [r]
  | some o => if o.cause.isSome || o.prim then stops else stops.map fun x => if x.sameUnit r then r else x

/-! ## What is left of instructions in flight -/

/-- Nothing of it remains: window closed, results written, stores acknowledged, counter lowered. -/
def Flight.over (f : Flight) : Bool := f.done && !f.counted && f.left == some 0 && f.owed == 0

/-- Counters are lowered in issue order on each path (R138); what has nothing left is dropped. -/
def lowerPaths : (blocked : List Path) → List Flight → List Flight
  | _, [] => []
  | blocked, f :: fs =>
    match f.i.path with
    | some k =>
      if f.counted && f.done && f.owed == 0 && !blocked.contains k then { f with counted := false } :: lowerPaths blocked fs
      else if f.counted then f :: lowerPaths (k :: blocked) fs
      else f :: lowerPaths blocked fs
    | none => f :: lowerPaths blocked fs

/-- Counters that may be lowered are, and what has nothing left is dropped. -/
def Thread.settleFlights (t : Thread) : Thread :=
  { t with flights := (lowerPaths [] t.flights).filter fun f => !(f.over && f.fl == 0) }

/-- An instruction whose results are written has no window any more. -/
def Flight.flush (f : Flight) : Flight :=
  if f.done then { f with olds := [], clob := [], fl := 0, left := some 0 } else f
def Thread.flush (t : Thread) : Thread := ({ t with flights := t.flights.map Flight.flush }).settleFlights
/-- Every result is written before a wave is halted or saved (R25, R86): no read sees an older value after, and the flags raised
are in %fpst. -/
def Wave.flush (w : Wave) : Wave :=
  { w with fpst := w.fpst ||| flagsOf (w.t.flights.filter (·.done)), t := w.t.flush }
def SeqThread.flush (t : SeqThread) : SeqThread :=
  { t with t := t.t.flush, oldTiles := t.oldTiles.filter fun o => t.t.flights.any fun f => f.id == o.1 && !f.done }
def Workgroup.flush (g : Workgroup) : Workgroup :=
  { g with waves := g.waves.map Wave.flush, resv := g.resv.map fun r => { r with threads := r.threads.map SeqThread.flush } }
def State.flushCtx (s : State) (ctx : Nat) : State :=
  { s with wgs := s.wgs.map fun g => if g.ctx = ctx then g.flush else g }

/-- The host is told of a halt and its primary cause (R379, R452). -/
def State.haltEvent (s : State) (ctx : Nat) (r : StopRec) : State :=
  s.event (some ctx) 0x03 (leBytes 8 (ctx + 256 * ((r.cause.map Cause.code).getD 0)))

/-- The halt line of a context: it issues nothing further, every unit writes its record, and the host learns of the primary
cause. Every unit stops at once: the skid of R378 is not modelled (log 24). A cause met after the halt is recorded and is not
primary, unless the ladder halted the context: then it ends the ladder (R391). A ladder that ends in destruction goes on. -/
def State.haltLine (s : State) (ctx : Nat) (r : StopRec) : State :=
  match s.ctx? ctx with
  | none => s
  | some c =>
    match c.run with
    | .running =>
      let ladder : Ladder := match c.ladder with | .drain d (some t) => .drain d (some t) | _ => .none
      let s := s.updCtx ctx fun c =>
        { c with run := .halted false, ladder := ladder, stops := c.stops ++ { r with prim := true } :: s.otherStops ctx r }
      (s.flushCtx ctx).haltEvent ctx r
    | .halted false =>
      if c.ladder == .winter then
        (s.updCtx ctx fun c => { c with ladder := .none, stops := c.stops.filter (fun o => !o.sameUnit r) ++ [{ r with prim := true }] }).haltEvent ctx r
      else s.updCtx ctx fun c => { c with stops := addStop c.stops { r with prim := false } }
    | _ => s.updCtx ctx fun c => { c with stops := addStop c.stops { r with prim := false } }

/-! ## Killing and saving a workgroup (R381, R385, R187) -/

/-- EN of the watchpoints of a workgroup clears (R398). -/
def clearWps (g : Nat) (wps : List (Nat × Nat × DWord × Nat)) : List (Nat × Nat × DWord × Nat) :=
  wps.map fun w => if w.2.2.2 = g then (w.1, w.2.1, w.2.2.1 &&& ~~~1, g) else w

/-- The workgroup is resident: its waves are on a core, or the last has exited and a program that it started still runs (R186, R292). -/
def Workgroup.present (g : Workgroup) : Bool :=
  g.status == .resident || g.status == .stopped || (g.status == .ending && g.resv.isSome)

/-- The workgroups that a multicast mask names: on each core of a cluster, the one of the launch with the lowest %wgid that is resident
there, else one that is saved (R217, R270). -/
def State.multicast (s : State) (ctx launch cluster mask : Nat) : List Nat :=
  let first (hs : List Workgroup) : Option Workgroup :=
    hs.foldl (fun m h => match m with | some b => if h.wgid < b.wgid then some h else some b | none => some h) none
  (List.range 6).filterMap fun k =>
    let hs := s.wgs.filter fun h => h.ctx == ctx && h.launch == launch && h.cores.contains (6 * cluster + k)
    if mask.testBit k then
      ((first (hs.filter Workgroup.present)).or (first (hs.filter fun h => h.status == .saved))).map (·.id)
    else none

/-- A command writes its own workgroup's scratchpad, windows or reservation: by what is left of an ACP, by the targets of a tile, by the
destination of a CQ whose descriptor is read. A CQ whose descriptor the engine has not read counts as one that does (log 106). -/
def State.writesInto (s : State) (c : Command) : Bool :=
  match c.req with
  | .acp => c.ops.any fun o => o.any fun x => match x.dst with | .mem _ _ | .made _ => false | _ => true
  | .tile _ _ _ _ => c.targets.contains c.wg
  | .cqmeta _ _ _ | .cq _ => true
  | .desc d => match field d.toNat 102 2 with
    | 0 => false
    | 1 => if d.getLsbD 121 && (c.stage == .new || c.stage == .tagHeld) then
        (s.multicast c.ctx c.launch c.cluster (field d.toNat 122 6)).contains c.wg else c.targets.contains c.wg
    | _ => true

/-- Commands of a killed workgroup that write its scratchpad, windows or reservation are discarded with their signals; any other runs on,
and signals nothing into the workgroup. The workgroup's rows are withdrawn (R385). -/
def State.dropEngineWork (s : State) (g : Nat) : State :=
  { s with
    cmds := (s.cmds.filter fun c => c.wg != g || !s.writesInto c).map fun c =>
      if c.wg = g then { c with tb := none, tag := none } else c
    gatherers := s.gatherers.map fun r =>
      { r with rows := r.rows.filter (fun x => x.wg != g)
               tiles := r.tiles.map fun t => { t with rows := t.rows.filter (fun x => x.wg != g) } }
    wps := clearWps g s.wps }

/-- A killed wave's accesses of memory are still performed; nothing else of it is left. -/
def Thread.killed (t : Thread) : Thread :=
  let live := t.flights.filter fun f => f.i.isMem && !f.i.isScratch && (f.owed != 0 || f.accs.any fun a => a.pa.isSome && !a.done)
  let keep (f : Flight) : Flight := { f with accs := f.accs.filter fun a => a.pa.isSome }
  { t with park := none, flights := live.map keep }

/-- The workgroup belongs to a co-resident launch (R189). -/
def State.isCoResident (s : State) (g : Workgroup) : Bool :=
  match (s.ctx? g.ctx).bind (·.node? g.node) with | some n => n.cores != 0 | none => false

/-- A class-K cause: the workgroup alone is removed, a co-resident one as the member that it is; an idempotent one whose records are kept is formed again, any other ends
with an error record. -/
def State.kill (s : State) (g : Workgroup) (r : StopRec) : State :=
  let s := s.dropEngineWork g.id
  let idem := match (s.ctx? g.ctx).bind (·.node? g.node) with | some n => n.idemp | none => false
  if idem && !g.doneTaken then
    let s := { s with wgs := s.wgs.filter (fun h => h.id != g.id) }
    let member := if s.isCoResident g then some (g.launch, g.wgid) else none
    s.updCtx g.ctx fun c =>
      { c with formed := ⟨g.node, g.die, g.records, (g.records.head?.map (·.time)).getD s.time, member⟩ :: c.formed }
  else
    let s := s.updWg g.id fun g =>
      { g with status := .ending, why := [], resv := none, slots := [], scratch := [], scratchSize := 0,
               waves := g.waves.map fun w => { w with ended := true, t := w.t.killed } }
    s.errorRecord r

/-- The walk that a fault ended is counted where it read a region that is not live (R227). -/
def State.countFault (s : State) (ctx : Nat) : SaveWhy → State
  | .fault va => match s.ctx? ctx with | some c => s.countWalk c va | none => s
  | .space => s

/-- A workgroup's waves issue nothing further until it is saved and restored; a co-resident launch is saved whole (R189). The records name
the faults. -/
def State.stopForFault (s : State) (g : Workgroup) (why : SaveWhy) (recs : List StopRec) : State :=
  let co := s.isCoResident g
  let s := s.countFault g.ctx why
  { s with wgs := s.wgs.map fun h =>
      if h.id = g.id then
        let st : WgStatus := if h.status == .resident || h.status == .ending then .stopped else h.status
        { h with status := st, why := if h.why.contains why then h.why else h.why ++ [why], faultAt := h.faultAt ++ recs }
      else if co && h.ctx == g.ctx && h.launch == g.launch && h.status == .resident then { h with status := .stopped }
      else h }

/-- A class-H cause of a workgroup whose save is under way: the save ends unwritten, and the line governs (R384). -/
def State.endSave (s : State) (g : Nat) : State :=
  s.updWg g fun g => if g.status == .stopped then { g with status := .resident, why := [], faultAt := [], saveFailed := false } else g

/-! ## Traps (R393, R394) -/

/-- Every instruction of the thread that has results has written them, and every scratchpad access is performed. -/
def Thread.settled (t : Thread) : Bool := t.flights.all fun f => f.done || !(f.res || f.i.isScratch)

/-- The passing over of R141 that follows a structured instruction is under way: E is empty, and the wave has not ended. -/
def Wave.passing (w : Wave) : Bool := w.e == 0 && !w.ended

/-- Routes a wave's pending class-T cause: debug mailbox, trap node, or halt line. A structured instruction and the passing over that
follows it are one step (R397). -/
def State.routeTrap (s : State) (p : Party) : State :=
  match p with
  | .wave g k =>
    match (s.wg? g).bind fun g => (g.wave? k).map fun w => (g, w) with
    | some (gg, w) =>
      match w.dbg.pending with
      | some (cause, code, faddr, lane, iaddr) =>
        if !w.t.settled || w.passing then s
        else
          let r := s.recordFor p false ⟨cause, iaddr, faddr, lane, false, code⟩
          let halted (s : State) (m : Option (List Byte)) : State := s.updWave g k fun w =>
            ({ w with dbg := { w.dbg with halted := true, reason := cause.code, pending := none, record := m } } : Wave).flush
          match s.ctx? gg.ctx with
          | none => s
          | some c =>
            let rec_ : StopRec := { r with qmask := 0 }
            match c.mailbox, c.trapNode with
            | some ring, _ => let m := s.plainRecord rec_.bytes; halted (s.emitOut ring m) (some m)
            | none, some n => halted (s.toTrapNode gg.ctx n gg.die rec_) none
            | none, none => (s.updWave g k fun w => { w with dbg := { w.dbg with pending := none } }).haltLine gg.ctx r
      | none => s
    | none => s
  | _ => s

/-- Notes a trap condition; an earlier one of the same boundary stands, so TRAP and BRK come before WATCHPOINT and that before
SINGLE_STEP (R394). -/
def Wave.noteTrap (w : Wave) (cause : Cause) (code faddr : Nat) (lane : Option Nat) (iaddr : Nat) : Wave :=
  if w.dbg.pending.isSome || w.ended then w else { w with dbg := { w.dbg with pending := some (cause, code, faddr, lane, iaddr) } }

/-! ## Taking a cause (R377)

The one operation by which an instruction or an engine meets a cause: what is saved, what stops, and who is told. -/

def State.take (s : State) (p : Party) (d : Detail) : State :=
  match s.wg? p.wg with
  | none => s
  | some g =>
    match d.cause.class_ with
    | .halt => (s.haltLine g.ctx (s.recordFor p true d)).endSave g.id
    | .replay => s.stopForFault g (.fault d.faddr) [s.recordFor p true d]
    | .kill => s.kill g (s.recordFor p true d)
    | .trap => match p with
      | .wave k w => (s.updWave k w fun w => w.noteTrap d.cause d.code d.faddr d.lane d.iaddr).routeTrap p
      | _ => s.haltLine g.ctx (s.recordFor p true d)
    | .ladder | .firmware => s

/-- An instruction meets a cause: it has no effect, and nothing issues now. -/
def State.raise (s : State) (p : Party) (d : Detail) : State :=
  { s.take p d with cur := none, blocked := [], tick := s.tick + 1 }

/-- Leaving a debug halt (R399, R400): the wave issues again at its program counter. -/
def Wave.leaveDebugHalt (w : Wave) : Wave := { w with dbg := { w.dbg with halted := false } }

/-! ## May the party issue (R20 to R23, R138) -/

/-- A fault left lanes of it outstanding: they complete before the party issues again (R25). `passes` is used by .S forms only, and
marks such an instruction once its lanes have translated. -/
def Flight.outstanding (f : Flight) : Bool :=
  !f.i.isScratch && (f.passes != 0 || f.accs.any fun a => a.pa.isNone && !a.done)

/-- Lanes that a fault left outstanding in some party of the workgroup: after the restore they complete before any of its waves or threads
issues (R383). -/
def Workgroup.restoring (g : Workgroup) : Bool :=
  let left (t : Thread) : Bool := t.flights.any fun f => f.outstanding && !f.done
  g.waves.any (fun w => left w.t) || (match g.resv with | some r => r.threads.any fun t => left t.t | none => false)

/-- The party goes on: its workgroup is resident, or ending while a program that it started runs (R292). -/
def Site.lives (σ : Site) : Bool :=
  σ.c.run == .running && (σ.g.status == .resident || (σ.g.status == .ending && σ.p.executor != .core)) && !σ.g.restoring

def Site.runnable (σ : Site) : Bool :=
  σ.lives && σ.t.park.isNone &&
    (match σ.p, σ.w with
     | .wave _ _, some w => !w.ended && !w.dbg.halted && w.resub.isEmpty && (w.passing || (!w.dbg.haltreq && w.dbg.pending.isNone))
     | .mseq _ k, _ => (match σ.g.seq? true k with | some t => t.running | none => false)
     | .cseq _ k, _ => (match σ.g.seq? false k with | some t => t.running | none => false)
     | _, _ => false)

/-- A window, or an instruction whose lanes a fault left outstanding, bars the next instruction. -/
def Thread.windowShut (t : Thread) : Bool := t.flights.any fun f => (f.res && f.left == some 0 || f.outstanding) && !f.done
/-- The number of a path's counter (R138): instructions in flight on it that have not been lowered. -/
def Thread.counter (t : Thread) (k : Path) : Nat := (t.flights.filter fun f => f.counted && f.i.path == some k).length
/-- The path an instruction counts on: on a core only (R47). -/
def Site.path (σ : Site) (i : Instr) : Option Path := if σ.p.executor == .core then i.path else none
def Site.full (σ : Site) (i : Instr) : Bool := match σ.path i with | some k => 63 ≤ σ.t.counter k | none => false
/-- The instruction waits at issue. -/
def Site.holds (σ : Site) (i : Instr) : Bool := !σ.runnable || σ.t.windowShut || σ.full i

/-! ## The checks every instruction makes at issue -/

/-- Scratchpad forms that a sequencer may not run (R47). -/
def scratchForm : Instr → Bool
  | .sld o => o.sp == .s | .sst o => o.sp == .s | .satom o => o.sp == .s | .mwait o => o.sp == .s
  | _ => false

/-- The orders ORD accepts on a target (R198). -/
def ordOk (o : Order) : Instr → Bool
  | .ld _ | .sld _ => o == .rlx || o == .acq
  | .st _ | .stNb _ | .sst _ | .red _ => o == .rlx || o == .rel
  | .atom _ | .satom _ => true
  | _ => false

/-- R49 rows 2 and 3, with R10 and R50, then a pending ORD (R198), then marked sources (R86). -/
def Site.gate (σ : Site) (i : Instr) (tick : Nat) : Option Cause :=
  if !i.runsOn σ.p.executor then some .illegalOpcode
  else if !i.wf || (match σ.w with | some w => w.nregs < vTop i | none => false) then some .illegalOperand
  else if i.la = 15 && σ.p.executor == .core && i.path.isNone then some .illegalOperand
  else if σ.p.executor != .core && scratchForm i then some .illegalOperand
  else if (match σ.t.ord with | some (o, _) => !ordOk o i | none => false) then some .illegalOperand
  else if (match σ.w with
    | some w => w.markedSrc tick i
    | none => (sSrcs i).any fun n => σ.t.smark.getLsbD n) then some .eccRegister
  else none

/-- The lane that the stop record of a cause met at these checks names. -/
def Site.gateLane (σ : Site) (i : Instr) (tick : Nat) : Cause → Option Nat
  | .eccRegister => σ.w.bind fun w => w.markedLane tick i
  | _ => none

/-- The party that issues passes the checks of every instruction with this one. -/
def State.passes (s : State) (i : Instr) : Bool :=
  match s.site with
  | some σ => !σ.holds i && (σ.gate i s.tick).isNone
  | none => false

/-! ## Releases (R252) -/

/-- A write is on its way to the host: it is posted (R258). -/
def QEntry.posted (e : QEntry) : Bool :=
  (e.host || inHost (128 * e.line)) && (match e.kind with | .store _ => true | _ => false)
/-- All that is left of an owner's writes is posted. -/
def State.onlyPosted (s : State) (o : Owner) : Bool := s.queue.all fun e => e.owner != o || e.posted

/-- The waiting half of a release at a scope is over: earlier loads and DBGWRs performed (R405); above .WAVE earlier writes acknowledged and .S
accesses performed, and below .SYS posted writes to the host are not waited for (R258); and the time base past the scope's completion
register and skew. -/
def State.released (s : State) (σ : Site) (scope : Scope) : Bool :=
  let fs := σ.t.flights
  let loads := fs.all fun f => (!f.i.isLoad || f.done) && (match f.i with | .dbgwr _ => f.owed == 0 | _ => true)
  let writes := fs.all fun f => !f.i.isMem || (f.done && f.owed == 0) ||
    (scope != .sys && f.owed != 0 && !f.i.isLoad && !f.outstanding && s.onlyPosted (.flight σ.p f.id))
  match scope with
  | .wave => loads
  | .wg => loads && writes && (!σ.spanning || σ.t.wCluster + 2 ≤ s.time)
  | .cluster => loads && writes && σ.t.wCluster + 2 ≤ s.time
  | .dev => loads && writes && σ.t.wDev + 2 ≤ s.time
  | .sys => loads && writes && σ.t.wSys + 20 ≤ s.time

/-- The scope of an ORD target: the wider ones act as .WG on a scratchpad form (R198). -/
def ordScope (i : Instr) (sc : Scope) : Scope :=
  if i.isScratch then (match sc with | .wave => .wave | _ => .wg) else sc

/-- The release an instruction makes before its own effect: FENCE, an ORD target, EMIT.REL (at .SYS for records of a remote node,
R260), SPAWN.REL, a barrier arrival, SLOTSET, CNTADD, and the end of a sequencer thread (R139, R252, R278, R295). -/
def Site.releaseOf (σ : Site) (i : Instr) : Option Scope :=
  match i with
  | .fence o sc => if o == .rel || o == .ar then some sc else none
  | .emit o =>
    if !o.rel then none
    else match (σ.c.edge? (σ.n.edgeIdx o.e)).map (fun (e : Edge) => e.bind) with
      | some (EdgeBind.remote _ _ _) => some .sys
      | _ => some .dev
  | .spawn o => if o.rel then some .dev else none
  | .bara _ | .baraw _ => some .wg
  | .gbar _ => if σ.n.cores = 0 then none else some .dev
  | .cntadd _ => some .dev
  | .tbarv _ | .slotset _ => some .wg
  | .exit => if σ.p.executor == .core then none else some .cluster
  | .rdv _ => if σ.p.executor == .core then some .wg else some .cluster
  | _ => match σ.t.ord with
    | some (.rel, sc) | some (.ar, sc) => some (ordScope i sc)
    | _ => none

/-- The offset checks of a transaction barrier (R265, R273). -/
def Workgroup.tbCheck (g : Workgroup) (off : Nat) : Option Cause :=
  if off % 16 != 0 then some .misaligned
  else if g.scratchSize < off + 16 then some .scratchBound
  else none

/-- What TBARV checks at issue, before it waits and releases (R273). -/
def Site.early (σ : Site) (i : Instr) (tick : Nat) : Option (Cause × Nat) :=
  match i with
  | .tbarv o => let off := (σ.t.rs tick o.a).toNat % 2 ^ 32; (σ.g.tbCheck off).map fun c => (c, off)
  | _ => none

/-- A cause deferred to this wait (R260, R283, R417). -/
def Thread.deferredOn (t : Thread) (k : Path) : Option Deferred := t.deferred.find? (fun d => d.path == k)
def Thread.dropDeferred (t : Thread) (d : Deferred) : Thread := { t with deferred := t.deferred.erase d }

/-! ## After the issue -/

/-- One more instruction has issued: every window is one shorter (R22, R23). -/
def Flight.age (f : Flight) : Flight := { f with left := match f.left with | some (n + 1) => some n | x => x }
/-- The thread after one of its instructions has issued. -/
def Thread.retire (t : Thread) (next : Nat) (fl : Option Flight) : Thread :=
  { t with
    pc := next
    flights := (lowerPaths [] (t.flights.map Flight.age ++ fl.toList)).filter fun f => !f.over
    nextId := t.nextId + fl.toList.length
    ord := none
    stallFrom := none }

/-- The wave after one of its instructions has issued: flags whose window has closed are in %fpst; a step is noted (R397). -/
def Wave.retire (w : Wave) (dbgNode : Bool) (pc next : Nat) (fl : Option Flight) : Wave :=
  let t := w.t.retire next fl
  let gone := (lowerPaths [] (w.t.flights.map Flight.age ++ fl.toList)).filter Flight.over
  let w := { w with t := t, fpst := w.fpst ||| flagsOf gone, passed := 0, promoted := 0,
                    dbg := { w.dbg with skipbp := false } }
  if w.dbg.step && !dbgNode then w.noteTrap .singleStep 0 0 none (va64 pc) else w

/-- A HALTREQ takes effect at the instruction boundary (R400). -/
def Wave.boundary (w : Wave) : Wave :=
  if w.dbg.haltreq && !w.dbg.halted && w.t.settled && !w.passing then
    ({ w with dbg := { w.dbg with haltreq := false, halted := true, reason := 0 } } : Wave).flush
  else w

/-- The party's instruction has issued. `next` is a branch target where there is one. ORD is pending from then on (R198). -/
def State.retire (s : State) (σ : Site) (i : Instr) (next : Option Nat) (fl : Option Flight) : State :=
  let pc := next.getD ((σ.t.pc + 4 * i.words) % 2 ^ 57)
  let s := { s with cur := none, blocked := [], tick := s.tick + 1 }
  let s := match σ.p with
    | .wave g k => (s.updWave g k fun w => (w.retire σ.n.dbg σ.t.pc pc fl).boundary).routeTrap σ.p
    | p => s.updThread p fun t => t.retire pc fl
  match i with
  | .ord o sc => s.updThread σ.p fun t => { t with ord := some (o, sc) }
  | _ => s

/-- What an instruction's own meaning answers once the shared checks have passed. -/
inductive Body where
  /-- its effect, a branch target, and itself where it stays in flight -/
  | done (s : State) (next : Option Nat) (fl : Option Flight)
  /-- it does not issue now; `s` differs only in what a wait notes -/
  | hold (s : State)
  | raise (s : State) (cause : Cause) (faddr : Nat) (lane : Option Nat)
  | fault (f : Fault)

/-- The party waits: nothing issues now. -/
def State.wait (s : State) : State := { s with cur := none, blocked := s.cur.toList ++ s.blocked }
/-- Parks the party. -/
def State.parkAt (s : State) (p : Party) (k : Park) : State := s.updThread p fun t => { t with park := some k }

/-- How every instruction issues: hold, the illegal-encoding causes, the release before it, then its own effect. With no party
chosen nothing happens. -/
def issueOp (i : Instr) (s : State) (body : Site → State → Body) : Host.Outcome State Fault Refusal :=
  match s.site with
  | none => .next s
  | some σ =>
    if σ.holds i then .next s.wait
    else match σ.gate i s.tick with
      | some c => .next (s.raise σ.p ⟨c, va64 σ.t.pc, 0, σ.gateLane i s.tick c, false, 0⟩)
      | none =>
        match σ.early i s.tick with
        | some (c, fa) => finish σ (.raise s c fa none)
        | none =>
          match σ.releaseOf i with
          | some sc =>
            match (if σ.p.executor == .core then σ.t.deferredOn .gst else none) with
            | some d => .next ((s.updThread σ.p fun t => t.dropDeferred d).raise σ.p ⟨d.cause, d.iaddr, d.faddr, none, false, 0⟩)
            | none => if s.released σ sc then finish σ (body σ s) else .next ((s.parkAt σ.p (.release i σ.t.pc sc)).wait)
          | none => finish σ (body σ s)
where
  finish (σ : Site) : Body → Host.Outcome State Fault Refusal
    | .done s next fl => .next (s.retire σ i next fl)
    | .hold s => .next s.wait
    | .raise s c faddr lane => .next (s.raise σ.p ⟨c, va64 σ.t.pc, faddr, lane, false, 0⟩)
    | .fault f => .fault f

/-! ## Instructions that only write registers -/

/-- A flight with nothing outstanding but its window: what lookahead leaves of an instruction whose results are written. -/
def Site.window (σ : Site) (i : Instr) (olds : List (RegKey × Nat)) (fl : FlagSet) : Option Flight :=
  if i.la = 0 then none
  else some { id := σ.t.nextId, i := i, pc := σ.t.pc, left := if i.la = 15 then none else some i.la, res := true,
              counted := false, done := true, accs := [], passes := 0, olds := olds, clob := [], order := .rlx,
              scope := .wave, owed := 0, fl := fl, arg := 0, fail := none }

/-- Results of a per-lane form: writes and raised flags (R70, R84). -/
def laneOp (i : Instr) (s : State) (f : Wave → Nat → List Write × FlagSet) : Host.Outcome State Fault Refusal :=
  issueOp i s fun σ s =>
    match σ.p, σ.w with
    | .wave g k, some w =>
      let (ws, fl) := f w s.tick
      let olds := ws.map fun e => (e.k, w.now e.k)
      let w' := w.putAll s.tick ws
      .done (s.updWave g k fun _ => { w' with fpst := if i.la = 0 then w'.fpst ||| fl else w'.fpst }) none (σ.window i olds fl)
    | _, _ => .hold s

/-- Results of a uniform form on a core or a sequencer; flags raised on a sequencer are discarded (R85). -/
def uniOp (i : Instr) (s : State) (f : Thread → Nat → List Write × FlagSet) : Host.Outcome State Fault Refusal :=
  issueOp i s fun σ s =>
    let (ws, fl) := f σ.t s.tick
    let olds := ws.map fun e => (e.k, σ.t.now e.k)
    let s := s.updThread σ.p fun t => t.putAll s.tick ws
    let s := match σ.p with
      | .wave g k => if i.la = 0 then s.updWave g k fun w => { w with fpst := w.fpst ||| fl } else s
      | _ => s
    .done s none (σ.window i olds (if σ.p.executor == .core then fl else 0))

/-- A branch or a form without a result: only the program counter moves. -/
def flowOp (i : Instr) (s : State) (f : Site → Nat → Except Cause (Option Nat)) : Host.Outcome State Fault Refusal :=
  issueOp i s fun σ s =>
    match f σ s.tick with
    | .ok next => .done s next none
    | .error c => .raise s c 0 none

end Sys2Proof.Machine
end

