-- ==== Sys2Proof/Machine/Fetch.lean ====
section
/-! DEFINITION. The passing of time, and the fetch of the instruction a party issues (spec/01_sequential_machine.md R16,
spec/02_encoding_and_assembly.md R49, spec/19_faults_and_preemption.md R396). -/
namespace Sys2Proof.Machine

/-! ## Time (R365, R366, R404) -/

/-- The wave holds its slot and registers: until it has ended and nothing issued can still write them (R122). -/
def Wave.holds (w : Wave) : Bool := !w.ended || w.t.flights.any fun f => f.res && !f.done

/-- Wave slots that a context holds. -/
def State.slotsHeld (s : State) (ctx : Nat) : Nat :=
  sumBy (fun g => if g.ctx == ctx && g.onCore then (g.waves.filter Wave.holds).length else 0) s.wgs

/-! ### Soft errors (R230, R386) -/

/-- Adds to the count of errors corrected in a level. -/
def State.countCorrected (s : State) (level : Nat) : State :=
  { s with corrected := Sparse.set 0 s.corrected level (Sparse.get 0 s.corrected level + 1) }

/-- Element `k` of a list, counted around. -/
def around {α : Type} (xs : List α) (k : Nat) : Option α := xs[k % xs.length]?

/-- A lane register of a wave on a core fails. -/
def State.strikeRegister (s : State) (place : Nat) : State :=
  let ws := (s.wgs.filter Workgroup.onCore).flatMap fun g => (g.waves.filter fun w => !w.ended && w.nregs != 0).map fun w => (g.id, w)
  match around ws place with
  | some (g, w) => s.updWave g w.waveid fun w => { w with vmark := nubNat (place / ws.length % (256 * w.nregs) :: w.vmark) }
  | none => s

/-- A word of a workgroup's scratchpad allocation fails. -/
def State.strikeScratch (s : State) (place : Nat) : State :=
  let gs := s.wgs.filter fun g => g.onCore && g.scratchSize != 0
  match around gs place with
  | some g => s.updWg g.id fun g => { g with scratchBad := nubNat (place / gs.length % (g.scratchSize / 4) :: g.scratchBad) }
  | none => s

/-- A copy in an L1 or in a cluster cache fails its parity and is dropped. -/
def State.strikeCopy (s : State) (inL1 : Bool) (place : Nat) : State :=
  match around (s.home.copies.filter fun c => c.core.isSome == inL1) place with
  | some k => s.keepCopies (· != k)
  | none => s

/-- A sector of a dirty line is poisoned; a clean line is fetched again. -/
def State.strikeDirty (s : State) (place : Nat) : State :=
  match around s.home.dirty place with
  | some l => s.poisonRange (128 * l + 32 * (place / s.home.dirty.length % 4)) 32
  | none => s

/-- A sector of a tier fails: it is poisoned as it fills the memory-side cache, unless a newer value is there. -/
def State.strikeTier (s : State) (place : Nat) : State :=
  match around s.home.live place with
  | some r =>
    let sec := r * 65536 + place / s.home.live.length % 65536
    if s.home.dirty.contains (sec / 4) then s else s.poisonRange (32 * sec) 32
  | none => s

/-- Removes the k-th record that is bound to a formed workgroup; one left without records is gone. -/
def dropBound : (k : Nat) → List Formed → List Formed
  | _, [] => []
  | k, f :: fs =>
    if k < f.recs.length then
      let g := { f with recs := f.recs.eraseIdx k }
      if g.recs.isEmpty then fs else g :: fs
    else f :: dropBound (k - f.recs.length) fs

/-- Removes the k-th queued record of a context, in its slices or bound to a workgroup that is not placed. -/
def Context.dropQueued (c : Context) (k : Nat) : Context × Option (Nat × Nat × Rec) :=
  let all := c.slices.flatMap fun q => q.recs.map fun r => (q.node, q.die, r)
  let bound := c.formed.flatMap fun f => f.recs.map fun r => (f.node, f.die, r)
  match all[k]? with
  | none => match bound[k - all.length]? with
    | some x => ({ c with formed := dropBound (k - all.length) c.formed }, some x)
    | none => (c, none)
  | some (n, d, r) =>
    ({ c with slices := c.slices.map fun q => if q.node = n ∧ q.die = d then { q with recs := q.recs.erase r } else q }, some (n, d, r))

/-- The record of an error in the record store. -/
def State.storeError (s : State) (ctx node die : Nat) : StopRec :=
  ⟨s.time, 0, 0, some .eccScratch, .recordStore, false, false, none, 0xFF, 4 * die, 0, ctx, node, 0, 0, 0, 0, []⟩

/-- A queued record is removed and reported, or a workgroup with its input record or a phase record in the store is killed (R386). -/
def State.strikeStore (s : State) (place : Nat) : State :=
  if place % 2 = 0 then
    match around (s.wgs.filter fun g => !g.doneTaken || g.inPhase) (place / 2) with
    | some g => s.kill g { s.storeError g.ctx g.node g.die with wgid := g.wgid }
    | none => s
  else
    match around s.ctxs (place / 2) with
    | none => s
    | some c =>
      match c.dropQueued (place / 2 / s.ctxs.length) with
      | (c', some (n, d, _)) => (s.setCtx c').errorRecord (s.storeError c.id n d)
      | _ => s

/-- A bit error in a protected level: corrected and counted, or uncorrectable. -/
def State.soften (s : State) (e : Config.SoftError) : State :=
  match e.level, e.correctable with
  | .l1, _ => s.strikeCopy true e.place
  | .cluster, _ => s.strikeCopy false e.place
  | .register, true => s.countCorrected 0
  | .scratchpad, true => s.countCorrected 1
  | .memorySide, true => s.countCorrected 2
  | .tier, true => s.countCorrected 3
  | .recordStore, true => s.countCorrected 4
  | .register, false => s.strikeRegister e.place
  | .scratchpad, false => s.strikeScratch e.place
  | .memorySide, false => s.strikeDirty e.place
  | .tier, false => s.strikeTier e.place
  | .recordStore, false => s.strikeStore e.place

/-- A correction of the time base changes its rate by at most 100 ppm: 1 ns in 10 µs (R422). Answers by how much it advances while `dt`
nanoseconds pass. -/
def Peers.paced (p : Peers) (dt : Nat) : Peers × Nat :=
  let all := p.pace + dt
  let k := min (all / 10000) p.adjust.natAbs
  ({ p with adjust := p.adjust - p.adjust.sign * k, pace := min 10000 (all - 10000 * k) }, if 0 ≤ p.adjust then dt + k else dt - k)

/-- Time passes: the clock counts cycles, and every limited core-time and energy bucket is charged. A level of core time counts
slot-nanoseconds, 128 to a core-nanosecond. What energy is charged is free (log 25), and so is whether a soft error occurs (log 33). -/
def State.pass (s : State) (dt : Nat) : State :=
  if dt = 0 then s
  else
    let d := (s.peers.paced dt).2
    let t : State := { s with
      peers := (s.peers.paced dt).1
      time := s.time + d
      cycles := s.cycles + dt * s.power.mhz / 1000
      ctxs := s.ctxs.map fun c =>
        let n := dt * s.slotsHeld c.id
        ({ c with
          bktCore := if limited c.coreTok then c.bktCore - n else c.bktCore
          used := c.used + n
          bktEnergy := if limited c.enTok then c.bktEnergy - Config.freeNat s.tick (42000 + c.id) else c.bktEnergy } : Context).passSamples
            (s.time + d) }
    match Config.softError s.tick with
    | some e => t.soften e
    | none => t

/-- Any step but the choice of a party may end a wait at issue. -/
def State.unblock (s : State) (i : Instr) : State :=
  match i with
  | .issue _ | .promotion _ => s
  | _ => { s with blocked := [] }

/-! ## Fetch -/

/-- What a party finds at its program counter. -/
inductive Fetched where
  | instr (i : Instr)
  | cause (c : Cause) (faddr : Nat)
  /-- a poisoned word (R231) -/
  | poisoned
  /-- an enabled hardware breakpoint (R396) -/
  | breakpoint (n : Nat)
  /-- the translation waits (R239) -/
  | wait
  deriving DecidableEq, Repr

/-- One word of an instruction. -/
inductive FetchWord where
  | ok (w : Nat)
  | cause (c : Cause)
  | poisoned
  | wait
  deriving DecidableEq, Repr

/-- A word is fetched from its home, through the page tables with execute permission. -/
def State.fetchWord (s : State) (c : Context) (pc : Nat) : FetchWord :=
  match s.translate c (va64 pc) .exec with
  | .cause k => .cause k
  | .wait _ => .wait
  | .ok pa key _ host =>
    if host || !inMemory pa then .ok (fromBytes (freeBytes s.tick 4))
    else
      let p := s.peekRun key pa 4
      if p.bad then .poisoned else .ok (fromBytes p.bytes)

/-- The enabled breakpoint at an address, unless SKIPBP is set or the node is a debugger's (R393, R396). -/
def Site.breakAt (σ : Site) : Option Nat :=
  match σ.w with
  | none => none
  | some w =>
    if σ.n.dbg || w.dbg.skipbp then none
    else (List.range 4).find? fun k =>
      let b := (σ.c.bps.getD k 0).toNat
      field b 0 1 == 1 && field b 2 55 * 4 == σ.t.pc

/-- Decodes two words for an executor (R49 rows 2 and 3). -/
def decodeFor (x : Executor) (w1 w2 : Nat) : Fetched :=
  if !permitted x w1 then .cause .illegalOpcode 0
  else match decodeWords w1 w2 with
    | .ok i => .instr i
    | .error .illegalOperand => .cause .illegalOperand 0
    | .error _ => .cause .illegalOpcode 0

/-- The instruction at a party's program counter, or the one fate the fetch has (R16, R49 row 1). The program counter has 57 bits: past
0x00FF_FFFF_FFFF_FFFC it goes on at 0xFF00_0000_0000_0000 (log 133). -/
def State.fetch (s : State) (σ : Site) : Fetched :=
  match σ.breakAt with
  | some n => .breakpoint n
  | none =>
    match s.fetchWord σ.c σ.t.pc with
    | .cause k => .cause k (va64 σ.t.pc)
    | .poisoned => .poisoned
    | .wait => .wait
    | .ok w1 =>
      if twoWords w1 then
        match s.fetchWord σ.c (σ.t.pc + 4) with
        | .cause k => .cause k (va64 (σ.t.pc + 4))
        | .poisoned => .poisoned
        | .wait => .wait
        | .ok w2 => decodeFor σ.p.executor w1 w2
      else decodeFor σ.p.executor w1 0

/-- What the fetch of one word leaves: its translation is kept (R236); and for each sector, `whole`, the read of a region that is not live
is counted (R227), and the access counts for the hotness sampler (R240). -/
def State.noteFetch (s : State) (σ : Site) (pc : Nat) (whole : Bool) : State :=
  match s.translate σ.c (va64 pc) .exec with
  | .ok pa _ _ host =>
    let s := s.keepTlb σ.c.id (va64 pc)
    if whole then
      (if host || !inMemory pa then s else s.countElided pa).sample σ.c.id (va64 pc / 32 * 32) (σ.core.getD 0xFF) 3 pa
    else s
  | _ => s

/-- What the fetch of an instruction leaves: of both its words, where it has two. -/
def State.sampleFetch (s : State) (σ : Site) : State :=
  let two := match s.fetchWord σ.c σ.t.pc with | .ok w => twoWords w | _ => false
  let next := σ.t.pc + 4
  let t := s.noteFetch σ σ.t.pc true
  if two then t.noteFetch σ next (next % 32 == 0) else t

/-- A party whose fetch ends in anything but an instruction: what its words' reads leave, and the cause. -/
def State.fetchFails (s : State) (σ : Site) : Fetched → State
  | .instr _ | .wait => s.wait
  | .cause c a => (s.sampleFetch σ).raise σ.p ⟨c, va64 σ.t.pc, a, none, c == .pageFault || c == .protection, 0⟩
  | .poisoned => (s.sampleFetch σ).raise σ.p ⟨.eccRegister, va64 σ.t.pc, va64 σ.t.pc, none, true, 0⟩
  | .breakpoint n => s.raise σ.p ⟨.breakpoint, va64 σ.t.pc, 0, none, false, 0x800 + n⟩

end Sys2Proof.Machine
end

