-- ==== Sys2Proof/Machine/Phase.lean ====
section
/-! DEFINITION. Phase boundaries (spec/07_work_graph.md R181 to R183), the end of a wave (R122, R185, R186) and the retries of
waves parked for record space (R173, R174). -/
namespace Sys2Proof.Machine

/-! ## Phase boundaries -/

/-- What a phase record keeps of a wave: carried v registers, s, p and f registers, %fpst, %nevst, E, the mask stack and the
resume address; nothing else survives (R182). -/
def Wave.phaseRecord (w : Wave) (carry : BitVec 96) : Wave :=
  { w with
    vregs := Sparse.keep (fun k => carry.getLsbD (k / 256)) w.vregs
    vmark := w.vmark.filter fun k => carry.getLsbD (k / 256)
    fpst := w.flags
    token := none
    passed := 0
    promoted := 0
    dbg := ⟨false, false, false, false, 0, none, none⟩
    t := { w.t with flights := [], wCluster := 0, wDev := 0, wSys := 0, ord := none, park := none, deferred := [],
                    stallFrom := none, acqFences := [] } }

/-- The kind of boundary that the workgroup's waves wait at. -/
def Workgroup.boundaryKind (g : Workgroup) : Option Bool :=
  (g.waves.filterMap fun w => match w.t.park with
    | some (.boundary j) => if w.ended then none else some j
    | _ => none).head?

/-- Every wave that has not ended has reached the boundary. -/
def Workgroup.allArrived (g : Workgroup) : Bool :=
  g.waves.any (fun w => !w.ended) &&
    g.waves.all fun w => w.ended || (match w.t.park with | some (.boundary _) => true | _ => false)

/-- A boundary that is reached while the workgroup holds a reservation raises ILLEGAL_OPERAND at a wave that waits there (R181, R292). -/
def State.boundaryCause (s : State) (g : Workgroup) : State :=
  match g.waves.find? fun w => !w.ended && (match w.t.park with | some (.boundary _) => true | _ => false) with
  | some w => s.take (.wave g.id w.waveid) ⟨.illegalOperand, va64 (w.t.pc + 2 ^ 57 - 4), 0, none, false, 0⟩
  | none => s

/-- The boundary takes effect when every wave has arrived and the record space holds the phase records; until then the waves
stay parked and keep everything. Its scratchpad goes, and with it what multicasts still had for the workgroup (R270). -/
def State.tryBoundary (s : State) (id : Nat) : State :=
  match s.wg? id with
  | none => s
  | some g =>
    match s.ctx? g.ctx with
    | none => s
    | some c =>
      match c.node? g.node, g.boundaryKind with
      | some n, some j =>
        if g.status == .resident && g.allArrived && g.resv.isSome then s.boundaryCause g
        else if g.status == .resident && g.allArrived && s.recordRoom c (g.phaseSpace c) then
          { s.updWg id fun g =>
              { g with
                status := .phase (!j || g.join == 0)
                scratch := [], scratchBad := [], scratchSize := 0
                waves := g.waves.map fun w => if w.ended then w else w.phaseRecord n.carry } with
            wps := clearWps id s.wps
            cmds := s.cmds.map fun c => { c with targets := c.targets.filter (· != id), late := c.late.filter fun e => e.1 != id } }
        else s
      | _, _ => s

/-! ## Record space freed (R173, R174) -/

/-- The lowest start of a free run of c indices in the workgroup's window (R172). Which free run is taken when there are several the spec does
not say: the lowest, in the model (log 119). -/
def freeRun (used : List Nat) (c : Nat) : Option Nat :=
  ((0 :: used.map (· + 1)).filter fun a =>
    a + c ≤ Config.outputSlots && !used.any fun u => a ≤ u && u < a + c).foldl
      (fun m a => match m with | some b => some (min a b) | none => some a) none

/-- An OALLOC of c slots on edge e would succeed. -/
def State.oallocFits (s : State) (c : Context) (g : Workgroup) (e n : Nat) : Bool :=
  (freeRun (g.slots.map (·.idx)) n).isSome &&
    (match (c.node? g.node).bind fun d => c.edge? (d.edgeIdx e) with
     | some ed => s.recordRoom c (n * recSpace (c.typeSize ed.rtype))
     | none => false)

/-- Waves of a context that are parked in OALLOC.WAIT and would now succeed issue it again; boundaries that wait for record space
are tried again; trap records that wait for it are committed. -/
def State.retryParked (s : State) (ctx : Nat) : State :=
  match s.ctx? ctx with
  | none => s
  | some c =>
    let s := c.trapWait.foldl (fun s r =>
      match s.ctx? ctx with
      | some c => match c.trapNode with
        | some n => if s.recordRoom c 64 then
            (s.commit ctx n (dieOfCluster r.cluster) [⟨r.bytes, 0, none, s.time⟩]).updCtx ctx
              fun c => { c with trapWait := c.trapWait.drop 1 }
          else s
        | none => s
      | none => s) s
    let wake (g : Workgroup) (w : Wave) : Wave := match w.t.park with
      | some (.oalloc o _) =>
        if s.oallocFits c g o.e (w.t.rs s.tick o.a).toNat then { w with t := { w.t with park := none } } else w
      | _ => w
    let retry (g : Workgroup) : Workgroup :=
      if g.ctx != ctx || g.status != .resident then g else { g with waves := g.waves.map (wake g) }
    let s := { s with wgs := s.wgs.map retry }
    (s.wgs.filter fun g => g.ctx == ctx).foldl (fun s g => s.tryBoundary g.id) s

/-! ## The end of a wave (R122, R185) -/

/-- The wave issues nothing further, and its unemitted reservations go. A cause deferred to its end is raised (R283, R417). A
boundary that only waited for the wave completes; with the last wave the workgroup is ending. -/
def State.endWave (s : State) (gid k : Nat) : State :=
  let deferred := ((s.wg? gid).bind fun g => g.wave? k).bind fun w => w.t.deferred.head?
  let s := match deferred with
    | some d => s.take (.wave gid k) ⟨d.cause, d.iaddr, d.faddr, none, false, 0⟩
    | none => s
  let s := s.updWg gid fun g =>
    let g := g.updWave k fun w => { w with ended := true }
    let g := { g with slots := g.slots.filter fun o => o.wave != k }
    if g.waves.all (·.ended) then { g with status := .ending } else g
  let s := s.tryBoundary gid
  match s.wg? gid with
  | some g => s.retryParked g.ctx
  | none => s

end Sys2Proof.Machine
end

