-- ==== Sys2Proof/Machine/Control.lean ====
section
/-! DEFINITION. Branches, calls and the structured instructions (spec/05_control_and_memory_instructions.md R117 to R121,
spec/06_waves_and_lanes.md R141 to R146). -/
namespace Sys2Proof.Machine

/-! ## Targets (R38) -/

/-- Address of a branch's first word plus four times a signed offset. -/
def branchTarget (pc : Nat) {w : Nat} (off : BitVec w) : Nat := (((va64 pc : Nat) + 4 * off.toInt) % (2 ^ 64 : Nat)).toNat
/-- A branch to an address: its program counter, or a cause. For an address that is both misaligned and non-canonical R38 gives no
order; the model takes MISALIGNED (log 107). -/
def branchTo (a : Nat) : Except Cause Nat :=
  if a % 4 != 0 then .error .misaligned else if !canonical a then .error .protection else .ok (a % 2 ^ 57)

def execNop (s : State) : Host.Outcome State Fault Refusal := flowOp .nop s fun _ _ => .ok none
def execBra (off : BitVec 24) (s : State) : Host.Outcome State Fault Refusal :=
  flowOp (.bra off) s fun σ _ => (branchTo (branchTarget σ.t.pc off)).map some
def execBrx (a : SReg) (s : State) : Host.Outcome State Fault Refusal :=
  flowOp (.brx a) s fun σ tick => (branchTo (σ.t.rs tick a).toNat).map some
def execRet (a : SReg) (s : State) : Host.Outcome State Fault Refusal :=
  flowOp (.ret a) s fun σ tick => (branchTo (σ.t.rs tick a).toNat).map some
/-- s63 takes the address after the CALL (R118). -/
def execCall (off : BitVec 24) (s : State) : Host.Outcome State Fault Refusal :=
  issueOp (.call off) s fun σ s =>
    match branchTo (branchTarget σ.t.pc off) with
    | .error c => .raise s c 0 none
    | .ok a => .done (s.updThread σ.p fun t => t.putS s.tick 63 (BitVec.ofNat 64 (va64 (σ.t.pc + 4)))) (some a) none
/-- R38 does not say whether a branch that is not taken raises the cause of its target; the model raises it only when the branch is
taken (log 108). -/
def execBrf (o : BrfF) (s : State) : Host.Outcome State Fault Refusal :=
  flowOp (.brf o) s fun σ tick =>
    match branchTo (branchTarget σ.t.pc o.off) with
    | .error c => if σ.t.rf tick o.f != o.neg then .error c else .ok none
    | .ok a => .ok (if σ.t.rf tick o.f != o.neg then some a else none)

/-- The lanes of E whose predicate, with the negate bit, is 1. -/
def Wave.taken (w : Wave) (tick : Nat) (p : Nat) (neg : Bool) : Mask :=
  w.e &&& (if neg then ~~~(w.rpMask tick p) else w.rpMask tick p)

/-- A predicate branch (R145). As for BRF, the cause of a bad target is raised only when the branch is taken (log 108). -/
def predBranch (i : Instr) (o : PBr) (all : Bool) (s : State) : Host.Outcome State Fault Refusal :=
  flowOp i s fun σ tick =>
    match σ.w with
    | none => .ok none
    | some w =>
      let t := w.taken tick o.p o.neg
      if (if all then t == w.e else t != 0) then (branchTo (branchTarget σ.t.pc o.off)).map some else .ok none
def execBany (o : PBr) (s : State) : Host.Outcome State Fault Refusal := predBranch (.bany o) o false s
def execBall (o : PBr) (s : State) : Host.Outcome State Fault Refusal := predBranch (.ball o) o true s

/-! ## The mask stack (R141 to R143) -/

/-- A wave's place in its structured regions. -/
structure Flow where
  pc : Nat
  e : Mask
  stack : List MaskEntry
  deriving DecidableEq, Repr

/-- ELSE, ENDIF and ENDLOOP at `f.pc`: their effect, or the failed check of R143. -/
def Flow.close (f : Flow) : Instr → Except Cause Flow
  | .elseP off =>
    match f.stack with
    | ⟨.ifK, m, _⟩ :: rest =>
      match branchTo (branchTarget f.pc off) with
      | .ok a => .ok ⟨(f.pc + 4) % 2 ^ 57, m, ⟨.elseK, f.e, a⟩ :: rest⟩
      | .error c => .error c
    | _ => .error .illegalOperand
  | .endifP =>
    match f.stack with
    | ⟨.ifK, m, _⟩ :: rest | ⟨.elseK, m, _⟩ :: rest => .ok ⟨(f.pc + 4) % 2 ^ 57, f.e ||| m, rest⟩
    | _ => .error .illegalOperand
  | .endloopP off =>
    match f.stack with
    | ⟨.loopK, m, _⟩ :: rest =>
      if f.e = 0 then .ok ⟨(f.pc + 4) % 2 ^ 57, m, rest⟩
      else match branchTo (branchTarget f.pc off) with
        | .ok a => .ok ⟨a, f.e, f.stack⟩
        | .error c => .error c
    | _ => .error .illegalOperand
  | _ => .error .illegalOperand

/-- How the passing over of R141 ends. -/
inductive Passed where
  | runs (f : Flow)
  /-- E and the stack are empty: the wave ends -/
  | ends (f : Flow)
  /-- a cause at the instruction of `f.pc` -/
  | cause (f : Flow) (d : Detail)
  /-- its fetch waits -/
  | waits (f : Flow)
  deriving DecidableEq, Repr

/-- With E empty the wave continues at the top entry's address. Each instruction found there takes an entry off the stack or
turns an IF entry into an ELSE entry, so 65 rounds are enough. A word there that is no instruction raises the cause that its fetch or
decoding gives (log 135). -/
def State.passOver (s : State) (σ : Site) : (fuel : Nat) → Flow → Passed
  | 0, f => .waits f
  | fuel + 1, f =>
    if f.e != 0 then .runs f
    else match f.stack with
      | [] => .ends f
      | top :: _ =>
        let f := { f with pc := top.addr }
        match s.fetch { σ with t := { σ.t with pc := f.pc }, w := none } with
        | .instr i =>
          match f.close i with
          | .ok f => s.passOver σ fuel f
          | .error c => .cause f ⟨c, va64 f.pc, 0, none, false, 0⟩
        | .cause c a => .cause f ⟨c, va64 f.pc, a, none, c == .pageFault || c == .protection, 0⟩
        | .poisoned => .cause f ⟨.eccRegister, va64 f.pc, va64 f.pc, none, true, 0⟩
        | .breakpoint _ | .wait => .waits f

/-- Sets a wave's place. -/
def State.setFlow (s : State) (g k : Nat) (f : Flow) : State :=
  s.updWave g k fun w => { w with e := f.e, stack := f.stack, t := { w.t with pc := f.pc } }

/-- The wave goes on from a place: at the instruction there, or by the passing over, or to its end. -/
def State.continueAt (s : State) (σ : Site) (g k : Nat) (f : Flow) : State :=
  match s.passOver σ 66 f with
  | .runs f | .waits f => s.setFlow g k f
  | .ends f => ((s.setFlow g k f).updWave g k fun w => { w with dbg := { w.dbg with pending := none } }).endWave g k
  | .cause f d => (s.setFlow g k f).raise σ.p d

/-- A wave whose passing over has stopped at a fetch that waited or faulted goes on with it; what it passes over is not issued. A step or
a halt that waited for its end follows (R141, R397, R400). None for any other party. -/
def State.passOn (s : State) (σ : Site) : Option State :=
  match σ.p, σ.w with
  | .wave g k, some w =>
    if w.e != 0 then none
    else
      let f : Flow := ⟨w.t.pc, w.e, w.stack⟩
      match s.passOver σ 66 f with
      | .waits f => some (s.setFlow g k f).wait
      | _ => some { ((s.continueAt σ g k f).updWave g k Wave.boundary).routeTrap σ.p with cur := none, blocked := [], tick := s.tick + 1 }
  | _, _ => none

/-- A structured instruction: `f` gives the place it leaves, before the passing over. The wave has issued it whatever the passing
over then meets. -/
def structOp (i : Instr) (s : State) (f : Wave → Nat → Except Cause Flow) : Host.Outcome State Fault Refusal :=
  issueOp i s fun σ s =>
    match σ.p, σ.w with
    | .wave g k, some w =>
      match f w s.tick with
      | .error c => .raise s c 0 none
      | .ok fl =>
        let s' := s.continueAt σ g k fl
        .done s' ((s'.wg? g).bind fun g => (g.wave? k).map (·.t.pc)) none
    | _, _ => .hold s

def nextPc (w : Wave) (words : Nat) : Nat := (w.t.pc + 4 * words) % 2 ^ 57

/-- The stack check comes before the check of the target, where R143 and R38 give no order (log 107). -/
def execIfP (o : PBr) (s : State) : Host.Outcome State Fault Refusal :=
  structOp (.ifP o) s fun w tick =>
    if 32 ≤ w.stack.length then .error .illegalOperand
    else match branchTo (branchTarget w.t.pc o.off) with
      | .error c => .error c
      | .ok a =>
        let t := w.taken tick o.p o.neg
        .ok ⟨nextPc w 2, t, ⟨.ifK, w.e &&& ~~~t, a⟩ :: w.stack⟩
def execElseP (off : BitVec 24) (s : State) : Host.Outcome State Fault Refusal :=
  structOp (.elseP off) s fun w _ => Flow.close ⟨w.t.pc, w.e, w.stack⟩ (.elseP off)
def execEndifP (s : State) : Host.Outcome State Fault Refusal :=
  structOp .endifP s fun w _ => Flow.close ⟨w.t.pc, w.e, w.stack⟩ .endifP
def execLoopP (off : BitVec 24) (s : State) : Host.Outcome State Fault Refusal :=
  structOp (.loopP off) s fun w _ =>
    if 32 ≤ w.stack.length then .error .illegalOperand
    else match branchTo (branchTarget w.t.pc off) with
      | .error c => .error c
      | .ok a => .ok ⟨nextPc w 1, w.e, ⟨.loopK, w.e, (a + 2 ^ 57 - 4) % 2 ^ 57⟩ :: w.stack⟩
def execBreakP (p : PReg) (neg : Bool) (s : State) : Host.Outcome State Fault Refusal :=
  structOp (.breakP p neg) s fun w tick =>
    if w.stack.any (fun e => e.kind == .loopK) then .ok ⟨nextPc w 1, w.e &&& ~~~(w.taken tick p neg), w.stack⟩
    else .error .illegalOperand
def execEndloopP (off : BitVec 24) (s : State) : Host.Outcome State Fault Refusal :=
  structOp (.endloopP off) s fun w _ => Flow.close ⟨w.t.pc, w.e, w.stack⟩ (.endloopP off)

end Sys2Proof.Machine
end

