-- ==== Sys2Proof/Machine/Access.lean ====
section
/-! DEFINITION. What memory instructions share: the checks of each access (spec/05_control_and_memory_instructions.md R125 to
R128), the scratchpad (R212, R214), entering the store queue (R136), landing results (R24, R138, R231), watchpoints (R398). -/
namespace Sys2Proof.Machine

/-! ## Checks -/

/-- How one access fares under R126. -/
inductive Chk where
  | ok (a : Access)
  /-- no valid translation: replayable -/
  | absent (a : Access)
  | bad (lane : Nat) (c : Cause) (faddr : Nat)
  | wait (moving : Bool)
  deriving DecidableEq, Repr

def Access.mk0 (lane va : Nat) : Access := ⟨lane, va, none, 0, 0, false, 0, 0, none, false, false⟩

/-- R126 on an exact address: alignment, bounds or canonical form, translation, permission. -/
def State.check (s : State) (σ : Site) (sp : Space) (size : Nat) (need : Need) (lane : Nat) (a : Int) : Chk :=
  let fa := (a % (2 ^ 64 : Nat)).toNat
  if a % size != 0 then .bad lane .misaligned fa
  else match sp with
    | .s => if a < 0 || (σ.g.scratchSize : Int) < a + size then .bad lane .scratchBound fa else .ok (Access.mk0 lane fa)
    | .g => match s.translate σ.c fa need lane with
      | .ok pa key lease host => .ok { Access.mk0 lane fa with pa := some pa, key := key, lease := lease, host := host }
      | .cause .pageFault => .absent (Access.mk0 lane fa)
      | .cause c => .bad lane c fa
      | .wait m => .wait m

/-- All lanes of one instruction (R127). -/
structure Checked where
  oks : List Access
  absents : List Access
  bad : Option (Nat × Cause × Nat)
  wait : Bool
  /-- some lane waits for the end of a page's move (R241) -/
  moving : Bool
  deriving DecidableEq, Repr

def combine (cs : List Chk) : Checked :=
  cs.foldl (fun k c => match c with
    | .ok a => { k with oks := k.oks ++ [a] }
    | .absent a => { k with absents := k.absents ++ [a] }
    | .bad l c f => if k.bad.isSome then k else { k with bad := some (l, c, f) }
    | .wait m => { k with wait := true, moving := k.moving || m }) ⟨[], [], none, false, false⟩

/-- A lane's address (R125): modulo 2^64 in global space, exact in the scratchpad. -/
def Wave.address (w : Wave) (tick l : Nat) (sp : Space) (a : Src) (ix : Option (Src × Fin 4)) (off : BitVec 12) : Int :=
  let i : Int := match ix with | some (b, k) => (w.src32 tick l b).toInt * (2 ^ k.val : Nat) | none => 0
  match sp with
  | .g => (((w.src64 tick l a).toNat : Int) + i + off.toInt) % (2 ^ 64 : Nat)
  | .s => ((w.src32 tick l a).toNat : Int) + i + off.toInt
/-- The address of a uniform form (R134). -/
def Thread.address (t : Thread) (tick : Nat) (sp : Space) (a : Nat) (off : BitVec 20) : Int :=
  match sp with
  | .g => (((t.rs tick a).toNat : Int) + off.toInt) % (2 ^ 64 : Nat)
  | .s => ((t.rs tick a).toNat % 2 ^ 32 : Nat) + off.toInt

/-! ## Scratchpad -/

def Workgroup.scratchByte (g : Workgroup) (o : Nat) : Byte := Sparse.get 0 g.scratch o
def Workgroup.scratchRead (g : Workgroup) (o n : Nat) : Nat :=
  fromBytes ((List.range n).map fun k => g.scratchByte (o + k))
/-- Writes bytes; a word written whole loses its mark (R230). -/
def Workgroup.scratchWrite (g : Workgroup) (o n x : Nat) : Workgroup :=
  { g with
    scratch := (located o (leBytes n x)).foldl (fun m e => Sparse.set 0 m e.1 e.2) g.scratch
    scratchBad := g.scratchBad.filter fun k => !(o ≤ 4 * k && 4 * k + 4 ≤ o + n) }
/-- A word with an uncorrectable error or a poison mark is among the bytes (R230, R231). -/
def Workgroup.scratchMarked (g : Workgroup) (o n : Nat) : Bool :=
  g.scratchBad.any fun k => 4 * k < o + n && o < 4 * k + 4

/-- Bank and row of a byte by its offset from the first core's scratchpad: the banks of a span's pieces are distinct (R212). -/
def bankRow (o : Nat) : Nat × Nat := (o / 2 ^ 20 * 32 + o / 32 % 32, o % 2 ^ 20 / 1024)
/-- The rows that accesses touch in a bank, in order of first touch. -/
def rowsIn (base : Nat) (offs : List Nat) (b : Nat) : List Nat :=
  nubNat (((offs.map fun o => bankRow (base + o)).filter fun r => r.1 == b).map (·.2))
/-- The pass that serves an access: one pass gives each bank one row, in that order, which the spec leaves open (R214, log 138). An
aligned access lies in one row. -/
def passIndex (base : Nat) (offs : List Nat) (o : Nat) : Nat :=
  (rowsIn base offs (bankRow (base + o)).1).idxOf (bankRow (base + o)).2
/-- Passes that accesses take: the most distinct rows touched in one bank (R214). -/
def passesOf (base size : Nat) (offs : List Nat) : Nat :=
  let rows := offs.flatMap fun o => [bankRow (base + o), bankRow (base + o + size - 1)]
  (rows.map (·.1)).foldl (fun m b => max m (nubNat ((rows.filter fun r => r.1 == b).map (·.2))).length) 0

/-! ## Atomic operations (R191) -/

/-- The new value at an address of n bytes. -/
def aopNew (op : AOp) (n old v cmp : Nat) : Nat :=
  let w := 8 * n
  let sg (x : Nat) : Int := readInt w true x
  match op with
  | .add => (old + v) % 2 ^ w
  | .min => if sg v < sg old then v else old
  | .max => if sg old < sg v then v else old
  | .and => old &&& v
  | .or => old ||| v
  | .xor => Nat.xor old v
  | .xchg => v
  | .cas => if old = cmp then v else old
  | .incb => if old < v then old + 1 else old
  | .minU => min old v
  | .maxU => max old v

/-! ## Watchpoints (R398) -/

/-- The lowest matching offset and lane of an instruction's scratchpad accesses, for the watchpoints of its workgroup. -/
def State.watchHit (s : State) (gid size : Nat) (rd wr : Bool) (accs : List Access) : Option (Nat × Nat) :=
  let hits := (s.wps.filter fun e => e.2.2.2 == gid).flatMap fun e =>
    let v := e.2.2.1.toNat
    let lo := field v 12 22
    let len := 2 ^ field v 34 4
    if field v 0 1 == 1 && ((field v 3 1 == 1 && wr) || (field v 2 1 == 1 && rd)) then
      (accs.filter fun a => a.va < lo + len && lo < a.va + size).map fun a => (max a.va lo, a.lane)
    else []
  match hits with
  | [] => none
  | h :: hs => some (hs.foldl (fun m x => min m x.1) h.1, hs.foldl (fun m x => min m x.2) h.2)

/-! ## Flights -/

/-- A fresh flight of an instruction at its site. -/
def Site.flight (σ : Site) (i : Instr) (res : Bool) (accs : List Access) : Flight :=
  { id := σ.t.nextId, i := i, pc := σ.t.pc, left := if i.la = 15 then none else some i.la, res := res,
    counted := (σ.path i).isSome, done := false, accs := accs, passes := 0, olds := [], clob := [],
    order := (match σ.t.ord with | some (o, _) => o | none => .rlx),
    scope := (match σ.t.ord with | some (_, sc) => sc | none => .wave), owed := 0, fl := 0, arg := 0, fail := none }

def Thread.updFlight (t : Thread) (id : Nat) (f : Flight → Flight) : Thread :=
  { t with flights := t.flights.map fun x => if x.id = id then f x else x }
def Thread.flight? (t : Thread) (id : Nat) : Option Flight := t.flights.find? (fun f => f.id == id)

/-- An acquire: accesses numbered from `k` on wait for the loads before it. Earlier acquires with nothing left to wait for go. -/
def Thread.acquire (t : Thread) (k : Nat) : Thread :=
  { t with acqFences := k :: t.acqFences.filter fun j => t.flights.any fun f => decide (f.id < j) && !f.done }

/-- An acquire before an access bars it until every load and atomic before the acquire is performed (R198, R252). -/
def Thread.acqBars (t : Thread) (id : Nat) : Bool :=
  t.acqFences.any fun k =>
    k ≤ id && t.flights.any fun f => f.id < k && (f.i.isLoad || (match f.i with | .red _ => true | _ => false)) && !f.done

/-! ## Landing results -/

/-- One result of an instruction in flight: the register takes it, unless an instruction inside the window wrote the register and
its value stands; reads inside the window may still see the old value (R24). -/
def Wave.landOne (w : Wave) (tick id : Nat) (e : Write) : Wave :=
  match w.t.flight? id with
  | none => w.put tick e
  | some f =>
    let cur := w.now e.k
    let w' := if f.clob.contains e.k && Config.freeBit tick (keyCode e.k) then w else w.put tick e
    { w' with t := w'.t.updFlight id fun f => { f with olds := (e.k, cur) :: f.olds } }
def Wave.land (w : Wave) (tick id : Nat) (es : List Write) : Wave := es.foldl (fun w e => w.landOne tick id e) w
def Thread.landOne (t : Thread) (tick id : Nat) (e : Write) : Thread :=
  match t.flight? id with
  | none => t.put tick e
  | some f =>
    let cur := t.now e.k
    let t' := if f.clob.contains e.k && Config.freeBit tick (keyCode e.k) then t else t.put tick e
    t'.updFlight id fun f => { f with olds := (e.k, cur) :: f.olds }
def Thread.land (t : Thread) (tick id : Nat) (es : List Write) : Thread := es.foldl (fun t e => t.landOne tick id e) t

/-- Marks destination registers poisoned (R231). -/
def Wave.mark (w : Wave) (es : List Write) : Wave :=
  es.foldl (fun w e => match e.k with
    | .v r l => { w with vmark := nubNat ((256 * r + l) :: w.vmark) }
    | .s n => { w with t := { w.t with smark := w.t.smark ||| BitVec.twoPow 64 n } }
    | _ => w) w
def Thread.mark (t : Thread) (es : List Write) : Thread :=
  es.foldl (fun t e => match e.k with | .s n => { t with smark := t.smark ||| BitVec.twoPow 64 n } | _ => t) t

/-- Size in bytes of a memory form's access. -/
def accSize : Instr → Nat
  | .ld o => sizeBytes o.size | .st o | .stNb o => sizeBytes o.size | .atom o => sizeBytes o.size | .red o => sizeBytes o.size
  | .sld o => sizeBytes o.size | .sst o => sizeBytes o.size | .satom o => sizeBytes o.size
  | .recld o => sizeBytes o.size | .recst o => sizeBytes o.size | _ => 8

/-- The registers that a value of a lane goes to. -/
def landWrites (i : Instr) (lane x : Nat) : List Write :=
  match i with
  | .ld o => writesN o.d lane (sizeRegs o.size) x
  | .atom o => writesN o.d lane (sizeRegs o.size) x
  | .recld o => writesN o.d lane (sizeRegs o.size) x
  | .sld o => [⟨.s o.d, x⟩]
  | .satom o => [⟨.s o.d, x⟩]
  | .dbgrd o => [⟨.s o.d, x⟩]
  | _ => []

/-- A value found for an access of a flight: lane, value, poisoned. -/
abbrev Found := Nat × Nat × Bool

/-- Values land in a party's registers; those of a wave that has ended are discarded (R122). The accesses are marked done, and
with the last the instruction is. In a halted partition no window is left (R86). -/
def State.landFound (s : State) (p : Party) (id : Nat) (fs : List Found) : State :=
  let lanes := fs.map (·.1)
  let halted : Bool := match (s.wg? p.wg).bind (fun g => s.ctx? g.ctx) with | some c => c.run != .running | none => false
  let step (t : Thread) : Thread :=
    (t.updFlight id fun f =>
      let accs := f.accs.map fun a => if lanes.contains a.lane then { a with done := true } else a
      { f with accs := accs, done := accs.all (·.done) && (f.i.isLoad || f.done) }).settleFlights
  match p with
  | .wave g k => s.updWave g k fun w =>
      let w := if w.ended then w else fs.foldl (fun w e =>
        match w.t.flight? id with
        | none => w
        | some f =>
          let ws := landWrites f.i e.1 e.2.1
          let w := w.land s.tick id ws
          if e.2.2 then w.mark ws else w) w
      let w : Wave := { w with t := step w.t }
      if halted then w.flush else w
  | p => s.updThread p fun t =>
      let t := fs.foldl (fun t e =>
        match t.flight? id with
        | none => t
        | some f =>
          let ws := landWrites f.i e.1 e.2.1
          let t := t.land s.tick id ws
          if e.2.2 then t.mark ws else t) t
      if halted then (step t).flush else step t

/-! ## The store queue (R136) -/

/-- An engine's write, of a command or of MST or MSTA: it takes no entry of a store queue. -/
def State.engineOwned (s : State) : Owner → Bool
  | .cmd _ => true
  | .flight (.mseq g t) id =>
    match ((s.wg? g).bind (·.thread? (.mseq g t))).bind (·.flight? id) with
    | some f => (match f.i with | .mst _ | .msta _ => true | _ => false)
    | none => false
  | _ => false

/-- Entries held by a core, or by a cluster's store path. -/
def State.queued (s : State) (cluster : Nat) (core : Option Nat) : Nat :=
  (s.queue.filter fun e => e.cluster == cluster && e.core == core && !s.engineOwned e.owner).length

/-- Room for n entries and a bucket that covers them. -/
def State.queueRoom (s : State) (σ : Site) (n : Nat) : Bool :=
  s.queued σ.cluster σ.core + n ≤ Config.storeQueueEntries && s.covers σ.c (32 * n)

/-- Entries go into the queue in order, each charging 32 bytes. -/
def State.enqueue (s : State) (ctx : Nat) (es : List QEntry) : State :=
  let numbered := es.zipWith (fun e k => { e with n := s.nextQ + k }) (List.range es.length)
  let s := { s with queue := s.queue ++ numbered, nextQ := s.nextQ + es.length }
  s.updCtx ctx fun c => c.chargeWrite (32 * es.length)

/-- A blank entry of an instruction at its site. -/
def Site.entry (σ : Site) (kind : QKind) (pa key lease : Nat) (host : Bool) : QEntry :=
  { n := 0, owner := .flight σ.p σ.t.nextId, ctx := σ.c.id, cluster := σ.cluster, core := σ.core, kind := kind,
    line := lineOf pa, key := key, lease := lease, host := host, bytes := [], accs := [], times := none, held := false, bad := false }

/-- One entry for each distinct sector that translated accesses touch, in order of first touch. -/
def Site.entries (σ : Site) (kind : QKind) (size : Nat) (accs : List Access) : List QEntry :=
  let place (a : Access) : Nat := a.pa.getD 0
  (nubNat (accs.map fun a => sectorOf (place a))).filterMap fun sec =>
    let mine := accs.filter fun a => sectorOf (place a) == sec
    match mine with
    | [] => none
    | a :: _ =>
      let bytes := match kind with
        | .store _ => mine.flatMap fun a => located (place a) (leBytes size a.v)
        | _ => []
      some { σ.entry kind (place a) a.key a.lease a.host with bytes := bytes, accs := mine }

/-- The store or atomic at issue begins or goes on to stall (R136, R224). -/
def State.stall (s : State) (σ : Site) : State :=
  s.updThread σ.p fun t => { t with stallFrom := t.stallFrom.or (some s.time) }

/-- Translations of accesses are kept, and each distinct sector counts for the sampler (R236, R240). -/
def State.sampleAll (s : State) (σ : Site) (kind : Nat) (accs : List Access) : State :=
  let s := (nubNat (accs.map fun a => a.va / 4096)).foldl (fun s v => s.keepTlb σ.c.id (4096 * v)) s
  if σ.c.smpK = 0 then s
  else
    (nubNat (accs.map fun a => a.va / 32)).foldl (fun s v =>
      match accs.find? (fun a => a.va / 32 == v) with
      | some a => s.sample σ.c.id (32 * v) (σ.core.getD 0xFF) kind (a.pa.getD 0)
      | none => s) s

/-- An acquire ordered by ORD bars every later access of the thread (R198). -/
def State.acquireAfter (s : State) (σ : Site) : State :=
  match σ.t.ord with
  | some (.acq, _) | some (.ar, _) => s.updThread σ.p fun t => t.acquire (σ.t.nextId + 1)
  | _ => s

end Sys2Proof.Machine
end

