-- ==== Sys2Proof/Machine/LaneMem.lean ====
section
/-! DEFINITION. Memory instructions at issue: loads, stores, prefetches (spec/05_control_and_memory_instructions.md R124 to R136),
atomics (spec/08_synchronisation.md R191 to R198), record accesses (spec/07_work_graph.md R171, R175). Their performance is in
MemSteps.lean. -/
namespace Sys2Proof.Machine

/-! ## The accesses of one instruction -/

/-- Checks a list of lanes; `x` gives a lane's data and its compared value. -/
def State.checkLanes (s : State) (σ : Site) (sp : Space) (size : Nat) (need : Need) (lanes : List Nat) (addr : Nat → Int)
    (x : Nat → Nat × Nat) : Checked :=
  combine (lanes.map fun l =>
    match s.check σ sp size need l (addr l) with
    | .ok a => .ok { a with v := (x l).1, cmp := (x l).2 }
    | .absent a => .absent { a with v := (x l).1, cmp := (x l).2 }
    | c => c)

/-- A lane number for a stop record: uniform forms have none. -/
def laneTag (i : Instr) (l : Nat) : Option Nat := if i.word1 < 2 ^ 31 then some l else none

/-- The lowest-numbered lane that page-faults stops the workgroup (R127, R381). Each page's walk has read its tables (R227). -/
def State.stopAbsent (s : State) (σ : Site) (i : Instr) (absents : List Access) : State :=
  match absents with
  | [] => s
  | a :: as =>
    let s := (nubNat ((as.map fun b => b.va / 4096).filter (· != a.va / 4096))).foldl (fun s v => s.countWalk σ.c (4096 * v)) s
    s.stopForFault σ.g (.fault a.va) [s.recordFor σ.p true ⟨.pageFault, va64 σ.t.pc, a.va, laneTag i a.lane, false, 0⟩]

def scratchReads : Instr → Bool
  | .st _ | .sst _ => false
  | _ => true
def scratchWrites : Instr → Bool
  | .ld _ | .sld _ => false
  | _ => true

/-- The watchpoints that govern a .S form are those in effect when it issues (R405): the trap is noted then, and raised once the form is
performed whole (R398). -/
def State.noteWatch (s : State) (σ : Site) (i : Instr) (size : Nat) (accs : List Access) : State :=
  match σ.p, s.watchHit σ.g.id size (scratchReads i) (scratchWrites i) accs with
  | .wave g k, some (off, lane) => s.updWave g k fun w => w.noteTrap .watchpoint 0 off (some lane) (va64 σ.t.pc)
  | _, _ => s

/-- A .S form at issue: its accesses wait for their passes (R214); with no active lane it is performed. -/
def scratchBody (i : Instr) (res : Bool) (size : Nat) (σ : Site) (s : State) (k : Checked) : Body :=
  match k.bad with
  | some (l, c, fa) => .raise s c fa (laneTag i l)
  | none =>
    .done ((s.acquireAfter σ).noteWatch σ i size k.oks) none (some { σ.flight i res k.oks with
      passes := passesOf σ.g.scratchBase size (k.oks.map (·.va)), done := k.oks.isEmpty })

/-- A .G load at issue: one request group (R223). Lanes without a translation stay outstanding and stop the workgroup (R127). R25 and
R127 leave open how many instructions of its window have issued when the fault stops the wave; the model finds the fault at issue, so
that none has (log 109). -/
def loadBody (i : Instr) (σ : Site) (s : State) (k : Checked) : Body :=
  match k.bad with
  | some (l, c, fa) => .raise s c fa (laneTag i l)
  | none =>
    if k.wait then .hold s
    else
      let accs := k.oks ++ k.absents
      let s := ((s.sampleAll σ 0 k.oks).acquireAfter σ).stopAbsent σ i k.absents
      .done s none (some { σ.flight i true accs with done := accs.isEmpty })

/-- The lanes of an instruction in rising order, none of them translated. -/
def untranslated (accs : List Access) : List Access :=
  (List.range 256).flatMap fun l => (accs.filter fun a => a.lane == l).map fun a => { a with pa := none }

/-- A store that page-faults queues nothing: it is recorded whole, with its sources as read at issue, and is issued again on restore
(R25, R127). -/
def storeFaulted (i : Instr) (res : Bool) (σ : Site) (s : State) (k : Checked) : Body :=
  .done ((s.acquireAfter σ).stopAbsent σ i k.absents) none (some { σ.flight i res (untranslated (k.oks ++ k.absents)) with done := false })

/-- A .G store at issue: it enters the queue whole, or stalls (R136); with a page fault it is issued again (R127). -/
def storeBody (i : Instr) (rc size : Nat) (σ : Site) (s : State) (k : Checked) : Body :=
  match k.bad with
  | some (l, c, fa) => .raise s c fa (laneTag i l)
  | none =>
    match k.absents with
    | _ :: _ => storeFaulted i false σ s k
    | [] =>
      if k.wait then .hold (if k.moving then s.stall σ else s)
      else
        let es := σ.entries (.store rc) size k.oks
        if s.queueRoom σ es.length then
          .done (((s.sampleAll σ 1 k.oks).acquireAfter σ).enqueue σ.c.id es) none
            (some { σ.flight i false k.oks with done := es.isEmpty, owed := es.length })
        else .hold (s.stall σ)

/-- A .G atomic at issue: an entry for each sector of the lanes that translated; the others stay outstanding (R196, R197). -/
def atomicBody (i : Instr) (res : Bool) (op : AOp) (size : Size) (σ : Site) (s : State) (k : Checked) : Body :=
  match k.bad with
  | some (l, c, fa) => .raise s c fa (laneTag i l)
  | none =>
    if k.wait then .hold (if k.moving then s.stall σ else s)
    else
      let es := σ.entries (.atomic op size) (sizeBytes size) k.oks
      if s.queueRoom σ es.length then
        let accs := k.oks ++ k.absents
        .done ((((s.sampleAll σ 2 k.oks).acquireAfter σ).enqueue σ.c.id es).stopAbsent σ i k.absents) none
          (some { σ.flight i res accs with done := accs.isEmpty, owed := es.length })
      else .hold (s.stall σ)

/-! ## Per-lane forms -/

/-- Data of a store, or the operand and compared value of an atomic (R192). -/
def Wave.casOrValue (w : Wave) (tick l : Nat) (op : AOp) (size : Size) (b : Src) : Nat × Nat :=
  let n := sizeRegs size
  match op, b with
  | .cas, .v r => (w.srcN tick l n (.v (Fin.ofNat 96 (r + n))), w.srcN tick l n b)
  | _, _ => (w.srcN tick l n b % 2 ^ (8 * sizeBytes size), 0)

/-- A P-class memory form: `f` gives its own part from its checked lanes. -/
def laneMem (i : Instr) (s : State) (f : Site → Wave → State → Body) : Host.Outcome State Fault Refusal :=
  issueOp i s fun σ s =>
    match σ.w with
    | some w => f σ w s
    | none => .hold s

def execLd (o : LdF) (s : State) : Host.Outcome State Fault Refusal :=
  laneMem (.ld o) s fun σ w s =>
    let k := s.checkLanes σ o.sp (sizeBytes o.size) .read (w.active s.tick (.ld o))
      (fun l => w.address s.tick l o.sp o.mem.a o.mem.ix o.mem.off) (fun _ => (0, 0))
    match o.sp with
    | .s => scratchBody (.ld o) true (sizeBytes o.size) σ s k
    | .g => loadBody (.ld o) σ s k

def State.storeLanes (s : State) (σ : Site) (w : Wave) (i : Instr) (o : StF) : Checked :=
  s.checkLanes σ o.sp (sizeBytes o.size) .write (w.active s.tick i)
    (fun l => w.address s.tick l o.sp o.mem.a o.mem.ix o.mem.off)
    (fun l => (w.srcN s.tick l (sizeRegs o.size) o.d % 2 ^ (8 * sizeBytes o.size), 0))

def execSt (o : StF) (s : State) : Host.Outcome State Fault Refusal :=
  laneMem (.st o) s fun σ w s =>
    let k := s.storeLanes σ w (.st o) o
    match o.sp with
    | .s => scratchBody (.st o) false (sizeBytes o.size) σ s k
    | .g => storeBody (.st o) o.rc (sizeBytes o.size) σ s k

/-- The guard predicate of a refused ST.NB, written so that the guard reads false in every active lane (R131). -/
def refusal (o : StF) (lanes : List Nat) : List Write := lanes.map fun l => ⟨.p o.t.g l, o.t.neg.toNat⟩

/-- ST.NB: accepted as ST, or refused with the guard written false in every active lane (R131). It never waits: a lane that must wait at
translation is a refusal too (log 110). -/
def execStNb (o : StF) (s : State) : Host.Outcome State Fault Refusal :=
  laneMem (.stNb o) s fun σ w s =>
    let k := s.storeLanes σ w (.stNb o) o
    match k.bad, k.absents with
    | none, _ :: _ => storeFaulted (.stNb o) true σ s k
    | _, _ =>
      match storeBody (.stNb o) o.rc (sizeBytes o.size) σ s k, σ.p with
      | .hold _, .wave g n =>
        let ws := refusal o (w.active s.tick (.stNb o))
        .done ((s.acquireAfter σ).updWave g n fun w => w.putAll s.tick ws) none
          (some { σ.flight (.stNb o) true [] with done := true, olds := ws.map fun e => (e.k, w.now e.k) })
      | b, _ => b

def execAtom (o : AtomF) (s : State) : Host.Outcome State Fault Refusal :=
  laneMem (.atom o) s fun σ w s =>
    let k := s.checkLanes σ o.sp (sizeBytes o.size) .both (w.active s.tick (.atom o))
      (fun l => w.address s.tick l o.sp o.a none o.off) (fun l => w.casOrValue s.tick l o.op o.size o.b)
    match o.sp with
    | .s => scratchBody (.atom o) true (sizeBytes o.size) σ s k
    | .g => atomicBody (.atom o) true o.op o.size σ s k

def execRed (o : RedF) (s : State) : Host.Outcome State Fault Refusal :=
  laneMem (.red o) s fun σ w s =>
    let k := s.checkLanes σ o.sp (sizeBytes o.size) .both (w.active s.tick (.red o))
      (fun l => w.address s.tick l o.sp o.a none o.off) (fun l => w.casOrValue s.tick l o.op o.size o.b)
    match o.sp with
    | .s => scratchBody (.red o) false (sizeBytes o.size) σ s k
    | .g => atomicBody (.red o) false o.op o.size σ s k

/-- PF asks for sectors of each lane's line in a level and raises nothing; whether it is dropped is free. The memory-side cache
holds every line the model has, and a prefetch lowers no reader count (R133, R221). A line that an acknowledgement on its way to the
cluster has written is not fetched (R256). -/
def execPf (o : PfF) (s : State) : Host.Outcome State Fault Refusal :=
  laneMem (.pf o) s fun σ w s =>
    let k := s.checkLanes σ .g 1 .read (w.active s.tick (.pf o))
      (fun l => w.address s.tick l .g o.mem.a o.mem.ix o.mem.off) (fun _ => (0, 0))
    let core := match o.level with | .core => σ.core | _ => none
    let fetch (s : State) (a : Access) (n : Nat) : State :=
      let pa := a.pa.getD 0
      if o.level == .msc || a.host || !inMemory pa || s.ackDue σ.cluster (lineOf pa) then s
      else (s.readSector σ.cluster core a.key a.lease (4 * lineOf pa + n)).1
    let s := (nubNat (k.oks.map fun a => a.va / 4096)).foldl (fun s v => s.keepTlb σ.c.id (4096 * v)) s
    let s := if Config.freeBit s.tick 43000 then s
      else k.oks.foldl (fun s a => [0, 1, 2, 3].foldl (fun s n => fetch s a n) s) s
    .done s none none

/-! ## Uniform forms -/

def uniCheck (σ : Site) (s : State) (sp : Space) (size : Size) (need : Need) (a : Nat) (off : BitVec 20) (x : Nat × Nat) : Checked :=
  s.checkLanes σ sp (sizeBytes size) need [0] (fun _ => σ.t.address s.tick sp a off) (fun _ => x)

def execSld (o : SldF) (s : State) : Host.Outcome State Fault Refusal :=
  issueOp (.sld o) s fun σ s =>
    let k := uniCheck σ s o.sp o.size .read o.a o.off (0, 0)
    match o.sp with
    | .s => scratchBody (.sld o) true (sizeBytes o.size) σ s k
    | .g => loadBody (.sld o) σ s k

def execSst (o : SstF) (s : State) : Host.Outcome State Fault Refusal :=
  issueOp (.sst o) s fun σ s =>
    let k := uniCheck σ s o.sp o.size .write o.a o.off ((σ.t.rs s.tick o.b).toNat % 2 ^ (8 * sizeBytes o.size), 0)
    match o.sp with
    | .s => scratchBody (.sst o) false (sizeBytes o.size) σ s k
    | .g => storeBody (.sst o) o.rc (sizeBytes o.size) σ s k

def execSatom (o : SatomF) (s : State) : Host.Outcome State Fault Refusal :=
  issueOp (.satom o) s fun σ s =>
    let n := 2 ^ (8 * sizeBytes o.size)
    let b := (σ.t.rs s.tick o.b).toNat % n
    let x := match o.op with
      | .cas => ((σ.t.rs s.tick (o.b + 1)).toNat % n, b)
      | _ => (b, 0)
    let k := uniCheck σ s o.sp o.size .both o.a o.off x
    match o.sp with
    | .s => scratchBody (.satom o) true (sizeBytes o.size) σ s k
    | .g => atomicBody (.satom o) true o.op o.size σ s k

/-! ## Records (R171, R175) -/

/-- The lowest lane with a cause. -/
def firstCause (xs : List (Nat × Option Cause)) : Option (Nat × Cause) :=
  match xs with
  | [] => none
  | (l, some c) :: _ => some (l, c)
  | (_, none) :: rest => firstCause rest

/-- RECLD reads at issue: input records do not change. -/
def execRecld (o : RecldF) (s : State) : Host.Outcome State Fault Refusal :=
  laneMem (.recld o) s fun σ w s =>
    let size := sizeBytes o.size
    let act := w.active s.tick (.recld o)
    let rn (l : Nat) : Nat := match o.rn with
      | some b => (w.src32 s.tick l b).toNat
      | none => if σ.n.kind = 0 then l else 0
    let cause (l : Nat) : Option Cause :=
      if o.off % size != 0 then some .misaligned
      else if σ.g.records.length ≤ rn l || σ.g.doneTaken then some .protection else none
    match firstCause (act.map fun l => (l, cause l)) with
    | some (l, c) => .raise s c 0 (some l)
    | none =>
      let value (l : Nat) : Nat :=
        let bs := (σ.g.records[rn l]?.map (·.bytes)).getD []
        fromBytes ((List.range size).map fun k => bs.getD (o.off + k) 0)
      let ws := act.flatMap fun l => writesN o.d l (sizeRegs o.size) (value l)
      match σ.p with
      | .wave g k =>
        .done (s.updWave g k fun w => w.putAll s.tick ws) none
          (some { σ.flight (.recld o) true [] with done := true, olds := ws.map fun e => (e.k, w.now e.k) })
      | _ => .hold s

/-- Writes bytes of a reserved slot. -/
def Workgroup.recst (g : Workgroup) (idx off : Nat) (bs : List Byte) : Workgroup :=
  { g with slots := g.slots.map fun o =>
      if o.idx = idx then { o with bytes := o.bytes.take off ++ bs ++ o.bytes.drop (off + bs.length) } else o }

/-- The reserved slot that a handle names (R172). -/
def Workgroup.slotOf (g : Workgroup) (h : Nat) : Option OutSlot :=
  if h / 2 ^ 15 != 0 then none else g.slots.find? fun o => o.idx == h % 4096 && o.edge == h / 4096 % 8

/-- RECST writes at issue, in rising lane order; the record store acknowledges at once, and no copy of it is leased (R248). -/
def execRecst (o : RecstF) (s : State) : Host.Outcome State Fault Refusal :=
  laneMem (.recst o) s fun σ w s =>
    let size := sizeBytes o.size
    let act := w.active s.tick (.recst o)
    let h (l : Nat) : Nat := (w.src32 s.tick l o.a).toNat
    let cause (l : Nat) : Option Cause :=
      if o.off % size != 0 then some .misaligned
      else match σ.g.slotOf (h l) with
        | some slot => if slot.bytes.length < o.off + size then some .recordOverflow else none
        | none => some .recordOverflow
    match firstCause (act.map fun l => (l, cause l)) with
    | some (l, c) => .raise s c 0 (some l)
    | none =>
      let s := s.updWg σ.g.id fun g =>
        act.foldl (fun g l => g.recst (h l % 4096) o.off (leBytes size (w.srcN s.tick l (sizeRegs o.size) o.d))) g
      .done s none (some { σ.flight (.recst o) false [] with done := true })

end Sys2Proof.Machine
end

