-- ==== Sys2Proof/Machine/DebugWindow.lean ====
section
/-! DEFINITION. The debug window of a wave: its reads and writes (spec/19_faults_and_preemption.md R394 to R400). -/
namespace Sys2Proof.Machine

/-- The wave in a slot of a core, where it is one of a context. -/
def State.target (s : State) (ctx core slot : Nat) : Option (Workgroup × Wave) :=
  match s.wgs.findSome? (fun g =>
      if g.status == .resident || g.status == .stopped || g.status == .ending then
        (g.waves.find? fun w => w.core == core && w.slot == slot && !w.ended).map fun w => (g, w)
      else none) with
  | some (g, w) => if g.ctx = ctx then some (g, w) else none
  | none => none

/-! ## Masks by 64 lanes -/

def maskPart (m : Mask) (j : Nat) : Nat := field m.toNat (64 * j) 64
def setMaskPart (m : Mask) (j : Nat) (v : DWord) : Mask :=
  BitVec.ofNat 256 (m.toNat - maskPart m j * 2 ^ (64 * j) + v.toNat * 2 ^ (64 * j))

/-! ## DBGCTL and watchpoints (R398, R400) -/

def State.dbgctl (s : State) (g : Workgroup) (w : Wave) : Nat :=
  g.node % 2 ^ 16 * 2 ^ 48 + Sparse.get 0 s.gen (128 * w.core + w.slot) % 2 ^ 16 * 2 ^ 32 + w.dbg.reason % 256 * 2 ^ 8 + 2 ^ 5 +
    w.dbg.skipbp.toNat * 2 ^ 4 + w.dbg.step.toNat * 2 ^ 3 + w.dbg.haltreq.toNat * 2 ^ 2 + w.dbg.halted.toNat

/-- The written bits of a watchpoint and of a breakpoint: the Reserved ones ignore the value (R6). -/
def wpMask (v : DWord) : DWord := v &&& 0x3FFFFFF00D
def bpMask (v : DWord) : DWord := v &&& 0x1FFFFFFFFFFFFFD

def State.wpAt (s : State) (core n : Nat) : Option (DWord × Nat) :=
  (s.wps.find? fun e => e.1 == core && e.2.1 == n).map fun e => e.2.2

/-- A write of WPn: with EN it is bound to the target's workgroup, or dropped. -/
def State.wpPut (s : State) (g : Workgroup) (core n : Nat) (v : DWord) : State :=
  let v := wpMask v
  let x := v.toNat
  let len := 2 ^ field x 34 4
  let off := field x 12 22
  let other := match s.wpAt core n with
    | some (u, k) => u.getLsbD 0 && (match s.wg? k with | some h => h.ctx != g.ctx | none => false)
    | none => false
  let bad := field x 34 4 < 2 || 12 < field x 34 4 || off % len != 0 || g.scratchSize < off + len || other
  if field x 0 1 = 1 ∧ bad then s
  else { s with wps := (core, n, v, g.id) :: s.wps.filter fun e => !(e.1 == core && e.2.1 == n) }

/-! ## Reading (R399) -/

/-- An s register as a debugger reads it: of a running wave each 32-bit word is old or new (R24, R399). -/
def Thread.rsWords (t : Thread) (tick n : Nat) : Nat :=
  let x := (Sparse.get (0 : DWord) t.sregs n).toNat
  match t.early (.s n) with
  | [] => x
  | olds =>
    let pick (half : Nat) : Nat := (x :: olds).getD (Config.freeNat tick (70010 + 2 * n + half) % (olds.length + 1)) x
    field (pick 0) 0 32 + 2 ^ 32 * field (pick 1) 32 32

/-- A dword of a wave's registers and control state. -/
def State.waveDword (s : State) (g : Workgroup) (w : Wave) (off : Nat) : Nat :=
  if off < 0x20000 then
    let r := off / 1024
    let l := off / 4 % 256
    if r < w.nregs then (w.rv s.tick r l).toNat + 2 ^ 32 * (w.rv s.tick r (l + 1)).toNat else 0
  else if off < 0x20200 then w.t.rsWords s.tick ((off - 0x20000) / 8)
  else if off < 0x20300 then
    let k := (off - 0x20200) / 32
    maskPart (if k = 0 then BitVec.allOnes 256 else w.rpMask s.tick k) ((off - 0x20200) / 8 % 4)
  else if off = 0x20300 then (List.range 8).foldl (fun n k => n + (w.t.rf s.tick k).toNat * 2 ^ k) 0
  else if off = 0x20308 then va64 w.t.pc
  else if off = 0x20310 then (w.rfpst s.tick).toNat + 2 ^ 32 * (w.rnevst s.tick).toNat
  else if 0x20320 ≤ off && off < 0x20340 then maskPart w.e ((off - 0x20320) / 8)
  else if off = 0x20340 then w.stack.length
  else if 0x20400 ≤ off && off < 0x20A00 then
    let i := (off - 0x20400) / 48
    let j := (off - 0x20400) % 48 / 8
    match w.stack.reverse[i]? with
    | none => 0
    | some m => if j < 4 then maskPart m.mask j else if j = 4 then va64 m.addr else match m.kind with | .ifK => 0 | .elseK => 1 | .loopK => 2
  else if off = 0x21000 then s.dbgctl g w
  else if 0x1000000 ≤ off && off < 0xF000000 then
    let o := off - 0x1000000
    fromBytes ((List.range 8).map fun k => if o + k < g.scratchSize then g.scratchByte (o + k) else 0)
  else if 0xF000000 ≤ off && off < 0xF000020 then
    match s.wpAt w.core ((off - 0xF000000) / 8) with | some (v, _) => v.toNat | none => 0
  else 0

/-- The dword at an offset of the window of a target, for a caller's context. -/
def State.dbgRead (s : State) (ctx core slot off : Nat) : Nat :=
  if 0xF800000 ≤ off then
    match s.ctx? ctx with
    | none => 0
    | some c =>
      if off < 0xF800020 then (c.bps.getD ((off - 0xF800000) / 8) 0).toNat
      else if off = 0xF800020 then match c.mailbox.bind s.outRing? with | some r => r.base | none => 0
      else 0
  else match s.target ctx core slot with
    | none => 0
    | some (g, w) => s.waveDword g w off

/-! ## Writing (R399) -/

/-- A write of a register, PC, E or status register of a halted wave. -/
def Wave.debugPut (w : Wave) (tick off : Nat) (v : DWord) : Wave :=
  let x := v.toNat
  if off < 0x20000 then
    let r := off / 1024
    let l := off / 4 % 256
    if r < w.nregs then (w.putV tick r l (BitVec.ofNat 32 x)).putV tick r (l + 1) (BitVec.ofNat 32 (x / 2 ^ 32)) else w
  else if off < 0x20200 then { w with t := w.t.putS tick ((off - 0x20000) / 8) v }
  else if off < 0x20300 then
    let k := (off - 0x20200) / 32
    if k = 0 then w
    else { w with preds := Sparse.set 0 w.preds k (setMaskPart (Sparse.get (0 : Mask) w.preds k) ((off - 0x20200) / 8 % 4) v) }
  else if off = 0x20300 then { w with t := (List.range 8).foldl (fun t k => t.putF tick k (v.getLsbD k)) w.t }
  else if off = 0x20308 then if x % 4 = 0 && canonical x then { w with t := { w.t with pc := x % 2 ^ 57 } } else w
  else if off = 0x20310 then { w with fpst := BitVec.ofNat 6 x, nevst := BitVec.ofNat 32 (x / 2 ^ 32 % 32) }
  else if 0x20320 ≤ off && off < 0x20340 then { w with e := setMaskPart w.e ((off - 0x20320) / 8) v }
  else w

/-- RESUME: the wave issues again; with E empty it goes on by R141, or ends. -/
def State.resumeWave (s : State) (g : Workgroup) (w : Wave) : State :=
  let s := s.updWave g.id w.waveid Wave.leaveDebugHalt
  if w.e != 0 then s
  else match s.siteOf (.wave g.id w.waveid) with
    | some σ => s.continueAt σ g.id w.waveid ⟨w.t.pc, w.e, w.stack⟩
    | none => s

/-- The trap record of a wave's halt waits for room in the debug mailbox: the wave stays in the halt pending it (R446). -/
def State.recordWaits (s : State) (w : Wave) : Bool :=
  match w.dbg.record with
  | some m => s.host.outs.any fun r => r.kind == 1 && r.recs.contains m
  | none => false

/-- A write of DBGCTL: STEP and SKIPBP, and HALTREQ or RESUME. -/
def State.dbgctlPut (s : State) (g : Workgroup) (w : Wave) (v : DWord) : State :=
  let s := s.updWave g.id w.waveid fun w => { w with dbg := { w.dbg with step := v.getLsbD 3, skipbp := v.getLsbD 4 } }
  if v.getLsbD 2 then
    if w.dbg.halted then s
    else s.updWave g.id w.waveid fun w => ({ w with dbg := { w.dbg with haltreq := true } } : Wave).boundary
  else if v.getLsbD 1 && w.dbg.halted && !s.recordWaits w then s.resumeWave g w
  else s

/-- A write of a dword of the window takes effect. -/
def State.dbgWrite (s : State) (ctx core slot off : Nat) (v : DWord) : State :=
  if 0xF800000 ≤ off then
    let n := (off - 0xF800000) / 8
    if n < 4 then s.updCtx ctx fun c => { c with bps := (List.range 4).map fun k => if k = n then bpMask v else c.bps.getD k 0 }
    else s
  else match s.target ctx core slot with
    | none => s
    | some (g, w) =>
      if off = 0x21000 then s.dbgctlPut g w v
      else if 0x1000000 ≤ off && off < 0xF000000 then
        let o := off - 0x1000000
        if o + 8 ≤ g.scratchSize then s.updWg g.id fun g => g.scratchWrite o 8 v.toNat else s
      else if 0xF000000 ≤ off && off < 0xF000020 then s.wpPut g w.core ((off - 0xF000000) / 8) v
      else if w.dbg.halted then s.updWave g.id w.waveid fun w => w.debugPut s.tick off v
      else s

/-! ## Performing a DBGWR (R405) -/

/-- Kinds of debug writes that have steps of their own. -/
inductive DebugKind where
  | haltreq | resume | wp | plain
  deriving DecidableEq, Repr

def debugKind (off : Nat) (v : DWord) : DebugKind :=
  if off = 0x21000 then if v.getLsbD 2 then .haltreq else if v.getLsbD 1 then .resume else .plain
  else if 0xF000000 ≤ off && off < 0xF000020 then .wp
  else .plain

/-- A DBGWR is performed: its dword takes effect, and the debugger's GST counter is lowered then. -/
def State.debugPerform (s : State) (e : QEntry) (tgt off : Nat) (v : DWord) : State :=
  let s := s.dbgWrite e.ctx (tgt % 256) (tgt / 256 % 128) off v
  let s := { s with queue := s.queue.filter fun x => x.n != e.n }
  match e.owner with
  | .flight p id => s.updThread p fun t =>
      (t.updFlight id fun f => { f with owed := f.owed - 1, done := true }).settleFlights
  | _ => s

end Sys2Proof.Machine
end

