-- ==== Sys2Proof/Machine/MemSteps.lean ====
section
/-! DEFINITION. The steps by which accesses are performed: request groups (spec/09_memory_levels.md R223), writes at homes and
their acknowledgements (R136, R248 to R250), scratchpad passes (R214), evictions, re-keying and revival (R219
to R229). A step that is not enabled changes nothing (log 1). -/
namespace Sys2Proof.Machine

/-! ## The export table (R413, R415) -/

/-- A refused inbound access is logged to the host (R415, R435, R452). -/
def State.accessLog (s : State) (ethernet : Bool) (kind check src off rkey : Nat) : State :=
  s.event none 0x07 (leBytes 1 ethernet.toNat ++ leBytes 1 kind ++ leBytes 2 check ++ leBytes 4 src ++ leBytes 8 off ++ leBytes 8 rkey)

/-- An inbound access of a window offset from a source device: its place, key slot and lease class, or the check that fails. -/
def State.exportMap (s : State) (src off : Nat) (rd wr : Bool) : Except Nat (Nat × Nat × Nat) :=
  let e := ((s.peers.exports.lookup (field off 31 8)).getD 0).toNat
  let key := field e 23 8
  if field e 0 1 == 0 || !(field e 9 1 == 1 || field e 10 10 == src) then .error 1
  else if (rd && field e 3 1 == 0) || (wr && field e 4 1 == 0) then .error 2
  else if s.keyOf key == 0 then .error 3
  else .ok (field e 31 21 * 2 ^ 31 + off % 2 ^ 31, key, field e 21 2)

/-- Device identifier and window offset of a peer address (R412). -/
def peerDev (pa : Nat) : Nat := field pa 39 10
def peerOff (pa : Nat) : Nat := pa % 2 ^ 39
/-- The address names this device's own window: such an access is a request like any other, answered through this device's own export
table. -/
def ownWindow (pa : Nat) : Bool := inPeer pa && peerDev pa == Config.deviceId % 1024

/-- The kind code of an access log. -/
def QKind.access : QKind → Nat
  | .store _ => 1 | _ => 2

/-- The station that carries what this device sends to a peer's line: the destination and the line's hash lane fix it, by a hash that the
spec does not give (R414). -/
def station (pa : Nat) : Nat := Config.station (peerDev pa) (lineOf (peerOff pa)) % 12

/-- Further requests to some places can leave together: each one's station trained with all four lanes, and holds no more than 1,024 with
them (R414). Others wait there, and with them what makes them (log 140). The station's buffer has a place for the result of each (R419). -/
def State.stationsFree (s : State) (pas : List Nat) : Bool :=
  let out := pas.filter fun a => !ownWindow a
  out.all fun a => (s.peers.stations.lookup (station a)).getD 4 == 4 &&
    decide ((s.peers.reqs.filter fun r => !ownWindow r.addr && station r.addr == station a).length +
      (out.filter fun b => station b == station a).length ≤ 1024)
def State.stationFree (s : State) (pa : Nat) : Bool := s.stationsFree [pa]

/-- Sends a request to a peer, under the next number. -/
def State.sendRemote (s : State) (owner : Owner) (ctx addr len : Nat) (write : Bool) (iaddr va : Nat) (entry part : Option Nat := none) :
    State :=
  { s with
    nextQ := s.nextQ + 1
    peers := { s.peers with reqs := s.peers.reqs ++ [⟨s.nextQ, owner, ctx, addr, len, write, s.time, iaddr, none, va, entry, part⟩] } }

/-! ## Values found -/

/-- Values are held until every sector of the group has returned (R223). -/
def State.setFound (s : State) (p : Party) (id : Nat) (fs : List Found) : State :=
  s.updThread p fun t => t.updFlight id fun f =>
    { f with accs := f.accs.map fun a => match fs.find? (fun e => e.1 == a.lane) with
        | some (_, x, bad) => { a with old := some x, bad := bad }
        | none => a }

/-- The party's workgroup is saved or wintered. -/
def State.isAway (s : State) (p : Party) : Bool :=
  match s.wg? p.wg with | some g => g.status == .saved || g.status == .wintered | none => false

/-- A load or atomic that a peer refused or did not answer writes no result, and its cause is raised; for a saved party at its restore
(R417, R419). -/
def State.failRemote (s : State) (p : Party) (f : Flight) (lane : Nat) (c : Cause) (faddr : Nat) : State :=
  let s := s.updThread p fun t => (t.updFlight f.id fun f =>
    { f with done := true, accs := f.accs.map fun a => { a with done := true } }).settleFlights
  if s.isAway p then s.updThread p fun t => { t with deferred := t.deferred ++ [⟨.gld, c, faddr, va64 f.pc⟩] }
  else s.take p ⟨c, va64 f.pc, faddr, laneTag f.i lane, false, 0⟩

/-- The results are written once every translated lane has its value. -/
def State.tryLand (s : State) (p : Party) (id : Nat) : State :=
  match (s.wg? p.wg).bind (·.thread? p) with
  | none => s
  | some t =>
    match t.flight? id with
    | none => s
    | some f =>
      let due := f.accs.filter fun a => a.pa.isSome && !a.done
      if due.isEmpty || !due.all (·.old.isSome) then s
      else match f.fail with
      | some (lane, c, fa) => s.failRemote p f lane c fa
      | none => s.landFound p id (due.map fun a => (a.lane, a.old.getD 0, a.bad))

/-! ## Request groups -/

/-- The newest byte that the party's own queued stores of earlier instructions give (R135). -/
def State.forwarded (s : State) (p : Party) (id a : Nat) : Option Byte :=
  s.queue.reverse.findSome? fun e => match e.owner, e.kind with
    | .flight q k, .store _ => if q = p ∧ k < id then e.bytes.reverse.lookup a else none
    | _, _ => none

/-- An earlier atomic or barrier arrival of the party is still queued on a line. -/
def State.ownAtomicOn (s : State) (p : Party) (id line : Nat) : Bool :=
  s.queue.any fun e => e.line == line && (match e.owner, e.kind with
    | .flight _ _, .store _ => false
    | .flight q k, _ => q == p && decide (k < id)
    | _, _ => false)

/-- An earlier load of the thread that is not performed reads one of the sectors. -/
def Thread.earlierLoadOn (t : Thread) (id : Nat) (secs : List Nat) : Bool :=
  t.flights.any fun f => decide (f.id < id) && f.i.isLoad && !f.i.isScratch && !f.done &&
    f.accs.any fun a => match a.pa with
      | some pa => !a.done && a.old.isNone && secs.contains (sectorOf pa)
      | none => false

/-- How one sector of a group comes. -/
inductive SectorGot where
  | got (bytes : List Byte) (bad atHome : Bool)
  | asked
  deriving DecidableEq, Repr

/-- A sector of a peer that a cache of the party's cluster may use (R247, R423). -/
def State.peerCopy (s : State) (cluster : Nat) (core : Option Nat) (sec : Nat) : Option Copy :=
  if s.peers.synced then (s.copyOf cluster core sec).or (s.copyOf cluster none sec) else none

/-- Reads one sector for a party: from a cache, its home or the host, or asks a peer for it. -/
def State.groupSector (s : State) (σ : Site) (id pc : Nat) (a : Access) (sec : Nat) : State × SectorGot :=
  let pa := 32 * sec
  if a.host || inHost pa then (s, .got (freeBytes (s.tick + sec) 32) false false)
  else if inPeer pa then
    match s.peerCopy σ.cluster σ.core sec with
    | some c => (s, .got c.data false false)
    | none => (s.sendRemote (.flight σ.p id) σ.c.id pa 32 false (va64 pc) (a.va - a.va % 32), .asked)
  else
    let (s, g) := s.readSector σ.cluster σ.core a.key a.lease sec
    (s, .got g.bytes g.bad g.atHome)

/-- A sector cannot be read yet: an acknowledgement of a write to its line is on its way to the cluster, and no cache has the sector. -/
def State.fillWaits (s : State) (cluster : Nat) (core : Option Nat) (sec : Nat) : Bool :=
  s.ackDue cluster (sec / 4) && ((if core.isSome then s.copyOf cluster core sec else none).or (s.copyOf cluster none sec)).isNone

/-- An access's value from its sector's bytes, with the party's own queued stores over them. -/
def State.overlay (s : State) (p : Party) (id size : Nat) (a : Access) (bytes : List Byte) (bad : Bool) : Found :=
  let pa := a.pa.getD 0
  let fwd := (List.range size).map fun k => s.forwarded p id (pa + k)
  let bs := fwd.zipWith (fun f k => f.getD (bytes.getD (pa % 32 + k) 0)) (List.range size)
  (a.lane, fromBytes bs, bad && !fwd.all Option.isSome)

/-- Serves the sectors of a group one after another; answers the lines read at their homes and the sectors charged. A sector is read also
where the party's own queued stores give every byte that its lanes want of it, which R135 leaves open (log 134). -/
def State.serveGroup (s : State) (σ : Site) (f : Flight) : List Nat → State × List Nat × Nat
  | [] => (s, [], 0)
  | sec :: rest =>
    let mine := f.accs.filter fun a => match a.pa with | some pa => !a.done && sectorOf pa == sec | none => false
    match mine with
    | [] => s.serveGroup σ f rest
    | a :: _ =>
      let size := accSize f.i
      match s.groupSector σ f.id f.pc a sec with
      | (s, .got bytes bad atHome) =>
        let s := s.setFound σ.p f.id (mine.map fun a => s.overlay σ.p f.id size a bytes bad)
        let (s, ls, n) := s.serveGroup σ f rest
        (s, if atHome then sec / 4 :: ls else ls, if atHome then n + 1 else n)
      | (s, .asked) => let (s, ls, n) := s.serveGroup σ f rest; (s, ls, n + 1)

/-- The queue entries that an instruction's lanes make once they are translated. -/
def Site.entriesOf (σ : Site) (i : Instr) (fresh : List Access) : List QEntry :=
  match i with
  | .st o | .stNb o => σ.entries (.store o.rc) (sizeBytes o.size) fresh
  | .sst o => σ.entries (.store o.rc) (sizeBytes o.size) fresh
  | .atom o => σ.entries (.atomic o.op o.size) (sizeBytes o.size) fresh
  | .red o => σ.entries (.atomic o.op o.size) (sizeBytes o.size) fresh
  | .satom o => σ.entries (.atomic o.op o.size) (sizeBytes o.size) fresh
  | _ => []

/-- Stores enter the queue whole. -/
def storesWhole : Instr → Bool
  | .st _ | .stNb _ | .sst _ => true
  | _ => false

/-- An ST.NB issued again is refused: its guard predicate is written, and nothing of it is left (R131). -/
def State.refuseAgain (s : State) (p : Party) (f : Flight) (o : StF) : State :=
  match p with
  | .wave g k => s.updWave g k fun w =>
      let w := w.land s.tick f.id (refusal o (f.accs.map (·.lane)))
      { w with t := (w.t.updFlight f.id fun f => { f with done := true, accs := [] }).settleFlights }
  | _ => s

/-- Lanes left outstanding by a page fault are translated again once the workgroup is restored. A load's are then read; an atomic's enter
the queue (R127, R197); a store enters it whole, stalling as at its issue, and an ST.NB is judged for acceptance again (R131). Lanes
that still find no translation fault again (R383), once those of a load or an atomic that now translate are served. Translations are kept,
and sectors count for the sampler, as at issue (R236, R240). -/
def State.retranslate (s : State) (σ : Site) (f : Flight) : State :=
  let need := match f.i with | .ld _ | .sld _ => Need.read | .st _ | .stNb _ | .sst _ => .write | _ => Need.both
  let try_ (a : Access) : Access × Option Cause × Option Bool :=
    if a.pa.isSome then (a, none, none)
    else match s.translate σ.c a.va need a.lane with
      | .ok pa key lease host => ({ a with pa := some pa, key := key, lease := lease, host := host }, none, none)
      | .cause c => (a, some c, none)
      | .wait m => (a, none, some m)
  let xs := f.accs.map try_
  match xs.find? (fun x => match x.2.1 with | some c => c != .pageFault | none => false) with
  | some (a, c, _) => s.take σ.p ⟨c.getD .protection, va64 f.pc, a.va, laneTag f.i a.lane, false, 0⟩
  | none =>
    let absent := xs.find? (fun x => x.2.1 == some .pageFault)
    let again (s : State) : State := match absent with
      | some (a, _, _) => s.stopForFault σ.g (.fault a.va) [s.recordFor σ.p true ⟨.pageFault, va64 f.pc, a.va, laneTag f.i a.lane, false, 0⟩]
      | none => s
    let fresh := (xs.map (·.1)).filter fun a => f.accs.any fun b => b.lane == a.lane && b.pa.isNone && a.pa.isSome
    let es := σ.entriesOf f.i fresh
    if storesWhole f.i && absent.isSome then again s
    else if xs.any (·.2.2.isSome) || !s.queueRoom σ es.length then
      match f.i with
      | .stNb o => s.refuseAgain σ.p f o
      | _ => if xs.any (·.2.2 == some false) then s else s.stall σ
    else
      let kind := match f.i with | .ld _ | .sld _ => 0 | .st _ | .stNb _ | .sst _ => 1 | _ => 2
      let s := (s.sampleAll σ kind fresh).enqueue σ.c.id (es.map fun e => { e with owner := .flight σ.p f.id })
      again (s.updThread σ.p fun t => ({ t with stallFrom := none } : Thread).updFlight f.id fun g =>
        { g with accs := xs.map (·.1), owed := g.owed + es.length, passes := if storesWhole f.i then 0 else 1,
                 res := g.res && !storesWhole f.i })

/-- A request group of a load: the sectors of its lanes that are translated and that it has neither read nor asked a peer for. Lanes that
a page fault left outstanding are translated again once the workgroup is back. -/
def State.requestGroup (s : State) (p : Party) (id : Nat) : State :=
  match s.siteOf p with
  | none => s
  | some σ =>
    match σ.t.flight? id with
    | none => s
    | some f =>
      if f.done || f.i.isScratch then s
      else if f.accs.any (fun a => a.pa.isNone) && (σ.g.status == .resident || σ.g.status == .ending) && σ.c.run == .running then s.retranslate σ f
      else match f.i with
        | .ld _ | .sld _ =>
          let secs := (nubNat ((f.accs.filter fun a => a.pa.isSome && !a.done && a.old.isNone).map fun a => sectorOf (a.pa.getD 0))).filter
            fun x => !s.peers.reqs.any fun r => r.owner == .flight p id && r.addr == 32 * x
          if secs.isEmpty || σ.t.acqBars id || σ.t.earlierLoadOn id secs ||
              secs.any (fun x => s.ownAtomicOn p id (x / 4) || s.fillWaits σ.cluster σ.core x) ||
              !s.stationsFree (secs.filterMap fun x => if inPeer (32 * x) && (s.peerCopy σ.cluster σ.core x).isNone then some (32 * x) else none) then s
          else
            let (s, lines, n) := s.serveGroup σ f secs
            ((s.lowerCounts lines).updCtx σ.c.id fun c => c.chargeRead (32 * n)).tryLand p id
        | _ => s

def execRequestGroup (p : Party) (id : Nat) (s : State) : Host.Outcome State Fault Refusal :=
  .next { s.requestGroup p id with tick := s.tick + 1 }

/-! ## Writes at their homes -/

/-- The bytes of a launch barrier's arrival, the phase it found, or that it failed (R203, R204). -/
def gbarArrive (word total : Nat) : Option (Nat × Nat) :=
  let arrived := word % 2 ^ 32
  let phase := word / 2 ^ 32
  if total ≤ arrived then none
  else if arrived + 1 = total then some ((phase + 1) % 2 ^ 32 * 2 ^ 32, phase)
  else some (phase * 2 ^ 32 + arrived + 1, phase)

/-- Lines lose their reader counts (R221). -/
def State.ordinary (s : State) (lines : List Nat) : State :=
  { s with home := lines.foldl (fun h l => h.recount l 0) s.home }

/-- One lane of an atomic at an address of memory: the value it finds, and the state after it. Nothing is applied to a poisoned
sector (R231). -/
def State.applyAtomic (s : State) (op : AOp) (size key : Nat) (pa v cmp : Nat) : State × Nat × Bool :=
  let p := s.peek key pa size
  let old := fromBytes p.bytes
  if p.bad then (s, old, true)
  else (s.poke key 0 (located pa (leBytes size (aopNew op size old v cmp))), old, false)

/-- What an entry's application found: values of its accesses, the phase of a barrier arrival, an illegal barrier word, and the
bytes written. -/
structure Applied where
  found : List Found
  phase : Option Nat
  illegal : Bool
  bytes : List (Nat × Byte)
  deriving DecidableEq, Repr

def State.applyAtomics (s : State) (op : AOp) (size key : Nat) (place : Nat → Nat) :
    List Access → State × List Found × List (Nat × Byte)
  | [] => (s, [], [])
  | a :: as =>
    let pa := place (a.pa.getD 0)
    let (s', old, bad) := s.applyAtomic op size key pa a.v a.cmp
    let (s'', fs, bs) := s'.applyAtomics op size key place as
    (s'', (a.lane, old, bad) :: fs, if bad then bs else located (a.pa.getD 0) (leBytes size (aopNew op size old a.v a.cmp)) ++ bs)

/-- The format of a drained element, and its bytes (R309, R310). -/
def drainFmt : Fmt → FloatFmt
  | .bf16 => fBF16 | .fp16 => fF16 | .e4m3 => fE4M3 | .e5m2 => fE5M2 | _ => fF32
def drainBytes : Fmt → Nat
  | .bf16 | .fp16 => 2 | .e4m3 | .e5m2 => 1 | _ => 4
/-- A destination element after an accumulator element is added: the exact sum rounded once (R310). -/
def accumNew (t : Fmt) (rm : Rm) (old v : Nat) : Nat :=
  let f := drainFmt t
  (f.write rm false (addV rm (f.value old) (fF32.value v)).1).bits

/-- The elements that MSTA adds to one line, in order: a poisoned destination stays as it is, and a marked element poisons its
destination. -/
def State.applyAccums (s : State) (t : Fmt) (rm : Rm) (key : Nat) (place : Nat → Nat) (accs : List Access) : State × List (Nat × Byte) :=
  accs.foldl (fun (x : State × List (Nat × Byte)) a =>
    let (s, bs) := x
    let n := drainBytes t
    let pa := place (a.pa.getD 0)
    let p := s.peek key pa n
    if p.bad then (s, bs)
    else if a.bad then (s.poisonRange pa n, bs)
    else
      let new := leBytes n (accumNew t rm (fromBytes p.bytes) a.v)
      (s.poke key 0 (located pa new), bs ++ located (a.pa.getD 0) new)) (s, [])

/-- Applies an entry to memory at a place: `place` takes an entry's address to the physical one. An atomic makes its line ordinary,
whether or not a poisoned sector bars its lanes (R221, R231). -/
def State.applyHere (s : State) (e : QEntry) (key : Nat) (place : Nat → Nat) : State × Applied :=
  let at_ := place (e.bytes.headD (0, 0)).1
  match e.kind with
  | .store rc =>
    let s := s.poke key rc (e.bytes.map fun b => (place b.1, b.2))
    (if e.bad then (nubNat (e.bytes.map fun b => sectorOf (place b.1))).foldl (fun s x => s.poisonRange (32 * x) 32) s else s,
      ⟨[], none, false, e.bytes⟩)
  | .atomic op size =>
    let (s, fs, bs) := (s.ordinary (e.accs.map fun a => lineOf (place (a.pa.getD 0)))).applyAtomics op (sizeBytes size) key place e.accs
    (s, ⟨fs, none, false, bs⟩)
  | .accum t rm =>
    let (s, bs) := (s.ordinary (e.accs.map fun a => lineOf (place (a.pa.getD 0)))).applyAccums t rm key place e.accs
    (s, ⟨[], none, false, bs⟩)
  | .add v =>
    let (s, _, bad) := (s.ordinary [lineOf at_]).applyAtomic .add 8 key at_ v.toNat 0
    (s, ⟨[], none, false, if bad then [] else located at_ (s.peek key at_ 8).bytes⟩)
  | .arrive total =>
    let s := s.ordinary [lineOf at_]
    let p := s.peek key at_ 8
    let old := fromBytes p.bytes
    if p.bad then (s, ⟨[], some (old / 2 ^ 32), false, []⟩)
    else match gbarArrive old total with
      | none => (s, ⟨[], none, true, []⟩)
      | some (x, phase) => (s.poke key 0 (located at_ (leBytes 8 x)), ⟨[], some phase, false, located at_ (leBytes 8 x)⟩)
  | .debug _ _ _ => (s, ⟨[], none, false, []⟩)

/-- The lanes of one instruction at the host, one after another: `new` gives what a lane writes over what it finds, which is free where no
lane before it has written there (R195). -/
def State.hostLanes (s : State) (n : Nat) (new : Access → Nat → Nat) : (seen : List (Nat × Nat)) → List Access → State × List Found
  | _, [] => (s, [])
  | seen, a :: as =>
    let h := a.pa.getD 0 % 2 ^ 49
    let old := (seen.lookup h).getD (fromBytes (freeBytes (s.tick + h) n))
    let x := new a old
    let (s, fs) := (s.writeHost h (leBytes n x)).hostLanes n new ((h, x) :: seen) as
    (s, (a.lane, old, false) :: fs)

/-- Values that a write at the host finds are free. A store is posted: it reaches the host in `completeHost` (R258). -/
def State.applyHost (s : State) (e : QEntry) : State × Applied :=
  let free (a k : Nat) : Nat := fromBytes (freeBytes (s.tick + a) k)
  let h (a : Nat) : Nat := a % 2 ^ 49
  let at_ := (e.bytes.headD (0, 0)).1
  match e.kind with
  | .store _ => (s, ⟨[], none, false, []⟩)
  | .atomic op size =>
    let n := sizeBytes size
    let (s, fs) := s.hostLanes n (fun a old => aopNew op n old a.v a.cmp) [] e.accs
    (s, ⟨fs, none, false, []⟩)
  | .accum t rm => ((s.hostLanes (drainBytes t) (fun a old => accumNew t rm old a.v) [] e.accs).1, ⟨[], none, false, []⟩)
  | .add v => (s.writeHost (h at_) (leBytes 8 (free at_ 8 + v.toNat)), ⟨[], none, false, []⟩)
  | .arrive total =>
    match gbarArrive (free at_ 8) total with
    | none => (s, ⟨[], none, true, []⟩)
    | some (x, phase) => (s.writeHost (h at_) (leBytes 8 x), ⟨[], some phase, false, []⟩)
  | .debug _ _ _ => (s, ⟨[], none, false, []⟩)

/-- A posted write is complete at the host. -/
def State.completeHost (s : State) (e : QEntry) : State :=
  match e.kind with
  | .store _ => if e.host || inHost (128 * e.line) then e.bytes.foldl (fun s b => s.writeHost (b.1 % 2 ^ 49) [b.2]) s else s
  | _ => s

/-- What an applied entry leaves: its place among the writes applied, its completion times, the values for its instruction, a
barrier's phase. -/
def State.afterApply (s : State) (e : QEntry) (times : Nat × Nat × Nat) (r : Applied) : State :=
  let s := { s with
    home := { s.home with seq := s.home.seq + 1 }
    queue := s.queue.map fun x =>
      if x.n = e.n then { x with times := some times, held := false, seq := s.home.seq, since := e.since,
                                 bytes := (match e.kind with | .store _ => e.bytes | _ => r.bytes) } else x }
  match e.owner with
  | .flight p id =>
    let s := s.setFound p id r.found
    let s := match r.phase with
      | some ph => s.updThread p fun t => { t with park := match t.park with
          | some (.gbar a pa key none) => some (.gbar a pa key (some ph))
          | k => k }
      | none => s
    if r.illegal then
      (s.updThread p fun t => { t with park := none }).take p
        ⟨.illegalOperand, va64 (((s.siteOf p).bind fun σ => (σ.t.flight? id).map (·.pc)).getD 0), 0, none, false, 0⟩
    else s
  | .reply qp psn =>
    match r.found with
    | (_, old, bad) :: _ =>
      { s with qps := s.qps.map fun (q : QPair) => if q.n = qp then
          { q with
            replay := if bad then q.replay else ((psn, BitVec.ofNat 64 old) :: q.replay).take 16
            replies := q.replies.map fun y => if y.psn = psn && y.owed != 0 then
              { y with kind := if bad then .nakOp else y.kind, bytes := if bad then [] else leBytes 8 old } else y } else q }
    | [] => s
  | _ => s

/-- The instruction is an ATOM: its old values come from one request group (R223). -/
def State.isAtom (s : State) (o : Owner) : Bool :=
  match o with
  | .flight p id => match ((s.wg? p.wg).bind (·.thread? p)).bind (·.flight? id) with
    | some f => (match f.i with | .atom _ => true | _ => false)
    | none => false
  | _ => false

/-- The write is applied at its home now, with the latest expiries of copies granted before it (R248). What a page table that it meets
named stays known (R237). A sector of an ATOM's request group is charged as read (R223, R366). -/
def State.applyEntry (s : State) (e : QEntry) : State :=
  let times := s.completion e.line e.cluster e.core
  let e := { e with since := s.zeroPeriod e.line }
  let s := s.noteRewrite (e.bytes.map (·.1) ++ e.accs.map fun a => a.pa.getD 0)
  let s := if s.isAtom e.owner then s.updCtx e.ctx fun c => c.chargeRead 32 else s
  let (s, r) := s.applyHere e e.key id
  s.afterApply e times r

/-- A cause waits for the party's next wait of its path, or its end (R260, R283, R417); a wave that has ended meets it now. -/
def State.deferCause (s : State) (p : Party) (id : Nat) (path : Path) (c : Cause) (faddr : Nat) : State :=
  match s.siteOf p with
  | none => s
  | some σ =>
    let d : Deferred := ⟨path, c, faddr, va64 (((σ.t.flight? id).map (·.pc)).getD σ.t.pc)⟩
    if (match σ.w with | some w => w.ended | none => false) then s.take p ⟨c, d.iaddr, faddr, none, false, 0⟩
    else s.updThread p fun t => { t with deferred := t.deferred ++ [d] }

/-- The virtual address of an entry: of its lowest lane, or of its first byte. -/
def QEntry.va (e : QEntry) : Nat := match e.accs with
  | [] => e.vaddr
  | a :: as => (as.foldl (fun m b => if b.lane < m.lane then b else m) a).va

/-- Two entries are debug writes of one party, which are performed in the order of their issue (R405). -/
def QEntry.sameDebugger (x e : QEntry) : Bool :=
  match x.kind, e.kind, x.owner, e.owner with
  | .debug _ _ _, .debug _ _ _, .flight p _, .flight q _ => p == q
  | _, _, _, _ => false

/-- An entry may be performed: no earlier one of its core on its line is left, but for those of its own instruction (R256), and no earlier
debug write of its party, on whichever core it issued that (R405); no acquire bars it (R252); and no earlier load of its party still has to
read its sector (R135, R196). -/
def State.mayApply (s : State) (e : QEntry) : Bool :=
  e.times.isNone && !s.queue.any (fun x => x.n < e.n && x.times.isNone && (x.sameDebugger e ||
      (x.cluster == e.cluster && x.core == e.core && x.line == e.line && !(x.owner == e.owner && s.isAtom e.owner))))
    && (match e.owner with
        | .flight p id => (match (s.wg? p.wg).bind (·.thread? p) with
          | some t => !t.acqBars id && !t.earlierLoadOn id (nubNat (e.bytes.map (fun b => sectorOf b.1) ++ e.accs.map fun a => sectorOf (a.pa.getD 0)))
          | none => true)
        | _ => true)

/-- A write arrives at a home that must hold it: it keeps the number of its arrival (R227, R229). -/
def State.holdEntry (s : State) (e : QEntry) : State :=
  if e.held then s
  else { s with
    home := { s.home with seq := s.home.seq + 1 }
    queue := s.queue.map fun x => if x.n = e.n then { x with held := true, seq := s.home.seq } else x }

/-- The requests that an entry makes of a peer: address, length, virtual address, and the access that each carries. A store is of a
sector; the accesses of an atomic are sent one by one, of 4 or 8 bytes; this device's own window takes an entry whole (R412, R414). -/
def QEntry.requests (e : QEntry) : List (Nat × Nat × Nat × Option Nat) :=
  let at_ := (e.bytes.headD (0, 0)).1
  let each (n : Nat) : List (Nat × Nat × Nat × Option Nat) :=
    if ownWindow (128 * e.line) then [((e.accs.head?.bind (·.pa)).getD (128 * e.line), n, e.va, none)]
    else ((List.range e.accs.length).zip e.accs).map fun x => let pa := x.2.pa.getD (128 * e.line); (pa - pa % n, n, x.2.va, some x.1)
  match e.kind with
  | .store _ => [(32 * sectorOf at_, 32, e.va, none)]
  | .atomic _ size => each (sizeBytes size)
  | .accum _ _ => each 4
  | _ => [(at_, 8, e.va, none)]

/-- The address of the instruction that an entry belongs to; 0 for an engine's. -/
def State.entryPc (s : State) (e : QEntry) : Nat :=
  match e.owner with
  | .flight p id => va64 (((s.siteOf p).bind fun σ => (σ.t.flight? id).map (·.pc)).getD 0)
  | _ => 0

/-- One entry goes to its home, or to the host or a peer, and is held at a frozen or reviving region. The read half of an atomic at a
region that is not live counts as an elided read (R227). An ATOM's sector at a peer is charged as read as it departs (R223, R415). -/
def State.writeOne (s : State) (e : QEntry) : State :=
  let pa := 128 * e.line
  if e.host || inHost pa then let (s, r) := s.applyHost e; s.afterApply e (0, 0, 0) r
  else if inPeer pa then
    if s.peers.reqs.any (fun r => r.entry == some e.n) || !s.stationsFree (e.requests.map (·.1)) then s
    else
      let s := if s.isAtom e.owner then s.updCtx e.ctx fun c => c.chargeRead 32 else s
      e.requests.foldl (fun s r => s.sendRemote e.owner e.ctx r.1 r.2.1 true (s.entryPc e) r.2.2.1 (some e.n) r.2.2.2) s
  else if s.home.frozen.contains (regionOf pa) then s.holdEntry e
  else if !s.isLive pa then
    let s := if e.held || e.kind.access != 2 then s else s.countElided pa
    { s.holdEntry e with home := { (s.holdEntry e).home with reviving := nubNat (s.home.reviving ++ [regionOf pa]) } }
  else s.applyEntry e

/-- The entries that a home slice serves together with one: those of an ATOM's request group that are in the slice (R223). -/
def State.groupOf (s : State) (e : QEntry) : List QEntry :=
  if s.isAtom e.owner && inMemory (128 * e.line) then
    s.queue.filter fun x => x.owner == e.owner && x.times.isNone && (!x.held || x.n == e.n) && inMemory (128 * x.line) &&
      homeSlice (128 * x.line) == homeSlice (128 * e.line)
  else [e]

/-- A write goes to its home, or to the host or a peer, together with its group, one after another. -/
def State.homeWrite (s : State) (n : Nat) : State :=
  match s.queue.find? (fun e => e.n == n) with
  | none => s
  | some e =>
    let es := s.groupOf e
    if !s.mayApply e || !es.all s.mayApply then s
    else match e.kind with
      | .debug tgt off v => if debugKind off v == .plain then s.debugPerform e tgt off v else s
      | _ => es.foldl State.writeOne s

def execHomeWrite (n : Nat) (s : State) : Host.Outcome State Fault Refusal :=
  .next { s.homeWrite n with tick := s.tick + 1 }

/-! ## Answers of queue pairs (R259, R436) -/

def State.qp? (s : State) (n : Nat) : Option QPair := s.qps.find? fun q => q.n == n
def State.updQp (s : State) (n : Nat) (f : QPair → QPair) : State := { s with qps := s.qps.map fun q => if q.n = n then f q else q }

/-- A byte of the payload of QP_SET. -/
def QPair.par (q : QPair) (byte n : Nat) : Nat := field q.params.toNat (8 * byte) (8 * n)
def QPair.port (q : QPair) : Nat := q.par 7 1
/-- The priority of a queue pair's packets is paused on its port (R424). -/
def State.pausedPair (s : State) (q : QPair) : Bool := s.paused.contains (q.port, q.par 17 1)

/-- A packet leaves; one of a paused priority once that is resumed (R424). -/
def State.sendWire (s : State) (qp : Nat) (kind : WireKind) (psn : Nat) (bytes : List Byte) (time : Nat) : State :=
  if (match s.qp? qp with | some q => s.pausedPair q | none => false) then { s with wireHeld := s.wireHeld ++ [⟨qp, kind, psn, bytes, time⟩] }
  else { s with wire := ⟨qp, kind, psn, bytes, time⟩ :: s.wire }

/-- Answers leave in order, once what they wait for is over, and no sooner than the writes answered so far are seen by every reader: an
answer tells of every request before it (R259). -/
def State.sendReplies (s : State) (n : Nat) : State :=
  match s.qp? n with
  | none => s
  | some q =>
    let s := s.updQp n fun q => { q with replies := q.replies.dropWhile (·.owed == 0) }
    (q.replies.takeWhile (·.owed == 0)).foldl (fun s r => s.sendWire n r.kind r.psn r.bytes (max s.time q.ackFrom)) s

/-- Puts an answer behind the others. -/
def State.reply (s : State) (n : Nat) (kind : WireKind) (psn : Nat) (bytes : List Byte) (owed : Nat) : State :=
  (s.updQp n fun q => { q with replies := q.replies ++ [⟨kind, psn, bytes, owed⟩] }).sendReplies n

/-- Changes an answer that waits. -/
def QPair.updReply (q : QPair) (psn : Nat) (f : QpReply → QpReply) : QPair :=
  { q with replies := q.replies.map fun r => if r.psn = psn && r.owed != 0 then f r else r }

/-- Time from which every reader sees a write with a T_S (R259). -/
def seenFrom (ts : Nat) : Nat := if ts = 0 then 0 else ts + 20

/-! ## Acknowledgements -/

/-- The longest lease of a class (R246). -/
def classLen (lease : Nat) : Nat := match lease with | 0 => 1000 | 1 => 50000 | _ => 0

/-- The times that an acknowledgement carries: at least the bounds found when the write was applied, and no later than R248
and R253 allow: for a line in its zero-length period, what was left of the lease that may have been granted before it began. -/
def State.ackTimes (s : State) (e : QEntry) (t : Nat × Nat × Nat) : Nat × Nat × Nat :=
  let top := if e.since = 0 then s.time + classLen e.lease else max s.time (e.since - 1 + classLen e.lease)
  let between (k lo hi : Nat) : Nat := if lo = 0 then 0 else lo + Config.freeNat s.tick (45000 + k) % (max hi lo - lo + 1)
  let c := between 0 t.1 top
  let d := max c (between 1 t.2.1 top)
  (c, d, max d (between 2 t.2.2 (top + 2)))

/-- W_CLUSTER, W_DEV and W_SYS take the later times (R250). -/
def Thread.completeAt (t : Thread) (w : Nat × Nat × Nat) : Thread :=
  { t with wCluster := max t.wCluster w.1, wDev := max t.wDev w.2.1, wSys := max t.wSys w.2.2 }

/-- The message that acknowledges an entry comes in its order: about one line from its home to one cluster (R256), and posted writes to
the host in theirs (R258). -/
def State.ackInOrder (s : State) (e : QEntry) : Bool :=
  let host (x : QEntry) : Bool := x.host || inHost (128 * x.line)
  !s.queue.any fun x => x.times.isSome && decide (x.seq < e.seq) && x.n != e.n &&
    ((x.line == e.line && x.cluster == e.cluster) || (host x && host e))

/-- The writer's copies take the bytes: in the cluster and core that issued, and where the party is now. -/
def State.updateWriter (s : State) (e : QEntry) : State :=
  let t := s.updateCopies e.cluster e.core e.bytes e.bad
  match e.owner with
  | .flight p _ => match s.siteOf p with
    | some σ => if σ.cluster = e.cluster ∧ σ.core = e.core then t else t.updateCopies σ.cluster σ.core e.bytes e.bad
    | none => t
  | _ => t

/-- An entry's acknowledgement reaches the party that issued it: its entry is freed, the writer's copies take the bytes, the
completion registers rise, results land, counters fall. A posted write is then complete at the host. -/
def State.acknowledge (s : State) (n : Nat) : State :=
  match s.queue.find? (fun e => e.n == n) with
  | none => s
  | some e =>
    match e.times with
    | none => s
    | some t =>
      if !s.ackInOrder e then s
      else
      let w := s.ackTimes e t
      let s := { s with queue := s.queue.filter fun x => x.n != n }
      let s := (s.completeHost e).updateWriter e
      match e.owner with
      | .flight p id =>
        let s := s.updThread p fun t =>
          ((t.completeAt w).updFlight id fun f =>
            let f := { f with owed := f.owed - 1 }
            let mine := f.accs.map fun a => if !f.i.isLoad && e.accs.any (fun b => b.lane == a.lane) then { a with done := true } else a
            { f with accs := mine, done := f.done || (!f.i.isLoad && f.owed == 0 && mine.all fun a => a.pa.isSome) }).settleFlights
        s.tryLand p id
      | .cmd k => { s with cmds := s.cmds.map fun c => if c.n = k then
          { c with owedAcks := c.owedAcks - 1, wCluster := max c.wCluster w.1, wDev := max c.wDev w.2.1, wSys := max c.wSys w.2.2 }
          else c }
      | .wr k => { s with qps := s.qps.map fun q =>
          let f (x : WorkReq) : WorkReq := if x.n = k then
            { x with owedAcks := x.owedAcks - 1, wCluster := max x.wCluster w.1, wDev := max x.wDev w.2.1, wSys := max x.wSys w.2.2 }
            else x
          { q with sends := q.sends.map f, recvs := q.recvs.map f } }
      | .reply qp psn =>
        (s.updQp qp fun q => { q.updReply psn (fun r => { r with owed := r.owed - 1 }) with ackFrom := max q.ackFrom (seenFrom w.2.2) }).sendReplies qp
      | .tile _ _ | .other => s

def execAcknowledgement (n : Nat) (s : State) : Host.Outcome State Fault Refusal :=
  .next { s.acknowledge n with tick := s.tick + 1 }

/-! ## The scratchpad (R195, R214, R230, R398) -/

/-- Atomics of one instruction at their banks, lane after lane. -/
def Workgroup.scratchAtomics (g : Workgroup) (op : AOp) (size : Nat) : List Access → Workgroup × List Found
  | [] => (g, [])
  | a :: as =>
    let old := g.scratchRead a.va size
    let (g, fs) := (g.scratchWrite a.va size (aopNew op size old a.v a.cmp)).scratchAtomics op size as
    (g, (a.lane, old, false) :: fs)

/-- The effect of a .S instruction on some of its lanes: values found, and the workgroup with its bytes written. -/
def Workgroup.scratchPerform (g : Workgroup) (i : Instr) (accs : List Access) : Workgroup × List Found :=
  let size := accSize i
  match i with
  | .ld _ | .sld _ => (g, accs.map fun a => (a.lane, g.scratchRead a.va size, false))
  | .st _ | .stNb _ | .sst _ => (accs.foldl (fun g a => g.scratchWrite a.va size a.v) g, [])
  | .atom o => g.scratchAtomics o.op size accs
  | .red o => g.scratchAtomics o.op size accs
  | .satom o => g.scratchAtomics o.op size accs
  | _ => (g, [])

/-- The accesses that the present pass of a .S instruction serves: those whose row is the next of its bank (R214). -/
def Workgroup.nowServed (g : Workgroup) (f : Flight) : List Access :=
  let offs := f.accs.map (·.va)
  let now := passesOf g.scratchBase (accSize f.i) offs - f.passes
  f.accs.filter fun a => passIndex g.scratchBase offs a.va == now

/-- One pass of the oldest .S instruction of a wave performs the lanes whose rows it serves (R214); the last completes it, and a
watchpoint that it met is raised. -/
def State.scratchPass (s : State) (p : Party) (id : Nat) : State :=
  match s.siteOf p with
  | none => s
  | some σ =>
    match σ.t.flights.find? (fun f => f.i.isScratch && !f.done) with
    | none => s
    | some f =>
      if f.id != id || !(σ.g.status == .resident || σ.g.status == .stopped || σ.g.status == .ending) || σ.t.acqBars id then s
      else
        let size := accSize f.i
        let mine := σ.g.nowServed f
        match (if scratchReads f.i then mine.find? (fun a => σ.g.scratchMarked a.va size) else none) with
        | some a => s.take p ⟨.eccScratch, va64 f.pc, a.va, laneTag f.i a.lane, false, 0⟩
        | none =>
          let (g, fs) := σ.g.scratchPerform f.i mine
          let s := (s.updWg σ.g.id fun _ => g).updThread p fun t => (t.updFlight id fun f =>
            { f with passes := f.passes - 1, done := f.done || (!f.i.isLoad && f.passes ≤ 1) }).settleFlights
          let s := if f.i.isLoad then s.landFound p id fs else s
          if f.passes ≤ 1 then s.routeTrap p else s

def execScratchpadPass (p : Party) (id : Nat) (s : State) : Host.Outcome State Fault Refusal :=
  .next { s.scratchPass p id with tick := s.tick + 1 }

/-! ## Evictions and write counters (R219, R221, R229) -/

/-- A cache or the memory-side cache evicts. A tree node that holds counters is written back, advancing its own counter in its parent; at
the maximum it is refused, and every region beneath is frozen (R229). -/
def State.evict (s : State) (e : Evicted) : State :=
  let h := s.home
  match e with
  | .l1 core sector => s.keepCopies fun c => !(c.core == some core && c.sector == sector)
  | .clus cluster sector => s.keepCopies fun c => !(c.cluster == cluster && c.core == none && c.sector == sector)
  | .line n => s.evictLine n
  | .node stack level n =>
    let k := h.nodeCtr stack level n
    if 16 ≤ stack || rootLevel stack ≤ level ||
        !h.wctr.any (fun e => (treePlace e.1).1 == stack && (treePlace e.1).2 / nodeLines level == n) then s
    else if (if level = 0 then 2 ^ 32 else 2 ^ 56) - 1 ≤ k then s.freeze (regionsUnder stack level n)
    else
      let m := Sparse.set 0 ((h.tree.lookup (16 * stack + level)).getD []) n (k + 1)
      { s with home := { h with tree := (16 * stack + level, m) :: h.tree.filter fun e => e.1 != 16 * stack + level } }

def execEviction (e : Evicted) (s : State) : Host.Outcome State Fault Refusal :=
  .next { s.evict e with tick := s.tick + 1 }

/-! ## Revival (R227) -/

/-- Puts a step into a list by its number. -/
def insertBySeq (x : Nat × Instr) : List (Nat × Instr) → List (Nat × Instr)
  | [] => [x]
  | y :: ys => if x.1 < y.1 then x :: y :: ys else y :: insertBySeq x ys

/-- Writes held at regions reach their homes again, in the order of their arrival and before anything else does (R227, R229). -/
def State.replay (s : State) (rs : List Nat) : State :=
  let mine (h : HeldWrite) : Bool := h.regions.any rs.contains
  let xs := (s.queue.filter fun e => e.held && inMemory (128 * e.line) && rs.contains (regionOf (128 * e.line))).map
      (fun e => (e.seq, Instr.homeWrite e.n)) ++ (s.home.held.filter mine).map fun h => (h.seq, h.what)
  { s with
    agenda := (xs.foldl (fun ys x => insertBySeq x ys) []).map (fun x => ⟨0, x.2⟩) ++ s.agenda
    home := { s.home with held := s.home.held.map fun h => if mine h then { h with again := true } else h } }

/-- The held write that reaches its home again, which is held no longer; none for one that arrives now. -/
def State.unhold (s : State) (i : Instr) : State × Option HeldWrite :=
  match s.home.held.find? fun h => h.again && h.what == i with
  | some h => ({ s with home := { s.home with held := s.home.held.erase h } }, some h)
  | none => (s, none)

/-- The key slot of a place now: firmware may have moved its area to another since the write was held (R229). -/
def slotNow (again : Option HeldWrite) (slot a : Nat) : Nat :=
  match again with
  | none => slot
  | some h => h.keys.foldl (fun k e => if e.1 ≤ a && a < e.1 + e.2.1 then e.2.2 else k) slot
/-- Bytes by key slot, as the slots are now. -/
def bySlot (again : Option HeldWrite) (xs : List (Nat × List (Nat × Byte))) : List (Nat × List (Nat × Byte)) :=
  match again with
  | none => xs
  | some h => xs.flatMap fun e => (nubNat (e.2.map fun b => slotNow (some h) e.1 b.1)).map fun k =>
      (k, e.2.filter fun b => slotNow (some h) e.1 b.1 == k)

/-- Regions that a write meets and that are neither live nor frozen revive. -/
def State.awaken (s : State) (rs : List Nat) : State :=
  let h := s.home
  { s with home := { h with reviving := nubNat (h.reviving ++ rs.filter fun r => !h.live.contains r && !h.frozen.contains r) } }

/-- A write from outside meets regions that are frozen or not live: it is held, with the number of its arrival, and the latter revive. -/
def State.holdOutside (s : State) (i : Instr) (again : Option HeldWrite) (rs : List Nat) : State :=
  let s := s.awaken rs
  let h := s.home
  { s with home := { h with
      seq := if again.isSome then h.seq else h.seq + 1
      held := h.held ++ [⟨(again.map (·.seq)).getD h.seq, rs, i, false, (again.map (·.keys)).getD []⟩] } }

/-- The regions that bar a write. -/
def State.barred (s : State) (places : List Nat) : List Nat :=
  nubNat ((places.filter fun a => inMemory a && (s.home.frozen.contains (regionOf a) || !s.isLive a)).map regionOf)

/-- The latest completion time of writes from outside to some lines (R248). -/
def State.latestTs (s : State) (lines : List Nat) : Nat :=
  lines.foldl (fun m l => max m (s.completion l Config.clusters none).2.2) 0

/-- Bytes from outside at their homes, under their key slots, where no region bars them; the answer tells. -/
def State.landBytes (s : State) (xs : List (Nat × List (Nat × Byte))) : State × Bool :=
  let places := xs.flatMap fun e => e.2.map (·.1)
  let rs := s.barred places
  if rs.isEmpty then (xs.foldl (fun s e => s.poke e.1 0 e.2) (s.noteRewrite places), true)
  else (s.awaken rs, false)

/-- A write of the host or of a peer reaches its homes: its T_S and its place among the writes that did; or it is held (R229, R248). -/
def State.landOutside (s : State) (i : Instr) (xs : List (Nat × List (Nat × Byte))) : State × Option (Nat × Nat) :=
  let places := xs.flatMap fun e => e.2.map (·.1)
  let (s, again) := s.unhold i
  match s.barred places with
  | [] =>
    let t := s.latestTs (nubNat (places.map lineOf))
    let s' := (s.landBytes (bySlot again xs)).1
    ({ s' with home := { s'.home with seq := if again.isSome then s.home.seq else s.home.seq + 1 } },
      some (t, (again.map (·.seq)).getD s.home.seq))
  | rs => (s.holdOutside i again rs, none)

def State.revival (s : State) (region : Nat) : State :=
  if !s.home.reviving.contains region then s
  else
    let s := s.revive (region * 2 ^ 21)
    ({ s with home := { s.home with reviving := s.home.reviving.filter (· != region) } }).replay [region]

def execRevival (region : Nat) (s : State) : Host.Outcome State Fault Refusal :=
  .next { s.revival region with tick := s.tick + 1 }

/-! ## Frames in use (R226) -/

/-- The pages of 4 KiB that some bytes lie in, as a run. -/
def pageRun (pa n : Nat) : Nat × Nat := (pa / 4096 * 4096, (pa + n + 4095) / 4096 * 4096 - pa / 4096 * 4096)

/-- What is in use: what valid leaves of contexts map, page tables, lap plans and layer images. -/
def State.usedRuns (s : State) : List (Nat × Nat) :=
  s.ctxs.flatMap (fun c => (s.namesOf c).map fun x => (x.2.2.1, x.2.2.2)) ++
  (s.ring.plan.toList ++ s.ring.newPlan.toList).flatMap fun p =>
    pageRun p.place.1 p.place.2 :: p.layers.map fun l => pageRun l.maddr (2048 * l.total)

def overlaps (pa n : Nat) (r : Nat × Nat) : Bool := r.1 < pa + n && pa < r.1 + r.2
def State.inUse (s : State) (pa n : Nat) : Bool := s.usedRuns.any (overlaps pa n)

/-- The parts of a frame that leave every context read as zeros: a region that nothing uses any more loses its liveness bit, and of any
other region only the frame's pages that nothing uses are zeroed. -/
def State.freeFrame (s : State) (pa n : Nat) : State :=
  if !inMemory pa then s
  else
    let used := s.usedRuns
    (List.range (regionOf (pa + n - 1) - regionOf pa + 1)).foldl (fun s k =>
      let r := regionOf pa + k
      if used.any (overlaps (r * 2 ^ 21) (2 ^ 21)) then
        s.zeroWhere fun a => regionOf a == r && pa ≤ a && a < pa + n && !used.any (overlaps a 1)
      else s.clearLive r) s

/-! ## Invalidation (R237) -/

/-- Whether a virtual page run of a context meets a range; a length of 0 is the whole space. -/
def meets (va n from_ len : Nat) : Bool := len = 0 || (va < from_ + len && from_ < va + n)

/-- An access in flight is to a frame. -/
def State.frameBusy (s : State) (pa n : Nat) : Bool :=
  let inside (a : Nat) : Bool := pa ≤ a && a < pa + n
  let inLoc (l : Loc) : Bool := match l with | .mem _ (some x) => inside x.1 | _ => false
  s.queue.any (fun e => inside (128 * e.line)) ||
  s.cmds.any (fun c => c.ops.any fun o => o.any fun x => inLoc x.src || inLoc x.dst) ||
  s.wgs.any fun g =>
    let busy (t : Thread) : Bool := t.flights.any fun f => !f.done && f.accs.any fun a => match a.pa with
      | some x => !a.done && inside x
      | none => false
    g.waves.any (fun w => busy w.t) || (match g.resv with | some r => r.threads.any (fun t => busy t.t) | none => false)

/-- Frames that entries of a range name or named before they were rewritten: those that TLBs hold, those of rewritten tables, and host
runs (R237, R239). -/
def Context.framesIn (c : Context) (va len : Nat) : List (Nat × Nat) :=
  ((c.tlb.filter fun t => meets t.va (2 ^ t.bits) va len).map fun t => (t.pa, 2 ^ t.bits)) ++
  ((c.named.filter fun x => meets x.1 x.2.1 va len).map fun x => (x.2.2.1, x.2.2.2)) ++
  ((c.ats.filter fun a => meets a.1 a.2.2 va len).map fun a => (0x6000000000000 + a.2.1, a.2.2))

/-- The thread has an access in flight at an address of the range. -/
def Thread.accessing (t : Thread) (va len : Nat) : Bool :=
  t.flights.any fun f => !f.done && !f.i.isScratch && f.accs.any fun a => a.pa.isSome && !a.done && meets a.va 1 va len

/-- The invalidation can complete: every access of the context that used an entry of the range is over, each write acknowledged. -/
def State.canInvalidate (s : State) (c : Context) (va len : Nat) : Bool :=
  let frames := c.framesIn va len
  let inside (a : Nat) : Bool := frames.any fun f => f.1 ≤ a && a < f.1 + f.2
  let inLoc (l : Loc) : Bool := match l with | .mem v (some _) => meets v 1 va len | _ => false
  !(s.queue.any (fun e => e.ctx == c.id && (if e.accs.isEmpty then inside (128 * e.line) else e.accs.any fun a => meets a.va 1 va len)) ||
    s.cmds.any (fun k => k.ctx == c.id && k.ops.any fun o => o.any fun x => inLoc x.src || inLoc x.dst) ||
    s.peers.reqs.any (fun r => r.ctx == c.id && inside r.addr) ||
    s.wgs.any fun g => g.ctx == c.id && (g.waves.any (fun w => w.t.accessing va len) ||
      (match g.resv with | some r => r.threads.any (fun t => t.t.accessing va len) | none => false)))

/-- TLB entries of the range and copies of the frames that entries named are dropped, and frames left by every context are freed. -/
def State.invalidate (s : State) (ctx va len : Nat) : State :=
  match s.ctx? ctx with
  | none => s
  | some c =>
    let frames := nubPairs (c.framesIn va len)
    let s := s.updCtx ctx fun c => { c with
      tlb := c.tlb.filter fun t => !meets t.va (2 ^ t.bits) va len
      named := c.named.filter fun x => !meets x.1 x.2.1 va len
      ats := c.ats.filter fun a => !meets a.1 a.2.2 va len }
    let s := s.keepCopies fun k => !frames.any fun f => f.1 ≤ 32 * k.sector && 32 * k.sector < f.1 + f.2
    frames.foldl (fun s f => s.freeFrame f.1 f.2) s

/-! ## Places that move -/

/-- Gives every sequence of control of the device a new state. -/
def State.mapThreads (s : State) (f : Thread → Thread) : State :=
  { s with wgs := s.wgs.map fun g =>
      { g with
        waves := g.waves.map fun w => { w with t := f w.t }
        resv := g.resv.map fun r => { r with threads := r.threads.map fun t => { t with t := f t.t } } } }

/-- A monitor's place and key are replaced. -/
def Park.mapPlace (f : Nat → Nat → Nat × Nat) : Park → Park
  | .mwait o a pa k c d => .mwait o a (f pa k).1 (f pa k).2 c d
  | .cntwait a pa k x => .cntwait a (f pa k).1 (f pa k).2 x
  | .gbar a pa k ph => .gbar a (f pa k).1 (f pa k).2 ph
  | k => k

/-- Accesses in flight and monitors of a thread use another key slot in an area. -/
def Thread.rekeyed (t : Thread) (area : Nat → Bool) (slot : Nat) : Thread :=
  { t with
    park := t.park.map (Park.mapPlace fun pa k => (pa, if area pa then slot else k))
    flights := t.flights.map fun f =>
      { f with accs := f.accs.map fun a => if area (a.pa.getD 0) && a.pa.isSome then { a with key := slot } else a } }

/-- And the line operations of commands. -/
def Loc.rekeyed (area : Nat → Bool) (slot : Nat) : Loc → Loc
  | .mem va (some x) => .mem va (some (if area x.1 then (x.1, slot, x.2.2) else x))
  | l => l

/-! ## Re-keying (R229) -/

/-- The frames of device leaves, in their places, that meet an area: addresses of their entries, entries, frames. -/
def State.leavesOn (s : State) (c : Context) (pa n : Nat) : List (Nat × Nat × Nat × Nat) :=
  ((s.leavesOf c).filter fun l => field l.2.2.2 52 1 == 0 && field l.2.2.2 12 40 * 4096 % 2 ^ leafBits l.2.2.1 l.2.2.2 == 0 &&
    overlaps pa n (field l.2.2.2 12 40 * 4096, 2 ^ leafBits l.2.2.1 l.2.2.2)).map fun l =>
      (l.1, l.2.2.2, field l.2.2.2 12 40 * 4096, 2 ^ leafBits l.2.2.1 l.2.2.2)

/-- What is re-encrypted with a region: the widest page that meets it, or the region alone, since a page has one slot. -/
def State.keyArea (s : State) (region : Nat) : Nat × Nat :=
  (s.ctxs.flatMap fun c => s.leavesOn c (region * 2 ^ 21) (2 ^ 21)).foldl
    (fun m l => if m.2 < l.2.2.2 then (l.2.2.1, l.2.2.2) else m) (region * 2 ^ 21, 2 ^ 21)

/-- Firmware has dealt with some of the regions that COUNTER_EXHAUSTED events told it of. -/
def State.dealt (s : State) (p : Nat → Bool) : State :=
  { s with home := { s.home with exhausted := (s.home.exhausted.map fun rs => rs.filter fun r => !p r).filter fun rs => !rs.isEmpty } }

/-- Firmware re-encrypts a frozen region under a fresh slot, with every page that meets it, reading each line under the slot that its page
named: a line that fails its MAC there is poisoned (R230). Lines that no page maps and that firmware itself wrote, such as page tables, stay
under slot 0 (R235). A tree node's counter starts again where its lines lie there, or where it is exhausted and stands above. Writes from
outside that are held there are made under the fresh slot. Where it cannot re-key, it reports the region (R452). -/
def State.rekey (s : State) (region slot : Nat) : State :=
  if !s.home.frozen.contains region || s.host.fw == .reloading then s
  else
    let key := s.keyOf slot
    if slot = 0 || key = 0 || s.home.lineKey.any (fun e => e.2 == key) then
      (s.dealt (· == region)).event none 0x0A (leBytes 8 0 ++ leBytes 8 (region * 2 ^ 21))
    else
      let (pa, n) := s.keyArea region
      let area (a : Nat) : Bool := pa ≤ a && a < pa + n
      let leaves (c : Context) := s.leavesOn c pa n
      let maps := s.ctxs.flatMap fun c => (leaves c).map fun l => (l.2.2.1, l.2.2.2, field l.2.1 56 8)
      let olds := nubNat (maps.map (·.2.2))
      let slots (l : Nat) : List Nat := (maps.filter fun m => m.1 ≤ 128 * l && 128 * l < m.1 + m.2.1).map (·.2.2)
      let lost (e : Nat × Nat) : Bool := area (128 * e.1) && !(slots e.1).isEmpty && !(slots e.1).any fun x => s.keyOf x == e.2
      let under (l old : Nat) : Nat := if !area (128 * l) || old = 0 || (old = 1 && (slots l).isEmpty) then old else key
      let s : State := s.ctxs.foldl (fun (s : State) c => (leaves c).foldl (fun (s : State) l =>
        s.poke 0 0 (located l.1 (leBytes 8 (l.2.1 % 2 ^ 56 + slot * 2 ^ 56)))) s) s
      let h := s.home
      let stale (key node k : Nat) : Bool :=
        let rs := regionsUnder (key / 16) (key % 16) node
        rs.all (fun r => area (r * 2 ^ 21)) || ((if key % 16 = 0 then 2 ^ 32 else 2 ^ 56) - 1 ≤ k && rs.any fun r => area (r * 2 ^ 21))
      let s : State := { s with
        ctxs := s.ctxs.map fun c =>
          { c with
            keys := if olds.any c.keys.contains then nubNat (slot :: c.keys) else c.keys
            tlb := c.tlb.map fun t => if area t.pa then { t with key := slot } else t }
        queue := s.queue.map fun e => if area (128 * e.line) then { e with key := slot } else e
        cmds := s.cmds.map fun c => { c with ops := c.ops.map fun o => o.map fun x =>
          { x with src := x.src.rekeyed area slot, dst := x.dst.rekeyed area slot } }
        home := { h with
          frozen := h.frozen.filter fun r => !area (r * 2 ^ 21)
          poison := nubNat ((h.lineKey.filter lost).flatMap (fun e => (List.range 4).map (4 * e.1 + ·)) ++ h.poison)
          lineKey := h.lineKey.map fun e => (e.1, under e.1 e.2)
          counts := h.counts.map fun c => { c with bkey := under c.line c.bkey }
          held := h.held.map fun w => if w.regions.any fun r => area (r * 2 ^ 21) then { w with keys := w.keys ++ [(pa, n, slot)] } else w
          wctr := Sparse.keep (fun l => !area (128 * l)) h.wctr
          tree := h.tree.map fun t => (t.1, t.2.filter fun e => !stale t.1 e.1 e.2) } }
      ((s.mapThreads fun t => t.rekeyed area slot).dealt fun r => area (r * 2 ^ 21)).replay ((List.range (n / 2 ^ 21)).map (regionOf pa + ·))

def execRekey (region : Nat) (slot : Byte) (s : State) : Host.Outcome State Fault Refusal :=
  .next { s.rekey region slot.toNat with tick := s.tick + 1 }

/-! ## Host pages (R239) -/

/-- The host's answer to a translation request: a run of host memory kept for later accesses, or a denial, which lets the access
page-fault. -/
def State.atsReply (s : State) (ctx va : Nat) (reply : Option (Nat × Nat)) : State :=
  match s.ctx? ctx with
  | none => s
  | some c =>
    match s.walk c va with
    | .wait =>
      match reply with
      | some (a, len) =>
        let base := va - va % len
        if len = 0 || 2 ^ 30 < len || a % len != 0 then s
        else s.updCtx ctx fun c => { c with ats := (base, a, len) :: c.ats }
      | none => s.updCtx ctx fun c => { c with denied := nubNat ((va / 4096) :: c.denied) }
    | _ => s

def execAtsReply (ctx va : Nat) (reply : Option (Nat × Nat)) (s : State) : Host.Outcome State Fault Refusal :=
  .next { s.atsReply ctx va reply with tick := s.tick + 1 }

/-- Page requests for the denied pages that stopped workgroups wait for: each is sent once the save of the workgroup is over, or cannot
be written (R239, R381). At most 256 are outstanding; a further one waits for one to be answered. -/
def State.sendPageRequests (s : State) (ctx : Nat) : State :=
  match s.ctx? ctx with
  | none => s
  | some c =>
    c.denied.foldl (fun s page =>
      let waits (g : Workgroup) : Bool := g.ctx == ctx && (g.status == .saved || g.saveFailed) &&
        g.why.any fun w => match w with | .fault v => v / 4096 == page | _ => false
      if s.wgs.any waits && sumBy (fun c : Context => c.pri.length) s.ctxs < 256 then
        s.updCtx ctx fun c => { c with pri := nubNat (page :: c.pri), denied := c.denied.filter (· != page) }
      else s) s

/-- The group's response: success lets the workgroups that wait for the page be restored; any other raises PROTECTION at the access that
met the fault. -/
def State.pageResponse (s : State) (ctx va : Nat) (ok : Bool) : State :=
  match s.ctx? ctx with
  | none => s
  | some c =>
    if !c.pri.contains (va / 4096) then s
    else
      let waits (w : SaveWhy) : Bool := match w with | .fault v => v / 4096 == va / 4096 | _ => false
      let s := (s.updCtx ctx fun c => { c with pri := c.pri.filter (· != va / 4096) }).sendPageRequests ctx
      if ok then
        { s with wgs := s.wgs.map fun g => if g.ctx = ctx then { g with why := g.why.filter fun w => !waits w } else g }
      else
        match s.wgs.find? (fun g => g.ctx == ctx && g.why.any waits) with
        | some g =>
          match g.faultAt.find? (fun r => r.faddr / 4096 == va / 4096) with
          | some r => s.haltLine ctx { r with cause := some .protection, time := s.time }
          | none => s.haltLine ctx (s.recordFor (.wave g.id 0) true ⟨.protection, 0, va, none, false, 0⟩)
        | none => s

def execPageRequestGroupResponse (ctx va : Nat) (ok : Bool) (s : State) : Host.Outcome State Fault Refusal :=
  .next { s.pageResponse ctx va ok with tick := s.tick + 1 }

/-- The host takes translations back; the request completes once the accesses that used them are over. -/
def execAtsInvalidationRequest (ctx va len : Nat) (s : State) : Host.Outcome State Fault Refusal :=
  match s.ctx? ctx with
  | some c => if s.canInvalidate c va len then .next { s.invalidate ctx va len with tick := s.tick + 1 } else .next { s with tick := s.tick + 1 }
  | none => .next { s with tick := s.tick + 1 }

/-! ## Moving a page (R241) -/

/-- Sets the liveness bits of a frame. -/
def State.reviveRange (s : State) (pa n : Nat) : State :=
  (List.range ((n + 2 ^ 21 - 1) / 2 ^ 21)).foldl (fun s k => s.revive (pa + k * 2 ^ 21)) s

/-- Puts bytes at new addresses. -/
def State.copyBytes (s : State) (f : Nat → Nat) (bs : List (Nat × Byte)) : State :=
  { s with home := { s.home with mem := bs.foldl (fun m e => Sparse.set 0 m (f e.1) e.2) s.home.mem } }

/-- Gives lines the keys of other lines, as writes of now. -/
def State.copyKeys (s : State) (f : Nat → Nat) (ls : List (Nat × Nat)) : State :=
  { s with home := { s.home with
      lineKey := ls.foldl (fun m e => Sparse.set 0 m (f e.1) e.2) s.home.lineKey
      lastWrite := ls.foldl (fun m e => Sparse.set 0 m (f e.1) (s.time + 1)) s.home.lastWrite
      dirty := nubNat (ls.map (fun e => f e.1) ++ s.home.dirty) } }

/-- Puts poison marks and reader counts beside those of other places. -/
def State.copyMarks (s : State) (poison : List Nat) (counts : List CountLine) : State :=
  { s with home := { s.home with poison := nubNat (poison ++ s.home.poison), counts := counts ++ s.home.counts } }

/-- A copy of a page's plaintext, poison marks, keys and reader counts in a new frame. -/
def State.copyPage (s : State) (from_ dst n : Nat) : State :=
  let s := s.reviveRange dst n
  let h := s.home
  let src (a : Nat) : Bool := from_ ≤ a && a < from_ + n
  let s := (s.zeroRange dst n).copyBytes (fun a => dst + (a - from_)) (h.mem.filter fun e => src e.1)
  let s := s.copyKeys (fun l => dst / 128 + (l - from_ / 128)) (h.lineKey.filter fun e => src (128 * e.1))
  (s.copyMarks ((h.poison.filter fun x => src (32 * x)).map (fun x => x + dst / 32 - from_ / 32))
    ((h.counts.filter fun c => src (128 * c.line)).map (fun c => { c with line := c.line + dst / 128 - from_ / 128 }))).trimSlices

/-- Monitors on the page go to the new home, where they are read again. -/
def State.moveMonitors (s : State) (from_ dst n : Nat) : State :=
  s.mapThreads fun t => { t with park := t.park.map (Park.mapPlace fun pa k =>
    (if from_ ≤ pa && pa < from_ + n then pa + dst - from_ else pa, k)) }

/-- The entries of a page: one, or the 16 of a 64 KiB page as far as they are alike (R232): their addresses. -/
def State.entriesOfPage (s : State) (at_ level e : Nat) : List Nat :=
  if level = 0 && field e 8 1 == 1 then
    ((List.range 16).map fun k => at_ - at_ % 128 + 8 * k).filter fun a => fromBytes (s.home.bytes a 8) == e
  else [at_]

/-- Rewrites entries of page tables. -/
def State.writeEntries (s : State) (entries : List Nat) (x : Nat) : State :=
  entries.foldl (fun s a => s.poke 0 0 (located a (leBytes 8 x))) (s.noteRewrite entries)

/-- The leaves of all contexts that map some part of a frame: context, page, address of the entry, level, entry. -/
def State.sharers (s : State) (base n : Nat) : List (Context × Nat × Nat × Nat × Nat) :=
  s.ctxs.flatMap fun c => ((s.leavesOf c).filter fun l => field l.2.2.2 52 1 == 0 && overlaps base n (field l.2.2.2 12 40 * 4096, 2 ^ leafBits l.2.2.1 l.2.2.2)).map fun l =>
    let v := (wideRange (l.2.1, 0, 0, 0)).1
    (c, v - v % 2 ^ leafBits l.2.2.1 l.2.2.2, l.1, l.2.2.1, l.2.2.2)

/-- Firmware starts a move by setting TRANS, and ends it with the copy and the new PFN, in every entry of the page, in every context that
maps its frame, so that the frame leaves them all; each part completes with its invalidations. -/
def State.pageMove (s : State) (ctx va frame : Nat) (finish : Bool) : State :=
  match s.ctx? ctx with
  | none => s
  | some c =>
    match s.leafOf c va with
    | none => s
    | some (_, level, e) =>
      let n := 2 ^ leafBits level e
      let base := field e 12 40 * 4096
      let ls := s.sharers base n
      let alike (l : Context × Nat × Nat × Nat × Nat) : Bool := field l.2.2.2.2 12 40 * 4096 == base && 2 ^ leafBits l.2.2.2.1 l.2.2.2.2 == n
      let moving (l : Context × Nat × Nat × Nat × Nat) : Bool := field l.2.2.2.2 53 1 == 1
      let write (s : State) (f : Nat → Nat) : State :=
        ls.foldl (fun s l => s.writeEntries (s.entriesOfPage l.2.2.1 l.2.2.2.1 l.2.2.2.2) (f l.2.2.2.2)) s
      let drop (s : State) : State := ls.foldl (fun s l => s.invalidate l.1.id l.2.1 n) s
      if s.host.fw == .reloading || field e 52 1 == 1 || !inMemory base || !ls.all (fun l => alike l && s.canInvalidate l.1 l.2.1 n) then s
      else if !finish then drop (write s fun x => if field x 53 1 == 1 then x else x + 2 ^ 53)
      else if !ls.all moving || frame % n != 0 || !pageIn frame n || !inMemory frame || s.inUse frame n || s.frameBusy base n then s
      else
        let s := write (s.copyPage base frame n) fun x => x - 2 ^ 53 - base + frame
        ((drop s).moveMonitors base frame n).freeFrame base n

def execPageMove (ctx va frame : Nat) (finish : Bool) (s : State) : Host.Outcome State Fault Refusal :=
  .next { s.pageMove ctx va frame finish with tick := s.tick + 1 }

/-- A write held at translation walks again: the party's store is tried at its next issue. -/
def execRewalk (p : Party) (s : State) : Host.Outcome State Fault Refusal :=
  match s.siteOf p with
  | some σ => if σ.t.stallFrom.isSome && s.cur.isNone && σ.runnable then .next { s with cur := some p, tick := s.tick + 1 }
              else .next { s with tick := s.tick + 1 }
  | none => .next { s with tick := s.tick + 1 }

end Sys2Proof.Machine
end

