-- ==== Sys2Proof/Machine/Sync.lean ====
section
/-! DEFINITION. Ordering and waiting: ORD and FENCE (spec/08_synchronisation.md R198, spec/11_consistency_model.md R251 to R254),
WAITC (R205), barriers (R199 to R204), MWAIT (R206, R207), SLEEP and YIELD (R208, R209), CNTADD and CNTWAIT
(spec/12_copy_engine.md R275, R276). -/
namespace Sys2Proof.Machine

/-! ## ORD and FENCE -/

def execOrd (order : Order) (scope : Scope) (s : State) : Host.Outcome State Fault Refusal :=
  issueOp (.ord order scope) s fun _ s => .done s none none

/-- The release half is waited for at issue; the acquire half bars later accesses (R252). -/
def execFence (order : Order) (scope : Scope) (s : State) : Host.Outcome State Fault Refusal :=
  issueOp (.fence order scope) s fun σ s =>
    .done (if order == .acq || order == .ar then s.updThread σ.p fun t => t.acquire σ.t.nextId else s) none none

/-- A party whose release wait is over issues the instruction that released (R252, R253). -/
def State.releaseWaitEnd (s : State) (p : Party) : State :=
  match s.siteOf p with
  | none => s
  | some σ =>
    match σ.t.park with
    | some (.release _ _ scope) =>
      if σ.lives && s.cur.isNone && s.released σ scope then
        { s.updThread p fun t => { t with park := none } with cur := some p }
      else s
    | _ => s

def execReleaseWaitEnd (p : Party) (s : State) : Host.Outcome State Fault Refusal :=
  .next { s.releaseWaitEnd p with tick := s.tick + 1 }

/-! ## WAITC (R205, R138) -/

/-- Detached instructions of a path that WAITC has waited for are assured: their windows close. -/
def Thread.assure (t : Thread) (k : Path) : Thread :=
  { t with flights := t.flights.map fun f =>
      if f.i.path == some k && !f.counted && f.left.isNone then { f with left := some 0 } else f }

def execWaitc (path : Path) (a : SReg) (s : State) : Host.Outcome State Fault Refusal :=
  issueOp (.waitc path a) s fun σ s =>
    if (σ.t.rs s.tick a).toNat < σ.t.counter path then .hold s
    else match σ.t.deferredOn path with
      | some d => .raise (s.updThread σ.p fun t => t.dropDeferred d) d.cause d.faddr none
      | none => .done (s.updThread σ.p fun t => t.assure path) none none

/-! ## Barriers within a workgroup (R199 to R202) -/

/-- PHASE, EXPECTED and ARRIVED of a barrier word, and its reserved bits. -/
def barPhase (x : Nat) : Nat := field x 32 32
def barExpected (x nwaves : Nat) : Nat := if field x 16 6 = 0 then nwaves else field x 16 6
def barArrived (x : Nat) : Nat := field x 0 6
def barReserved (x : Nat) : Nat := field x 22 10 + field x 6 10

/-- The word after an arrival. -/
def barArrive (x nwaves : Nat) : Nat :=
  if barArrived x + 1 = barExpected x nwaves then
    (barPhase x + 1) % 2 ^ 32 * 2 ^ 32 + (x % 2 ^ 32 - barArrived x)
  else x + 1

/-- The checks of R201, in order; `arrives` for BARA and BARAW. -/
def Site.barCheck (σ : Site) (off : Nat) (arrives : Bool) : Option Cause :=
  if off % 8 != 0 then some .misaligned
  else if σ.g.scratchSize < off + 8 then some .scratchBound
  else
    let x := σ.g.scratchRead off 8
    if σ.g.scratchMarked off 8 then some .eccScratch
    else if arrives && (barReserved x != 0 || 32 < field x 16 6 || barExpected x σ.n.waves ≤ barArrived x) then some .illegalOperand
    else none

/-- Waves parked at a barrier whose phase has moved on continue, and acquire. -/
def Workgroup.wakeBarrier (g : Workgroup) : Workgroup :=
  { g with waves := g.waves.map fun w => match w.t.park with
      | some (.barrier off ph) =>
        if barPhase (g.scratchRead off 8) != ph then { w with t := { w.t.acquire w.t.nextId with park := none } } else w
      | _ => w }

/-- The counters of GLD, GST and SPD are 0 (R200, R203, R296). -/
def Thread.drained (t : Thread) : Bool := t.counter .gld == 0 && t.counter .gst == 0 && t.counter .spd == 0

/-- The wave's arrival at a barrier word: its phase, and the state with the word updated. -/
def State.barrierArrive (s : State) (σ : Site) (off : Nat) : State × Nat :=
  let x := σ.g.scratchRead off 8
  (s.updWg σ.g.id fun g => g.scratchWrite off 8 (barArrive x σ.n.waves), barPhase x)

def execBara (a : SReg) (s : State) : Host.Outcome State Fault Refusal :=
  issueOp (.bara a) s fun σ s =>
    let off := (σ.t.rs s.tick a).toNat % 2 ^ 32
    if !σ.t.drained then .hold s
    else match σ.barCheck off true, σ.p with
      | some c, _ => .raise s c (if c = .illegalOperand then 0 else off) none
      | none, .wave g k =>
        let (s, ph) := s.barrierArrive σ off
        .done ((s.updWave g k fun w => { w with token := some (off, ph) }).updWg g Workgroup.wakeBarrier) none none
      | none, _ => .hold s

/-- Waits until the phase is past `ph`: continues now, or parks. -/
def State.barrierWait (s : State) (σ : Site) (off ph : Nat) : State :=
  match s.wg? σ.g.id with
  | none => s
  | some g =>
    if barPhase (g.scratchRead off 8) != ph then s.updThread σ.p fun t => t.acquire σ.t.nextId
    else s.parkAt σ.p (.barrier off ph)

def execBarw (a : SReg) (s : State) : Host.Outcome State Fault Refusal :=
  issueOp (.barw a) s fun σ s =>
    let off := (σ.t.rs s.tick a).toNat % 2 ^ 32
    match σ.barCheck off false, σ.p, σ.w with
    | some c, _, _ => .raise s c off none
    | none, .wave g k, some w =>
      match w.token with
      | some (o, ph) =>
        if o = off then .done ((s.updWave g k fun w => { w with token := none }).barrierWait σ off ph) none none
        else .done (s.barrierWait σ off (barPhase (σ.g.scratchRead off 8))) none none
      | none => .done (s.barrierWait σ off (barPhase (σ.g.scratchRead off 8))) none none
    | none, _, _ => .hold s

def execBaraw (a : SReg) (s : State) : Host.Outcome State Fault Refusal :=
  issueOp (.baraw a) s fun σ s =>
    let off := (σ.t.rs s.tick a).toNat % 2 ^ 32
    if !σ.t.drained then .hold s
    else match σ.barCheck off true, σ.p with
      | some c, _ => .raise s c (if c = .illegalOperand then 0 else off) none
      | none, .wave g k =>
        let (s, ph) := s.barrierArrive σ off
        let s := (s.updWave g k fun w => { w with token := none }).updWg g Workgroup.wakeBarrier
        .done (s.barrierWait σ off ph) none none
      | none, _ => .hold s

/-! ## GBAR (R203, R204) and CNTADD (R275) -/

/-- One atomic of a uniform form enters the queue for an 8-byte place. -/
def queueAtomic (σ : Site) (s : State) (kind : QKind) (k : Checked) : Except Body (State × Access) :=
  match k.bad with
  | some (_, c, fa) => .error (.raise s c fa none)
  | none =>
    match k.absents, k.oks with
    | a :: _, _ => .error (.raise s .pageFault a.va none)
    | [], [a] =>
      let pa := a.pa.getD 0
      if s.queueRoom σ 1 then
        .ok ((s.sampleAll σ 2 [a]).enqueue σ.c.id
          [{ σ.entry kind pa a.key a.lease a.host with bytes := [(pa, 0)], accs := [a] }], a)
      else .error (.hold (s.stall σ))
    | [], _ => .error (.hold (if k.moving then s.stall σ else s))

/-- The arrival enters the queue, and the wave parks until the phase it found has passed. -/
def execGbar (a : SReg) (s : State) : Host.Outcome State Fault Refusal :=
  issueOp (.gbar a) s fun σ s =>
    if σ.n.cores = 0 then .raise s .coresidency 0 none
    else
      let k := s.checkLanes σ .g 8 .both [0] (fun _ => (σ.t.rs s.tick a).toNat) (fun _ => (0, 0))
      if k.bad.isNone && k.absents.isEmpty && !σ.t.drained then .hold s
      else match queueAtomic σ s (.arrive (σ.n.cores * σ.n.waves)) k with
        | .error b => b
        | .ok (s, acc) =>
          .done (s.parkAt σ.p (.gbar acc.va (acc.pa.getD 0) acc.key none)) none (some { σ.flight (.gbar a) false [] with left := some 0, owed := 1 })

/-- The add takes a place in the queue after a release at .DEV; it counts on no path. -/
def execCntadd (o : SS) (s : State) : Host.Outcome State Fault Refusal :=
  issueOp (.cntadd o) s fun σ s =>
    let k := s.checkLanes σ .g 8 .both [0] (fun _ => (σ.t.rs s.tick o.a).toNat) (fun _ => (0, 0))
    match queueAtomic σ s (.add (σ.t.rs s.tick o.b)) k with
    | .error b => b
    | .ok (s, _) => .done s none (some { σ.flight (.cntadd o) false [] with left := some 0, owed := 1 })

/-! ## Monitors (R206, R207, R276) -/

/-- The condition of MWAIT. -/
def condHolds (c : MCond) (x y : Nat) : Bool :=
  match c with
  | .ne => x != y
  | .eq => x == y
  | .geu => y ≤ x
  | .ltu => x < y

/-- A read that must wait: an acquire bars it, or earlier accesses of the thread to its line are not performed. -/
def State.readBarred (s : State) (σ : Site) (pa : Nat) : Bool :=
  σ.t.acqBars σ.t.nextId || σ.t.earlierLoadOn σ.t.nextId [sectorOf pa] ||
    s.queue.any (fun e => e.line == lineOf pa && e.times.isNone && (match e.owner with | .flight q _ => q == σ.p | _ => false))

/-- A value read at a home for a monitor; none where a peer's answer is outstanding or its station can take no request, or where the
acknowledgement of a write to the line comes to the cluster first (R256, R414): a peer is asked for the sector. What the caches hold of the
sector goes, so that no later read of the party is older (R244). -/
def State.homeValue (s : State) (σ : Site) (va pa key n : Nat) : State × Option Nat :=
  if inHost pa then (s, some (fromBytes (freeBytes s.tick n)))
  else if inPeer pa then
    let base := pa - pa % 32
    if s.peers.reqs.any (fun r => r.owner == .flight σ.p σ.t.nextId && r.addr == base) || !s.stationFree base then (s, none)
    else (s.sendRemote (.flight σ.p σ.t.nextId) σ.c.id base 32 false (va64 σ.t.pc) va, none)
  else if s.ackDue σ.cluster (lineOf pa) then (s, none)
  else ((s.countElided pa).dropOwn σ.cluster σ.core [sectorOf pa], some (fromBytes (s.peek key pa n).bytes))

/-- Requests of a monitor that are still outstanding count for nothing more. -/
def State.dropMonitor (s : State) (p : Party) : State :=
  match (s.wg? p.wg).bind (·.thread? p) with
  | none => s
  | some t => { s with peers := { s.peers with reqs := s.peers.reqs.filter fun r => r.owner != .flight p t.nextId || r.write } }

/-- Ends an MWAIT with a status (R207). -/
def State.mwaitEnd (s : State) (p : Party) (o : MwaitF) (status : Nat) : State :=
  (s.dropMonitor p).updThread p fun t =>
    let t := { t with park := none }.putS s.tick o.d (BitVec.ofNat 64 status)
    if status = 0 then t.acquire t.nextId else t

def execMwait (o : MwaitF) (s : State) : Host.Outcome State Fault Refusal :=
  issueOp (.mwait o) s fun σ s =>
    let n := sizeBytes o.size
    let a : Int := match o.sp with
      | .g => (σ.t.rs s.tick o.a).toNat
      | .s => (σ.t.rs s.tick o.a).toNat % 2 ^ 32
    let cmp := (σ.t.rs s.tick o.b).toNat % 2 ^ (8 * n)
    let deadline := if o.tmo = 0 then none else some (s.time + 64 * o.tmo.toNat)
    match s.check σ o.sp n .read 0 a with
    | .bad _ c fa => .raise s c fa none
    | .absent x => .raise s .pageFault x.va none
    | .wait _ => .hold s
    | .ok x =>
      match o.sp with
      | .s =>
        if σ.t.acqBars σ.t.nextId || σ.t.flights.any (fun f => f.i.isScratch && !f.done) then .hold s
        else if σ.g.scratchMarked x.va n then .raise s .eccScratch x.va none
        else if condHolds o.cond (σ.g.scratchRead x.va n) cmp then .done (s.mwaitEnd σ.p o 0) none none
        else .done (s.parkAt σ.p (.mwait o x.va x.va 0 (BitVec.ofNat 64 cmp) deadline)) none none
      | .g =>
        let pa := x.pa.getD 0
        if s.readBarred σ pa then .hold s
        else
          let (s, v) := (s.sampleAll σ 0 [x]).homeValue σ x.va pa x.key n
          match v with
          | some v =>
            if condHolds o.cond v cmp then .done (s.mwaitEnd σ.p o 0) none none
            else .done (s.parkAt σ.p (.mwait o x.va pa x.key (BitVec.ofNat 64 cmp) deadline)) none none
          | none => .done (s.parkAt σ.p (.mwait o x.va pa x.key (BitVec.ofNat 64 cmp) deadline)) none none

/-- CNTWAIT reads the counter at its home; it continues, acquiring, once the counter has reached the target. -/
def execCntwait (o : SSL) (s : State) : Host.Outcome State Fault Refusal :=
  issueOp (.cntwait o) s fun σ s =>
    match s.check σ .g 8 .read 0 (σ.t.rs s.tick o.a).toNat with
    | .bad _ c fa => .raise s c fa none
    | .absent x => .raise s .pageFault x.va none
    | .wait _ => .hold s
    | .ok x =>
      let pa := x.pa.getD 0
      if s.readBarred σ pa then .hold s
      else
        let target := σ.t.rs s.tick o.b
        let (s, v) := (s.sampleAll σ 0 [x]).homeValue σ x.va pa x.key 8
        match v with
        | some v =>
          if target.toNat ≤ v then .done (s.updThread σ.p fun t => t.acquire σ.t.nextId) none none
          else .done (s.parkAt σ.p (.cntwait x.va pa x.key target)) none none
        | none => .done (s.parkAt σ.p (.cntwait x.va pa x.key target)) none none

/-- The value that a monitor reads again, and what it does with it. -/
def State.monitorValue (s : State) (p : Party) (t : Thread) (v : Nat) : State :=
  match t.park with
  | some (.mwait o _ _ _ cmp _) => if condHolds o.cond (v % 2 ^ (8 * sizeBytes o.size)) cmp.toNat then s.mwaitEnd p o 0 else s
  | some (.cntwait _ _ _ target) =>
    if target.toNat ≤ v then s.updThread p fun t => { t.acquire t.nextId with park := none } else s
  | some (.gbar _ _ _ (some ph)) =>
    if barPhase v != ph then s.updThread p fun t => { t.acquire t.nextId with park := none } else s
  | _ => s

/-- A monitor reads its place again, at the home or the bank. -/
def State.reread (s : State) (p : Party) : State :=
  match s.siteOf p with
  | none => s
  | some σ =>
    if !σ.lives then s
    else match σ.t.park with
      | some (.mwait o addr pa key _ _) =>
        if o.sp == .s then s.monitorValue p σ.t (σ.g.scratchRead addr (sizeBytes o.size))
        else
          let (s, v) := s.homeValue σ addr pa key (sizeBytes o.size)
          match v with | some v => s.monitorValue p σ.t v | none => s
      | some (.cntwait addr pa key _) | some (.gbar addr pa key (some _)) =>
        let (s, v) := s.homeValue σ addr pa key 8
        match v with | some v => s.monitorValue p σ.t v | none => s
      | _ => s

def execMonitorReread (p : Party) (s : State) : Host.Outcome State Fault Refusal :=
  .next { s.reread p with tick := s.tick + 1 }

/-- The read that a monitor makes at its home can be made now (R256). -/
def State.readable (s : State) (σ : Site) (o : MwaitF) (pa : Nat) : Bool :=
  o.sp == .s || inPeer pa || inHost pa || !s.ackDue σ.cluster (lineOf pa)

/-- The timeout has lapsed; the last read decides between MET and TIMEOUT. -/
def State.mwaitTimeout (s : State) (p : Party) : State :=
  match s.siteOf p with
  | none => s
  | some σ =>
    match σ.t.park with
    | some (.mwait o _ pa _ _ (some d)) =>
      if σ.lives && d ≤ s.time && s.readable σ o pa then
        let s' := s.reread p
        match ((s'.siteOf p).bind fun σ => σ.t.park) with
        | some (.mwait _ _ _ _ _ _) => s'.mwaitEnd p o 1
        | _ => s'
      else s
    | _ => s

def execMwaitTimeout (p : Party) (s : State) : Host.Outcome State Fault Refusal :=
  .next { s.mwaitTimeout p with tick := s.tick + 1 }

/-! ## SLEEP and YIELD -/

def execSleep (n : BitVec 12) (s : State) : Host.Outcome State Fault Refusal :=
  issueOp (.sleep n) s fun σ s => .done (s.parkAt σ.p (.sleep (s.time + 64 * n.toNat))) none none

def State.sleepExpiry (s : State) (p : Party) : State :=
  match s.siteOf p with
  | none => s
  | some σ =>
    match σ.t.park with
    | some (.sleep d) =>
      if d ≤ s.time && σ.lives then s.updThread p fun t => { t with park := none } else s
    | _ => s

def execSleepExpiry (p : Party) (s : State) : Host.Outcome State Fault Refusal :=
  .next { s.sleepExpiry p with tick := s.tick + 1 }

/-- YIELD gives the wave the youngest stamp (R209, R374). -/
def execYield (s : State) : Host.Outcome State Fault Refusal :=
  issueOp .yield s fun σ s =>
    match σ.p with
    | .wave g k =>
      .done { (s.updWave g k fun w => { w with stamp := s.nextStamp }) with nextStamp := s.nextStamp + 1 } none none
    | _ => .hold s

end Sys2Proof.Machine
end

