-- ==== Sys2Proof/Machine/Engine.lean ====
section
/-! DEFINITION. What the engines of a cluster share: reading and writing global memory through the tile translator
(spec/10_address_translation.md R236), tensor records (R238), window words (spec/09_memory_levels.md R216, R217), and the causes
that an engine meets (spec/12_copy_engine.md R284). -/
namespace Sys2Proof.Machine

/-! ## Causes of engines -/

/-- An engine meets a cause for a party: as `take`, with the unit and the address of its command in the record. -/
def State.takeEngine (s : State) (p : Party) (unit : StopUnit) (c : Cause) (iaddr faddr : Nat) : State :=
  match s.wg? p.wg with
  | none => s
  | some g =>
    let r := s.recordFor p true ⟨c, iaddr, faddr, none, false, 0⟩
    let r := { r with unit := unit, core := 0xFF, slot := 0, detail := s.unitDetail unit r.ctx r.cluster }
    match c.class_ with
    | .replay => s.stopForFault g (.fault faddr) [r]
    | .kill => s.kill g r
    | _ => (s.haltLine g.ctx r).endSave g.id

/-! ## Reading global memory -/

/-- How an engine's read ends. -/
inductive EngRead where
  | got (bytes : List Byte) (bad : Bool)
  | cause (c : Cause) (faddr : Nat)
  /-- translation or a message waits, or a peer's answer is outstanding -/
  | later
  /-- a write to a page that is being moved (R241) -/
  | moving
  deriving DecidableEq, Repr

/-- A translated place: physical address, key slot, lease class, host page. -/
abbrev Place := Nat × Nat × Nat × Bool

/-- The sampler's type of an engine's reads (R240): operands of the matrix engine, or reads of a copy. -/
def Owner.sampleKind : Owner → Nat
  | .flight (.mseq _ _) _ | .tile _ _ => 6
  | _ => 4

/-- A sector can be read now, or why not; a peer is asked for one of its own. -/
def State.engReady (s : State) (who : Owner) (ctx cluster iaddr va : Nat) (x : Place) : State × Option EngRead :=
  let base := x.1 - x.1 % 32
  if x.2.2.2 || inHost x.1 then (s, none)
  else if inPeer x.1 then
    if (s.peerCopy cluster none (sectorOf x.1)).isSome then (s, none)
    else match s.peers.returned.find? (fun e => e.1 == who && e.2.1 == base) with
      | some (_, _, [], late) => (s, some (.cause (if late then .remoteTimeout else .remoteFault) 0))
      | some _ => (s, none)
      | none =>
        if !s.stationFree x.1 || s.peers.reqs.any (fun r => r.owner == who && !r.write && r.addr == base) then (s, some .later)
        else (s.sendRemote who ctx base 32 false iaddr va, some .later)
  else (s, if s.fillWaits cluster none (sectorOf x.1) then some .later else none)

/-- One sector that can be read, through the cluster cache. -/
def State.engSector (s : State) (who : Owner) (cluster : Nat) (x : Place) : State × Got :=
  let base := x.1 - x.1 % 32
  if x.2.2.2 || inHost x.1 then (s, ⟨freeBytes (s.tick + base) 32, false, false⟩)
  else if inPeer x.1 then
    match s.peerCopy cluster none (sectorOf x.1) with
    | some c => (s, ⟨c.data, false, false⟩)
    | none => match s.peers.returned.find? (fun e => e.1 == who && e.2.1 == base) with
      | some (_, _, bs, bad) => (s, ⟨bs, bad, true⟩)
      | none => (s, ⟨freeBytes s.tick 32, false, false⟩)
  else s.readSector cluster none x.2.1 x.2.2.1 (sectorOf x.1)

/-! ## Reading sectors once -/

/-- The sectors of a run of bytes. -/
def sectorsOf (a n : Nat) : List Nat := if n = 0 then [] else (List.range ((a + n - 1) / 32 - a / 32 + 1)).map (a / 32 + ·)
/-- The sector of a virtual address, which wraps at 2^64 (R26). -/
def vaSector (va : Nat) : Nat := va % 2 ^ 64 / 32

/-- A sector as an engine found it: its number in the virtual space, bytes, mark. -/
abbrev SectorBytes := Nat × List Byte × Bool

/-- Translates sectors, each with the translation made at issue where there is one; a place of the tile translator is kept in its TLB. -/
def State.placeSectors (s : State) (ctx : Context) : List (Nat × Option Place) → State × Except EngRead (List (Nat × Place))
  | [] => (s, .ok [])
  | (sec, some t) :: rest =>
    match s.placeSectors ctx rest with
    | (s, .ok xs) => (s, .ok ((sec, t) :: xs))
    | x => x
  | (sec, none) :: rest =>
    let va := 32 * sec % 2 ^ 64
    match s.translate ctx va .read with
    | .cause k => (s, .error (.cause k va))
    | .wait _ => (s, .error .later)
    | .ok pa key lease host =>
      match (s.keepTlb ctx.id va).placeSectors ctx rest with
      | (s, .ok xs) => (s, .ok ((sec, (pa, key, lease, host)) :: xs))
      | x => x

/-- Every sector can be read now; all that peers hold are asked for at once. -/
def State.readyAll (s : State) (who : Owner) (ctx cluster iaddr : Nat) : List (Nat × Place) → State × Option EngRead
  | [] => (s, none)
  | (sec, x) :: rest =>
    let (s, r) := s.engReady who ctx cluster iaddr (32 * sec % 2 ^ 64) x
    let (s, r') := s.readyAll who ctx cluster iaddr rest
    (s, match r, r' with
      | some (.cause k a), _ => some (.cause k a)
      | _, some (.cause k a) => some (.cause k a)
      | some e, _ => some e
      | none, e => e)

/-- Reads sectors that can be read: what they hold, how many are charged, and the lines read at their homes. -/
def State.readAll (s : State) (who : Owner) (cluster : Nat) : List (Nat × Place) → State × List SectorBytes × Nat × List Nat
  | [] => (s, [], 0, [])
  | (sec, x) :: rest =>
    let (s, g) := s.engSector who cluster x
    let (s, xs, n, ls) := s.readAll who cluster rest
    (s, (sec, g.bytes, g.bad) :: xs, if g.atHome then n + 1 else n, if g.atHome && !inPeer x.1 then lineOf x.1 :: ls else ls)

/-- Samples the accesses that the tile translator has translated (R240). -/
def State.sampleSectors (s : State) (ctx kind : Nat) (secs : List (Nat × Option Place)) (places : List (Nat × Place)) : State :=
  (secs.filter fun e => e.2.isNone).foldl (fun s e => s.sample ctx (32 * e.1 % 2 ^ 64) 0xFF kind ((places.lookup e.1).map (·.1) |>.getD 0)) s

/-- Sectors that peers have returned to an engine are dropped (R419). -/
def State.dropReturned (s : State) (p : Owner → Nat → Bool) : State :=
  { s with peers := { s.peers with returned := s.peers.returned.filter fun e => !p e.1 e.2.1 } }

/-- An engine's work is over, and what peers returned to it is dropped. -/
def State.endReads (s : State) (who : Owner) : State := s.dropReturned fun o _ => o == who

/-- Reads sectors whose places are known, all of them at once: charged, sampled, and reader counts lowered (R221, R240, R261). -/
def State.readPlaces (s : State) (who : Owner) (ctx cluster : Nat) (secs : List (Nat × Option Place)) (places : List (Nat × Place)) :
    State × List SectorBytes :=
  let (s, xs, n, lines) := (s.sampleSectors ctx who.sampleKind secs places).readAll who cluster places
  let s := (s.lowerCounts lines).updCtx ctx fun c => c.chargeRead (32 * n)
  (s.dropReturned fun o base => o == who && places.any fun p => p.2.1 - p.2.1 % 32 == base, xs)

/-- A run's bytes from the sectors read, each with its sector's mark. -/
def markedRun (xs : List SectorBytes) (va n : Nat) : List (Byte × Bool) :=
  (List.range n).map fun k => match xs.find? (fun e => e.1 == vaSector (va + k)) with
    | some e => (e.2.1.getD ((va + k) % 32) 0, e.2.2)
    | none => (0, false)

/-- A run's bytes from the sectors read, and whether one of them is poisoned. -/
def fromSectors (xs : List SectorBytes) (va n : Nat) : List Byte × Bool :=
  ((List.range n).map fun k => match xs.find? (fun e => e.1 == vaSector (va + k)) with
      | some e => e.2.1.getD ((va + k) % 32) 0
      | none => 0,
   (sectorsOf va n).any fun s => match xs.find? (fun e => e.1 == s % 2 ^ 59) with | some e => e.2.2 | none => false)

/-- Reads sectors of a context, or answers why they cannot be read yet; nothing is read until all can be. -/
def State.gatherSectors (s : State) (who : Owner) (ctx cluster iaddr : Nat) (secs : List (Nat × Option Place)) :
    State × Except EngRead (List SectorBytes) :=
  match s.ctx? ctx with
  | none => (s, .error .later)
  | some c =>
    match s.placeSectors c secs with
    | (s, .error r) => (s, .error r)
    | (s, .ok places) =>
      match s.readyAll who ctx cluster iaddr places with
      | (s, some r) => (s, .error r)
      | (s, none) => let (s, xs) := s.readPlaces who ctx cluster secs places; (s, .ok xs)

/-- Reads the sectors of some runs of bytes of a context's virtual space, each once (R221, R236); a run wraps at 2^64 (R26). -/
def State.gather (s : State) (who : Owner) (ctx cluster iaddr : Nat) (runs : List (Nat × Nat)) : State × Except EngRead (List SectorBytes) :=
  s.gatherSectors who ctx cluster iaddr ((nubNat (runs.flatMap fun r => (sectorsOf r.1 r.2).map (· % 2 ^ 59))).map fun x => (x, none))

/-- Reads n bytes of a context's virtual space. -/
def State.engRead (s : State) (who : Owner) (ctx cluster va n iaddr : Nat) : State × EngRead :=
  match s.gather who ctx cluster iaddr [(va, n)] with
  | (s, .ok xs) => (s, .got (fromSectors xs va n).1 (fromSectors xs va n).2)
  | (s, .error r) => (s, r)

/-! ## Writing global memory -/

/-- Entries for bytes at physical addresses, one for each sector, owned by an engine (R224); `va` is the virtual address of the place. -/
def engEntries (owner : Owner) (ctx cluster rc va : Nat) (x : Place) (bs : List (Nat × Byte)) (bad : Bool) : List QEntry :=
  (nubNat (bs.map fun b => sectorOf b.1)).map fun sec =>
    { n := 0, vaddr := (va + (max (32 * sec) x.1 - x.1)) % 2 ^ 64, owner := owner, ctx := ctx, cluster := cluster, core := none, kind := .store rc, line := sec / 4, key := x.2.1,
      lease := x.2.2.1, host := x.2.2.2, bytes := bs.filter fun b => sectorOf b.1 == sec, accs := [], times := none, held := false,
      bad := bad }

/-! ## Tensor records (R238) -/

/-- Reads a record's 128 bytes as a tensor, or the cause of the first check that fails. -/
def tensorOf (bs : List Byte) : Except Cause Tensor :=
  let x := fromBytes bs
  let form := field x 64 8
  let e := 2 ^ field form 4 2
  let rank := field form 0 3 + 1
  let dim (k lo n : Nat) : Nat := field x (128 + 128 * k + lo) n
  let ks := List.range 5
  let base := field x 0 64
  if base % e != 0 || ks.any (fun k => dim k 64 40 % e != 0) then .error .misaligned
  else if field x 72 56 != 0 || field form 3 1 != 0 || 1 < field form 6 2 || 5 < rank || field x 768 256 != 0 ||
      ks.any (fun k => dim k 112 16 != 0 || dim k 0 32 = 0) || dim 0 64 40 != e ||
      ks.any (fun k => rank ≤ k && (dim k 0 32 != 1 || dim k 32 32 != 0 || dim k 64 40 != 0 || dim k 104 8 != 0)) then
    .error .illegalOperand
  else .ok { base := base, oob := field form 6 2, elt := e, rank := rank, ext := ks.map fun k => dim k 0 32,
             org := ks.map fun k => (BitVec.ofNat 32 (dim k 32 32)).toInt, step := ks.map fun k => dim k 64 40,
             tile := ks.map fun k => dim k 104 8 + 1 }

/-- A record at an address, read through the tile translator: it is aligned, and its fields are in their limits. The bytes of a
poisoned record are free. -/
def State.readTensor (s : State) (who : Owner) (ctx cluster va iaddr : Nat) : State × (Except EngRead Tensor) :=
  if va % 128 != 0 then (s, .error (.cause .misaligned va))
  else match s.engRead who ctx cluster va 128 iaddr with
    | (s, .got bs _) =>
      match tensorOf bs with
      | .ok t => (s, .ok t)
      | .error c => (s, .error (.cause c 0))
    | (s, r) => (s, .error r)

/-- The in-tile coordinates of element number m, the first dimension fastest. -/
def coords : (tile : List Nat) → (m : Nat) → List Nat
  | [], _ => []
  | t :: ts, m => m % t :: coords ts (m / t)

/-- The number of elements of a tile. -/
def Tensor.count (t : Tensor) : Nat := t.tile.foldl (· * ·) 1
/-- A tile coordinate's five parts. -/
def tileCoord (c : Nat) : List Nat := (List.range 5).map fun k => field c (12 * k) 12

/-- The index of an in-tile element. -/
def Tensor.index (t : Tensor) (c : Nat) (j : List Nat) : List Int :=
  (List.range 5).map fun k => t.org.getD k 0 + (tileCoord c).getD k 0 * t.tile.getD k 1 + j.getD k 0
def Tensor.inside (t : Tensor) (i : List Int) : Bool :=
  (List.range 5).all fun k => 0 ≤ i.getD k 0 && i.getD k 0 < t.ext.getD k 1
def Tensor.at_ (t : Tensor) (i : List Int) : Nat :=
  (((t.base : Int) + (List.range 5).foldl (fun a k => a + i.getD k 0 * t.step.getD k 0) 0) % (2 ^ 64 : Nat)).toNat
/-- Where an element is read: nowhere, so that it reads as zero, or at an address (R238). -/
def Tensor.readAt (t : Tensor) (c : Nat) (j : List Nat) : Option Nat :=
  let i := t.index c j
  if t.inside i then some (t.at_ i)
  else if t.oob = 0 then none
  else some (t.at_ ((List.range 5).map fun k => max 0 (min (i.getD k 0) (t.ext.getD k 1 - 1))))

/-- The tile translator walks ahead along the record's tile order: its TLB then holds the translations of the next tile, which an access
may use or not; nothing is raised (R236). -/
def State.walkAhead (s : State) (ctx : Nat) (t : Tensor) (coord : Nat) : State :=
  let t0 := t.tile.getD 0 1
  let ends (r : Nat) : List (Option Nat) := [0, t0 - 1].map fun j => t.readAt (coord + 1) (j :: coords t.tile.tail r)
  (nubNat (((List.range (t.count / t0)).flatMap ends).filterMap fun a => a.map (· / 4096))).foldl (fun s page => s.keepTlb ctx (4096 * page)) s

/-! ## Window words (R216, R217) -/

/-- What a window address names. -/
inductive Win where
  | reg (core slot r lane byte : Nat)
  | pad (core off : Nat)
  | tile (cluster x byte : Nat)
  | acc (cluster a byte : Nat)
  | closed
  deriving DecidableEq, Repr

def winOf (a : Nat) : Win :=
  let cl := field a 32 5
  let hi := field a 28 4
  let k := field a 24 4
  if a / 2 ^ 37 != 0x8000000000000 / 2 ^ 37 then .closed
  else if hi ≤ 5 then
    if k = 0 then .reg (6 * cl + hi) (field a 17 7) (field a 10 7) (field a 2 8) (field a 0 2)
    else if k = 1 && field a 20 4 = 0 then .pad (6 * cl + hi) (field a 0 20)
    else .closed
  else if hi = 8 then
    if k = 0 && field a 20 4 = 0 then .tile cl (field a 15 5) (field a 0 15)
    else if k = 1 && field a 20 4 = 0 then .acc cl (field a 16 4) (field a 0 16)
    else .closed
  else .closed

/-- The offset in a workgroup's allocation of a core-local scratchpad offset; none where it holds no such byte, and for one that is saved,
whose windows are closed (R217). -/
def Workgroup.padOf (g : Workgroup) (core off : Nat) : Option Nat :=
  if !g.onCore then none
  else match (List.range g.cores.length).find? (fun k => g.cores.getD k 0 == core) with
  | none => none
  | some k =>
    let o := if g.cores.length = 1 then off - g.scratchBase else k * 2 ^ 20 + off
    if (g.cores.length = 1 && off < g.scratchBase) || g.scratchSize ≤ o then none else some o

/-- Tile registers and accumulators by physical number: the reservation on a cluster's engine that owns the quadrant. The windows of a
quadrant that nobody has reserved are closed (log 139). -/
def State.ownerOfQuad (s : State) (cluster q : Nat) : Option (Workgroup × Nat) :=
  s.wgs.findSome? fun g =>
    if g.cluster != cluster || !g.onCore then none
    else g.resv.bind fun r => (List.range r.quads.length).findSome? fun k => if r.quads.getD k 99 = q then some (g, k) else none

/-- The workgroup holds a quadrant of a cluster's engine: one that is saved holds none (R217, R315). -/
def Workgroup.engaged (g : Workgroup) (cluster : Nat) : Bool :=
  g.cluster == cluster && g.onCore && (match g.resv with | some r => !r.quads.isEmpty | none => false)

/-- The wave that occupies a slot of a core. -/
def State.waveAt (s : State) (core slot : Nat) : Option (Workgroup × Wave) :=
  s.wgs.findSome? fun g =>
    if g.status == .resident || g.status == .stopped then
      (g.waves.find? fun w => w.core == core && w.slot == slot && !w.ended).map fun w => (g, w)
    else none

/-- The 32-bit word at an open window address of a command of workgroup `gid`, with its mark; none where it is closed. -/
def State.winRead (s : State) (gid : Nat) (a : Nat) : Option (Nat × Bool) :=
  match s.wg? gid with
  | none => none
  | some me =>
    match winOf a with
    | .reg core slot r lane _ =>
      match s.waveAt core slot with
      | some (g, w) =>
        if g.id = gid && r < w.nregs then
          some ((Sparse.get (0 : Word) w.vregs (256 * r + lane)).toNat, w.vmark.contains (256 * r + lane)) else none
      | none => none
    | .pad core off =>
      match me.padOf core off with
      | some o => some (me.scratchRead o 4, me.scratchMarked o 4)
      | none => none
    | .tile cl x byte =>
      match s.ownerOfQuad cl (x / 8) with
      | some (g, k) =>
        if g.ctx != me.ctx || !me.engaged cl then none
        else match g.resv.bind fun r => r.tiles[8 * k + x % 8]? with
          | some t => some (fromBytes ((List.range 4).map fun i => Sparse.get 0 t.data (byte + i)), t.marks.contains (byte / 256))
          | none => none
      | none => none
    | .acc cl x byte =>
      match s.ownerOfQuad cl (x / 4) with
      | some (g, k) =>
        if g.ctx != me.ctx || !me.engaged cl then none
        else match g.resv.bind fun r => r.accs[4 * k + x % 4]? with
          | some t => some ((Sparse.get (0 : Word) t.vals (byte / 4)).toNat, t.marks.contains (byte / 4))
          | none => none
      | none => none
    | .closed => none

/-- A window word of an accumulator that an MMA has half done: it is read once the product is whole (R297). -/
def State.winBusy (s : State) (a : Nat) : Bool :=
  match winOf a with
  | .acc cl x _ =>
    match s.ownerOfQuad cl (x / 4) with
    | some (g, k) => match g.resv with
      | some r => r.threads.any fun t => t.ops.any fun o => match o.work with
        | .mul d m => d == 4 * k + x % 4 && m.k != 0
        | _ => false
      | none => false
    | none => false
  | _ => false

/-- Replaces element k of a list. -/
def setAt {α : Type} (xs : List α) (k : Nat) (f : α → α) : List α := (List.range xs.length).zipWith (fun i x => if i = k then f x else x) xs

/-- Writes a 32-bit word at an open window address. A write into a tile ends its alias (R301). -/
def State.winWrite (s : State) (gid a x : Nat) (bad : Bool) : State :=
  match s.wg? gid with
  | none => s
  | some me =>
    match winOf a with
    | .reg core slot r lane _ =>
      match s.waveAt core slot with
      | some (g, w) => s.updWave g.id w.waveid fun w =>
          let w := w.putV s.tick r lane (BitVec.ofNat 32 x)
          if bad then { w with vmark := (256 * r + lane) :: w.vmark } else w
      | none => s
    | .pad core off =>
      match me.padOf core off with
      | some o => s.updWg gid fun g =>
          let g := g.scratchWrite o 4 x
          if bad then { g with scratchBad := nubNat (o / 4 :: g.scratchBad) } else g
      | none => s
    | .tile cl n byte =>
      match s.ownerOfQuad cl (n / 8) with
      | some (g, k) => s.updWg g.id fun g => { g with resv := g.resv.map fun r => { r with tiles := setAt r.tiles (8 * k + n % 8) fun t =>
          { t with pinned := false
                   data := (located byte (leBytes 4 x)).foldl (fun m e => Sparse.set 0 m e.1 e.2) t.data
                   marks := if bad then nubNat (byte / 256 :: t.marks) else t.marks } } }
      | none => s
    | .acc cl n byte =>
      match s.ownerOfQuad cl (n / 4) with
      | some (g, k) => s.updWg g.id fun g => { g with resv := g.resv.map fun r => { r with accs := setAt r.accs (4 * k + n % 4) fun t =>
          { t with vals := Sparse.set 0 t.vals (byte / 4) (BitVec.ofNat 32 x)
                   marks := if bad then nubNat (byte / 4 :: t.marks) else t.marks.filter (· != byte / 4) } } }
      | none => s
    | .closed => s

end Sys2Proof.Machine
end

