-- ==== Sys2Proof/Machine/CopyEngine.lean ====
section
/-! DEFINITION. The copy engine: commands and their line operations (spec/12_copy_engine.md R261 to R270, R279 to R285),
transaction barriers (R271 to R273) and slot tags (R277, R278). -/
namespace Sys2Proof.Machine

/-! ## Transaction barriers -/

def tbArrv (x : Nat) : Nat := field x 0 6
def tbQuota (x : Nat) : Nat := field x 12 6
def tbLand (x : Nat) : Nat := field x 32 32
def tbDecl (x : Nat) : Nat := field x 64 32
def tbPhase (x : Nat) : Nat := field x 96 32
def tbReserved (x : Nat) : Bool := field x 6 6 != 0 || field x 18 14 != 0

/-- The evaluation after each update (R272). -/
def tbEval (x : Nat) : Nat :=
  if tbArrv x = tbQuota x ∧ tbLand x = tbDecl x then
    (tbPhase x + 1) % 2 ^ 32 * 2 ^ 96 + (x % 2 ^ 32 - tbArrv x)
  else x

/-- Replaces n bits of a number from bit `lo` on. -/
def setField (x lo n v : Nat) : Nat := x - field x lo n * 2 ^ lo + v % 2 ^ n * 2 ^ lo

/-- A copy's bytes are counted (R272). -/
def tbLanded (x n : Nat) : Nat := tbEval (setField x 32 32 (tbLand x + n))

def Workgroup.tbAdd (g : Workgroup) (off n : Nat) : Workgroup :=
  if g.scratchSize < off + 16 then g else g.scratchWrite off 16 (tbLanded (g.scratchRead off 16) n)

/-- A barrier instruction: offset checks, then `f` of the object's value and the operand: the new object, or a cause. -/
def tbOp (i : Instr) (o : SS) (s : State) (drain : Bool) (f : Nat → Nat → Except Cause Nat) : Host.Outcome State Fault Refusal :=
  issueOp i s fun σ s =>
    let off := (σ.t.rs s.tick o.a).toNat % 2 ^ 32
    match σ.g.tbCheck off with
    | some c => .raise s c off none
    | none =>
      if drain && !σ.t.drained then .hold s
      else if σ.g.scratchMarked off 16 then .raise s .eccScratch off none
      else match f (σ.g.scratchRead off 16) (σ.t.rs s.tick o.b).toNat with
        | .error c => .raise s c 0 none
        | .ok x => .done (s.updWg σ.g.id fun g => g.scratchWrite off 16 (tbEval x)) none none

def execTbinit (o : SS) (s : State) : Host.Outcome State Fault Refusal :=
  tbOp (.tbinit o) o s false fun _ n => if n = 0 ∨ 63 < n then .error .illegalOperand else .ok (n * 2 ^ 12)

/-- TBARV releases first (R273). -/
def execTbarv (o : SS) (s : State) : Host.Outcome State Fault Refusal :=
  tbOp (.tbarv o) o s true fun x n =>
    if tbReserved x || tbQuota x = 0 || n = 0 || tbQuota x - tbArrv x < n then .error .illegalOperand else .ok (x + n)

def execTbexp (o : SS) (s : State) : Host.Outcome State Fault Refusal :=
  tbOp (.tbexp o) o s false fun x n =>
    if tbReserved x || tbQuota x = 0 || 2 ^ 32 - 1 < tbDecl x + n then .error .illegalOperand
    else .ok (setField x 64 32 (tbDecl x + n))

def execTbwait (o : SS) (s : State) : Host.Outcome State Fault Refusal :=
  issueOp (.tbwait o) s fun σ s =>
    let off := (σ.t.rs s.tick o.a).toNat % 2 ^ 32
    match σ.g.tbCheck off with
    | some c => .raise s c off none
    | none =>
      if σ.g.scratchMarked off 16 then .raise s .eccScratch off none
      else if tbPhase (σ.g.scratchRead off 16) = (σ.t.rs s.tick o.b).toNat % 2 ^ 32 then .hold s
      else .done (s.updThread σ.p fun t => t.acquire σ.t.nextId) none none

/-! ## Slot tags -/

def SlotTag.bits : SlotTag → Nat
  | .empty => 0 | .filling => 1 | .full => 2 | .draining => 3

def Workgroup.tagAt (g : Workgroup) (arr slot : Nat) : Nat := field (g.scratchRead (arr + slot / 4) 1) (2 * (slot % 4)) 2
def Workgroup.setTag (g : Workgroup) (arr slot v : Nat) : Workgroup :=
  g.scratchWrite (arr + slot / 4) 1 (setField (g.scratchRead (arr + slot / 4) 1) (2 * (slot % 4)) 2 v)

/-- Operands of SLOTSET and SLOTWAIT, with their checks (R278). -/
def slotArgs (σ : Site) (tick : Nat) (o : SlotF) : Except (Cause × Nat) (Nat × Nat) :=
  let arr := (σ.t.rs tick o.a).toNat % 2 ^ 32
  let slot := (σ.t.rs tick o.b).toNat
  if 2 ^ 16 ≤ slot then .error (.illegalOperand, 0)
  else if σ.g.scratchSize ≤ arr + slot / 4 then .error (.scratchBound, arr + slot / 4)
  else if σ.g.scratchMarked (arr + slot / 4) 1 then .error (.eccScratch, arr + slot / 4)
  else .ok (arr, slot)

def execSlotset (o : SlotF) (s : State) : Host.Outcome State Fault Refusal :=
  issueOp (.slotset o) s fun σ s =>
    match slotArgs σ s.tick o with
    | .error (c, a) => .raise s c a none
    | .ok (arr, slot) => .done (s.updWg σ.g.id fun g => g.setTag arr slot (SlotTag.bits o.tag)) none none

def execSlotwait (o : SlotF) (s : State) : Host.Outcome State Fault Refusal :=
  issueOp (.slotwait o) s fun σ s =>
    match slotArgs σ s.tick o with
    | .error (c, a) => .raise s c a none
    | .ok (arr, slot) =>
      if σ.g.tagAt arr slot != SlotTag.bits o.tag then .hold s
      else .done (s.updThread σ.p fun t => t.acquire σ.t.nextId) none none

/-! ## Issuing a command -/

/-- A command as its instruction leaves it. -/
def Site.command (σ : Site) (s : State) (req : CmdReq) : Command :=
  { n := s.nextCmd, req := req, party := σ.p, flight := σ.t.nextId, ctx := σ.c.id, wg := σ.g.id, cluster := σ.cluster,
    iaddr := va64 σ.t.pc, stage := .new, ops := [], staged := false, tb := none, total := 0, counted := 0, targets := [σ.g.id],
    late := [], tag := none, counter := none, acquire := true, release := none, rc := 0, overrun := false, faulted := false,
    stallFrom := none, owedAcks := 0, wCluster := 0, wDev := 0, wSys := 0, launch := σ.g.launch }

def State.addCommand (s : State) (c : Command) : State := { s with cmds := s.cmds ++ [c], nextCmd := s.nextCmd + 1 }
def State.updCmd (s : State) (n : Nat) (f : Command → Command) : State :=
  { s with cmds := s.cmds.map fun c => if c.n = n then f c else c }
def State.cmd? (s : State) (n : Nat) : Option Command := s.cmds.find? (fun c => c.n == n)

/-- The flight of a command on a core: its path's counter is lowered by the command's signals. On a sequencer only the number is
taken. -/
def Site.cmdFlight (σ : Site) (i : Instr) : Flight :=
  if σ.p.executor == .core then σ.flight i false [] else { σ.flight i false [] with left := some 0, counted := false, done := true }

/-- Two lanes of an ACP write the same bytes, as far as their addresses tell at issue: destinations of the size are equal or apart. -/
def sameDst (toG : Bool) (x y : Access × Nat) : Bool :=
  if toG then x.1.va == y.1.va || (x.1.pa.isSome && x.1.pa == y.1.pa) else x.2 == y.2

/-- Line operations of an ACP: the lanes that touch one line, in order of their lowest lane (R267). Where a higher lane writes the same
bytes a lane's go nowhere (R266). -/
def acpOps (toG : Bool) (size : Nat) (xs : List (Access × Nat)) : List (List Piece) :=
  let beaten (x : Access × Nat) : Bool := xs.any fun y => x.1.lane < y.1.lane && sameDst toG x y
  (nubNat (xs.map fun x => lineOf x.1.va)).map fun l =>
    (xs.filter fun x => lineOf x.1.va == l).map fun x =>
      let m : Loc := .mem x.1.va (x.1.pa.map fun pa => (pa, x.1.key, x.1.lease, x.1.host))
      let (src, into) := if toG then (Loc.pad x.2, m) else (m, Loc.pad x.2)
      ⟨src, if beaten x then .made [] else into, size, x.1.lane⟩

/-- ACP (R264 to R267). -/
def execAcp (o : AcpF) (s : State) : Host.Outcome State Fault Refusal :=
  laneMem (.acp o) s fun σ w s =>
    let size := sizeBytes o.size
    let tb := if o.tb.val = 0 then none else some ((σ.t.rs s.tick o.tb.val).toNat % 2 ^ 32)
    match tb.bind fun off => (σ.g.tbCheck off).map fun c => (c, off) with
    | some (c, off) => .raise s c off none
    | none =>
      let pad (l : Nat) : Nat := (w.rv s.tick o.d l).toNat
      let one (l : Nat) : Chk :=
        let a := w.address s.tick l .g o.mem.a o.mem.ix o.mem.off
        if pad l % size != 0 && a % size == 0 then .bad l .misaligned (pad l)
        else if a % size == 0 && canonical a.toNat && o.toG && σ.g.scratchSize < pad l + size then .bad l .scratchBound (pad l)
        else s.check σ .g size (if o.toG then .write else .read) l a
      let k := combine ((w.active s.tick (.acp o)).map one)
      match k.bad with
      | some (l, c, fa) => .raise s c fa (some l)
      | none =>
        if k.wait then .hold (if k.moving then s.stall σ else s)
        else
          let xs := ((k.oks ++ k.absents).map fun a => (a, pad a.lane))
          let c := { σ.command s .acp with
            stage := .running, ops := acpOps o.toG size xs, tb := tb, total := size * xs.length }
          .done (((s.sampleAll σ (if o.toG then 5 else 4) k.oks).addCommand c).stopAbsent σ (.acp o) k.absents) none (some (σ.cmdFlight (.acp o)))

/-- TCP at issue (R269, R270). -/
def execTcp (o : TcpF) (s : State) : Host.Outcome State Fault Refusal :=
  issueOp (.tcp o) s fun σ s =>
    let dst := (σ.t.rs s.tick o.b).toNat % 2 ^ 32
    let tb := if o.tb.val = 0 then none else some ((σ.t.rs s.tick o.tb.val).toNat % 2 ^ 32)
    let mask := match o.mc with | some d => (σ.t.rs s.tick d).toNat | none => 0
    if dst % 16 != 0 then .raise s .misaligned dst none
    else if o.mc.isSome && (mask = 0 || 64 ≤ mask) then .raise s .illegalOperand 0 none
    else match tb.bind fun off => (σ.g.tbCheck off).map fun c => (c, off) with
      | some (c, off) => .raise s c off none
      | none =>
        let layout := match o.layout with | .none => 0 | .t => 1 | .b16 => 2 | .tb16 => 3
        let c := { σ.command s (.tile (σ.t.rs s.tick o.a).toNat (σ.t.rs s.tick (o.a + 1)).toNat dst layout) with
          tb := tb, targets := if o.mc.isSome then s.multicast σ.c.id σ.g.launch σ.cluster mask else [σ.g.id] }
        .done (s.addCommand c) none (some (σ.cmdFlight (.tcp o)))

def execCq (a : SReg) (la : Fin 16) (s : State) : Host.Outcome State Fault Refusal :=
  issueOp (.cq a la) s fun σ s =>
    let va := (σ.t.rs s.tick a).toNat
    if va % 64 != 0 then .raise s .misaligned va none
    else .done (s.addCommand { σ.command s (.cq va) with acquire := false }) none (some (σ.cmdFlight (.cq a la)))

/-- The hardware thread's pair number. -/
def Party.pair : Party → Nat
  | .wave _ _ => 0 | .mseq _ t | .cseq _ t => t
def Reservation.queue? (r : Reservation) (t q : Nat) : Option MetaQ := (r.queues.find? fun e => e.1 == t && e.2.1 == q).map (·.2.2)
def Reservation.setQueue (r : Reservation) (t q : Nat) (m : MetaQ) : Reservation :=
  { r with queues := (t, q, m) :: r.queues.filter fun e => !(e.1 == t && e.2.1 == q) }

def execCqmeta (o : CqmetaF) (s : State) : Host.Outcome State Fault Refusal :=
  issueOp (.cqmeta o) s fun σ s =>
    let va := (σ.t.rs s.tick o.a).toNat
    if (σ.g.resv.bind fun r => r.queue? (Party.pair σ.p) o.q).isNone then .raise s .illegalOperand 0 none
    else if va % 8 != 0 then .raise s .misaligned va none
    else .done (s.addCommand (σ.command s (.cqmeta o.q va o.n.toNat))) none (some (σ.cmdFlight (.cqmeta o)))

/-- Every instruction of the thread has written its results and every command of it has signalled (R282, R298). -/
def State.threadIdle (s : State) (σ : Site) : Bool :=
  σ.t.flights.all (fun f => f.done && f.owed == 0) && !s.cmds.any fun c => c.party == σ.p

/-- Waits until the thread is idle and raises what it deferred; otherwise goes on with `k`. -/
def syncThen (σ : Site) (s : State) (k : Body) : Body :=
  if !s.threadIdle σ then .hold s
  else match σ.t.deferred with
    | d :: _ => .raise (s.updThread σ.p fun t => t.dropDeferred d) d.cause d.faddr none
    | [] => k

/-- Detached instructions are assured. -/
def Thread.assureAll (t : Thread) : Thread :=
  { t with flights := t.flights.map fun f => if f.left.isNone then { f with left := some 0 } else f }

def execCsync (s : State) : Host.Outcome State Fault Refusal :=
  issueOp .csync s fun σ s => syncThen σ s (.done (s.updThread σ.p Thread.assureAll) none none)

/-! ## Acceptance -/

/-- Earlier accesses of the issuer are performed and acknowledged, as an acquire needs (R257, R262). -/
def acquired (t : Thread) (id : Nat) : Bool :=
  t.flights.all fun f => decide (id ≤ f.id) || !f.i.isMem || (f.done && f.owed == 0)

/-- Consecutive pieces go into one line operation while their keys are the same and they are at most 128 bytes. -/
def groupPieces (key : Piece → Nat × Nat) : List Piece → List (List Piece)
  | [] => []
  | x :: xs =>
    match groupPieces key xs with
    | (y :: ys) :: rest =>
      if key x = key y && sumBy (·.n) (x :: y :: ys) ≤ 128 then (x :: y :: ys) :: rest else [x] :: (y :: ys) :: rest
    | _ => [[x]]

def Loc.line : Loc → Nat
  | .mem va _ => va / 128 + 1
  | .pad o | .win o => o / 128 + 1
  | .made _ => 0
def Loc.isMem : Loc → Bool
  | .mem _ _ => true
  | _ => false
/-- What one line operation is cut at (R261): where global memory is the source or the destination, at its lines, and where it is both, at
both (log 141); otherwise at the blocks of the scratchpad and of windows. -/
def cutAt (src dst : Bool) : Bool × Bool := if src || dst then (src, dst) else (true, true)
/-- The line or block that a line operation with a piece lies in. -/
def pieceKey (x : Piece) : Nat × Nat :=
  let (s, d) := cutAt x.src.isMem x.dst.isMem
  (if s then x.src.line else 0, if d then x.dst.line else 0)

/-- Where a stored tile's element goes under a layout (R225): `c` columns of 32 rows, row i and column j. -/
def layoutIndex (layout c i j : Nat) : Nat :=
  match layout with
  | 0 => i * c + j
  | 1 => j * 32 + i
  | 2 => (i / 16 * (c / 16) + j / 16) * 256 + i % 16 * 16 + j % 16
  | _ => (j / 16 * 2 + i / 16) * 256 + j % 16 * 16 + i % 16

/-- The tile fits what a layout other than 00 asks of it (R269). -/
def Tensor.layoutOk (t : Tensor) (c : Nat) : Bool :=
  t.rank == 2 && t.elt != 8 && t.tile.getD 0 0 * t.elt == 128 && t.tile.getD 1 0 == 32 && t.step.getD 1 0 == 128 && t.oob == 0 &&
    t.at_ (t.index c [0, 0, 0, 0, 0]) % 4096 == 0

/-- Splits n bytes at the 128-byte boundaries of the source, the destination, or both. -/
def splitRun (cut : Bool × Bool) (src dst : Nat → Loc) : (fuel s d k n : Nat) → List Piece
  | 0, _, _, _, _ => []
  | fuel + 1, s, d, k, n =>
    if n = 0 then []
    else
      let m := min n (min (if cut.1 then 128 - s % 128 else 128) (if cut.2 then 128 - d % 128 else 128))
      ⟨src k, dst k, m, 0⟩ :: splitRun cut src dst fuel (s + m) (d + m) (k + m) (n - m)

/-- The pieces of a tile copy to a destination that starts at `base`: an element that crosses a line of global memory is two. -/
def Tensor.pieces (t : Tensor) (c layout base : Nat) (dst : Nat → Loc) : List Piece :=
  (List.range t.count).flatMap fun m =>
    let j := coords t.tile m
    let pos := t.elt * (if layout = 0 then m else layoutIndex layout (t.tile.getD 0 1) (j.getD 1 0) (j.getD 0 0))
    match t.readAt c j with
    | some va => splitRun (true, (dst 0).isMem) (fun k => .mem (va + k) none) (fun k => dst (pos + k)) 3 va (base + pos) 0 t.elt
    | none => splitRun (false, true) (fun _ => .made (zeros t.elt)) (fun k => dst (pos + k)) 3 0 (base + pos) 0 t.elt

/-- A field of a CQ descriptor (R279). -/
def Command.acceptCq (g : Workgroup) (c : Command) (d : Nat) : Except (Cause × Nat) (Command × List Piece × Option (Nat × Nat × Nat)) :=
  let saddr := field d 448 64
  let daddr := field d 384 64
  let cnta := field d 320 64
  let len := field d 256 32
  let tboff := field d 170 22
  let tbv := field d 169 1 == 1
  let tagoff := field d 147 22
  let tagv := field d 146 1 == 1
  let slot := field d 130 16
  let layout := field d 128 2
  let mc := field d 121 1 == 1
  let rcnt := field d 117 4
  let acq := field d 116 1 == 1
  let rel := field d 112 1 == 1
  let kind := field d 106 3
  let ssp := field d 104 2
  let dsp := field d 102 2
  let linear := kind = 0
  let tensor := kind = 1
  let fill := kind = 2
  let inWin (a : Nat) : Bool := 0x8000000000000 ≤ a && a + len ≤ 0x8002000000000
  if (linear && (saddr % 4 != 0 || daddr % 4 != 0 || len % 4 != 0)) || (fill && (daddr % 4 != 0 || len % 4 != 0)) ||
      (tensor && dsp = 1 && daddr % 16 != 0) || tboff % 16 != 0 || cnta % 8 != 0 then .error (.misaligned, 0)
  else if (tbv && g.scratchSize < tboff + 16) || (tagv && g.scratchSize ≤ tagoff + slot / 4) ||
      (ssp = 1 && g.scratchSize < saddr + len) then .error (.scratchBound, if ssp = 1 then saddr else 0)
  else if field d 0 102 != 0 || 2 < kind || ssp = 3 || dsp = 3 || 4 < field d 113 3 || 4 < field d 109 3 ||
      ((fill || tensor) && ssp != 0) || (fill && field saddr 32 32 != 0) || (tensor && (len != 0 || dsp = 2)) ||
      ((tbv || tagv || mc) && dsp != 1) || (mc && field d 122 6 = 0) ||
      (rcnt != 0 && dsp != 0) || (layout != 0 && !tensor) || (!tensor && (len < 4 || 16777216 < len)) then .error (.illegalOperand, 0)
  else if (ssp = 2 && !inWin saddr) || (dsp = 2 && !inWin daddr) then .error (.protection, if ssp = 2 && !inWin saddr then saddr else daddr)
  else
    let loc (sp a : Nat) (k : Nat) : Loc := match sp with
      | 0 => .mem ((a + k) % 2 ^ 64) none
      | 1 => .pad (a + k)
      | _ => .win (a + k)
    let pattern (k : Nat) : Loc := .made ((List.range 128).map fun i => BitVec.ofNat 8 (field saddr (8 * ((k + i) % 4)) 8))
    let c' := { c with
      tb := if tbv then some tboff else none
      tag := if tagv then some (tagoff, slot) else none
      counter := if cnta = 0 then none else some (cnta, field d 288 32)
      acquire := acq
      release := if rel then some (match field d 109 3 with | 0 => .wave | 1 => .wg | 2 => .cluster | 3 => .dev | _ => .sys) else none
      rc := rcnt, total := len }
    .ok (c', if tensor then [] else if fill then splitRun (false, true) pattern (loc dsp daddr) (len / 4 + 1) 0 daddr 0 len
             else splitRun (cutAt (ssp = 0) (dsp = 0)) (loc ssp saddr) (loc dsp daddr) (len / 4 + 1) saddr daddr 0 len,
         if tensor then some (saddr, field d 192 64, layout) else none)

/-- The engine meets a cause in a command: a replayable one waits for the restore (R284). Of a workgroup that a kill has taken away and
formed again, the command goes on being tried in the first case, and in the other it halts the partition in its own name (log 106). -/
def State.cmdCause (s : State) (c : Command) (k : Cause) (faddr : Nat) : State :=
  match s.wg? c.wg with
  | some _ =>
    let s := if k == .pageFault then s.updCmd c.n fun c => { c with faulted := true } else s
    s.takeEngine c.party .copyEngine k c.iaddr faddr
  | none =>
    if k == .pageFault then s
    else ({ s with cmds := s.cmds.filter fun d => d.n != c.n } : State).haltLine c.ctx
      ⟨s.time, c.iaddr, faddr, some k, .copyEngine, true, false, none, 0xFF, c.cluster, 0, c.ctx, 0xFFFF, 0, 0, 0,
        s.unitDetail .copyEngine c.ctx c.cluster, []⟩

/-- A write begins to stall, for a page's move or for credit (R241, R284); a saved workgroup's stalls are kept as the time they have
lasted (R224). -/
def State.cmdStalls (s : State) (c : Command) : State :=
  let now := match s.wg? c.wg with | some g => if g.status == .saved then 0 else s.time | none => s.time
  s.updCmd c.n fun c => { c with stallFrom := c.stallFrom.or (some now) }

/-- What a command does when its next access cannot be made yet. -/
def State.cmdHeld (s : State) (c : Command) : EngRead → State
  | .cause k fa => s.cmdCause c k fa
  | .moving => s.cmdStalls c
  | _ => s

/-- A tile copy's record is read, once, and its line operations are made. -/
def State.acceptTile (s : State) (c : Command) (record coord layout base : Nat) (dst : Nat → Loc) : State :=
  match s.readTensor (.cmd c.n) c.ctx c.cluster record c.iaddr with
  | (s, .error r) => s.cmdHeld c r
  | (s, .ok t) =>
    if field coord 60 4 != 0 || 65536 < t.count * t.elt || (layout != 0 && !t.layoutOk coord) then s.cmdCause c .illegalOperand 0
    else (s.updCmd c.n fun _ => { c with
      stage := .running, ops := groupPieces pieceKey (t.pieces coord layout base dst), total := t.count * t.elt,
      staged := layout != 0 }).walkAhead c.ctx t coord

/-- A CQ whose descriptor is read is checked, its slot tag is tested and set, and its line operations are made (R277, R280). -/
def State.acceptDesc (s : State) (c : Command) (g : Workgroup) (t : Thread) (d : Nat) : State :=
  match c.acceptCq g d with
  | .error (k, fa) => s.cmdCause c k fa
  | .ok (c', ps, tile) =>
    let full := match c'.tag with | some (arr, slot) => !c.filling && g.tagAt arr slot != 0 | none => false
    if c'.acquire && !acquired t c.flight then s
    else if full then s.updCmd c.n fun c => { c with stage := .tagHeld }
    else
      let s := match c'.tag with
        | some (arr, slot) => if c.filling then s else s.updWg g.id fun g => g.setTag arr slot 1
        | none => s
      let c' := { c' with filling := c'.tag.isSome, targets := if field d 121 1 == 1 then s.multicast c.ctx c.launch c.cluster (field d 122 6) else [c.wg] }
      let s := s.updCmd c.n fun c => { c with filling := c'.filling, tb := c'.tb, tag := c'.tag, targets := c'.targets }
      let daddr := field d 384 64
      match tile with
      | none => s.updCmd c.n fun _ => { c' with stage := .running, ops := ps.map fun p => [p] }
      | some (record, coord, layout) =>
        s.acceptTile c' record coord layout daddr fun k => if field d 102 2 = 1 then .pad (daddr + k) else .mem ((daddr + k) % 2 ^ 64) none

/-- The pieces that read an entry of metadata for queue q, one for each line. -/
def metaPieces (q va : Nat) : List (List Piece) :=
  (splitRun (true, false) (fun k => .mem ((va + k) % 2 ^ 64) none) (fun _ => .pad q) 6 va va 0 512).map fun p => [p]

/-- What is left of a workgroup that was killed, for its commands that run on: a thread with nothing in flight, and an allocation whose
size is not tested any more (R385, log 106). -/
def Command.ghost (c : Command) : Workgroup × Thread :=
  ({ id := c.wg, ctx := c.ctx, node := 0, wgid := 0, launch := c.launch, depth := 0, cores := [6 * c.cluster], status := .ending, why := [],
     records := [], doneTaken := true, join := 0, slots := [], scratchSize := 2 ^ 64, scratchBase := 0, scratch := [], scratchBad := [],
     waves := [], resv := none, placed := 0 },
   ⟨0, [], 0, 0, [], 0, 0, 0, 0, none, none, [], none, [], 0⟩)

/-- The workgroup and thread of a command, or what a kill has left of them. -/
def State.cmdSide (s : State) (c : Command) : Workgroup × Thread :=
  match s.wg? c.wg, (s.wg? c.party.wg).bind (·.thread? c.party) with
  | some g, some t => (g, t)
  | _, _ => c.ghost

/-- A command is accepted: its descriptor or record is read once, and it is checked (R279, R280). -/
def State.accept (s : State) (c : Command) : State :=
  let (g, t) := s.cmdSide c
  if t.acqBars c.flight || (c.acquire && !acquired t c.flight) ||
      s.cmds.any (fun d => d.party == c.party && d.n < c.n && d.stage == .tagHeld) then s
  else match c.req with
    | .acp => s
    | .tile record coord dst layout => s.acceptTile c record coord layout dst fun k => .pad (dst + k)
    | .cqmeta q va count =>
      s.updCmd c.n fun c => { c with
        stage := .running, total := 512 * count, ops := (List.range count).flatMap fun k => metaPieces q (va + 512 * k) }
    | .cq va =>
      if !t.flights.all (fun f => decide (c.flight ≤ f.id) || f.owed == 0) then s
      else match s.engRead (.cmd c.n) c.ctx c.cluster va 64 c.iaddr with
        | (s, .got bs _) =>
          let d := BitVec.ofNat 512 (fromBytes bs)
          (s.updCmd c.n fun c => { c with req := .desc d }).acceptDesc { c with req := .desc d } g t d.toNat
        | (s, r) => s.cmdHeld c r
    | .desc d => s.acceptDesc c g t d.toNat

/-! ## Line operations (R261) -/

/-- The distinct sectors of global memory that a line operation reads, with the translation made at issue where there is one. -/
def opSectors (op : List Piece) : List (Nat × Option Place) :=
  let all := op.flatMap fun x => match x.src with
    | .mem va t => (sectorsOf va x.n).map fun s => (s, t.map fun t => (t.1 - t.1 % 32 + 32 * (s - va / 32), t.2))
    | _ => []
  (nubNat (all.map (·.1))).filterMap fun s => all.find? (fun e => e.1 == s)

/-- The first closed window word among some pieces' places. -/
def State.closedWord (s : State) (wg : Nat) (xs : List (Loc × Nat)) : Option Nat :=
  (xs.flatMap fun x => match x.1 with
    | .win a => (List.range (x.2 / 4)).map (a + 4 * ·)
    | _ => []).find? fun a => (s.winRead wg a).isNone

/-- A source word of a window is a half-done accumulator. -/
def State.srcBusy (s : State) (op : List Piece) : Bool :=
  op.any fun x => match x.src with | .win a => (List.range (x.n / 4)).any fun k => s.winBusy (a + 4 * k) | _ => false

/-- Reads a piece's source once the sectors are there: bytes with their marks (R231). The scratchpad of a workgroup that was killed is
nobody's: its bytes are free. -/
def State.readPiece (s : State) (c : Command) (secs : List SectorBytes) (x : Piece) : List (Byte × Bool) :=
  match x.src with
  | .made bs => (bs.take x.n).map fun b => (b, false)
  | .pad off =>
    let gone := (freeBytes (s.tick + off) x.n).map fun b => (b, false)
    match s.wg? c.wg with
    | some g => if g.scratchSize < off + x.n then gone
                else (List.range x.n).map fun k => (g.scratchByte (off + k), g.scratchMarked (off + k) 1)
    | none => gone
  | .win a =>
    (List.range (x.n / 4)).flatMap fun k =>
      let w := (s.winRead c.wg (a + 4 * k)).getD (0, false)
      (leBytes 4 w.1).map fun b => (b, w.2)
  | .mem va _ => markedRun secs va x.n

/-- Puts bytes at offsets of an allocation, dropping what is past its end; a word written whole loses an older mark, and one that takes a
marked byte is marked. -/
def Workgroup.landPad (g : Workgroup) (bs : List (Nat × Byte × Bool)) : Workgroup :=
  let ok := bs.filter fun b => b.1 < g.scratchSize
  let whole (k : Nat) : Bool := (List.range 4).all fun i => ok.any fun b => b.1 == 4 * k + i
  { g with
    scratch := ok.foldl (fun m b => Sparse.set 0 m b.1 b.2.1) g.scratch
    scratchBad := nubNat ((ok.filter (·.2.2)).map (·.1 / 4) ++ g.scratchBad.filter fun k => !whole k) }

/-- A line operation's bytes reach the scratchpad of every target, and its barrier counts `n` of them at once; a part for a workgroup that
is saved is kept, and one for a workgroup that has ended is dropped (R263, R270, R272); the command's own has not ended while it runs
(R186). -/
def State.deliver (s : State) (c : Command) (bs : List (Nat × Byte × Bool)) (n : Nat) : State :=
  c.targets.foldl (fun s id =>
    match s.wg? id with
    | none => s
    | some g =>
      if g.status == .saved || g.status == .wintered then s.updCmd c.n fun c => { c with late := c.late ++ [(id, bs, n)] }
      else if !g.present && id != c.wg then s
      else
        let s := if bs.any (fun b => g.scratchSize ≤ b.1) then s.updCmd c.n fun c => { c with overrun := true } else s
        s.updWg id fun g =>
          let g := g.landPad bs
          match c.tb, c.release with
          | some t, none => g.tbAdd t n
          | _, _ => g) s

/-- Places of a line operation's global writes, each translated once; those of the tile translator are kept in its TLB. -/
def State.writePlaces (s : State) (ctx : Context) : List Piece → State × Except EngRead (List (Option Place))
  | [] => (s, .ok [])
  | x :: rest =>
    let more (s : State) (p : Option Place) : State × Except EngRead (List (Option Place)) :=
      match s.writePlaces ctx rest with
      | (s, .ok ps) => (s, .ok (p :: ps))
      | e => e
    match x.dst with
    | .mem _ (some t) => more s (some t)
    | .mem va none =>
      match s.translate ctx va .write with
      | .ok pa key lease host => more (s.keepTlb ctx.id va) (some (pa, key, lease, host))
      | .cause e => (s, .error (.cause e va))
      | .wait moving => (s, .error (if moving then .moving else .later))
    | _ => more s none

/-- One entry for each sector of a line operation's global writes, given by virtual address, place and bytes. A sector that takes any
poisoned byte is poisoned. -/
def cmdEntries (c : Command) (xs : List (Nat × Place × List (Byte × Bool))) : List QEntry :=
  let all := xs.flatMap fun x => (located x.2.1.1 (x.2.2.map (·.1))).zipWith (fun b e => (b, (x.1, x.2.1), e.2)) x.2.2
  (nubNat (all.map fun e => sectorOf e.1.1)).flatMap fun sec =>
    let mine := all.filter fun e => sectorOf e.1.1 == sec
    match mine with
    | [] => []
    | e :: _ => engEntries (.cmd c.n) c.ctx c.cluster c.rc e.2.1.1 e.2.1.2 (mine.map (·.1)) (mine.any fun e => e.2.2)

/-- Scratchpad and window writes of a line operation of n bytes. -/
def State.landPieces (s : State) (c : Command) (xs : List (Piece × List (Byte × Bool))) (n : Nat) : State :=
  let pads := xs.flatMap fun e => match e.1.dst with
    | .pad off => (located off (e.2.map (·.1))).zipWith (fun b m => (b.1, b.2, m.2)) e.2
    | _ => []
  let win (s : State) (a k : Nat) (bs : List (Byte × Bool)) : State :=
    let w := (bs.drop (4 * k)).take 4
    s.winWrite c.wg (a + 4 * k) (fromBytes (w.map (·.1))) (w.any (·.2))
  let s := xs.foldl (fun s e => match e.1.dst with
    | .win a => (List.range (e.1.n / 4)).foldl (fun s k => win s a k e.2) s
    | _ => s) s
  if pads.isEmpty && c.tb.isNone then s else s.deliver c pads n

/-- The party of a command has read sectors: its core's L1 keeps no older copy of them (R244). -/
def State.freshen (s : State) (c : Command) (places : List (Nat × Place)) : State :=
  match (s.siteOf c.party).bind (·.core) with
  | some k => s.keepCopies fun e => !(e.core == some k && places.any fun x => sectorOf x.2.1 == e.sector)
  | none => s

/-- The home writes back the dirty lines of a staged tile, and the tile buffer reads it there: the cluster cache keeps no copy (R225). What
a peer has sent stays. -/
def State.stage (s : State) (c : Command) (places : List (Nat × Place)) : State :=
  if !c.staged then s
  else
    let own := places.filter fun x => inMemory x.2.1 && !x.2.2.2.2
    let s := (nubNat (own.map fun x => lineOf x.2.1)).foldl State.writeBack s
    s.keepCopies fun e => !(e.cluster == c.cluster && e.core.isNone && own.any fun x => sectorOf x.2.1 == e.sector)

/-- The global writes of a line operation: virtual address, place and bytes of each piece, but for those of an ACP whose place a higher lane
has written (R266). -/
def Command.writes (c : Command) (op : List Piece) (dsts : List (Option Place)) (vs : List (List (Byte × Bool))) :
    List (Nat × Place × List (Byte × Bool)) :=
  ((op.zip dsts).zip vs).filterMap fun e => match e.1.1.dst, e.1.2 with
    | .mem va _, some p => if c.landed.any fun x => x.1 == p.1 && decide (e.1.1.lane < x.2) then none else some (va, p, e.2)
    | _, _ => none

/-- The global places that an ACP has written with these pieces, each with its lane. -/
def Command.landing (c : Command) (op : List Piece) (dsts : List (Option Place)) : List (Nat × Nat) :=
  if c.req == .acp then (op.zip dsts).filterMap fun e => e.2.map fun p => (p.1, e.1.lane) else []

/-- A line operation whose places are known and that waits for nothing is performed whole: it reads all its sources and then writes all its
destinations. -/
def State.performOp (s : State) (c : Command) (op : List Piece) (rest : List (List Piece)) (secs : List (Nat × Option Place))
    (places : List (Nat × Place)) (dsts : List (Option Place)) : State :=
  let (s, xs) := (s.stage c places).readPlaces (.cmd c.n) c.ctx c.cluster secs places
  let s := s.freshen c places
  let vs := op.map fun x => s.readPiece c xs x
  let es := cmdEntries c (c.writes op dsts vs)
  let n := sumBy (fun x : Piece => x.n) op
  let fresh := nubNat (op.flatMap fun x => match x.dst with | .mem va none => sectorsOf va x.n | _ => [])
  let place (sec : Nat) : Nat := ((op.zip dsts).findSome? fun e => match e.1.dst with
    | .mem va none => if (sectorsOf va e.1.n).contains sec then e.2.map fun p => p.1 + 32 * sec - va else none
    | _ => none).getD 0
  let s := fresh.foldl (fun s sec => s.sample c.ctx (32 * sec) 0xFF 5 (place sec)) s
  let s := s.updCmd c.n fun c => { c with ops := rest, owedAcks := c.owedAcks + es.length, counted := c.counted + n, stallFrom := none, landed := c.landing op dsts ++ c.landed }
  (s.landPieces c (op.zip vs) n).enqueue c.ctx es

/-- One line operation, performed whole or not at all: first its windows, its translations, its peers' sectors and its write-lane credit
are tested. -/
def State.lineOp (s : State) (c : Command) (op : List Piece) (rest : List (List Piece)) : State :=
  match s.ctx? c.ctx, (s.closedWord c.wg (op.map fun x => (x.src, x.n))).or (s.closedWord c.wg (op.map fun x => (x.dst, x.n))) with
  | none, _ => s
  | some _, some a => s.cmdCause c .windowClosed a
  | some ctx, none =>
    if s.srcBusy op then s
    else match s.placeSectors ctx (opSectors op) with
      | (s, .error r) => s.cmdHeld c r
      | (s, .ok places) =>
        match s.writePlaces ctx op with
        | (s, .error r) => s.cmdHeld c r
        | (s, .ok dsts) =>
          match s.readyAll (.cmd c.n) c.ctx c.cluster c.iaddr places with
          | (s, some r) => s.cmdHeld c r
          | (s, none) =>
            let written := nubNat ((dsts.zip op).flatMap fun e => match e.1 with | some p => sectorsOf p.1 e.2.n | none => [])
            if s.covers ctx (32 * written.length) then s.performOp c op rest (opSectors op) places dsts else s.cmdStalls c

/-- A line of an entry of metadata is read; the entry is appended to its queue once it is whole, unless the queue is full (R281). -/
def State.metaOp (s : State) (c : Command) (g : Workgroup) (op : List Piece) (rest : List (List Piece)) : State :=
  match op with
  | [⟨.mem va _, .pad q, n, _⟩] =>
    match g.resv.bind fun r => r.queue? (Party.pair c.party) q with
    | none => s
    | some m =>
      if c.part.isEmpty && m.cap ≤ m.entries.length then s
      else match s.gather (.cmd c.n) c.ctx c.cluster c.iaddr [(va, n)] with
        | (s, .error r) => s.cmdHeld c r
        | (s, .ok xs) =>
          let part := c.part ++ markedRun xs va n
          if part.length < 512 then s.updCmd c.n fun c => { c with ops := rest, part := part }
          else
            let append (r : Reservation) : Reservation := match r.queue? (Party.pair c.party) q with
              | some m => r.setQueue (Party.pair c.party) q { m with entries := m.entries ++ [(part.map (·.1), part.any (·.2))] }
              | none => r
            (s.updWg g.id fun g => { g with resv := g.resv.map append }).updCmd c.n fun c => { c with ops := rest, part := [] }
  | _ => s

/-- The command's context runs, and its workgroup is where its work goes on (R285). -/
def State.cmdLive (s : State) (c : Command) : Bool :=
  (match s.ctx? c.ctx with | some k => k.run == .running | none => false) &&
  (match s.wg? c.wg with
   | some g => g.status == .resident || g.status == .ending || (g.status == .stopped && !c.faulted) ||
      (g.status == .saved && !c.faulted)
   | none => true)

/-- An ACP, which acquires, reads nothing before what its wave's earlier accesses and acquires make it wait for (R252, R257, R262); what
acquires at acceptance has done so. -/
def State.mayRead (s : State) (c : Command) : Bool :=
  match c.req, (s.wg? c.party.wg).bind (·.thread? c.party) with
  | .acp, some t => acquired t c.flight && !t.acqBars c.flight
  | _, _ => true

/-- A step of a command: its acceptance, a part kept for a restored workgroup, or one of its line operations in any order. -/
def State.lineOperation (s : State) (n : Nat) : State :=
  match s.cmd? n with
  | none => s
  | some c =>
    if !s.cmdLive c then s
    else
      let s := if c.faulted then s.updCmd n fun c => { c with faulted := false } else s
      let c := { c with faulted := false }
      match c.stage with
      | .new => s.accept c
      | .tagHeld | .signals _ | .failed _ _ => s
      | .running =>
        let due (e : Nat × List (Nat × Byte × Bool) × Nat) : Bool := (match s.wg? e.1 with | some g => g.status == .resident | none => true)
        match c.late.find? due with
        | some e => (s.updCmd n fun c => { c with late := c.late.erase e }).deliver { c with targets := [e.1] } e.2.1 e.2.2
        | none =>
          match c.ops with
          | [] => if c.late.isEmpty then s.updCmd n fun c => { c with stage := .signals 0 } else s
          | op :: rest =>
            if !s.mayRead c then s
            else match c.req with
            | .cqmeta q _ _ =>
              match s.wg? c.wg with
              | some g =>
                if s.cmds.any (fun d => d.party == c.party && d.n < c.n && (match d.req with | .cqmeta q' _ _ => q' == q | _ => false)) then s
                else s.metaOp c g op rest
              | none => s
            | _ =>
              let k := Config.freeNat s.tick 46000 % (rest.length + 1)
              s.lineOp c (c.ops.getD k op) (c.ops.eraseIdx k)

def execLineOperation (cmd : Nat) (s : State) : Host.Outcome State Fault Refusal :=
  .next { s.lineOperation cmd with tick := s.tick + 1 }

/-- A command held on a slot tag tests it again (R277). -/
def execTagRetest (cmd : Nat) (s : State) : Host.Outcome State Fault Refusal :=
  match s.cmd? cmd with
  | some c =>
    if c.stage == .tagHeld && s.cmdLive c then
      let s := s.updCmd cmd fun c => { c with stage := .new }
      .next { s.accept { c with stage := .new } with tick := s.tick + 1 }
    else .next { s with tick := s.tick + 1 }
  | none => .next { s with tick := s.tick + 1 }

/-! ## Signals (R263) -/

/-- The release of a command is over: its writes are acknowledged, below .SYS those to the host need not be, and their copies have expired
(R257, R258). -/
def State.cmdReleased (s : State) (c : Command) : Bool :=
  (c.owedAcks = 0 || (c.release.isSome && c.release != some .sys && s.onlyPosted (.cmd c.n))) && (match c.release with
    | none => true
    | some .wave => true
    | some .wg => (match s.wg? c.wg with | some g => g.cores.length ≤ 1 || c.wCluster + 2 ≤ s.time | none => true)
    | some .cluster => c.wCluster + 2 ≤ s.time
    | some .dev => c.wDev + 2 ≤ s.time
    | some .sys => c.wSys + 20 ≤ s.time)

/-- The issuer's counter is lowered or the command is complete for CSYNC; merged completion times and deferred causes go to the
issuer. -/
def State.cmdEnd (s : State) (c : Command) : State :=
  let path : Path := match c.req with | .acp => .acp | _ => .eng
  let s := { s with cmds := s.cmds.filter fun d => d.n != c.n }.endReads (.cmd c.n)
  let s := s.updThread c.party fun t =>
    let t := if c.release.isNone then t.completeAt (c.wCluster, c.wDev, c.wSys) else t
    (t.updFlight c.flight fun f => { f with done := true }).settleFlights
  if c.overrun then s.deferCause c.party c.flight path .scratchBound 0 else s

/-- The add to a command's completion counter enters the queue, or waits for credit or a page's move. -/
def State.counterAdd (s : State) (c : Command) (va add : Nat) : State :=
  match s.ctx? c.ctx with
  | none => s
  | some k =>
    match s.translate k va .both with
    | .cause e => s.cmdCause c e va
    | .wait moving => if moving then s.cmdStalls c else s
    | .ok pa key lease host =>
      if !s.covers k 32 then s.cmdStalls c
      else
        let e : QEntry := { n := 0, owner := .cmd c.n, ctx := c.ctx, cluster := c.cluster, core := none,
                            kind := .add (BitVec.ofNat 64 add), line := lineOf pa, key := key, lease := lease, host := host,
                            bytes := [(pa, 0)], accs := [], times := none, held := false, bad := false, vaddr := va }
        let s := (s.keepTlb c.ctx va).sample c.ctx (va - va % 32) 0xFF 5 pa
        (s.updCmd c.n fun c => { c with stage := .signals 2, owedAcks := c.owedAcks + 1, stallFrom := none }).enqueue c.ctx [e]

/-- The error dwords of a CQ whose remote access failed (R418): the faulting address at CNTA + 8 and the cause at CNTA + 16, with their
places; one that has no translation is passed over. None while one of their pages moves. -/
def State.errorDwords (s : State) (k : Context) (cnta faddr code : Nat) : Option (List (Nat × Place × Nat)) :=
  let xs := [((cnta + 8) % 2 ^ 64, faddr), ((cnta + 16) % 2 ^ 64, code)].map fun e => (e, s.translate k e.1 .write)
  if xs.any fun x => match x.2 with | .wait _ => true | _ => false then none
  else some (xs.filterMap fun x => match x.2 with | .ok pa key lease host => some (x.1.1, (pa, key, lease, host), x.1.2) | _ => none)

/-- The address of a CQ's completion counter; 0 for none. -/
def Command.cnta (c : Command) : Nat := match c.req with | .desc d => field d.toNat 320 64 | _ => 0

/-- A failed CQ writes its error dwords under the write-lane bucket, and completes once they are released at .DEV. -/
def State.failSignals (s : State) (c : Command) (faddr code : Nat) : State :=
  match s.ctx? c.ctx with
  | none => s
  | some k =>
    match s.errorDwords k c.cnta faddr code with
    | none => s.cmdStalls c
    | some xs =>
      let es := xs.flatMap fun x => engEntries (.cmd c.n) c.ctx c.cluster 0 x.1 x.2.1 (located x.2.1.1 (leBytes 8 x.2.2)) false
      if !s.covers k (32 * es.length) then s.cmdStalls c
      else
        let s := xs.foldl (fun s x => (s.keepTlb c.ctx x.1).sample c.ctx (x.1 - x.1 % 32) 0xFF 5 x.2.1.1) s
        (s.updCmd c.n fun c => { c with stage := .signals 3, release := some .dev, owedAcks := c.owedAcks + es.length, stallFrom := none }).enqueue
          c.ctx es

/-- Gives the next signals, each once: 0, the bytes counted after a release and the slot tag; 1, the completion counter; 2, once its add is
performed, the issuer's counter; 3, the issuer's counter once all that was written is released. -/
def State.signals (s : State) (n : Nat) : State :=
  match s.cmd? n with
  | none => s
  | some c =>
    if !s.cmdLive c then s
    else match c.stage with
      | .signals 0 =>
        if !s.cmdReleased c then s
        else
          let s := match c.tb, c.release with
            | some t, some _ => c.targets.foldl (fun (s : State) id => s.updWg id fun g => g.tbAdd t c.total) s
            | _, _ => s
          let s := match c.tag with
            | some (arr, slot) => s.updWg c.wg fun g => if g.tagAt arr slot = 1 then g.setTag arr slot 2 else g
            | none => s
          match c.counter with
          | none => s.cmdEnd c
          | some (va, add) => (s.updCmd n fun c => { c with stage := .signals 1 }).counterAdd { c with stage := .signals 1 } va add
      | .signals 1 => match c.counter with
        | some (va, add) => s.counterAdd c va add
        | none => s.cmdEnd c
      | .signals 2 => if s.onlyPosted (.cmd n) then s.cmdEnd c else s
      | .signals _ => if c.owedAcks = 0 && s.cmdReleased c then s.cmdEnd c else s
      | .failed faddr code => s.failSignals c faddr code
      | _ => s

def execSignals (cmd : Nat) (s : State) : Host.Outcome State Fault Refusal :=
  .next { s.signals cmd with tick := s.tick + 1 }

end Sys2Proof.Machine
end

