-- ==== Sys2Proof/Machine/Graph.lean ====
section
/-! DEFINITION. The instructions of the work graph (spec/07_work_graph.md R172 to R185): reserving, writing and committing records,
spawning children, phase boundaries, DONE, and the gather timer (R167). -/
namespace Sys2Proof.Machine

/-! ## Reserving slots (R172, R173) -/

/-- The slots of a reservation of n zeroed records from index a on. -/
def newSlots (a n edge wave size : Nat) : List OutSlot := (List.range n).map fun k => ⟨a + k, edge, wave, zeros size⟩

/-- OALLOC with .WAIT parks where it does not fit; its wave issues it again when space or indices are freed. -/
def execOalloc (o : OallocF) (s : State) : Host.Outcome State Fault Refusal :=
  issueOp (.oalloc o) s fun σ s =>
    let n := (σ.t.rs s.tick o.a).toNat
    if n = 0 || Config.outputSlots < n || σ.n.nout ≤ o.e || (o.f.val = 0 && !o.wait) then .raise s .illegalOperand 0 none
    else match σ.p, σ.w with
      | .wave g k, some w =>
        match freeRun (σ.g.slots.map (·.idx)) n, σ.c.edge? (σ.n.edgeIdx o.e) with
        | some a, some ed =>
          let size := σ.c.typeSize ed.rtype
          if s.recordRoom σ.c (n * recSpace size) then
            let ws : List Write := [⟨.s o.d, a + o.e * 4096⟩, ⟨.f o.f, 1⟩]
            let s := s.updWg g fun g => { g with slots := g.slots ++ newSlots a n o.e k size }
            .done (s.updWave g k fun w => w.putAll s.tick ws) none (σ.window (.oalloc o) (ws.map fun e => (e.k, w.now e.k)) 0)
          else short o s g k w σ
        | _, _ => short o s g k w σ
      | _, _ => .hold s
where
  short (o : OallocF) (s : State) (g k : Nat) (w : Wave) (σ : Site) : Body :=
    if o.wait then .hold (s.parkAt σ.p (.oalloc o σ.t.pc))
    else
      let ws : List Write := [⟨.f o.f, 0⟩]
      .done (s.updWave g k fun w => w.putAll s.tick ws) none (σ.window (.oalloc o) (ws.map fun e => (e.k, w.now e.k)) 0)

/-! ## Committing records (R176, R179) -/

/-- The n slots that a handle names in order, all of them reserved by a wave on an edge. -/
def Workgroup.slotRun (g : Workgroup) (wave edge h : Nat) : (n : Nat) → Option (List OutSlot)
  | 0 => some []
  | n + 1 =>
    match g.slotOf h, g.slotRun wave edge (h + 1) n with
    | some o, some os => if o.wave = wave ∧ o.edge = edge then some (o :: os) else none
    | _, _ => none

/-- Where requests about a peer's contexts go. -/
def deviceAddr (dev : Nat) : Nat := 0x4000000000000 + dev * 2 ^ 39

/-- The records of an edge can leave now: the station of a remote node takes one more request (R414, log 140). -/
def State.edgeOpen (s : State) (ed : Edge) : Bool :=
  match ed.bind with
  | .remote dev _ _ => s.stationFree (deviceAddr dev)
  | _ => true

/-- Records on an edge go to the target's slice on this die, to a remote node, or to an out ring. -/
def State.deliverRecords (s : State) (c : Context) (g : Workgroup) (k : Nat) (ed : Edge) (depth : Nat) (parent : Option Nat)
    (bs : List (List Byte)) : State :=
  match ed.bind with
  | .here => s.commit c.id ed.target g.die (bs.map fun b => ⟨b, depth, parent, s.time⟩)
  | .outRing n => bs.foldl (fun s b => s.emitOut n (s.plainRecord b)) s
  | .remote dev _ _ =>
    { s with
      nextQ := s.nextQ + 1
      peers := { s.peers with reqs := s.peers.reqs ++
        [⟨s.nextQ, .other, c.id, deviceAddr dev, 0, true, s.time, 0, some (k, depth, bs), 0, none, none⟩] } }

/-- What EMIT and SPAWN share: the records of a run of handles, or the cause. The handle is taken from all 64 bits of sA, so that one with a
bit above 31 names no slot (log 136). -/
def Site.emitRun (σ : Site) (h n edge : Nat) (spawn : Bool) : Except Cause (List OutSlot × Edge × Nat) :=
  match σ.p with
  | .wave _ k =>
    if Config.outputSlots < n then .error .recordOverflow
    else match σ.g.slotRun k edge h n, σ.c.edge? (σ.n.edgeIdx edge) with
      | some os, some ed =>
        let depth := if spawn || ed.recursive then σ.g.depth + 1 else σ.g.depth
        let top := match ed.bind with
          | .here => (match σ.c.node? ed.target with | some m => m.depth | none => 0)
          | _ => 0
        if spawn && ed.bind != .here then .error .illegalOperand
        else if 16 < depth || (top != 0 && top < depth) then .error .recursionDepth
        else .ok (os, ed, depth)
      | _, _ => .error .recordOverflow
  | _ => .error .illegalOpcode

/-- The slots leave the window, and the records are on their way. -/
def State.emitSlots (s : State) (σ : Site) (edge : Nat) (os : List OutSlot) (ed : Edge) (depth : Nat) (parent : Option Nat) : State :=
  let gone := os.map (·.idx)
  let s := s.updWg σ.g.id fun g => { g with slots := g.slots.filter fun o => !gone.contains o.idx }
  s.deliverRecords σ.c σ.g (σ.n.edgeIdx edge) ed depth parent (os.map (·.bytes))

def execEmit (o : EmitF) (s : State) : Host.Outcome State Fault Refusal :=
  issueOp (.emit o) s fun σ s =>
    let n := (σ.t.rs s.tick o.b).toNat
    if n = 0 then .done s none none
    else match σ.emitRun (σ.t.rs s.tick o.a).toNat n o.e false with
      | .error c => .raise s c 0 none
      | .ok (os, ed, depth) =>
        if s.edgeOpen ed then .done ((s.emitSlots σ o.e os ed depth none).retryParked σ.c.id) none none else .hold s

def execSpawn (o : SpawnF) (s : State) : Host.Outcome State Fault Refusal :=
  issueOp (.spawn o) s fun σ s =>
    let n := (σ.t.rs s.tick o.b).toNat
    if n = 0 then .done s none (σ.window (.spawn o) [] 0)
    else match σ.emitRun (σ.t.rs s.tick o.a).toNat n o.e true, σ.p, σ.w with
      | .error c, _, _ => .raise s c 0 none
      | .ok (os, ed, depth), .wave g k, some w =>
        let j := (σ.g.join + n) % 2 ^ 32
        let ws : List Write := [⟨.s o.d, j⟩]
        let s := s.updWg g fun g => { g with join := j }
        let s := (s.emitSlots σ o.e os ed depth (some g)).retryParked σ.c.id
        .done (s.updWave g k fun w => w.putAll s.tick ws) none (σ.window (.spawn o) (ws.map fun e => (e.k, w.now e.k)) 0)
      | .ok _, _, _ => .hold s

/-! ## QDEPTH and DONE (R178, R184) -/

def execQdepth (d : SReg) (e : Fin 8) (s : State) : Host.Outcome State Fault Refusal :=
  issueOp (.qdepth d e) s fun σ s =>
    if σ.n.nout ≤ e then .raise s .illegalOperand 0 none
    else match σ.c.edge? (σ.n.edgeIdx e) with
      | none => .raise s .illegalOperand 0 none
      | some ed =>
        let x := min (σ.c.depth ed.target) (2 ^ 32 - 1) + (s.above σ.c ed.target).toNat * 2 ^ 32
        .done (s.updThread σ.p fun t => t.putS s.tick d (BitVec.ofNat 64 x)) none none

def execDone (s : State) : Host.Outcome State Fault Refusal :=
  issueOp .done s fun σ s =>
    if σ.g.doneTaken then .done s none none
    else .done ((s.updWg σ.g.id fun g => { g with doneTaken := true }).retryParked σ.c.id) none none

/-! ## Phase boundaries (R181, R182) -/

/-- The six in-flight counters are 0 and every result is written. -/
def Thread.quiet (t : Thread) : Bool := t.flights.all fun f => !f.counted && (!f.res || f.done)

/-- A wave reaches a phase boundary: checks, its own wait, the release at .DEV (R250), then it waits for the others. -/
def boundaryBody (i : Instr) (join : Bool) (σ : Site) (s : State) : Body :=
  if !σ.n.phased || σ.g.resv.isSome || (match σ.g.boundaryKind with | some k => k != join | none => false) then
    .raise s .illegalOperand 0 none
  else if !σ.t.quiet then .hold s
  else match σ.t.deferredOn .gst with
    | some d => .raise (s.updThread σ.p fun t => t.dropDeferred d) d.cause d.faddr none
    | none =>
      if s.released σ .dev then .done (s.parkAt σ.p (.boundary join)) none none
      else .hold (s.parkAt σ.p (.release i σ.t.pc .dev))

/-- The boundary takes effect once the last wave has reached it. -/
def boundaryOp (i : Instr) (join : Bool) (s : State) : Host.Outcome State Fault Refusal :=
  match issueOp i s (boundaryBody i join), s.cur with
  | .next s', some p => .next (if s.passes i then s'.tryBoundary p.wg else s')
  | r, _ => r

def execJoin (s : State) : Host.Outcome State Fault Refusal := boundaryOp .join true s
def execPhase (s : State) : Host.Outcome State Fault Refusal := boundaryOp .phase false s

/-! ## The gather timer (R167) -/

/-- Workgroups form from a slice whose oldest record has waited the node's timer. -/
def State.gatherTimer (s : State) (ctx node die : Nat) : State :=
  s.updCtx ctx fun c => if s.mayForm c node then c.gather node die (some s.time) else c

def execGatherTimer (ctx node die : Nat) (s : State) : Host.Outcome State Fault Refusal :=
  .next { s.gatherTimer ctx node die with tick := s.tick + 1 }

end Sys2Proof.Machine
end

