-- ==== Sys2Proof/Machine/Tiles.lean ====
section
/-! DEFINITION. Tile registers, accumulators and the arithmetic of products (spec/13_matrix_engine.md R287 to R289, R297, R305 to
R308; spec/03_number_formats.md R82, R83). -/
namespace Sys2Proof.Machine

/-! ## Tiles (R288) -/

/-- A tile register after a grant (R289). -/
def Tile.zero : Tile := ⟨[], 0, [], [], false⟩
def Acc.zero : Acc := ⟨[], []⟩

/-- K of a tag. -/
def tagK : Nat → Nat
  | 1 | 2 => 128
  | 7 | 9 => 512
  | 10 => 64
  | _ => 256
/-- Bits of an element of a tag. -/
def tagBits : Nat → Nat
  | 1 | 2 => 16
  | 5 | 6 => 6
  | 7 | 9 => 4
  | 10 => 32
  | _ => 8
/-- Element size of a tag's record, T0, and scales of a row. -/
def tagGeometry : Nat → Nat × Nat × Nat
  | 1 | 2 => (2, 128, 0)
  | 3 | 4 => (1, 256, 8)
  | 5 | 6 => (1, 192, 8)
  | 7 => (1, 256, 16)
  | 10 => (4, 64, 0)
  | _ => (1, 256, 0)
/-- Tags whose elements have scales. -/
def tagMx (t : Nat) : Bool := 3 ≤ t && t ≤ 7

/-- The tag pairs of R82. -/
def tagsPair (a b : Nat) : Bool :=
  (a == 1 && b == 1) || (a == 2 && b == 2) || (tagMx a && tagMx b) || ((a == 8 || a == 9) && (b == 8 || b == 9))

/-- n bits of a row from a bit on. -/
def Tile.bits (t : Tile) (row lo n : Nat) : Nat :=
  field (fromBytes ((List.range 5).map fun k => Sparse.get 0 t.data (256 * row + lo / 8 + k))) (lo % 8) n
/-- Element k of a row. -/
def Tile.elem (t : Tile) (row k : Nat) : FVal :=
  let x := t.bits row (tagBits t.tag * k) (tagBits t.tag)
  match t.tag with
  | 1 => fBF16.value x
  | 2 => fF16.value x
  | 3 => fE4M3.value x
  | 4 => fE5M2.value x
  | 5 => fE2M3.value x
  | 6 => fE3M2.value x
  | 7 => fE2M1.value x
  | 8 => intV (readInt 8 true x)
  | 9 => intV (readInt 4 true x)
  | _ => fF32.value x
/-- The exponent of scale j of a row, none for a NaN; a tile without scales counts as 1. -/
def Tile.scale (t : Tile) (row j : Nat) : Option Int :=
  if tagMx t.tag then scaleExp (Sparse.get (0x7F : Byte) t.scales (16 * row + j)).toNat else some 0

/-! ## Reads inside a window (R24, R297) -/

/-- Chooses one of two maps at each key. -/
def mixMap {α : Type} [DecidableEq α] (dflt : α) (tick salt unit : Nat) (a b : Sparse α) : Sparse α :=
  (nubNat (a.map (·.1) ++ b.map (·.1))).foldl (fun m k =>
    Sparse.set dflt m k (if Config.freeBit tick (salt + k / unit) then Sparse.get dflt b k else Sparse.get dflt a k)) []

/-- A tile of which each 32-bit word, the tag, each scale and each mark is that of one of two. -/
def mixTile (tick : Nat) (a b : Tile) : Tile :=
  { a with
    data := mixMap 0 tick 100000 4 a.data b.data
    tag := if Config.freeBit tick 99000 then b.tag else a.tag
    scales := mixMap 0x7F tick 110000 1 a.scales b.scales
    marks := (nubNat (a.marks ++ b.marks)).filter fun r =>
      if Config.freeBit tick (99100 + r) then b.marks.contains r else a.marks.contains r }

/-- The flight is still in its window. -/
def Thread.opened (t : Thread) (id : Nat) : Bool := t.flights.any fun f => f.id == id && f.isOpen

/-- A tile as an instruction of a thread reads it. -/
def SeqThread.seeTile (t : SeqThread) (r : Reservation) (tick x : Nat) : Tile :=
  (t.oldTiles.filter fun e => e.2.1 == x && t.t.opened e.1).foldl (fun a e => mixTile tick a e.2.2) (r.tiles.getD x Tile.zero)

def State.updSeq (s : State) (p : Party) (f : SeqThread → SeqThread) : State :=
  s.updWg p.wg fun g => match p with
    | .mseq _ k => g.updSeq true k f
    | .cseq _ k => g.updSeq false k f
    | _ => g
def Workgroup.seqOf (g : Workgroup) : Party → Option SeqThread
  | .mseq _ k => g.seq? true k
  | .cseq _ k => g.seq? false k
  | _ => none
def State.updResv (s : State) (g : Nat) (f : Reservation → Reservation) : State :=
  s.updWg g fun g => { g with resv := g.resv.map f }
/-- Quadrants of a reservation. -/
def Reservation.size (r : Reservation) : Nat := r.tiles.length / 8

/-- An instruction of a thread writes a tile: the register takes it, or, where another instruction wrote it inside the window,
either value word by word (R24). -/
def State.writeTile (s : State) (p : Party) (id x : Nat) (new : Tile) : State :=
  match s.wg? p.wg with
  | none => s
  | some g =>
    match g.resv, g.seqOf p with
    | some r, some t =>
      let cur := r.tiles.getD x Tile.zero
      let inside := t.oldTiles.any (fun e => e.2.1 == x && decide (e.1 < id) && t.t.opened e.1) ||
        (match t.t.flight? id with | some f => f.clob.contains (.x x) | none => false)
      let value := if inside then mixTile s.tick new cur else new
      let s := s.updResv g.id fun r => { r with tiles := setAt r.tiles x fun _ => value }
      let clobber (f : Flight) : Flight := if decide (f.id < id) && !f.done then { f with clob := .x x :: f.clob } else f
      s.updSeq p fun t =>
        { t with
          oldTiles := (t.oldTiles.filter fun e => t.t.opened e.1) ++ (if t.t.opened id then [(id, x, cur)] else [])
          t := { t.t with flights := t.t.flights.map clobber } }
    | _, _ => s

/-! ## Products (R83, R305, R306) -/

def scaledBy (v : FVal) (k : Int) : FVal := match v with | .fin n m e => .fin n m (e + k) | v => v

/-- The exact sum of a block's products. -/
def blockSum (as bs : List FVal) : FVal := (as.zip bs).foldl (fun p e => (addV .rn p (mulV e.1 e.2).1).1) (.fin false 0 0)
/-- S of a block: rounded once. -/
def blockS (as bs : List FVal) (sa sb : Option Int) : Nat :=
  match sa, sb with
  | some x, some y => (fF32.write .rn false (scaledBy (blockSum as bs) (x + y))).bits
  | _, _ => 0x7FC00000
/-- An accumulator element after S is added. -/
def accAdd (acc x : Nat) : Nat := (fF32.write .rn false (addV .rn (fF32.value acc) (fF32.value x)).1).bits

/-- Number of 32-position blocks along K. -/
def Mul.blocks (m : Mul) : Nat :=
  let k := min (tagK m.a.tag) (tagK m.b.tag)
  (if m.sp.isSome then 2 * k else k) / 32

/-- The 32 elements of logical row i of A in block j; under .SP they are spread by an entry of metadata. -/
def Mul.aRow (m : Mul) (i j : Nat) (entry : List Byte) : List FVal :=
  match m.sp with
  | none => (List.range 32).map fun k => m.a.elem i (32 * j + k)
  | some _ =>
    let w := fromBytes ((entry.drop (4 * i)).take 4)
    (List.range 8).flatMap fun g =>
      let x := m.a.elem i (2 * (8 * j + g))
      let y := m.a.elem i (2 * (8 * j + g) + 1)
      (List.range 4).map fun p =>
        let v : FVal := if p = field w (4 * g) 2 then x else .fin false 0 0
        if p = field w (4 * g + 2) 2 then (if p = field w (4 * g) 2 then (addV .rn v y).1 else y) else v
def Mul.aScale (m : Mul) (i j : Nat) : Option Int := m.a.scale i (if m.sp.isSome then j / 2 else j)

/-- The tile and its block that hold block j of B. -/
def Mul.bBlock (m : Mul) (j : Nat) : Tile × Nat :=
  let n := tagK m.b.tag / 32
  match m.sp with
  | some (b', _) => if n ≤ j then (b', j - n) else (m.b, j)
  | none => (m.b, j)
def Mul.bRow (m : Mul) (n j : Nat) : List FVal :=
  let (t, j) := m.bBlock j
  (List.range 32).map fun k => t.elem n (32 * j + k)
def Mul.bScale (m : Mul) (n j : Nat) : Option Int :=
  let (t, j) := m.bBlock j
  t.scale n j

/-- An accumulator with a function applied to every element. -/
def Acc.mapAll (a : Acc) (f : (i n : Nat) → Nat → Nat) : Acc :=
  let one (k : Nat) : Nat × Word := (k, BitVec.ofNat 32 (f (k / 128) (k % 128) (Sparse.get (0 : Word) a.vals k).toNat))
  { a with vals := ((List.range 16384).map one).filter fun e => e.2 != 0 }

/-- One block of a product. -/
def Mul.block (m : Mul) (entry : List Byte) (a : Acc) : Acc :=
  let as := (List.range 128).map fun i => (m.aRow i m.k entry, m.aScale i m.k)
  let bs := (List.range 128).map fun n => (m.bRow n m.k, m.bScale n m.k)
  a.mapAll fun i n x => accAdd x (blockS (as.getD i ([], none)).1 (bs.getD n ([], none)).1 (as.getD i ([], none)).2 (bs.getD n ([], none)).2)

/-- The elements that a mark or a poisoned entry spoils. -/
def Mul.spoiled (m : Mul) (i n : Nat) : Bool :=
  m.allBad || m.a.marks.contains i || m.b.marks.contains n || (match m.sp with | some (t, _) => t.marks.contains n | none => false)

/-- Elements set to NaN and marked. -/
def Acc.spoil (a : Acc) (f : (i n : Nat) → Bool) : Acc :=
  let bad := (List.range 16384).filter fun k => f (k / 128) (k % 128)
  if bad.isEmpty then a
  else
    let a' := a.mapAll fun i n x => if f i n then 0x7FC00000 else x
    { a' with marks := nubNat (bad ++ a.marks) }

/-! ## Adapters (R307, R308) -/

def Adapter.fld (d : Adapter) (lo n : Nat) : Nat := field d.desc.toNat lo n
def Adapter.table (d : Adapter) : Nat := d.fld 448 64
def Adapter.nh (d : Adapter) : Nat := d.fld 416 32
def Adapter.ktot (d : Adapter) : Nat := d.fld 352 32
def Adapter.ntot (d : Adapter) : Nat := d.fld 320 32
def Adapter.noff (d : Adapter) : Nat := d.fld 288 32

/-- The runs of bytes of one handle's matrices that a product reads: rows of A_h and columns of B_h, within KTOT and NTOT. -/
def Adapter.runsA (d : Adapter) (base K : Nat) : List (Nat × Nat) :=
  ((List.range K).filter fun k => d.cursor + k < d.ktot).map fun k => ((base + 2 * d.rank * (d.cursor + k)) % 2 ^ 64, 2 * d.rank)
def Adapter.runsB (d : Adapter) (base : Nat) : List (Nat × Nat) :=
  let n := min 128 (d.ntot - d.noff)
  if n = 0 then [] else (List.range d.rank).map fun j => ((base + 2 * d.ntot * j + 2 * d.noff) % 2 ^ 64, 2 * n)

/-- A BF16 element of what was read. -/
def bfAt (xs : List SectorBytes) (va : Nat) : FVal := fBF16.value (fromBytes (fromSectors xs (va % 2 ^ 64) 2).1)

/-- U of a row: sums over K, block by block, of its elements and a column of A_h. -/
def Mul.adapterU (m : Mul) (d : Adapter) (xs : List SectorBytes) (baseA i j : Nat) : Nat :=
  (List.range m.blocks).foldl (fun acc blk =>
    let col := (List.range 32).map fun k =>
      let row := d.cursor + 32 * blk + k
      if row < d.ktot then bfAt xs (baseA + 2 * (d.rank * row + j)) else .fin false 0 0
    accAdd acc (blockS (m.aRow i blk []) col (m.aScale i blk) (some 0))) 0

/-- What the adapter adds to element n of a row with U. -/
def Adapter.term (d : Adapter) (xs : List SectorBytes) (baseB n : Nat) (u : List Nat) : Nat :=
  let bs := (List.range d.rank).map fun j =>
    if d.noff + n < d.ntot then bfAt xs (baseB + 2 * (d.ntot * j + d.noff + n)) else .fin false 0 0
  (fF32.write .rn false (mulV (fF32.value d.alpha) (blockSum (u.map fF32.value) bs)).1).bits

end Sys2Proof.Machine
end

