-- ==== Sys2Proof/Machine/Matrix.lean ====
section
/-! DEFINITION. Reservations, sequencer programs and the matrix engine (spec/13_matrix_engine.md R290 to R316), and the end of a
wave or a hardware thread (spec/05_control_and_memory_instructions.md R122). -/
namespace Sys2Proof.Machine

/-! ## Reservations (R290, R291) -/

/-- Quadrants of a cluster that no workgroup reserves, in rising order. A saved reservation holds none (R316). -/
def State.freeQuads (s : State) (cluster : Nat) : List Nat := (List.range 4).filter fun q => (s.ownerOfQuad cluster q).isNone

/-- A thread at its program's first instruction (R294). -/
def Thread.start (pc : Nat) (s0 : DWord) : Thread :=
  { pc := pc % 2 ^ 57, sregs := Sparse.set 0 [] 0 s0, fregs := 0, smark := 0, flights := [], nextId := 0, wCluster := 0, wDev := 0,
    wSys := 0, ord := none, park := none, deferred := [], stallFrom := none, acqFences := [] }
/-- An idle hardware thread. -/
def SeqThread.idle (matrix : Bool) (k : Nat) : SeqThread := ⟨matrix, k, Thread.start 0 0, false, (0, 0), none, [], [], []⟩

/-- A reservation of some quadrants as it is granted (R289). -/
def Reservation.grant (quads : List Nat) : Reservation :=
  { quads := quads, tiles := List.replicate (8 * quads.length) Tile.zero, accs := List.replicate (4 * quads.length) Acc.zero,
    queues := [], rdv := []
    threads := (List.range quads.length).map (SeqThread.idle true) ++ (List.range quads.length).map (SeqThread.idle false) }

def execMrsv (f : FReg) (nM1 : Fin 4) (s : State) : Host.Outcome State Fault Refusal :=
  issueOp (.mrsv f nM1) s fun σ s =>
    if f = 0 || σ.g.resv.isSome then .raise s .illegalOperand 0 none
    else
      let free := s.freeQuads σ.g.cluster
      if nM1.val + 1 ≤ free.length then
        let s := s.updWg σ.g.id fun g => { g with resv := some (Reservation.grant (free.take (nM1.val + 1))) }
        .done (s.updThread σ.p fun t => t.putF s.tick f true) none none
      else .done (s.updThread σ.p fun t => t.putF s.tick f false) none none

/-- k such that a mask names the highest k of n quadrants. -/
def topMask (n m : Nat) : Option Nat := ((List.range n).map (· + 1)).find? fun k => m = 2 ^ n - 2 ^ (n - k)

/-- Work of a thread touches a tile, accumulator or quadrant at or above the first k quadrants. -/
def SeqThread.uses (t : SeqThread) (k : Nat) : Bool :=
  t.ops.any (fun o => match o.work with
    | .fill x _ _ _ _ _ => decide (8 * k ≤ x)
    | .mul d _ =>
      decide (4 * k ≤ d) || (match t.t.flight? o.id with
        | some f => (match f.i with
          | .mma m => m.mask == 0 || decide (2 ^ k ≤ m.mask.toNat) || decide (8 * k ≤ m.a.val) || decide (8 * k ≤ m.b.val)
          | _ => false)
        | none => false)
    | .drain d _ _ _ => decide (4 * k ≤ d)) ||
  t.regs.any fun r => r.claims.any fun c => decide (8 * k ≤ c.x)

/-- Keeps the first k quadrants. -/
def Reservation.shrink (r : Reservation) (k : Nat) : Option Reservation :=
  if k = 0 then none
  else some { r with
    quads := r.quads.take k, tiles := r.tiles.take (8 * k), accs := r.accs.take (4 * k)
    queues := r.queues.filter fun e => e.1 < k
    threads := r.threads.filter fun t => t.idx < k }

def execMrel (m : BitVec 4) (s : State) : Host.Outcome State Fault Refusal :=
  issueOp (.mrel m) s fun σ s =>
    match σ.g.resv with
    | none => .raise s .illegalOperand 0 none
    | some r =>
      match topMask r.size m.toNat with
      | none => .raise s .illegalOperand 0 none
      | some k =>
        let keep := r.size - k
        if r.threads.any fun t => (t.running && decide (keep ≤ t.idx)) || t.regs.any fun e => decide (keep * 2 ^ 19 < e.win + 2048 * e.frames) then
          .raise s .illegalOperand 0 none
        else if r.threads.any fun t => t.uses keep then .hold s
        else .done (s.updWg σ.g.id fun g => { g with resv := g.resv.bind fun r => r.shrink keep }) none none

/-! ## Programs (R293 to R295) -/

/-- An entry outside its section, or one for an absent section. -/
def entryBad (sec len entry : Nat) : Bool := if sec = 0 then entry != 0 else decide (len ≤ 4 * entry)

/-- Starts a program on a hardware thread. -/
def Reservation.startOn (r : Reservation) (matrix : Bool) (k : Nat) (pc : Nat) (s0 : DWord) (fork : Nat × Nat) : Reservation :=
  { r with threads := r.threads.map fun t =>
      if t.matrix = matrix ∧ t.idx = k then { SeqThread.idle matrix k with t := Thread.start pc s0, running := true, fork := fork } else t }

def execFork (o : ForkF) (s : State) : Host.Outcome State Fault Refusal :=
  issueOp (.fork o) s fun σ s =>
    match σ.g.resv, σ.p with
    | some r, .wave _ k =>
      if decide (r.size ≤ o.t.val) || entryBad σ.n.msec σ.n.mlen o.me.toNat || entryBad σ.n.cseq σ.n.clen o.ce.toNat then
        .raise s .illegalOperand 0 none
      else if r.threads.any fun t => t.idx == o.t.val && t.running then .hold s
      else
        let s0 := σ.t.rs s.tick o.a
        let fork := (k, σ.t.nextId)
        let start (matrix : Bool) (sec entry : Nat) (r : Reservation) : Reservation :=
          if sec = 0 then r else r.startOn matrix o.t.val (sec + 4 * entry) s0 fork
        let s := s.updResv σ.g.id fun r => start false σ.n.cseq o.ce.toNat (start true σ.n.msec o.me.toNat r)
        .done s none (some { σ.flight (.fork o) false [] with done := σ.n.msec = 0 && σ.n.cseq = 0 })
    | _, _ => .raise s .illegalOperand 0 none

/-! ## The rendezvous (R296) -/

def Party.isWave : Party → Bool
  | .wave _ _ => true
  | _ => false
def SeqThread.party (g : Nat) (t : SeqThread) : Party := if t.matrix then .mseq g t.idx else .cseq g t.idx

/-- Every party of a point is among those arrived. -/
def Reservation.complete (r : Reservation) (g point : Nat) (arrived : List Party) : Bool :=
  r.threads.all (fun t => !t.running || arrived.contains (SeqThread.party g t)) && (point < 8 || arrived.any Party.isWave)

/-- The rounds of a point, oldest first. -/
def Reservation.rounds (r : Reservation) (point : Nat) : List (List Party) :=
  ((r.rdv.filter fun e => e.1 == point).map (·.2.2))

/-- Completes every round of a workgroup that can: its parties acquire and continue. A later round of the point comes next. -/
def State.tryRdv (s : State) (g : Nat) : (fuel : Nat) → State
  | 0 => s
  | fuel + 1 =>
    match (s.wg? g).bind (·.resv) with
    | none => s
    | some r =>
      let first (e : Nat × Nat × List Party) : Bool := !r.rdv.any fun d => d.1 == e.1 && decide (d.2.1 < e.2.1)
      match r.rdv.find? fun e => first e && r.complete g e.1 e.2.2 with
      | none => s
      | some e =>
        let s := s.updResv g fun r => { r with rdv := r.rdv.erase e }
        let s := e.2.2.foldl (fun s p => s.updThread p fun t => { t.acquire t.nextId with park := none }) s
        s.tryRdv g fuel

/-- A party arrives: in the first round that it is not in, and a wave in the first that no wave is in. -/
def Reservation.arrive (r : Reservation) (p : Party) (point : Nat) : Reservation × Nat :=
  let mine := r.rdv.filter fun e => e.1 == point
  let here (e : Nat × Nat × List Party) : Bool := if Party.isWave p then e.2.2.any Party.isWave else e.2.2.contains p
  match mine.find? (fun e => !here e) with
  | some e => ({ r with rdv := r.rdv.map fun d => if d == e then (e.1, e.2.1, p :: e.2.2) else d }, e.2.1)
  | none =>
    let n := mine.foldl (fun n e => max n (e.2.1 + 1)) 0
    ({ r with rdv := r.rdv ++ [(point, n, [p])] }, n)

/-- The party parks, and the round completes if it was the last. -/
def rdvBody (σ : Site) (s : State) (r : Reservation) (point : Nat) : Body :=
  let (r', n) := r.arrive σ.p point
  let s := (s.updResv σ.g.id fun _ => r').parkAt σ.p (.rdv point n)
  .done (s.tryRdv σ.g.id 8) none none

def execRdv (p : Fin 16) (s : State) : Host.Outcome State Fault Refusal :=
  issueOp (.rdv p) s fun σ s =>
    match σ.g.resv with
    | none => .raise s .illegalOperand 0 none
    | some r =>
      if σ.p.executor == .core then
        if p.val < 8 then .raise s .illegalOperand 0 none
        else if !σ.t.drained then .hold s
        else rdvBody σ s r p.val
      else syncThen σ s (rdvBody σ s r p.val)

/-! ## EXIT (R122, R295) -/

/-- A FORK is complete once both threads of its pair have ended. -/
def State.forkEnd (s : State) (g pair : Nat) (fork : Nat × Nat) : State :=
  match (s.wg? g).bind (·.resv) with
  | none => s
  | some r =>
    if r.threads.any fun t => t.idx == pair && t.running then s
    else s.updThread (.wave g fork.1) fun t => (t.updFlight fork.2 fun f => { f with done := true }).settleFlights

/-- A hardware thread ends: it leaves the parties of every rendezvous point. -/
def State.endThread (s : State) (p : Party) : State :=
  match (s.wg? p.wg).bind fun g => g.seqOf p with
  | none => s
  | some t =>
    let s := s.updSeq p fun t => { t with running := false, adp := none, regs := [], oldTiles := [] }
    (s.forkEnd p.wg t.idx t.fork).tryRdv p.wg 64

def execExit (s : State) : Host.Outcome State Fault Refusal :=
  issueOp .exit s fun σ s =>
    match σ.p with
    | .wave g k => .done (s.endWave g k) none none
    | p => syncThen σ s (.done (s.endThread p) none none)

/-- MSYNC (R298). -/
def execMsync (s : State) : Host.Outcome State Fault Refusal :=
  issueOp .msync s fun σ s => syncThen σ s (.done (s.updThread σ.p Thread.assureAll) none none)

/-! ## Filling tile registers (R299 to R301) -/

def State.addOp (s : State) (σ : Site) (w : MatWork) : State :=
  s.updSeq σ.p fun t => { t with ops := t.ops ++ [⟨σ.t.nextId, w, none, false⟩] }

/-- MLD and MFT issue; the engine reads the record and the tile afterwards. -/
def fillOp (i : Instr) (o : MldF) (pin : Bool) (s : State) : Host.Outcome State Fault Refusal :=
  issueOp i s fun σ s =>
    match σ.g.resv with
    | none => .raise s .illegalOperand 0 none
    | some r =>
      if 8 * r.size ≤ o.d.val then .raise s .illegalOperand 0 none
      else .done (s.addOp σ (.fill o.d o.tag.code pin (σ.t.rs s.tick o.a).toNat (σ.t.rs s.tick o.b).toNat [])) none (some (σ.flight i true []))

def execMld (o : MldF) (s : State) : Host.Outcome State Fault Refusal := fillOp (.mld o) o false s
def execMft (o : MldF) (s : State) : Host.Outcome State Fault Refusal := fillOp (.mft o) o true s

/-- An instruction of the engine is finished; what peers returned to it and it did not use is dropped. -/
def State.opDone (s : State) (p : Party) (id : Nat) : State :=
  (s.endReads (.flight p id)).updSeq p fun t =>
    { t with
      ops := t.ops.filter fun o => o.id != id
      t := (t.t.updFlight id fun f => { f with done := true }).settleFlights }

/-- A cause that the engine meets in an instruction; after a page fault it waits for the restore. -/
def State.opCause (s : State) (p : Party) (f : Flight) (c : Cause) (faddr : Nat) : State :=
  let s := if c == .pageFault then
      s.updSeq p fun t => { t with ops := t.ops.map fun o => if o.id = f.id then { o with faulted := true } else o }
    else s
  s.take p ⟨c, va64 f.pc, faddr, none, false, 0⟩

/-- The element record's checks for a tag, and T1. -/
def fillGeometry (tag : Nat) (t : Tensor) (coord : Nat) : Bool :=
  let (e, t0, _) := tagGeometry tag
  t.elt == e && t.tile.getD 0 0 == t0 && t.tile.getD 1 0 ≤ 128 && [2, 3, 4].all (fun k => t.tile.getD k 1 == 1) && field coord 60 4 == 0

/-- The scale record agrees with the element record (R300). -/
def scalesAgree (tag : Nat) (t u : Tensor) : Bool :=
  let (_, _, n) := tagGeometry tag
  u.elt == 1 && u.tile.getD 0 0 == n && u.rank == t.rank && u.tile.getD 1 0 == t.tile.getD 1 0 && u.org.getD 1 0 == t.org.getD 1 0 &&
    u.oob == t.oob

/-- Where the elements of row r of a record's tile are. -/
def Tensor.rowAt (t : Tensor) (coord r : Nat) : List (Option Nat) :=
  (List.range (t.tile.getD 0 0)).map fun j => t.readAt coord [j, r, 0, 0, 0]
def Tensor.rowRuns (t : Tensor) (coord : Nat) : List (Nat × Nat) :=
  (List.range (t.tile.getD 1 0)).flatMap fun r =>
    (nubNat ((t.rowAt coord r).filterMap fun a => a.map (· / 32))).map fun sec => (32 * sec, 32)

/-- A row's bytes, and whether a poisoned sector supplies any. -/
def Tensor.rowBytes (t : Tensor) (xs : List SectorBytes) (coord r : Nat) : List Byte × Bool :=
  let es := (t.rowAt coord r).map fun a => match a with
    | some va => fromSectors xs va t.elt
    | none => (zeros t.elt, false)
  (es.flatMap (·.1), es.any (·.2))

/-- The tile that a fill makes of what was read. A row past T1 reads as zero; its scales are 1. -/
def filledTile (tag : Nat) (pin : Bool) (t : Tensor) (sc : Option Tensor) (xs : List SectorBytes) (coord : Nat) : Tile :=
  let rows := (List.range (t.tile.getD 1 0)).map fun r => (r, t.rowBytes xs coord r)
  let srows := match sc with
    | some u => (List.range (u.tile.getD 1 0)).map fun r => (r, u.rowBytes xs coord r)
    | none => []
  { tag := tag, pinned := pin
    data := rows.foldl (fun m e => (located (256 * e.1) e.2.1).foldl (fun m b => Sparse.set 0 m b.1 b.2) m) []
    scales := srows.foldl (fun m e => (located (16 * e.1) e.2.1).foldl (fun m b => Sparse.set 0x7F m b.1 b.2) m) []
    marks := nubNat ((rows ++ srows).filterMap fun e => if e.2.2 then some e.1 else none) }

/-- A fill cannot go on: a cause, or a wait. -/
def State.fillHeld (s : State) (σ : Site) (f : Flight) : EngRead → State
  | .cause c fa => s.opCause σ.p f c fa
  | _ => s

/-- The fill reads its tile and its scales and writes the register. Bytes that it pins leave less room in the cluster cache (R1, R301). -/
def State.fillTile (s : State) (σ : Site) (f : Flight) (x tag : Nat) (pin : Bool) (coord : Nat) (t : Tensor) (sc : Option Tensor) : State :=
  match s.gather (.flight σ.p f.id) σ.c.id σ.g.cluster (va64 f.pc)
      (t.rowRuns coord ++ (match sc with | some u => u.rowRuns coord | none => [])) with
  | (s, .error r) => s.fillHeld σ f r
  | (s, .ok xs) =>
    (((s.writeTile σ.p f.id x (filledTile tag pin t sc xs coord)).opDone σ.p f.id).trimCache σ.g.cluster none).walkAhead σ.c.id t coord

/-- The fill keeps a record that it has read. -/
def State.keepRecord (s : State) (p : Party) (id : Nat) (t : Option Tensor) : State :=
  let add : MatWork → MatWork
    | .fill x tag pin va coord recs => .fill x tag pin va coord (recs ++ [t])
    | w => w
  s.updSeq p fun q => { q with ops := q.ops.map fun o => if o.id = id then { o with work := add o.work } else o }

/-- The scale record of a fill of an MX format, and its checks (R300). -/
def State.fillScales (s : State) (σ : Site) (f : Flight) (x tag : Nat) (pin : Bool) (va coord : Nat) (t : Tensor) : State :=
  match s.engRead (.flight σ.p f.id) σ.c.id σ.g.cluster ((va + 128) % 2 ^ 64) 128 (va64 f.pc) with
  | (s, .got bs _) =>
    if field (fromBytes bs) 0 64 = 0 then (s.keepRecord σ.p f.id none).fillTile σ f x tag pin coord t none
    else match tensorOf bs with
      | .error c => s.opCause σ.p f c 0
      | .ok u =>
        if scalesAgree tag t u then (s.keepRecord σ.p f.id (some u)).fillTile σ f x tag pin coord t (some u)
        else s.opCause σ.p f .illegalOperand 0
  | (s, r) => s.fillHeld σ f r

/-- A fill reads each of its records once, then its tile. -/
def State.fill (s : State) (σ : Site) (f : Flight) (x tag : Nat) (pin : Bool) (va coord : Nat) (recs : List (Option Tensor)) : State :=
  match recs with
  | some t :: sc :: _ => s.fillTile σ f x tag pin coord t sc
  | [some t] => if tagMx tag then s.fillScales σ f x tag pin va coord t else s.fillTile σ f x tag pin coord t none
  | _ =>
    match s.readTensor (.flight σ.p f.id) σ.c.id σ.g.cluster va (va64 f.pc) with
    | (s, .error r) => s.fillHeld σ f r
    | (s, .ok t) =>
      if !fillGeometry tag t coord then s.opCause σ.p f .illegalOperand 0
      else
        let s := s.keepRecord σ.p f.id (some t)
        if tagMx tag then s.fillScales σ f x tag pin va coord t else s.fillTile σ f x tag pin coord t none

/-- Earlier stores of the thread that are on their way. -/
def State.ownQueued (s : State) (p : Party) (id : Nat) : Bool :=
  s.queue.any fun e => e.times.isNone && !s.engineOwned e.owner && (match e.owner with | .flight q k => q == p && decide (k < id) | _ => false)

/-- The engine goes on with a thread's work: its context runs, and its workgroup is not saved. -/
def Site.engineLive (σ : Site) : Bool :=
  σ.c.run == .running && (σ.g.status == .resident || σ.g.status == .ending || σ.g.status == .stopped)

def State.tileFill (s : State) (p : Party) (id : Nat) : State :=
  match s.siteOf p with
  | none => s
  | some σ =>
    match (σ.g.seqOf p).bind (fun t => t.ops.find? fun o => o.id == id), σ.t.flight? id with
    | some o, some f =>
      if !σ.engineLive || o.faulted || σ.t.acqBars id || s.ownQueued p id then s
      else match o.work with
        | .fill x tag pin va coord recs => s.fill σ f x tag pin va coord recs
        | _ => s
    | _, _ => s

def execTileFill (p : Party) (id : Nat) (s : State) : Host.Outcome State Fault Refusal :=
  .next { s.tileFill p id with tick := s.tick + 1 }

/-! ## One-word forms (R303, R306) -/

/-- An accumulator is still to be added to or drained by an earlier instruction of the thread. -/
def SeqThread.pendingOn (t : SeqThread) (d id : Nat) : Bool :=
  t.ops.any fun o => decide (o.id < id) && (match o.work with
    | .mul e _ => e == d
    | .drain e _ _ _ => e == d
    | _ => false)

/-- A form that names a tile register or an accumulator below a bound of its reservation. -/
def matrixOp (i : Instr) (s : State) (f : Site → State → Reservation → SeqThread → Body) : Host.Outcome State Fault Refusal :=
  issueOp i s fun σ s =>
    match σ.g.resv, σ.g.seqOf σ.p with
    | some r, some t => f σ s r t
    | _, _ => .raise s .illegalOperand 0 none

def execMzero (d : AReg) (s : State) : Host.Outcome State Fault Refusal :=
  matrixOp (.mzero d) s fun σ s r t =>
    if 4 * r.size ≤ d.val then .raise s .illegalOperand 0 none
    else if t.pendingOn d σ.t.nextId then .hold s
    else .done (s.updResv σ.g.id fun r => { r with accs := setAt r.accs d fun _ => Acc.zero }) none none

/-- MTAG leaves a POISON tag; it writes the register, so an alias ends (R301). -/
def execMtag (d : XReg) (t : Fmt) (s : State) : Host.Outcome State Fault Refusal :=
  matrixOp (.mtag d t) s fun σ s r _ =>
    if 8 * r.size ≤ d.val then .raise s .illegalOperand 0 none
    else
      let x := r.tiles.getD d Tile.zero
      .done (s.writeTile σ.p σ.t.nextId d { x with tag := if x.tag = 15 then 15 else t.code, pinned := false }) none none

def execMunpin (d : XReg) (s : State) : Host.Outcome State Fault Refusal :=
  matrixOp (.munpin d) s fun σ s r _ =>
    if 8 * r.size ≤ d.val then .raise s .illegalOperand 0 none
    else if (r.tiles.getD d Tile.zero).pinned then .done (s.writeTile σ.p σ.t.nextId d Tile.zero) none none
    else .done s none none

def execMqbind (q : Fin 4) (a : SReg) (s : State) : Host.Outcome State Fault Refusal :=
  matrixOp (.mqbind q a) s fun σ s _ _ =>
    let x := (σ.t.rs s.tick a).toNat
    if x / 32 != 0 then .raise s .illegalOperand 0 none
    else .done (s.updResv σ.g.id fun r => r.setQueue (Party.pair σ.p) q ⟨x + 1, []⟩) none none

/-! ## MADP (R307) -/

/-- The alignment that R307 asks of a descriptor's fields. 0xFFFF_FFFF as ROWH is no exception: it is a handle word that means no adapter
(R308, log 142). -/
def adapterBad (d : Adapter) : Option Cause :=
  if d.table % 16 != 0 || d.fld 384 32 % 4 != 0 then some .misaligned else none

def execMadp (o : MadpF) (s : State) : Host.Outcome State Fault Refusal :=
  matrixOp (.madp o) s fun σ s _ _ =>
    let va := (σ.t.rs s.tick o.a).toNat
    if va % 64 != 0 then .raise s .misaligned va none
    else if σ.t.acqBars σ.t.nextId || s.ownQueued σ.p σ.t.nextId then .hold s
    else match s.engRead (.flight σ.p σ.t.nextId) σ.c.id σ.g.cluster va 64 (va64 σ.t.pc) with
      | (s, .cause c fa) => .raise s c fa none
      | (s, .later) | (s, .moving) => .hold s
      | (s, .got bs _) =>
        let d : Adapter := ⟨BitVec.ofNat 512 (fromBytes bs), [], (σ.t.rs s.tick o.b).toNat % 2 ^ 32, o.r.toNat, 0⟩
        let rowh := d.fld 384 32
        match adapterBad d with
        | some c => .raise s c (if d.table % 16 != 0 then d.table else rowh) none
        | none =>
          if σ.g.scratchSize < rowh + 512 then .raise s .scratchBound rowh none
          else if d.fld 0 288 != 0 || d.nh = 0 then .raise s .illegalOperand 0 none
          else if σ.g.scratchMarked rowh 512 then .raise s .eccScratch rowh none
          else
            let hs := (List.range 128).map fun k => σ.g.scratchRead (rowh + 4 * k) 4
            .done (s.updSeq σ.p fun t => { t with adp := some { d with handles := hs } }) none none

/-! ## MMA (R304 to R308) -/

/-- The first check of R304 that fails. -/
def mmaCheck (o : MmaF) (r : Reservation) (t : SeqThread) (tick pair : Nat) : Option Cause :=
  let outside (x : Nat) : Bool := decide (8 * r.size ≤ x)
  if decide (4 * r.size ≤ o.d.val) || outside o.a || outside o.b || (o.sp && outside (o.b.val + 1)) || decide (2 ^ r.size ≤ o.mask.toNat) ||
      (o.sp && o.adp) || (o.sp && o.b.val % 2 == 1) || (o.sp && (r.queue? pair o.q).isNone) || (o.adp && t.adp.isNone) || (o.q != 0 && !o.sp) then
    some .illegalOperand
  else
    let a := (t.seeTile r tick o.a).tag
    let b := (t.seeTile r tick o.b).tag
    let c := (t.seeTile r tick (o.b.val + 1)).tag
    if a = 15 || b = 15 || (o.sp && c = 15) then some .ringCorrupt
    else if !tagsPair a b || (o.sp && b != c) then some .formatPairing
    else none

/-- MMA issues with its operands read; its blocks follow. -/
def execMma (o : MmaF) (s : State) : Host.Outcome State Fault Refusal :=
  matrixOp (.mma o) s fun σ s r t =>
    match mmaCheck o r t s.tick (Party.pair σ.p) with
    | some c => .raise s c 0 none
    | none =>
      let m : Mul := { a := t.seeTile r s.tick o.a, b := t.seeTile r s.tick o.b, k := 0, allBad := false
                       sp := if o.sp then some (t.seeTile r s.tick (o.b.val + 1), o.q.val) else none
                       adp := if o.adp then t.adp else none }
      let s := if o.adp then s.updSeq σ.p fun t => { t with adp := t.adp.map fun d => { d with cursor := d.cursor + 32 * m.blocks } } else s
      .done (s.addOp σ (.mul o.d m)) none (some (σ.flight (.mma o) true []))

/-- The product is whole: spoiled elements become NaN and marked. -/
def State.mulEnd (s : State) (p : Party) (id d : Nat) (spoiled : (i n : Nat) → Bool) : State :=
  (s.updResv p.wg fun r => { r with accs := setAt r.accs d fun a => a.spoil spoiled }).opDone p id

/-- One K block of a product: the last one marks what is spoiled, unless an adapter term follows. -/
def State.mulBlock (s : State) (σ : Site) (id d : Nat) (m : Mul) : State :=
  let go (s : State) (entry : List Byte) (bad : Bool) : State :=
    let m' := { m with k := m.k + 1, allBad := m.allBad || bad }
    let s := s.updResv σ.g.id fun r => { r with accs := setAt r.accs d fun a => m.block entry a }
    if m'.k = m.blocks ∧ m.adp.isNone then s.mulEnd σ.p id d m'.spoiled
    else s.updSeq σ.p fun t => { t with ops := t.ops.map fun o => if o.id = id then { o with work := .mul d m' } else o }
  match m.sp, σ.g.resv with
  | some (_, q), some r =>
    match r.queue? (Party.pair σ.p) q with
    | some mq =>
      match mq.entries with
      | [] => s
      | (e, bad) :: rest => go (s.updResv σ.g.id fun r => r.setQueue (Party.pair σ.p) q { mq with entries := rest }) e bad
    | none => s
  | _, _ => go s [] false

/-- What the handles of a product name: for each handle in use, the addresses of its two matrices. -/
def handleTable (d : Adapter) (xs : List SectorBytes) : List (Nat × Nat × Nat × Bool) :=
  ((nubNat d.handles).filter fun h => h < d.nh).map fun h =>
    let e := fromSectors xs ((d.table + 16 * h) % 2 ^ 64) 16
    (h, field (fromBytes e.1) 0 64, field (fromBytes e.1) 64 64, e.2)

/-- The entries of the handle table that a product reads, once; it keeps them until it has read what they name. -/
def State.mulTable (s : State) (σ : Site) (f : Flight) (d : Nat) (m : Mul) (ad : Adapter) : State × Except EngRead (List SectorBytes) :=
  match m.table with
  | some xs => (s, .ok xs)
  | none =>
    let tab := ((nubNat ad.handles).filter fun h => h < ad.nh).map fun h => ((ad.table + 16 * h) % 2 ^ 64, 16)
    match s.gather (.flight σ.p f.id) σ.c.id σ.g.cluster (va64 f.pc) tab with
    | (s, .ok xs) =>
      (s.updSeq σ.p fun t => { t with ops := t.ops.map fun o =>
        if o.id = f.id then { o with work := .mul d { m with table := some xs } } else o }, .ok xs)
    | r => r

/-- The adapter term of a product (R308). A poisoned entry of the handle table names nothing to read: it only marks its rows. -/
def State.mulAdapter (s : State) (σ : Site) (f : Flight) (d : Nat) (m : Mul) (ad : Adapter) : State :=
  let who : Owner := .flight σ.p f.id
  let ia := va64 f.pc
  match s.mulTable σ f d m ad with
  | (s, .error (.cause c fa)) => s.opCause σ.p f c fa
  | (s, .error _) => s
  | (s, .ok xs) =>
    let hs := handleTable ad xs
    let runs (h : Nat × Nat × Nat × Bool) : List (Nat × Nat) := ad.runsA h.2.1 (32 * m.blocks) ++ ad.runsB h.2.2.1
    match s.gather who σ.c.id σ.g.cluster ia ((hs.filter fun h => !h.2.2.2).flatMap runs) with
    | (s, .error (.cause c fa)) => s.opCause σ.p f c fa
    | (s, .error _) => s
    | (s, .ok ys) =>
      let poisoned (h : Nat × Nat × Nat × Bool) : Bool := h.2.2.2 || (runs h).any fun e => (fromSectors ys e.1 e.2).2
      let handle (i : Nat) : Nat := ad.handles.getD i (2 ^ 32 - 1)
      let us := (List.range 128).map fun i => match hs.find? (fun h => h.1 == handle i) with
        | some h => (List.range ad.rank).map fun j => m.adapterU ad ys h.2.1 i j
        | none => []
      let bad (i n : Nat) : Bool := m.spoiled i n || (handle i != 2 ^ 32 - 1 && (match hs.find? (fun h => h.1 == handle i) with
        | some h => poisoned h
        | none => true))
      let add (i n x : Nat) : Nat := match hs.find? (fun h => h.1 == handle i) with
        | some h => accAdd x (ad.term ys h.2.2.1 n (us.getD i []))
        | none => x
      (s.updResv σ.g.id fun r => { r with accs := setAt r.accs d fun a => a.mapAll add }).mulEnd σ.p f.id d bad

/-! ## Draining accumulators (R309 to R311) -/

/-- A drain's record fits its tag. -/
def drainGeometry (tag : Fmt) (t : Tensor) (coord : Nat) : Bool :=
  t.elt == drainBytes tag && t.tile.getD 0 0 ≤ 128 && t.tile.getD 1 0 ≤ 128 && [2, 3, 4].all (fun k => t.tile.getD k 1 == 1) &&
    field coord 60 4 == 0

/-- The record of MST or a global MSTA, read as the instruction issues. -/
def drainRecord (σ : Site) (s : State) (tag : Fmt) (va coord : Nat) : State × Except EngRead Tensor :=
  if σ.t.acqBars σ.t.nextId || s.ownQueued σ.p σ.t.nextId then (s, .error .later)
  else match s.readTensor (.flight σ.p σ.t.nextId) σ.c.id σ.g.cluster va (va64 σ.t.pc) with
    | (s, .ok t) => if drainGeometry tag t coord then (s, .ok t) else (s, .error (.cause .illegalOperand 0))
    | r => r

/-- A drain issues once its record is read; its writes follow, and the tile translator walks ahead (R236). -/
def drainIssue (i : Instr) (σ : Site) (a : Nat) (tag : Fmt) (rm : Rm) (b : Nat) (add : Bool) (idx : Option (List Nat)) (s : State) : Body :=
  let coord := (σ.t.rs s.tick (b + 1)).toNat
  match drainRecord σ s tag (σ.t.rs s.tick b).toNat coord with
  | (s, .error (.cause c fa)) => .raise s c fa none
  | (s, .error _) => .hold s
  | (s, .ok t) => .done ((s.addOp σ (.drain a tag rm (.mem t coord add idx))).walkAhead σ.c.id t coord) none (some (σ.flight i false []))

def execMst (o : MstF) (s : State) : Host.Outcome State Fault Refusal :=
  matrixOp (.mst o) s fun σ s r _ =>
    if 4 * r.size ≤ o.a.val then .raise s .illegalOperand 0 none
    else drainIssue (.mst o) σ o.a o.tag o.rm o.b false none s

/-- The index words of .IX, or a cause. -/
def indexWords (σ : Site) (tick : Nat) : Option SReg → Except (Cause × Nat) (Option (List Nat))
  | none => .ok none
  | some d =>
    let off := (σ.t.rs tick d).toNat % 2 ^ 32
    if off % 4 != 0 then .error (.misaligned, off)
    else if σ.g.scratchSize < off + 512 then .error (.scratchBound, off)
    else if σ.g.scratchMarked off 512 then .error (.eccScratch, off)
    else .ok (some ((List.range 128).map fun k => σ.g.scratchRead (off + 4 * k) 4))

def execMsta (o : MstaF) (s : State) : Host.Outcome State Fault Refusal :=
  matrixOp (.msta o) s fun σ s r _ =>
    if 4 * r.size ≤ o.a.val then .raise s .illegalOperand 0 none
    else match indexWords σ s.tick o.ix with
      | .error (c, a) => .raise s c a none
      | .ok idx =>
        match o.sp with
        | .g => drainIssue (.msta o) σ o.a o.tag o.rm o.b true idx s
        | .s =>
          let off := (σ.t.rs s.tick o.b).toNat % 2 ^ 32
          let y := (σ.t.rs s.tick (o.b.val + 1)).toNat
          let stride := field y 0 32
          let rows := field y 32 8 + 1
          let cols := field y 40 8 + 1
          let n := drainBytes o.tag
          if off % n != 0 || stride % n != 0 then .raise s .misaligned (if off % n != 0 then off else stride) none
          else if field y 48 16 != 0 || 128 < cols || (128 < rows && idx.isNone) then .raise s .illegalOperand 0 none
          else .done (s.addOp σ (.drain o.a o.tag o.rm (.pad off stride rows cols idx))) none (some (σ.flight (.msta o) false []))

/-- Rows of the accumulator that a drain takes, each with its target row where an index gives it. -/
def drainRows (n : Nat) : Option (List Nat) → List (Nat × Option Nat)
  | none => (List.range n).map fun i => (i, none)
  | some idx => ((List.range 128).map fun i => (i, some (idx.getD i 0))).filter fun e => e.2 != some (2 ^ 32 - 1)

/-- One element of a drain: address, binary32 value, mark. -/
structure Drained where
  va : Nat
  x : Nat
  bad : Bool
  deriving DecidableEq, Repr

/-- The elements that a drain to memory writes; those out of bounds are dropped. -/
def Tensor.drained (t : Tensor) (coord : Nat) (idx : Option (List Nat)) (a : Acc) : List Drained :=
  (drainRows (t.tile.getD 1 0) idx).flatMap fun (i, row) =>
    (List.range (t.tile.getD 0 0)).filterMap fun j =>
      let at0 := t.index coord [j, i, 0, 0, 0]
      let ix : List Int := match row with | some k => (List.range 5).map fun m => if m = 1 then (k : Int) else at0.getD m 0 | none => at0
      if t.inside ix then
        some ⟨t.at_ ix, (Sparse.get (0 : Word) a.vals (128 * i + j)).toNat, a.marks.contains (128 * i + j)⟩
      else none

/-- Bits of an accumulator element converted by MST (R309). -/
def drainBits (tag : Fmt) (rm : Rm) (x : Nat) : Nat :=
  let v := fF32.value x
  match tag with
  | .bf16 => (cvtToFloat .bf16 rm false false v).bits
  | .fp16 => (cvtToFloat .f16 rm false false v).bits
  | .e4m3 => (cvtToFloat .e4m3 rm true false v).bits
  | .e5m2 => (cvtToFloat .e5m2 rm true false v).bits
  | _ => (cvtToFloat .f32 rm false false v).bits

/-- Places of pages, one translation each. -/
def State.pagePlaces (s : State) (c : Context) (need : Need) : List Nat → Except EngRead (List (Nat × Nat × Nat × Nat × Bool))
  | [] => .ok []
  | v :: vs =>
    match s.translate c (4096 * v) need, s.pagePlaces c need vs with
    | .cause k, _ => .error (.cause k (4096 * v))
    | .wait moving, _ => .error (if moving then .moving else .later)
    | _, .error r => .error r
    | .ok pa key lease host, .ok rest => .ok ((v, pa, key, lease, host) :: rest)

/-- The store-queue entries of a drain: one for each sector written, or one for each line added to. -/
def drainEntries (owner : Owner) (ctx cluster : Nat) (tag : Fmt) (rm : Rm) (add : Bool)
    (es : List (Drained × Nat × Nat × Nat × Bool)) : List QEntry :=
  let n := drainBytes tag
  if add then
    (nubNat (es.map fun e => lineOf e.2.1)).filterMap fun l =>
      let mine := es.filter fun e => lineOf e.2.1 == l
      mine.head?.map fun h =>
        let acc (e : Drained × Nat × Nat × Nat × Bool) (k : Nat) : Access :=
          { Access.mk0 k e.1.va with pa := some e.2.1, v := e.1.x, bad := e.1.bad }
        { n := 0, owner := owner, ctx := ctx, cluster := cluster, core := none, kind := .accum tag rm, line := l, key := h.2.2.1,
          lease := h.2.2.2.1, host := h.2.2.2.2, bytes := [(h.2.1, 0)], accs := mine.zipWith acc (List.range mine.length),
          times := none, held := false, bad := false }
  else
    (nubNat (es.map fun e => sectorOf e.2.1)).flatMap fun sec =>
      let mine := es.filter fun e => sectorOf e.2.1 == sec
      match mine with
      | [] => []
      | h :: _ => engEntries owner ctx cluster 0 h.1.va (h.2.1, h.2.2) (mine.flatMap fun e => located e.2.1 (leBytes n (drainBits tag rm e.1.x)))
          (mine.any fun e => e.1.bad)

/-- A drain's writes begin to wait, for credit or for the end of a page's move (R241, R284, R313). -/
def State.drainStalls (s : State) (p : Party) (id : Nat) : State :=
  s.updSeq p fun q => { q with ops := q.ops.map fun o => if o.id = id then { o with stallFrom := o.stallFrom.or (some s.time) } else o }

/-- A drain to memory: every page it needs is translated, and its writes enter the queue under the write-lane bucket. -/
def State.drainMem (s : State) (σ : Site) (f : Flight) (tag : Fmt) (rm : Rm) (t : Tensor) (coord : Nat) (add : Bool)
    (idx : Option (List Nat)) (a : Acc) : State :=
  let es := t.drained coord idx a
  match s.pagePlaces σ.c (if add then .both else .write) (nubNat (es.map fun e => e.va / 4096)) with
  | .error (.cause c fa) => s.opCause σ.p f c fa
  | .error .moving => s.drainStalls σ.p f.id
  | .error _ => s
  | .ok ps =>
    let place (v : Nat) : Nat × Nat × Nat × Bool := match ps.find? (fun p => p.1 == v / 4096) with
      | some p => (p.2.1 + v % 4096, p.2.2)
      | none => (0, 0, 0, false)
    let xs := es.map fun e => (e, place e.va)
    let sectors := (nubNat (xs.map fun e => sectorOf e.2.1)).length
    if !s.covers σ.c (32 * sectors) then s.drainStalls σ.p f.id
    else
      let qs := drainEntries (.flight σ.p f.id) σ.c.id σ.g.cluster tag rm add xs
      let s := (nubNat (es.map fun e => e.va / 4096)).foldl (fun s v => s.keepTlb σ.c.id (4096 * v)) s
      let s := (nubNat (es.map fun e => e.va / 32)).foldl (fun s v =>
        s.sample σ.c.id (32 * v) 0xFF 5 (place (32 * v)).1) s
      let s := (s.enqueue σ.c.id qs).updCtx σ.c.id fun c => c.chargeWrite (32 * (sectors - qs.length))
      s.updSeq σ.p fun q =>
        { q with
          ops := q.ops.filter fun o => o.id != f.id
          t := (q.t.updFlight f.id fun f => { f with owed := qs.length, done := qs.isEmpty }).settleFlights }

/-- One element added in the scratchpad; outside the allocation it is dropped. -/
def Workgroup.padAccum (g : Workgroup) (tag : Fmt) (rm : Rm) (off x : Nat) (bad : Bool) : Workgroup :=
  let n := drainBytes tag
  if g.scratchSize < off + n || g.scratchMarked off n then g
  else if bad then { g with scratchBad := nubNat (off / 4 :: g.scratchBad) }
  else g.scratchWrite off n (accumNew tag rm (g.scratchRead off n) x)

/-- A drain to the scratchpad, performed whole. -/
def State.drainPad (s : State) (σ : Site) (f : Flight) (tag : Fmt) (rm : Rm) (off stride rows cols : Nat)
    (idx : Option (List Nat)) (a : Acc) : State :=
  let targets := (drainRows (min rows 128) idx).filterMap fun (i, row) =>
    let k := row.getD i
    if k < rows then some (i, off + k * stride) else none
  let n := drainBytes tag
  let es := targets.flatMap fun (i, at_) =>
    (List.range cols).map fun j => (at_ + n * j, (Sparse.get (0 : Word) a.vals (128 * i + j)).toNat, a.marks.contains (128 * i + j))
  let s := s.updWg σ.g.id fun g => es.foldl (fun g e => g.padAccum tag rm e.1 e.2.1 e.2.2) g
  let s := if es.any fun e => decide (σ.g.scratchSize < e.1 + n) then s.deferCause σ.p f.id .gst .scratchBound 0 else s
  s.opDone σ.p f.id

/-! ## The steps of the engine (R297, R312) -/

/-- A K block of a product, the adapter term after its last, or a drain whose accumulator is whole. -/
def State.matrixStep (s : State) (p : Party) (id : Nat) : State :=
  match s.siteOf p with
  | none => s
  | some σ =>
    match (σ.g.seqOf p).bind (fun t => (t.ops.find? fun o => o.id == id).map fun o => (t, o)), σ.t.flight? id, σ.g.resv with
    | some (t, o), some f, some r =>
      if !σ.engineLive || o.faulted then s
      else match o.work with
        | .fill _ _ _ _ _ _ => s
        | .mul d m =>
          if t.pendingOn d id then s
          else if m.k < m.blocks then s.mulBlock σ id d m
          else match m.adp with
            | some ad => if σ.t.acqBars id then s else s.mulAdapter σ f d m ad
            | none => s.mulEnd p id d m.spoiled
        | .drain d tag rm dst =>
          if t.pendingOn d id || σ.t.acqBars id then s
          else match dst with
            | .mem x coord add idx => s.drainMem σ f tag rm x coord add idx (r.accs.getD d Acc.zero)
            | .pad off stride rows cols idx => s.drainPad σ f tag rm off stride rows cols idx (r.accs.getD d Acc.zero)
    | _, _, _ => s

def execKBlockBoundary (p : Party) (id : Nat) (s : State) : Host.Outcome State Fault Refusal :=
  .next { s.matrixStep p id with tick := s.tick + 1 }

/-! ## Starvation (R136, R224, R284, R313) -/

/-- The party of a restored workgroup enters again a store whose lanes a page fault left outstanding (R131, R383). -/
def Site.reissues (σ : Site) : Bool := σ.g.status == .resident && σ.t.flights.any fun f => f.outstanding && !f.done

/-- A store at issue, a command or a drain of a party that has waited for write-lane credit beyond the context's limit ends with
STORE_STARVED. -/
def State.storeStarved (s : State) (p : Party) : State :=
  match s.siteOf p with
  | none => s
  | some σ =>
    let late (x : Option Nat) : Bool := match x with | some t => decide (t + σ.c.stallNs < s.time) | none => false
    if σ.c.run != .running || σ.g.status == .saved then s
    else if (σ.runnable || σ.reissues) && late σ.t.stallFrom then
      s.take p ⟨.storeStarved, va64 (((σ.t.flights.find? Flight.outstanding).map (·.pc)).getD σ.t.pc), 0, none, false, 0⟩
    else match s.cmds.find? (fun c => c.party == p && late c.stallFrom) with
      | some c => s.takeEngine p .copyEngine .storeStarved c.iaddr 0
      | none =>
        match (σ.g.seqOf p).bind (fun t => t.ops.find? fun o => late o.stallFrom) with
        | some o => s.take p ⟨.storeStarved, va64 (((σ.t.flight? o.id).map (·.pc)).getD 0), 0, none, false, 0⟩
        | none => s

def execStoreStarved (p : Party) (s : State) : Host.Outcome State Fault Refusal :=
  .next { s.storeStarved p with tick := s.tick + 1 }

end Sys2Proof.Machine
end

