-- ==== Sys2Proof/Machine/Select.lean ====
section
/-! DEFINITION. Column-wise selection on a scratchpad score matrix (spec/06_waves_and_lanes.md R154 to R159). -/
namespace Sys2Proof.Machine

/-- A selection descriptor (R155). -/
structure Sel where
  scores : Nat
  stride : Nat
  nrows : Nat
  ncols : Nat
  k : Nat
  outval : Bool
  idxout : Nat
  valout : Nat
  deriving DecidableEq, Repr

def selOf (d : Nat) : Sel :=
  { scores := field d 0 32, stride := field d 32 32, nrows := field d 64 16, ncols := field d 80 16, k := field d 96 16,
    outval := field d 112 1 == 1, idxout := field d 128 32, valout := field d 160 32 }
def selReserved (d : Nat) : Bool := field d 113 15 != 0 || field d 192 64 != 0

/-- The bytes of the scores, from SCORES on: (NROWS − 1) × STRIDE + 4 × NCOLS, where that is positive. -/
def Sel.span (x : Sel) : Nat := x.nrows * x.stride + 4 * x.ncols - x.stride
/-- A span reaches outside an allocation; an empty one does not. -/
def outside (size a n : Nat) : Bool := n != 0 && decide (size < a + n)
def overlap (a n b m : Nat) : Bool := a < b + m && b < a + n

/-- The checks of R156 after the descriptor is read, with the address each names. -/
def Sel.check (x : Sel) (reserved : Bool) (size : Nat) : Option (Cause × Nat) :=
  let out := x.ncols * x.k
  if x.scores % 4 != 0 then some (.misaligned, x.scores)
  else if x.stride % 4 != 0 then some (.misaligned, x.stride)
  else if x.idxout % 2 != 0 then some (.misaligned, x.idxout)
  else if x.outval && x.valout % 4 != 0 then some (.misaligned, x.valout)
  else if outside size x.scores x.span then some (.scratchBound, x.scores)
  else if outside size x.idxout (2 * out) then some (.scratchBound, x.idxout)
  else if x.outval && outside size x.valout (4 * out) then some (.scratchBound, x.valout)
  else if reserved || x.k = 0 || 256 < x.k || x.nrows < x.k || x.ncols = 0 || 256 < x.ncols || x.nrows = 0 || 4096 < x.nrows ||
      x.stride < 4 * x.ncols || overlap x.scores x.span x.idxout (2 * out) ||
      (x.outval && (overlap x.scores x.span x.valout (4 * out) || overlap x.idxout (2 * out) x.valout (4 * out))) then
    some (.illegalOperand, 0)
  else none

def Workgroup.selAt (g : Workgroup) (off : Nat) : Nat := g.scratchRead off 32

/-- The unit writes scratchpad bytes for the instruction, or a wave's access does. -/
def Flight.pads (f : Flight) : Bool := !f.done && (f.i.isScratch || (match f.i with | .cselk _ _ => true | _ => false))

/-- CSELK issues once earlier scratchpad writes of the wave, those of a CSELK too, are performed and the descriptor is read, once, and
checked (R156, R158). -/
def execCselk (a : SReg) (la : Fin 16) (s : State) : Host.Outcome State Fault Refusal :=
  issueOp (.cselk a la) s fun σ s =>
    let off := (σ.t.rs s.tick a).toNat % 2 ^ 32
    if off % 32 != 0 then .raise s .misaligned off none
    else if σ.g.scratchSize < off + 32 then .raise s .scratchBound off none
    else if σ.t.flights.any Flight.pads then .hold s
    else if σ.g.scratchMarked off 32 then .raise s .eccScratch off none
    else
      let d := σ.g.selAt off
      match (selOf d).check (selReserved d) σ.g.scratchSize with
      | some (c, fa) => .raise s c fa none
      | none => .done s none (some { σ.flight (.cselk a la) false [] with arg := off + 2 ^ 32 * d })

/-! ## The selection (R157) -/

/-- A score comes before another of a later row. -/
def scoreFirst (a b : Nat) : Bool :=
  match fF32.value a, fF32.value b with
  | .nan _, .nan _ => true
  | .nan _, _ => false
  | _, .nan _ => true
  | x, y => match cmpV x y with | some .lt => false | _ => true

/-- Puts a row into an order, after those of earlier rows that are not below it. -/
def placeRow (x : Nat × Nat) : List (Nat × Nat) → List (Nat × Nat)
  | [] => [x]
  | y :: ys => if scoreFirst y.2 x.2 then y :: placeRow x ys else x :: y :: ys

/-- Rows with their scores, greatest first, equal ones in row order. -/
def orderRows (scores : List Nat) : List (Nat × Nat) :=
  ((List.range scores.length).zip scores).foldl (fun acc x => placeRow x acc) []

/-- The outputs of a selection: offset, size, value. -/
def Workgroup.selected (g : Workgroup) (x : Sel) : List (Nat × Nat × Nat) :=
  (List.range x.ncols).flatMap fun c =>
    let order := orderRows ((List.range x.nrows).map fun j => g.scratchRead (x.scores + j * x.stride + 4 * c) 4)
    (List.range x.k).flatMap fun i =>
      let e := order.getD i (0, 0)
      let v := if (fF32.value e.2).isNaN then 0x7FC00000 else e.2
      (x.idxout + 2 * (c * x.k + i), 2, e.1) :: (if x.outval then [(x.valout + 4 * (c * x.k + i), 4, v)] else [])

/-- The oldest CSELK of a wave is performed: its outputs are written, and its count is lowered. The model performs it in one step: an
access of another wave that is not ordered with it meets all its outputs old or all new, and a halt leaves none of them written (log 112). -/
def State.cselkDone (s : State) (p : Party) : State :=
  match s.siteOf p with
  | none => s
  | some σ =>
    match σ.t.flights.find? (fun f => !f.done && (match f.i with | .cselk _ _ => true | _ => false)) with
    | none => s
    | some f =>
      let x := selOf (f.arg / 2 ^ 32)
      if σ.c.run != .running || !(σ.g.status == .resident || σ.g.status == .ending) || σ.t.acqBars f.id then s
      else match (List.range x.nrows).find? (fun j => σ.g.scratchMarked (x.scores + j * x.stride) (4 * x.ncols)) with
        | some j => s.takeEngine p .select .eccScratch (va64 f.pc) (x.scores + j * x.stride)
        | none =>
          let s := s.updWg σ.g.id fun g => (g.selected x).foldl (fun g e => g.scratchWrite e.1 e.2.1 e.2.2) g
          s.updThread p fun t => (t.updFlight f.id fun f => { f with done := true }).settleFlights

def execCselkCompletion (p : Party) (s : State) : Host.Outcome State Fault Refusal :=
  .next { s.cselkDone p with tick := s.tick + 1 }

end Sys2Proof.Machine
end

