-- ==== Sys2Proof/Machine/Neval.lean ====
section
/-! DEFINITION. Gathered per-thread network evaluation (spec/14_network_evaluation.md R318 to R330). -/
namespace Sys2Proof.Machine

/-! ## Descriptors (R319, R320) -/

/-- A layer of a pinned network. -/
structure Layer where
  width : Nat
  act : Nat
  waddr : Nat
  baddr : Nat
  deriving DecidableEq, Repr

structure Net where
  nin : Nat
  nout : Nat
  wfmt : Nat
  slope : Nat
  layers : List Layer
  deriving DecidableEq, Repr

def layerOf (e : Nat) : Layer := ⟨field e 0 7 + 1, field e 8 4, field e 64 64, field e 128 64⟩
def netOf (d : Nat) : Net :=
  { nin := field d 2 6 + 1, nout := field d 8 5 + 1, wfmt := field d 16 2, slope := field d 64 32
    layers := (List.range (field d 0 2 + 1)).map fun l => layerOf (field d (128 + 192 * l) 192) }

/-- The checks of R321 on a descriptor's bits. -/
def netCheck (d : Nat) : Option Cause :=
  let n := netOf d
  let entry (l : Nat) : Nat := field d (128 + 192 * l) 192
  if field d 13 3 != 0 || field d 18 46 != 0 || field d 96 32 != 0 || field d 896 128 != 0 || n.wfmt = 3 ||
      ((List.range 4).any fun l => if l < n.layers.length then field (entry l) 7 1 != 0 || field (entry l) 12 52 != 0 || 7 ≤ (layerOf (entry l)).act
        else entry l != 0) || (n.layers.getLast?.map fun l => l.width) != some n.nout then some .illegalOperand
  else if n.layers.any fun l => l.waddr % 128 != 0 || l.baddr % 4 != 0 then some .misaligned
  else none

def Net.elt (n : Net) : Nat := if n.wfmt = 0 then 2 else 1
def up32 (n : Nat) : Nat := (n + 31) / 32 * 32
/-- Each layer with its input width. -/
def Net.widths (n : Net) : List (Nat × Layer) := (n.nin :: n.layers.map (·.width)).zip n.layers

/-- Runs of bytes that a layer reads: weights, scales, biases. -/
def Net.runs (n : Net) : List (Nat × Nat) :=
  n.widths.flatMap fun (i, l) =>
    let i' := up32 i
    (List.range l.width).map (fun o => ((l.waddr + n.elt * (o * i')) % 2 ^ 64, n.elt * i)) ++
    (if n.wfmt = 0 then [] else
      (List.range l.width).map fun o => ((l.waddr + l.width * i' + o * (i' / 32)) % 2 ^ 64, (i + 31) / 32)) ++
    (if l.baddr = 0 then [] else [(l.baddr, 4 * l.width)])

/-! ## Activations (R327) -/

/-- A result inside 2 ulp of a value close to the exact one, free within the bound. -/
def act2ulp (code x : Nat) (ok : Nat → Bool) (neg : Bool) (m : Nat) (e : Int) : Nat :=
  let cand := (Config.approx code (BitVec.ofNat 64 x)).toNat % 2 ^ 32
  let ulp := max (leadExp m e - fF32.mb) fF32.eSub
  if ok cand && absDiffLe (fF32.value cand) (.fin neg m e) 2 ulp then cand else (fF32.writeFin .rn false neg m e).bits

/-- 1 / (1 + e^−z) for z = ±m × 2^e, in fixed point. -/
def sigmoidFx (neg : Bool) (m : Nat) (e : Int) : Nat :=
  if 7 ≤ leadExp m e then (if neg then 1 else 2 ^ fxBits)
  else
    let q := expNegFx (toFx fxBits m e)
    (if neg then q else 2 ^ fxBits) * 2 ^ fxBits / (2 ^ fxBits + q)

def sigmoid (x : Nat) : Nat :=
  match fF32.value x with
  | .nan _ => 0x7FC00000
  | .inf neg => if neg then 0 else 0x3F800000
  | .fin neg m e =>
    if m = 0 then 0x3F000000 else act2ulp 201 x (fun c => c ≤ 0x3F800000) false (sigmoidFx neg m e) (-fxBits)

def silu (x : Nat) : Nat :=
  match fF32.value x with
  | .nan _ => 0x7FC00000
  | .inf neg => if neg then 0x80000000 else 0x7F800000
  | .fin neg m e =>
    if m = 0 then x
    -- for z ≤ −128 the magnitude lies above 0 and below 2^−176, far under half the least subnormal
    else if neg && 7 ≤ leadExp m e then act2ulp 200 x (fun _ => true) neg 1 (-200)
    else act2ulp 200 x (fun _ => true) neg (m * sigmoidFx neg m e) (e - fxBits)

/-- sine and tanh have the bounds of FSIN and FTANH. -/
def actFn (f : Fn) (x : Nat) : Nat := (f.result fF32 false (Config.approx (202 + f.code) (BitVec.ofNat 64 x)) (fF32.value x)).bits

def activate (act slope z : Nat) : Nat :=
  match fF32.value z with
  | .nan _ => 0x7FC00000
  | v =>
    let positive := !v.neg && !v.isZero
    match act with
    | 0 => z
    | 1 => if positive then z else 0
    | 2 => if positive || v.isZero then z else (fF32.write .rn false (mulV (fF32.value slope) v).1).bits
    | 3 => silu z
    | 4 => actFn .sin z
    | 5 => actFn .tanh z
    | _ => sigmoid z

/-! ## One row (R327) -/

/-- Inputs quantised for a layer: values, and the scale of each block of 32. -/
def quantise (wfmt : Nat) (xs : List Nat) : List FVal × List (Option Int) :=
  if wfmt = 0 then (xs.map fun x => fBF16.value (cvtIeee fBF16 .rn false false (fF32.value x)).bits, List.replicate 4 (some 0))
  else
    let blocks := (List.range ((xs.length + 31) / 32)).map fun b =>
      let ys := (xs.drop (32 * b)).take 32
      let sc := blockScale .e4m3 ys
      (ys.map fun y => fE4M3.value (blockElem .e4m3 .rn y sc).bits, scaleExp sc.bits)
    (blocks.flatMap (·.1), blocks.map (·.2))

def wFmt : Nat → FloatFmt
  | 0 => fBF16 | 1 => fE4M3 | _ => fE5M2

/-- The outputs of a layer. -/
def layerRow (n : Net) (rd : (va k : Nat) → Nat) (i : Nat) (l : Layer) (xs : List Nat) : List Nat :=
  let (qs, ss) := quantise n.wfmt xs
  let i' := up32 i
  (List.range l.width).map fun o =>
    let z := (List.range ((i + 31) / 32)).foldl (fun acc b =>
      let k := min 32 (i - 32 * b)
      let ws := (List.range k).map fun j => (wFmt n.wfmt).value (rd (l.waddr + n.elt * (o * i' + 32 * b + j)) n.elt)
      let sw := if n.wfmt = 0 then some 0 else scaleExp (rd (l.waddr + l.width * i' + o * (i' / 32) + b) 1)
      accAdd acc (blockS ((qs.drop (32 * b)).take k) ws (ss.getD b (some 0)) sw)) 0
    activate l.act n.slope (if l.baddr = 0 then z else accAdd z (rd (l.baddr + 4 * o) 4))

/-- The outputs of a row. -/
def Net.row (n : Net) (rd : (va k : Nat) → Nat) (xs : List Nat) : List Nat :=
  n.widths.foldl (fun xs e => layerRow n rd e.1 e.2 xs) xs

/-! ## Handles (R318, R321, R322) -/

def Context.handle? (c : Context) (h : Nat) : Option NetHandle := c.handles.find? (fun e => e.h == h)

/-- Rows of a handle remain, or a save frame holds an evaluation that names it. -/
def State.handleBusy (s : State) (ctx h : Nat) : Bool :=
  s.gatherers.any (fun g => g.rows.any (fun r => r.ctx == ctx && r.h == h) || g.tiles.any (fun t => t.ctx == ctx && t.h == h)) ||
  s.wgs.any fun g => g.ctx == ctx && (g.status == .saved || g.status == .wintered) && g.waves.any fun w =>
    w.t.flights.any fun f => !f.done && (match f.i with | .neval _ => true | _ => false) && f.accs.any fun a => a.va == h

/-- The lowest free handle. -/
def State.freeHandle (s : State) (c : Context) : Option Nat :=
  (List.range 256).find? fun h => match c.handle? h with
    | none => true
    | some e => !e.accepting && !s.handleBusy c.id h

/-- Earlier stores, atomics and reductions of the wave are acknowledged. -/
def Thread.storesDone (t : Thread) : Bool := t.flights.all fun f => !f.i.isMem || (f.owed == 0 && (f.i.isLoad || f.done))

/-- Samples every sector of a translated descriptor (R240). -/
def State.sampleDesc (s : State) (σ : Site) (a : Access) (n : Nat) : State :=
  (List.range (n / 32)).foldl (fun s k => s.sampleAll σ 0 [{ a with va := a.va + 32 * k, pa := a.pa.map (· + 32 * k) }]) s

/-- The descriptor's bytes, read at their home, once the acknowledgement of no write to its line is on its way to the cluster (R256). What
the caches hold of it goes, so that no later read of the party is older (R244). -/
def State.readDesc (s : State) (σ : Site) (a : Access) (n : Nat) : State × EngRead :=
  let pa := a.pa.getD 0
  let fresh (s : State) : State := (s.sampleDesc σ a n).dropOwn σ.cluster σ.core (sectorsOf pa n)
  if !a.host && inMemory pa then
    if s.ackDue σ.cluster (lineOf pa) then (s, .later)
    else
      let p := s.peekRun a.key pa n
      (((fresh s).countElided pa).lowerCounts [lineOf pa] |>.updCtx σ.c.id fun c => c.chargeRead n, .got p.bytes p.bad)
  else
    let secs := (sectorsOf a.va n).map fun x => (x, some (pa + 32 * x - a.va, a.key, a.lease, a.host))
    match s.gatherSectors (.flight σ.p σ.t.nextId) σ.c.id σ.cluster (va64 σ.t.pc) secs with
    | (s, .ok xs) => (fresh s, .got (fromSectors xs a.va n).1 (fromSectors xs a.va n).2)
    | (s, .error r) => (s, r)

def execNpin (o : DA) (s : State) : Host.Outcome State Fault Refusal :=
  issueOp (.npin o) s fun σ s =>
    if !σ.t.storesDone then .hold s
    else match s.check σ .g 128 .read 0 (σ.t.rs s.tick o.a).toNat with
      | .bad _ c fa => .raise s c fa none
      | .absent a => .raise s .pageFault a.va none
      | .wait _ => .hold s
      | .ok a =>
        if s.readBarred σ (a.pa.getD 0) then .hold s
        else match s.readDesc σ a 128 with
          | (s, .later) | (s, .moving) => .hold s
          | (s, .cause c fa) => .raise s c fa none
          | (s, .got bs bad) =>
            let d := fromBytes bs
            let put (s : State) (x : DWord) : State := s.updThread σ.p fun t => t.putS s.tick o.d x
            if bad then .done ((put s (-1)).updThread σ.p fun t => { t with smark := t.smark ||| BitVec.twoPow 64 o.d }) none none
            else match netCheck d with
              | some c => .raise s c (if c = .misaligned then a.va else 0) none
              | none =>
                match (s.ctx? σ.c.id).bind fun c => s.freeHandle c with
                | none => .done (put s (-1)) none none
                | some h =>
                  let e : NetHandle := ⟨h, BitVec.ofNat 1024 d, true⟩
                  let s := s.updCtx σ.c.id fun c => { c with handles := e :: c.handles.filter fun x => x.h != h }
                  .done (put s (BitVec.ofNat 64 h)) none none

def execNunpin (a : SReg) (s : State) : Host.Outcome State Fault Refusal :=
  issueOp (.nunpin a) s fun σ s =>
    let h := (σ.t.rs s.tick a).toNat
    .done (s.updCtx σ.c.id fun c => { c with handles := c.handles.map fun e => if e.h = h then { e with accepting := false } else e }) none none

/-! ## NEVAL: acceptance (R324, R326) -/

/-- Rows that a cluster's bins hold (R324). -/
def binRows : Nat := 16384
def bins : Nat := 256

def State.gatherer (s : State) (cluster : Nat) : Gatherer := (s.gatherers.find? fun g => g.cluster == cluster).getD ⟨cluster, [], [], [], 0⟩
def State.setGatherer (s : State) (g : Gatherer) : State := { s with gatherers := g :: s.gatherers.filter fun h => h.cluster != g.cluster }

/-- Rows leave their bin as a tile. -/
def Gatherer.take (g : Gatherer) (ctx h : Nat) (rows : List Row) (timer : Bool) : Gatherer :=
  { g with rows := g.rows.filter fun r => !rows.contains r, tiles := g.tiles ++ [⟨ctx, h, rows, timer, g.formed⟩], formed := g.formed + 1 }

/-- Forms tiles of 128 rows from a bin while it holds as many. -/
def Gatherer.form (g : Gatherer) (ctx h : Nat) : (fuel : Nat) → Gatherer
  | 0 => g
  | fuel + 1 =>
    let mine := (g.rows.filter fun r => r.ctx == ctx && r.h == h).take 128
    if mine.length < 128 then g
    else (g.take ctx h mine false).form ctx h fuel

/-- Why a lane's evaluation is resolved at once: bits of %nevst. -/
def Context.resolve (c : Context) (h n m : Nat) : Option Nat :=
  match c.handle? h with
  | none => some 1
  | some e =>
    let net := netOf e.desc.toNat
    if !e.accepting then some 1 else if net.nin != n || net.nout != m then some 2 else none

def nanWords (m : Nat) : Nat := (List.range m).foldl (fun x k => x + 0x7FC00000 * 2 ^ (32 * k)) 0
/-- Words as one number, the first lowest. -/
def packWords (xs : List Nat) : Nat := xs.foldr (fun x acc => x % 2 ^ 32 + 2 ^ 32 * acc) 0

/-- The lanes of an evaluation as they are kept in its flight: `va` the handle, `v` the inputs, and for a lane with a result
`old` its outputs, `bad` its status and `cmp` its bits of %nevst. -/
def Context.evalLane (c : Context) (n m : Nat) (a : Access) : Access :=
  match c.resolve a.va n m with
  | some bits => { a with old := some (nanWords m), bad := true, cmp := bits }
  | none => { a with old := none, bad := false, cmp := 0 }

/-- The evaluation's rows enter the bins of a cluster, if there is room for all of them. -/
def State.submit (s : State) (c : Context) (g wave cluster id n m : Nat) (lanes : List Access) : Option (State × List Access) :=
  let lanes := lanes.map (c.evalLane n m)
  let rows : List Row := (lanes.filter fun a => a.old.isNone).map fun a =>
    ⟨c.id, a.va, g, wave, id, a.lane, (List.range n).map fun k => field a.v (32 * k) 32, s.time⟩
  let gt := s.gatherer cluster
  let tags := (gt.rows ++ rows).map fun r => 256 * r.ctx + r.h
  if binRows < gt.rows.length + rows.length || bins < (nubNat tags).length then none
  else
    let gt := { gt with rows := gt.rows ++ rows }
    let gt := (nubNat (rows.map fun r => r.h)).foldl (fun gt h => gt.form c.id h 130) gt
    some (if rows.isEmpty then s else s.setGatherer gt, lanes)

/-! ## NEVAL: results (R325, R329) -/

/-- The registers an evaluation writes. -/
def evalWrites (o : NevalF) (accs : List Access) : List Write :=
  accs.flatMap fun a =>
    writesN o.d a.lane (o.mM1 + 1) (a.old.getD 0) ++ (if o.c.val = 0 then [] else [⟨.p o.c a.lane, a.bad.toNat⟩])

/-- The wave's oldest evaluation that is not written: its results are written in one step once every lane has one, and so on for the
next. -/
def Wave.evalLand (w : Wave) (tick : Nat) : (fuel : Nat) → Wave
  | 0 => w
  | fuel + 1 =>
    match w.t.flights.find? (fun f => !f.done && (match f.i with | .neval _ => true | _ => false)) with
    | none => w
    | some f =>
      if f.accs.any fun a => a.old.isNone then w
      else match f.i with
        | .neval o =>
          let bits := f.accs.foldl (fun x a => x ||| BitVec.ofNat 32 a.cmp) (0 : Word)
          let ws := evalWrites o f.accs ++ (if bits = 0 then [] else [⟨.nevst, bits.toNat⟩])
          let w := if w.ended then w else w.land tick f.id ws
          Wave.evalLand { w with t := (w.t.updFlight f.id fun f => { f with done := true, accs := [], arg := bits.toNat }).settleFlights } tick fuel
        | _ => w

def execNeval (o : NevalF) (s : State) : Host.Outcome State Fault Refusal :=
  laneMem (.neval o) s fun σ w s =>
    match σ.p with
    | .wave g k =>
      let n := o.nM1.val + 1
      let m := o.mM1.val + 1
      let lanes := (w.active s.tick (.neval o)).map fun l =>
        { Access.mk0 l (w.src32 s.tick l o.b).toNat with
          pa := some 0, done := true, v := packWords ((List.range n).map fun j => (w.rv s.tick (o.a + j) l).toNat) }
      match s.submit σ.c g k σ.cluster σ.t.nextId n m lanes with
      | none => .hold s
      | some (s, lanes) =>
        let resolved := lanes.all fun a => a.old.isSome
        let first := !(σ.t.flights.any fun f => !f.done && (match f.i with | .neval _ => true | _ => false))
        if resolved && first then
          let bits := lanes.foldl (fun x a => x ||| BitVec.ofNat 32 a.cmp) (0 : Word)
          let ws := evalWrites o lanes ++ (if bits = 0 then [] else [⟨.nevst, bits.toNat⟩])
          .done (s.updWave g k fun w => w.putAll s.tick ws) none
            (some { σ.flight (.neval o) true [] with done := true, olds := ws.map (fun e => (e.k, w.now e.k)), arg := bits.toNat })
        else .done s none (some (σ.flight (.neval o) true lanes))
    | _ => .hold s

/-! ## Tiles (R312, R326, R328) -/

/-- The oldest row of a bin has waited the context's gather timer; the rows of a halted partition stay in their bins (R330). -/
def State.nevalTimer (s : State) (cluster ctx h : Nat) : State :=
  match s.ctx? ctx with
  | none => s
  | some c =>
    let g := s.gatherer cluster
    let mine := g.rows.filter fun r => r.ctx == ctx && r.h == h
    match mine with
    | [] => s
    | r :: _ =>
      if c.run == .running && decide (r.time + c.nevNs ≤ s.time) then
        s.setGatherer (g.take ctx h mine true)
      else s

def execNevalGatherTimer (cluster ctx h : Nat) (s : State) : Host.Outcome State Fault Refusal :=
  .next { s.nevalTimer cluster ctx h with tick := s.tick + 1 }

/-- A reserved quadrant whose holder's share still lets the gatherer in this period: S is in steps of 6.25 % of 50,000 cycles. -/
def State.shareQuad (s : State) (g : Gatherer) : Option Nat :=
  (List.range 4).find? fun q =>
    match s.ownerOfQuad g.cluster q with
    | some (wg, _) => match s.ctx? wg.ctx with
      | some c => (g.used.lookup q).getD 0 < c.nevs * 3125
      | none => false
    | none => false

/-- A row has its result. -/
def State.rowResult (s : State) (r : Row) (out : Nat) (failed : Bool) (bits : Nat) : State :=
  let give (a : Access) : Access := if a.lane = r.lane then { a with old := some out, bad := failed, cmp := bits } else a
  s.updThread (.wave r.wg r.wave) fun t => t.updFlight r.flight fun f => { f with accs := f.accs.map give }

/-- Each row of a tile gets its outputs, or fails, and waves whose evaluations are complete get their results. -/
def State.tileResults (s : State) (t : NTile) (out : Row → Nat) (failed : Bool) (bits : Nat) : State :=
  let bits := bits + (if t.timer then 16 else 0)
  let s := t.rows.foldl (fun s r => s.rowResult r (out r) failed bits) s
  t.rows.foldl (fun s r => s.updWave r.wg r.wave fun w => w.evalLand s.tick 64) s

/-- One formed tile runs whole: its network's weights are read, and its rows are computed. What peers send for it is kept for it alone. -/
def State.runTile (s : State) (g : Gatherer) (t : NTile) (quad : Option Nat) : State :=
  match (s.ctx? t.ctx).bind fun c => c.handle? t.h with
  | none => s
  | some e =>
    let n := netOf e.desc.toNat
    let fail (s : State) (bit : Nat) : State := s.tileResults t (fun _ => nanWords n.nout) true bit
    let drop (s : State) : State :=
      let g := s.gatherer g.cluster
      let used := match quad with
        | some q => (q, (g.used.lookup q).getD 0 + Config.freeNat s.tick 47000 % 513) :: g.used.filter fun e => e.1 != q
        | none => g.used
      (s.setGatherer { g with tiles := g.tiles.erase t, used := used }).endReads (.tile g.cluster t.n)
    match s.gather (.tile g.cluster t.n) t.ctx g.cluster 0 n.runs with
    | (s, .error (.cause _ _)) => fail (drop s) 4
    | (s, .error _) => s
    | (s, .ok xs) =>
      if n.runs.any fun r => (fromSectors xs r.1 r.2).2 then fail (drop s) 8
      else (drop s).tileResults t (fun r => packWords (n.row (fun va k => fromBytes (fromSectors xs (va % 2 ^ 64) k).1) r.inputs)) false 0

/-- A tile runs at a K-block boundary: on an unreserved quadrant, or in a holder's share. -/
def State.tileOperation (s : State) (cluster : Nat) : State :=
  let g := s.gatherer cluster
  match g.tiles.find? (fun t => match s.ctx? t.ctx with | some c => c.run == .running | none => false) with
  | none => s
  | some t =>
    if !(s.freeQuads cluster).isEmpty then s.runTile g t none
    else match s.shareQuad g with
      | some q => s.runTile g t (some q)
      | none => s

def execTileOperation (cluster : Nat) (s : State) : Host.Outcome State Fault Refusal :=
  .next { s.tileOperation cluster with tick := s.tick + 1 }

end Sys2Proof.Machine
end

