-- ==== Sys2Proof/Machine/Ring.lean ====
section
/-! DEFINITION. The Solstice ring: registrations and claims, frames on their way, laps, and the fallback (spec/15_solstice_ring.md R332 to
R350; spec/13_matrix_engine.md R302). -/
namespace Sys2Proof.Machine

/-! ## Registrations (R340, R341) -/

def SeqThread.reg? (t : SeqThread) (layer : Nat) : Option Registration := t.regs.find? fun r => r.layer == layer
/-- Claims of a thread that are not served. -/
def SeqThread.claims (t : SeqThread) : List Claim := t.regs.flatMap fun r => r.claims

/-- The entry of the plan in effect by which a context may board a layer. -/
def State.boardable (s : State) (ctx layer : Nat) : Option (LapPlan × PlanLayer) :=
  match s.ring.plan with
  | none => none
  | some p => match p.find layer with
    | some l => if l.ctxmask.getLsbD ctx then some (p, l) else none
    | none => none

/-- The state that a registration begins in, with NEXT. -/
def State.boardState (s : State) (c : Context) (n : Node) (layer frames cluster : Nat) : RegState × Bool :=
  match s.boardable c.id layer with
  | none => (.refused, false)
  | some (p, l) =>
    if frames < l.g then (.refused, false)
    else if s.ring.ahead p l cluster then (.armed, false)
    else if l.fbok && n.bfirst ≤ layer && layer ≤ n.blast && s.readsLeft c then (.fetching, false)
    else (.armed, true)

/-- The window leaves the share, or overlaps a live window of the reservation. -/
def Reservation.windowBad (r : Reservation) (win frames : Nat) : Bool :=
  decide (r.size * 2 ^ 19 < win + 2048 * frames) ||
    r.threads.any fun t => t.regs.any fun e => overlap win (2048 * frames) e.win (2048 * e.frames)

def execRboard (o : RboardF) (s : State) : Host.Outcome State Fault Refusal :=
  issueOp (.rboard o) s fun σ s =>
    let a := (σ.t.rs s.tick o.a).toNat
    let b := (σ.t.rs s.tick o.b).toNat
    let win := b % 2 ^ 32
    let frames := o.nM1.toNat + 1
    match σ.g.resv, σ.g.seqOf σ.p with
    | some r, some t =>
      if win % 2048 != 0 then .raise s .misaligned win none
      else if a / 2 ^ 16 != 0 || a = 0xFFFF || b / 2 ^ 32 != 0 || r.windowBad win frames || (t.reg? a).isSome || 4 ≤ t.regs.length then
        .raise s .illegalOperand 0 none
      else
        let (st, next) := s.boardState σ.c σ.n a frames σ.g.cluster
        let e : Registration := ⟨a, win, frames, st, next, false, false, false, false, none, 0, [], s.ring.plan.bind (·.find a), []⟩
        .done (s.updSeq σ.p fun t => { t with regs := t.regs ++ [e] }) none none
    | _, _ => .raise s .illegalOperand 0 none

/-! ## Claims (R342) -/

/-- An unservable claim's tile. -/
def emptyTile : Tile := ⟨[], 0, [], [], false⟩
/-- A tile under POISON. -/
def Tile.poison (t : Tile) : Tile := { t with tag := 15 }

/-- A claim that nothing more is needed for. -/
def Claim.finish (c : Claim) (t : Tile) : Claim := { c with tile := t, complete := true }
/-- Every claim of a registration that is not served is unservable. -/
def Registration.giveUp (r : Registration) : Registration :=
  if r.claims.any (fun c => !c.complete) then
    { r with bad := true, claims := r.claims.map fun c => if c.complete then c else c.finish emptyTile }
  else r

/-- Makes a claim: served at once where it cannot be served, otherwise kept for the port or for the fallback. -/
def Registration.claim (r : Registration) (nseg : Nat) (c : Claim) : Registration :=
  if r.state == .refused || (nseg ≤ c.seg) then { r with bad := true, claims := r.claims ++ [c.finish emptyTile] }
  else if r.state == .done then { r with state := .armed, next := true, claims := r.claims ++ [c] }
  else { r with claims := r.claims ++ [c] }

/-- Complete claims are written to their registers: those on one register in issue order (R342). -/
def State.landClaims (s : State) (p : Party) : (fuel : Nat) → State
  | 0 => s
  | fuel + 1 =>
    match (s.wg? p.wg).bind (fun g => g.seqOf p) with
    | none => s
    | some t =>
      let all := t.claims
      match all.find? (fun c => c.complete && !all.any fun d => d.x == c.x && decide (d.id < c.id)) with
      | none => s
      | some c =>
        let s := s.writeTile p c.id c.x c.tile
        let s := s.updSeq p fun t =>
          { t with regs := t.regs.map fun r => { r with claims := r.claims.filter fun d => d.id != c.id } }
        (s.opDone p c.id).landClaims p fuel

/-- The MLDR's own part; a claim that is served at once is written as soon as the instruction has issued. -/
def execMldr (o : MldF) (s : State) : Host.Outcome State Fault Refusal :=
  let r := issueOp (.mldr o) s fun σ s =>
    let a := (σ.t.rs s.tick o.a).toNat
    let b := (σ.t.rs s.tick o.b).toNat
    match σ.g.resv, σ.g.seqOf σ.p with
    | some rv, some t =>
      if 8 * rv.size ≤ o.d.val || a / 2 ^ 16 != 0 || b / 2 ^ 16 != 0 || (t.reg? a).isNone then .raise s .illegalOperand 0 none
      else if 64 ≤ t.claims.length then .hold s
      else
        let nseg (r : Registration) : Nat := match (if r.state == .fetching then r.image else s.ring.plan.bind (·.find a)) with
          | some l => l.nseg
          | none => 2 ^ 16
        let c : Claim := ⟨σ.t.nextId, o.d, o.tag.code, b, 0, false, emptyTile, false, [], 0⟩
        let s := s.updSeq σ.p fun t =>
          { t with regs := t.regs.map fun r => if r.layer = a then r.claim (nseg r) c else r }
        .done s none (some (σ.flight (.mldr o) true []))
    | _, _ => .raise s .illegalOperand 0 none
  match r, s.cur with
  | .next s', some p => .next (if s.passes (.mldr o) then s'.landClaims p 64 else s')
  | r, _ => r

/-! ## RWAIT and RSTAT (R348, R349) -/

/-- The word that RWAIT writes for a registration. -/
def Registration.status (r : Registration) : Nat :=
  (r.lap.getD 0) % 2 ^ 32 * 2 ^ 32 + 2 ^ 7 * r.stall.toNat + 2 ^ 6 * r.bad.toNat + 2 ^ 5 * r.next.toNat + 2 ^ 4 * r.fb.toNat +
    2 ^ 3 * r.pois.toNat + (if r.state == .refused then 1 else 0)

def execRwait (o : DA) (s : State) : Host.Outcome State Fault Refusal :=
  issueOp (.rwait o) s fun σ s =>
    let a := (σ.t.rs s.tick o.a).toNat
    let put (s : State) (x : Nat) : State := s.updThread σ.p fun t => t.putS s.tick o.d (BitVec.ofNat 64 x)
    if a / 2 ^ 16 != 0 then .raise s .illegalOperand 0 none
    else match (σ.g.seqOf σ.p).bind fun t => t.reg? a with
      | none => .done (put s 2) none none
      | some r =>
        if !r.claims.isEmpty then .hold s
        else
          let s := s.updSeq σ.p fun t => { t with regs := t.regs.filter fun r => r.layer != a }
          .done (put s r.status) none none

def RegState.code : RegState → Nat
  | .armed => 1 | .capturing => 2 | .fetching => 3 | .done => 4 | .refused => 5

/-- STATE of R349. -/
def State.ringState (s : State) (ctx layer cluster : Nat) : Nat :=
  match s.ring.plan.bind fun p => (p.find layer).map fun l => (p, l) with
  | none => 0
  | some (p, l) =>
    if !l.ctxmask.getLsbD ctx then 1
    else if s.ring.passing p l cluster then 4
    else if s.windowOpen p l cluster then 3
    else 2

/-- ETA is an estimate: free, but where the spec names it. -/
def execRstat (o : DA) (s : State) : Host.Outcome State Fault Refusal :=
  issueOp (.rstat o) s fun σ s =>
    let a := (σ.t.rs s.tick o.a).toNat
    if a / 2 ^ 16 != 0 then .raise s .illegalOperand 0 none
    else
      let st := s.ringState σ.c.id a σ.cluster
      let eta := if st = 4 then 0 else if st < 2 then 2 ^ 32 - 1 else Config.freeNat s.tick 60000 % 2 ^ 32
      let reg := match (σ.g.seqOf σ.p).bind fun t => t.reg? a with | some r => r.state.code | none => 0
      let x := eta * 2 ^ 32 + s.ring.lap % 2 ^ 16 * 2 ^ 16 + reg * 2 ^ 8 + st
      .done (s.updThread σ.p fun t => t.putS s.tick o.d (BitVec.ofNat 64 x)) none none

/-! ## Injection (R332, R334) -/

/-- A frame's image in memory. -/
def PlanLayer.frameAt (l : PlanLayer) (seg frm : Nat) : Nat := l.maddr + 2048 * (l.g * seg + frm)

/-- CRC-32C of some bytes: one bit at a time, the lowest of each byte first. -/
def crcBit (x : Nat) : Nat := if x % 2 = 1 then Nat.xor (x / 2) 0x82F63B78 else x / 2
def crcByte (x : Nat) (b : Byte) : Nat := (List.range 8).foldl (fun x _ => crcBit x) (Nat.xor x b.toNat)
def crc32c (bs : List Byte) : Nat := Nat.xor (bs.foldl crcByte 0xFFFFFFFF) 0xFFFFFFFF

/-- Bits [127:32] of a frame's header: lap, layer, segment, frame, last frame, key slot, POIS (R333). -/
def headOf (lap layer seg frm : Nat) (last : Bool) (key : Nat) (pois : Bool) : Nat :=
  lap % 2 ^ 32 * 2 ^ 64 + layer % 2 ^ 16 * 2 ^ 48 + seg % 2 ^ 16 * 2 ^ 32 + frm % 2 ^ 5 * 2 ^ 27 + 2 ^ 26 * last.toNat +
    key % 2 ^ 8 * 2 ^ 18 + 2 ^ 17 * pois.toNat

/-- The CRC that goes with a header and a payload, over the header's bytes from the lowest (log 113). -/
def frameCrc (head : Nat) (bytes : List Byte) : Nat := crc32c (leBytes 12 head ++ bytes)
def RingFrame.pois (f : RingFrame) : Bool := f.head.getLsbD 49
/-- The CRC in the header is that of the header and the payload. -/
def RingFrame.sound (f : RingFrame) : Bool := field f.head.toNat 0 32 == frameCrc (field f.head.toNat 32 96) f.bytes

/-- The payload under its key slot's key, and back: the counter is made of the lap, the layer, the segment and the frame (R334). -/
def State.crypt (s : State) (l : PlanLayer) (seg frm : Nat) (bs : List Byte) : List Byte :=
  let counter := ((s.ring.lap * 2 ^ 16 + l.layer) * 2 ^ 16 + seg) * 2 ^ 5 + frm
  bs.zipWith (fun b k => b ^^^ Config.keystream (s.keyOf l.key) counter k) (List.range bs.length)

/-- The frame that a loader sends: encrypted, with its header; a poisoned sector sets POIS and leaves the payload undefined. -/
def State.makeFrame (s : State) (ring k : Nat) (l : PlanLayer) (seg frm : Nat) (last : Bool) (bs : List Byte) (bad : Bool) : RingFrame :=
  let c := s.crypt l seg frm (if bad then freeBytes s.tick 2048 else bs)
  let h := headOf s.ring.lap l.layer seg frm last l.key bad
  ⟨ring, k, BitVec.ofNat 128 (h * 2 ^ 32 + frameCrc h c), c⟩

/-- What a loader has read of its next frame. -/
def Ring.loaded (r : Ring) (ring : Nat) : List Byte × Bool := (r.loading.lookup ring).getD ([], false)

/-- The loader of a layer whose key slot firmware has cleared meets PROTECTION in the name of the plan's owner, if that runs (R229, R454):
what it reads then is as poisoned (log 143). -/
def State.loaderKey (s : State) (p : LapPlan) (l : PlanLayer) : State :=
  if s.keyOf l.key != 0 || !(match s.ctx? p.ctx with | some c => c.run == .running | none => false) then s
  else s.haltLine p.ctx
    ⟨s.time, 0, l.maddr, some .protection, .boarding, true, false, none, 0xFF, 4 * l.die, 0, p.ctx, 0xFFFF, 0, 0, 0, 0, []⟩

/-- A ring's loader reads one sector of its next frame; with the last it injects the frame, no earlier than nominal tempo and the stalls
so far allow. -/
def State.injection (s : State) (ring : Nat) : State :=
  match s.ring.plan with
  | none => s
  | some p =>
    let k := s.ring.injected.getD ring 0
    match frameIn (p.onRing ring) k with
    | none => s
    | some (l, seg, frm, last) =>
      let (bs, bad) := s.ring.loaded ring
      let s := s.loaderKey p l
      let x := s.peek l.key (l.frameAt seg frm + bs.length) 32
      let bad := bad || s.keyOf l.key == 0
      let rest := s.ring.loading.filter fun e => e.1 != ring
      if bs.length + 32 < 2048 then
        let s := s.countElided (l.frameAt seg frm + bs.length)
        { s with ring := { s.ring with loading := (ring, bs ++ x.bytes, bad || x.bad) :: rest } }
      else if s.time < s.ring.start + (16 * k / p.tempo + s.ring.stalls.getD ring 0) * 1000 / s.power.mhz then s
      else
        let f := s.makeFrame ring k l seg frm last (bs ++ x.bytes) (bad || x.bad)
        let s := s.countElided (l.frameAt seg frm + bs.length)
        { s with ring := { s.ring with
            injected := setAt s.ring.injected ring (· + 1), flying := s.ring.flying ++ [f], loading := rest } }

def execInjection (ring : Nat) (s : State) : Host.Outcome State Fault Refusal :=
  .next { s.injection ring with tick := s.tick + 1 }

/-! ## Frames at a port (R338, R341 to R347) -/

/-- Frames that a claim needs: a tag without scales does without frame 16. -/
def Claim.need (c : Claim) (l : PlanLayer) : Nat := if tagMx c.tag then l.g else 16

/-- A captured frame in the tile: data, or scales. -/
def Claim.take (c : Claim) (frm : Nat) (bs : List Byte) : Tile :=
  let t := { c.tile with tag := c.tag }
  if frm < 16 then
    let keep (a : Nat) : Bool := !(c.tag == 5 || c.tag == 6) || a % 256 < 192
    { t with data := ((located (2048 * frm) bs).filter fun e => keep e.1).foldl (fun m e => Sparse.set 0 m e.1 e.2) t.data }
  else
    let (_, _, n) := tagGeometry c.tag
    { t with scales := ((located 0 bs).filter fun e => e.1 % 16 < n).foldl (fun m e => Sparse.set 0x7F m e.1 e.2) t.scales }

/-- A claim after a frame of its segment has been captured; the pass's lap serves it with the last one. -/
def Claim.capture (c : Claim) (l : PlanLayer) (lap frm : Nat) (bs : List Byte) (ok : Bool) : Claim :=
  let c := if frm = 0 then { c with got := 0, corrupt := false, tile := emptyTile, lap := lap } else c
  let c := { c with tile := c.take frm bs, got := frm + 1, corrupt := c.corrupt || !ok }
  if c.got = c.need l then c.finish (if c.corrupt then c.tile.poison else c.tile) else c

/-- The claims that a frame serves: those of its segment that have had every frame before it in this lap. -/
def Claim.wants (c : Claim) (l : PlanLayer) (lap seg frm : Nat) : Bool :=
  !c.complete && c.seg == seg && (frm == 0 || (c.got == frm && c.lap == lap)) && decide (frm < c.need l)

/-- How a registration meets a frame: captured, or passed without a slot; cycles of stall; when the cluster's tile store takes its next
frame. -/
structure Meeting where
  reg : Registration
  stall : Nat
  port : Nat
  deriving DecidableEq, Repr

/-- Cycles until a slot of a window is free, with `busy` the cycles at which those that hold frames are (R343). -/
def slotWait (frames now : Nat) (busy : List Nat) : Nat :=
  let held := busy.filter fun k => now < k
  if held.length < frames then 0 else held.foldl (fun m k => min m (k - now)) (2 ^ 64)

/-- A registration that is capturing meets a frame of its layer, at a cycle. A frame that it claims takes a free slot of its window until it
is written into the tile store, which takes at most one frame a cycle; how much later is free. A frame that finds no free slot stalls the
ring until one is free, or for as long as the two limits allow, and then passes (R343, R344). -/
def Registration.meet (r : Registration) (tick salt lap cap now port : Nat) (l : PlanLayer) (seg frm : Nat) (last : Bool)
    (bs : List Byte) (ok : Bool) : Meeting :=
  let first := seg == 0 && frm == 0
  let r := if r.state == .armed && first then { r with state := .capturing, stalled := 0 } else r
  if r.state != .capturing then ⟨r, 0, port⟩
  else
    let wanted := r.claims.any fun c => c.wants l lap seg frm
    let room := min (2500 - r.stalled) cap
    let wait := if wanted then slotWait r.frames now r.busy else 0
    let passes := decide (room < wait)
    let k := min wait room
    let out := max (now + k) port + 1 + Config.freeNat tick salt
    let takes := wanted && !passes
    let step (c : Claim) : Claim := if c.wants l lap seg frm && !passes then c.capture l lap frm bs ok else c
    let cs := r.claims.map step
    let served := (r.claims.zip cs).any fun e => e.2.complete && !e.1.complete
    let poisoned := (r.claims.zip cs).any fun e => e.2.complete && !e.1.complete && e.2.corrupt
    let r := { r with
      claims := cs, stalled := r.stalled + k, stall := r.stall || passes, pois := r.pois || poisoned
      busy := (r.busy.filter fun e => now + k < e) ++ (if takes then [out] else [])
      lap := if served then some lap else r.lap }
    let port := if takes then out else port
    if !last then ⟨r, k, port⟩
    else if r.claims.all (·.complete) then ⟨{ r with state := .done }, k, port⟩
    else ⟨{ r with state := .armed, next := true }, k, port⟩

/-- A workgroup's ports capture: its reservation is on the cluster, and its partition runs. -/
def State.capturing (s : State) (g : Workgroup) (cluster : Nat) : Bool :=
  g.cluster == cluster && (g.status == .resident || g.status == .stopped || g.status == .ending) && (match g.resv with | some r => !r.quads.isEmpty | none => false) &&
    (match s.ctx? g.ctx with | some c => c.run == .running | none => false)

/-- The matrix threads of a cluster that hold a live registration of a layer and may board it. -/
def State.ports (s : State) (cluster : Nat) (l : PlanLayer) : List (Party × Registration) :=
  (s.wgs.filter fun g => s.capturing g cluster && l.ctxmask.getLsbD g.ctx).flatMap fun g => match g.resv with
    | some r => r.threads.filterMap fun t => if t.matrix then (t.reg? l.layer).map fun e => (.mseq g.id t.idx, e) else none
    | none => []

/-- The stalls that a frame causes at a cluster's ports are added to its ring's. `bs` is the payload as the port decrypts it. -/
def State.meetAll (s : State) (cap cluster : Nat) (l : PlanLayer) (seg frm : Nat) (last : Bool) (ring : Nat) (bs : List Byte) (ok : Bool) :
    List (Party × Registration) → State
  | [] => s
  | (p, r) :: rest =>
    let left := cap - s.ring.stalls.getD ring 0
    let m := r.meet s.tick (61000 + rest.length) s.ring.lap left s.cycles (Sparse.get 0 s.ring.port cluster) l seg frm last bs ok
    let s := s.updSeq p fun t => { t with regs := t.regs.map fun e => if e.layer = l.layer then m.reg else e }
    let s : State := { s with ring := { s.ring with
      stalls := setAt s.ring.stalls ring (· + m.stall), port := Sparse.set 0 s.ring.port cluster m.port } }
    (s.landClaims p 64).meetAll cap cluster l seg frm last ring bs ok rest

/-- The frame has come to the stop before a die's on its way from its loader. -/
def Ring.reached (r : Ring) (l : PlanLayer) (f : RingFrame) (die : Nat) : Bool :=
  let h := hops f.ring l.die die
  h == 0 || (List.range 4).all fun k =>
    let prev := if f.ring = 0 then (die + 7) % 8 else (die + 1) % 8
    decide (f.idx < r.seenAt f.ring (4 * prev + k))

/-- The next frame of a ring passes a cluster's port, undamaged on its way or not. A frame whose CRC fails or whose POIS is set stands for
the position that the pass expects next there, and is counted. -/
def State.frameArrival (s : State) (ring cluster : Nat) (crcOk : Bool) : State :=
  match s.ring.plan with
  | none => s
  | some p =>
    let k := s.ring.seenAt ring cluster
    match s.ring.flying.find? (fun f => f.ring == ring && f.idx == k), frameIn (p.onRing ring) k with
    | some f, some (l, seg, frm, last) =>
      if Config.clusters ≤ cluster || !s.ring.reached l f (cluster / 4) then s
      else
        let ok := crcOk && f.sound && !f.pois
        let s := s.meetAll (p.stallUs * 2500) cluster l seg frm last ring (s.crypt l seg frm f.bytes) ok (s.ports cluster l)
        let r := s.ring
        let at_ := 32 * ring + cluster
        let r : Ring := { r with
          seen := Sparse.set 0 r.seen at_ (k + 1)
          corrupt := if ok then r.corrupt else Sparse.set 0 r.corrupt at_ (Sparse.get 0 r.corrupt at_ + 1) }
        let gone := (List.range Config.clusters).all fun c => decide (k < r.seenAt ring c)
        { s with ring := if gone then { r with flying := r.flying.filter fun g => !(g.ring == ring && g.idx == k) } else r }
    | _, _ => s

def execFrameArrival (ring cluster : Nat) (crcOk : Bool) (s : State) : Host.Outcome State Fault Refusal :=
  .next { s.frameArrival ring cluster crcOk with tick := s.tick + 1 }

/-! ## Laps (R335, R337) -/

/-- Every frame of a lap has returned to its origin. -/
def Ring.lapOver (r : Ring) (p : LapPlan) : Bool :=
  r.flying.isEmpty && [0, 1].all fun k => r.injected.getD k 0 == p.frames k

/-- An ARMED registration whose layer has left the plan, or no longer admits its context, is refused. -/
def State.refuseArmed (s : State) : State :=
  let fix (ctx : Nat) (r : Registration) : Registration :=
    if r.state == .armed && (s.boardable ctx r.layer).isNone then ({ r with state := .refused } : Registration).giveUp else r
  let touched := s.wgs.flatMap fun g => match g.resv with
    | some r => r.threads.filterMap fun t => if t.regs.isEmpty then none else some (SeqThread.party g.id t)
    | none => []
  let s : State := { s with wgs := s.wgs.map fun g =>
      { g with resv := g.resv.map fun r =>
          { r with threads := r.threads.map fun t => { t with regs := t.regs.map (fix g.ctx) } } } }
  touched.foldl (fun s p => s.landClaims p 64) s

/-- Rings begin a lap under a plan. -/
def Ring.begin (r : Ring) (plan : Option LapPlan) (lap time : Nat) : Ring :=
  { r with plan := plan, newPlan := none, ends := false, lap := lap, start := time, injected := [0, 0], seen := [], flying := [],
           stalls := [0, 0], loading := [] }

/-- The PLAN_SUBMITs of a plan that takes effect are answered (R449). -/
def State.planAnswers (s : State) (p : Option LapPlan) : State :=
  match p with
  | some p => p.tags.foldl (fun s t => s.respond t 0 0x05 0) s
  | none => s

/-- The lap boundary: a plan accepted since takes effect, a plan whose owner is gone ends, and the next lap begins. Idle rings take a
plan at once. -/
def State.lapBoundary (s : State) : State :=
  let r := s.ring
  match r.plan with
  | none => match r.newPlan with
    | some q => (({ s with ring := r.begin (some q) r.lap s.time } : State).refuseArmed).planAnswers (some q)
    | none => s
  | some p =>
    if !r.lapOver p then s
    else
      let next := r.newPlan.or (if r.ends then none else some p)
      (({ s with ring := r.begin next (r.lap + 1) s.time } : State).refuseArmed).planAnswers r.newPlan

def execLapBoundary (s : State) : Host.Outcome State Fault Refusal :=
  .next { s.lapBoundary with tick := s.tick + 1 }

/-! ## Boarding windows (R339) -/

/-- A deferred node's window opens: the workgroups whose trigger was met meanwhile are formed. -/
def State.boardingWindow (s : State) (ctx node : Nat) : State :=
  match s.ctx? ctx with
  | none => s
  | some c =>
    match c.node? node with
    | none => s
    | some n =>
      if (s.deferral c n).isNone || !s.mayForm c node then s
      else
        s.updCtx ctx fun c =>
          (c.slices.filter fun q => q.node == node).foldl (fun (c : Context) q => c.gather node q.die (some s.time)) c

def execBoardingWindowOpen (ctx node : Nat) (s : State) : Host.Outcome State Fault Refusal :=
  .next { s.boardingWindow ctx node with tick := s.tick + 1 }

/-! ## The fallback (R345) -/

/-- The tile of a segment's image under a tag. -/
def Claim.fromImage (c : Claim) (l : PlanLayer) (bs : List Byte) : Tile :=
  (List.range (c.need l)).foldl (fun t f => { c with tile := t }.take f ((bs.drop (2048 * f)).take 2048)) emptyTile

/-- The oldest claim of a FETCHING registration that is not served reads one sector of its segment's image, once the read-byte bucket has
tokens, and is served with the last one. A line's reader count is lowered with its last sector (log 114). A key slot that firmware has
cleared raises PROTECTION, as at a load (R229, R454). -/
def State.fallback (s : State) (p : Party) (layer : Nat) : State :=
  match s.siteOf p with
  | none => s
  | some σ =>
    match (σ.g.seqOf p).bind (fun t => t.reg? layer) with
    | some r =>
      match r.claims.find? (fun c => !c.complete), r.image with
      | some c, some l =>
        if r.state != .fetching || !σ.engineLive || !s.readsLeft σ.c then s
        else
          let pa := l.frameAt c.seg 0 + c.image.length
          if s.keyOf l.key == 0 then s.take p ⟨.protection, va64 (((σ.t.flight? c.id).map (·.pc)).getD σ.t.pc), pa, none, false, 0⟩
          else
          let x := s.peek l.key pa 32
          let s := s.countElided pa
          let s := (if pa % 128 = 96 then s.lowerCounts [lineOf pa] else s).updCtx σ.c.id fun c => c.chargeRead 32
          let d := { c with image := c.image ++ x.bytes, corrupt := c.corrupt || x.bad }
          let whole := d.image.length = 2048 * c.need l
          let t := d.fromImage l d.image
          let d := if whole then d.finish (if d.corrupt then t.poison else t) else d
          let s := s.updSeq p fun th => { th with regs := th.regs.map fun e =>
            if e.layer = layer then { e with
              fb := e.fb || whole, pois := e.pois || (whole && d.corrupt)
              claims := e.claims.map fun b => if b.id = c.id then d else b } else e }
          s.landClaims p 64
      | _, _ => s
    | none => s

def execFallback (p : Party) (layer : Nat) (s : State) : Host.Outcome State Fault Refusal :=
  .next { s.fallback p layer with tick := s.tick + 1 }

/-! ## A reservation restored (R350) -/

/-- A registration is made again at a new cluster, and its claims after it. -/
def State.reboard (s : State) (c : Context) (n : Node) (cluster : Nat) (r : Registration) : Registration :=
  let (st, next) := s.boardState c n r.layer r.frames cluster
  let nseg := match s.ring.plan.bind (·.find r.layer) with | some l => l.nseg | none => 2 ^ 16
  let fresh : Registration := { r with state := st, next := r.next || next, stalled := 0, claims := [], busy := [], image := s.ring.plan.bind (·.find r.layer) }
  r.claims.foldl (fun e c => e.claim nseg { c with got := 0, corrupt := false, tile := emptyTile, complete := false, image := [] }) fresh

end Sys2Proof.Machine
end

