-- ==== Sys2Proof/Machine/Rdma.lean ====
section
/-! DEFINITION. Remote memory access over Ethernet: queue pairs, work requests, and the responder
(spec/22_remote_memory_access.md R424 to R439; spec/11_consistency_model.md R259). -/
namespace Sys2Proof.Machine

/-! ## Fields (R425, R426, R451) -/

def WorkReq.fld (w : WorkReq) (lo n : Nat) : Nat := field w.wr.toNat lo n
def WorkReq.laddr (w : WorkReq) : Nat := w.fld 448 64
def WorkReq.raddr (w : WorkReq) : Nat := w.fld 384 64
def WorkReq.cnta (w : WorkReq) : Nat := w.fld 192 64
def WorkReq.addend (w : WorkReq) : Nat := w.fld 160 32
def WorkReq.len (w : WorkReq) : Nat := w.fld 128 32
def WorkReq.waitn (w : WorkReq) : Nat := w.fld 56 40
def WorkReq.waitq (w : WorkReq) : Nat := w.fld 40 16
def WorkReq.waitv (w : WorkReq) : Bool := w.fld 39 1 == 1
/-- OP: 0 SEND, 1 WRITE, 2 READ, 3 FETCH_ADD, 4 CMP_SWAP, 5 RECV. -/
def WorkReq.op (w : WorkReq) : Nat := w.fld 36 3
def WorkReq.fence (w : WorkReq) : Bool := w.fld 35 1 == 1
def WorkReq.rel (w : WorkReq) : Option Nat := if w.fld 34 1 = 1 then some (w.fld 31 3) else none
/-- A READ or an atomic. -/
def WorkReq.reads (w : WorkReq) : Bool := 2 ≤ w.op && w.op ≤ 4
/-- Bytes that come back. -/
def WorkReq.back (w : WorkReq) : Nat := if w.op = 2 then w.len else if w.reads then 8 else 0

def QPair.timeout (q : QPair) : Nat := 4096 * 2 ^ q.par 9 1
def QPair.sendSize (q : QPair) : Nat := q.par 12 2
def QPair.recvSize (q : QPair) : Nat := q.par 14 2
def QPair.mtu (q : QPair) : Nat := 1024 * 2 ^ q.par 16 1
/-- Packets of a message. -/
def QPair.packets (q : QPair) (n : Nat) : Nat := max 1 ((n + q.mtu - 1) / q.mtu)
def psnAdd (a k : Nat) : Nat := (a + k) % 2 ^ 24

def State.updWr (s : State) (q n : Nat) (f : WorkReq → WorkReq) : State :=
  let g (w : WorkReq) : WorkReq := if w.n = n then f w else w
  s.updQp q fun q => { q with sends := q.sends.map g, recvs := q.recvs.map g }

/-! ## The end of a work request (R429, R433) -/

/-- The issuer's ENG counter may be lowered. -/
def State.lowerEng (s : State) (w : WorkReq) : State :=
  s.updThread w.party fun t => (t.updFlight w.flight fun f => { f with done := true }).settleFlights

/-- A work request that has not completed is flushed. -/
def WorkReq.flush (code : Nat) (w : WorkReq) : WorkReq :=
  match w.stage with
  | .waiting | .started _ | .landing _ _ => { w with stage := .flush code }
  | _ => w

/-- A work request that fails gives no signals, however far it is. -/
def WorkReq.fails (code : Nat) (w : WorkReq) : WorkReq :=
  match w.stage with
  | .flush _ | .flushed => w
  | _ => { w with stage := .flush code }

/-- The queue pair enters ERROR with a first error; work request n takes the code, every other one that has not completed is flushed with
FLUSHED. -/
def QPair.fail (q : QPair) (n code : Nat) : QPair :=
  let f (w : WorkReq) : WorkReq := if w.n = n then w.fails code else w.flush 7
  { q with state := .error, firstErr := if q.state == .error then q.firstErr else code
           sends := q.sends.map f, recvs := q.recvs.map f }

/-! ## Chains (R431) -/

/-- The oldest posted request that has not started. -/
def QPair.waiter (q : QPair) : Option WorkReq := q.sends.find? fun w => match w.stage with | .waiting => true | _ => false

/-- The chain of a work request: satisfied, broken, or neither yet. -/
def State.chain (s : State) (w : WorkReq) : Option Bool :=
  if !w.waitv then some true
  else match s.qp? w.waitq with
    | none => none
    | some t => if w.waitn ≤ t.scc then some true else if t.state == .error then some false else none

/-- Requests whose chain is broken are flushed with CHAIN_BROKEN, and their pairs enter ERROR, which may break further chains. -/
def State.breakChains (s : State) : (fuel : Nat) → State
  | 0 => s
  | fuel + 1 =>
    match s.qps.findSome? fun q => if q.state == .error then none else q.waiter.bind fun w => if s.chain w == some false then some (q.n, w.n) else none with
    | none => s
    | some (q, w) => (s.updQp q fun p => p.fail w 8).breakChains fuel

/-- A queue pair enters ERROR by the failure of a work request, and the chains that wait for it break. -/
def State.failWr (s : State) (q n code : Nat) : State := (s.updQp q fun p => p.fail n code).breakChains s.qps.length

/-- The local writes are performed, and their release at RELS is over (R257). The engine is in no cluster, so below .SYS the device's
completion time counts; writes posted to the host are waited for at .SYS alone (R258). -/
def State.wrReleased (s : State) (w : WorkReq) : Bool :=
  (w.owedAcks = 0 || (w.rel != some 4 && s.onlyPosted (.wr w.n))) && (match w.rel with
    | none | some 0 => true
    | some 4 => w.wSys + 20 ≤ s.time
    | some _ => w.wDev + 2 ≤ s.time)

/-- Gone from its queue. -/
def QPair.drop (q : QPair) (n : Nat) : QPair :=
  { q with sends := q.sends.filter (fun w => w.n != n), recvs := q.recvs.filter (fun w => w.n != n) }

/-- Writes of bytes within one line of the context's space by a work request: entries at their place, or what stands in the way. -/
def State.wrPlace (s : State) (c : Context) (w : WorkReq) (kind : QKind) (va : Nat) (bs : List Byte) (need : Need) : Except EngRead (List QEntry) :=
  match s.translate c va need with
  | .cause k => .error (.cause k va)
  | .wait _ => .error .later
  | .ok pa key lease host =>
    let es := engEntries (.wr w.n) c.id Config.clusters 0 va (pa, key, lease, host) (located pa bs) false
    if s.covers c (32 * es.length) then .ok (es.map fun e => { e with kind := kind }) else .error .later

/-- Signals 3 and 4: the count, then the issuer's ENG counter. -/
def State.wrFinish (s : State) (q : QPair) (w : WorkReq) : State :=
  let s := s.updQp q.n fun q =>
    let q := q.drop w.n
    if w.op = 5 then { q with rcc := (q.rcc + 1) % 2 ^ 64 } else { q with scc := (q.scc + 1) % 2 ^ 64 }
  s.lowerEng w

/-- Entries of an engine outside the clusters count for the sampler as they depart (R240). -/
def State.sampleEntries (s : State) (es : List QEntry) : State :=
  es.foldl (fun s e => s.sample e.ctx e.va 0xFF (if e.kind.access = 1 then 5 else 2) (128 * e.line)) s

/-- One step of a work request that only the engine still works on: a line of its local writes, its release, its counter add, its
counts; or the error dwords of a flushed one, which are skipped where they have no translation. -/
def State.wrAdvance (s : State) (q : QPair) (w : WorkReq) : State :=
  match s.ctx? q.ctx with
  | none => s
  | some c =>
    let put (s : State) (es : List QEntry) (st : WrStage) : State :=
      ((s.updWr q.n w.n fun w => { w with stage := st, owedAcks := w.owedAcks + es.length }).sampleEntries es).enqueue c.id es
    match w.stage with
    | .waiting | .started _ => s
    | .landing off rest =>
      if rest.isEmpty then s.updWr q.n w.n fun w => { w with stage := .release }
      else
        let va := (w.laddr + off) % 2 ^ 64
        let k := min rest.length (128 - va % 128)
        match s.wrPlace c w (.store 0) va (rest.take k) .write with
        | .error (.cause _ _) => s.failWr q.n w.n 5
        | .error _ => s
        | .ok es => put s es (.landing (off + k) (rest.drop k))
    | .release =>
      if !s.wrReleased w then s
      else if w.cnta = 0 then s.wrFinish q w
      else match s.wrPlace c w (.add (BitVec.ofNat 64 w.addend)) w.cnta (zeros 1) .both with
        | .error (.cause _ _) => s.failWr q.n w.n 5
        | .error _ => s
        | .ok es => put s es .add
    | .add => if s.onlyPosted (.wr w.n) then s.wrFinish q w else s
    | .flush code =>
      if w.cnta = 0 then put s [] .flushed
      else
        match s.wrPlace c w (.store 0) ((w.cnta + 8) % 2 ^ 64) (leBytes 8 w.va) .write, s.wrPlace c w (.store 0) ((w.cnta + 16) % 2 ^ 64) (leBytes 8 code) .write with
        | .error (.cause _ _), .error (.cause _ _) => put s [] .flushed
        | .error (.cause _ _), .ok es | .ok es, .error (.cause _ _) => put s es .flushed
        | .ok es, .ok fs => if s.covers c (32 * (es.length + fs.length)) then put s (es ++ fs) .flushed else s
        | _, _ => s
    | .flushed =>
      if !s.onlyPosted (.wr w.n) || s.time < w.wDev + 2 then s
      else (s.updQp q.n fun q => { q.drop w.n with flc := (q.flc + 1) % 2 ^ 64 }).lowerEng w

/-- The engine goes on with the oldest work request of each queue. -/
def State.qpAdvance (s : State) (n : Nat) : State :=
  let one (s : State) (head : QPair → Option WorkReq) : State :=
    match s.qp? n with
    | none => s
    | some q => match head q with | some w => s.wrAdvance q w | none => s
  one (one s fun q => q.sends.head?) fun q => q.recvs.head?

/-! ## QPOST and QSTAT (R427, R428, R434) -/

/-- The checks of a work request's fields. -/
def State.wrBad (s : State) (ctx : Nat) (w : WorkReq) : Option (Cause × Nat) :=
  let recv := w.op == 5
  let mine (n : Nat) : Bool := match s.qp? n with | some q => q.ctx == ctx | none => false
  let zero := match w.op with
    | 0 => w.raddr != 0 || w.fld 96 32 != 0 || w.fld 320 64 != 0 || w.fld 256 64 != 0
    | 1 | 2 => w.fld 320 64 != 0 || w.fld 256 64 != 0
    | 3 => w.fld 256 64 != 0
    | 4 => false
    | _ => w.raddr != 0 || w.fld 96 32 != 0 || w.fld 320 64 != 0 || w.fld 256 64 != 0
  let atomic := w.op == 3 || w.op == 4
  if w.fld 0 31 != 0 || 6 ≤ w.op || zero || (if atomic then w.len != 8 else decide (2 ^ 31 < w.len)) || (recv && (w.waitv || w.fence)) ||
      !mine w.waitq || (match w.rel with | some r => decide (5 ≤ r) | none => w.fld 31 3 != 0) then some (.illegalOperand, 0)
  else if atomic && w.laddr % 8 != 0 then some (.misaligned, w.laddr)
  else if atomic && w.raddr % 8 != 0 then some (.misaligned, w.raddr)
  else if w.cnta % 8 != 0 then some (.misaligned, w.cnta)
  else none

/-- The target queue is full. -/
def QPair.full (q : QPair) (w : WorkReq) : Bool :=
  if w.op = 5 then decide (q.recvSize ≤ q.recvs.length) else decide (q.sendSize ≤ q.sends.length)

def execQpost (o : SSL) (s : State) : Host.Outcome State Fault Refusal :=
  issueOp (.qpost o) s fun σ s =>
    let qn := (σ.t.rs s.tick o.a).toNat
    if qn / 2 ^ 16 != 0 then .raise s .illegalOperand 0 none
    else match s.qp? qn with
      | none => .raise s .protection 0 none
      | some q =>
        if q.ctx != σ.c.id then .raise s .protection 0 none
        else match s.check σ .g 64 .read 0 (σ.t.rs s.tick o.b).toNat with
          | .bad _ c fa => .raise s c fa none
          | .absent a => .raise s .pageFault a.va none
          | .wait _ => .hold s
          | .ok a =>
            if !σ.t.storesDone || s.readBarred σ (a.pa.getD 0) || (q.sendSize ≤ q.sends.length && q.recvSize ≤ q.recvs.length) then .hold s
            else match s.readDesc σ a 64 with
              | (_, .later) | (_, .moving) => .hold s
              | (s, .cause c fa) => .raise s c fa none
              | (s', .got bs _) =>
                let w : WorkReq := ⟨s'.nextWr, a.va, BitVec.ofNat 512 (fromBytes bs), σ.p, σ.t.nextId, .waiting, 0, [], 0, 0, 0, 0, false⟩
                if q.full w && w.op < 6 then .hold s
                else match s'.wrBad σ.c.id w with
                  | some (c, fa) => .raise s' c fa none
                  | none =>
                    let w := if q.state == .error then { w with stage := .flush 7 } else w
                    let s' := { s' with nextWr := s'.nextWr + 1 }
                    let s' := s'.updQp qn fun q => if w.op = 5 then { q with recvs := q.recvs ++ [w] } else { q with sends := q.sends ++ [w] }
                    .done s' none (some (σ.cmdFlight (.qpost o)))

/-- A RECV that no SEND has consumed. -/
def WorkReq.unconsumed (w : WorkReq) : Bool := !w.consumed

/-- The status word. A queue pair that has not been taken to RTS reads as STATE 0. -/
def QPair.status (q : QPair) : Nat :=
  let st := match q.state with | .init => 0 | .rts => 1 | .error => 2
  st * 2 ^ 56 + (if q.state == .error then q.firstErr else 0) * 2 ^ 48 + q.sends.length * 2 ^ 35 +
    (q.recvs.filter WorkReq.unconsumed).length * 2 ^ 22 + q.port * 2 ^ 16

def execQstat (o : DA) (s : State) : Host.Outcome State Fault Refusal :=
  issueOp (.qstat o) s fun σ s =>
    let a := (σ.t.rs s.tick o.a).toNat
    if a / 2 ^ 18 != 0 then .raise s .illegalOperand 0 none
    else
      let x := match s.qp? (a % 2 ^ 16) with
        | none => 0
        | some q =>
          if q.ctx != σ.c.id then 0
          else match a / 2 ^ 16 with
            | 0 => q.status
            | 1 => q.scc
            | 2 => q.rcc
            | _ => q.flc
      .done (s.updThread σ.p fun t => t.putS s.tick o.d (BitVec.ofNat 64 x)) none none

/-! ## The requester (R429, R431, R432) -/

/-- Reads sectors at their homes, all of which can be read: what they hold, how many are charged, and the lines read. -/
def State.homeSectors (s : State) (who : Owner) : List (Nat × Place) → State × List SectorBytes × Nat × List Nat
  | [] => (s, [], 0, [])
  | (sec, x) :: rest =>
    let near := !x.2.2.2 && inMemory x.1
    let (s, g) : State × Got :=
      if near then
        let p := s.peek x.2.1 x.1 32
        (s.countElided x.1, ⟨p.bytes, p.bad, true⟩)
      else s.engSector who Config.clusters x
    let (s, xs, n, ls) := s.homeSectors who rest
    (s, (sec, g.bytes, g.bad) :: xs, if g.atHome then n + 1 else n, if near then lineOf x.1 :: ls else ls)

/-- Reads translated sectors at their homes, all of which can be read: each counts for the sampler, reader counts fall, and what peers
returned is dropped (R221, R240, R419). The answer tells how many a local source is charged for. -/
def State.readHomes (s : State) (who : Owner) (ctx : Nat) (places : List (Nat × Place)) : State × List SectorBytes × Nat :=
  let (s, xs, n, lines) := (s.sampleSectors ctx 4 (places.map fun x => (x.1, none)) places).homeSectors who places
  ((s.lowerCounts lines).endReads who, xs, n)

/-- Reads a local source at its homes, charged to the context's read bytes (R427). -/
def State.srcSectors (s : State) (c : Context) (w : WorkReq) : State × Except EngRead (List SectorBytes) :=
  match s.placeSectors c ((sectorsOf w.laddr w.len).map fun x => (x, none)) with
  | (s, .error e) => (s, .error e)
  | (s, .ok places) =>
    match s.readyAll (.wr w.n) c.id Config.clusters 0 places with
    | (s, some (.cause k a)) => (s.endReads (.wr w.n), .error (.cause k a))
    | (s, some e) => (s, .error e)
    | (s, none) =>
      let (s, xs, n) := s.readHomes (.wr w.n) c.id places
      (s.updCtx c.id fun c => c.chargeRead (32 * n), .ok xs)

/-- Packets of a request go out. -/
def WorkReq.request (w : WorkReq) : WireKind × List Byte :=
  let head := leBytes 8 w.raddr ++ leBytes 4 (w.fld 96 32) ++ leBytes 4 w.len
  match w.op with
  | 0 => (.send, w.data)
  | 1 => (.write, head ++ w.data)
  | 2 => (.readReq, head)
  | 3 => (.fetchAdd, head ++ leBytes 8 (w.fld 320 64))
  | _ => (.cmpSwap, head ++ leBytes 8 (w.fld 320 64) ++ leBytes 8 (w.fld 256 64))

/-- A started request's packets leave, for the first time or again. -/
def State.transmit (s : State) (q : QPair) (w : WorkReq) : State :=
  let (k, bs) := w.request
  (s.sendWire q.n k w.psn bs s.time).updWr q.n w.n fun w => { w with stage := .started s.time }

/-- Every write and load that the acquire of a work request waits for is over (R257). -/
def State.wrAcquired (s : State) (w : WorkReq) : Bool :=
  match (s.wg? w.party.wg).bind fun g => g.thread? w.party with
  | some t => acquired t w.flight
  | none => true

/-- The oldest posted request that has not started starts: after its FENCE, its chain and its acquire, with its local source read. One whose
chain is broken is flushed whatever else it waits for. -/
def State.workStart (s : State) (qn : Nat) : State :=
  match s.qp? qn with
  | none => s
  | some q =>
    match s.ctx? q.ctx, q.waiter with
    | some c, some w =>
      if q.state != .error && s.chain w == some false then s.failWr qn w.n 8
      else if q.state != .rts || c.run != .running || !q.cached || s.pausedPair q || !s.wrAcquired w ||
          (w.fence && q.sends.any fun v => decide (v.n < w.n) && v.reads) then s
      else
        match s.chain w with
        | some true =>
          let go (s : State) (data : List Byte) : State :=
            let k := q.packets (if w.op = 2 then w.len else data.length)
            let w := { w with psn := q.nextPsn, data := data }
            let s := s.updQp qn fun q => { q with nextPsn := psnAdd q.nextPsn k }
            (s.updWr qn w.n fun _ => w).transmit q w
          if w.op ≤ 1 then
            match s.srcSectors c w with
            | (s, .error (.cause _ _)) => s.failWr qn w.n 5
            | (s, .error _) => s
            | (s, .ok xs) =>
              let (bs, bad) := fromSectors xs w.laddr w.len
              if bad then s.failWr qn w.n 9 else go s bs
          else go s []
        | _ => s
    | _, _ => s

def execWorkRequestStart (qp : Nat) (s : State) : Host.Outcome State Fault Refusal :=
  .next { s.workStart qp with tick := s.tick + 1 }

/-- The acknowledgement timer of a started request runs anew. -/
def WorkReq.restart (now : Nat) (w : WorkReq) : WorkReq := match w.stage with | .started _ => { w with stage := .started now } | _ => w

/-- The oldest started request is answered: every packet acknowledged, or its response come whole; progress clears the retry counts and
starts the timer anew (R425). -/
def State.qpAck (s : State) (qn : Nat) (bytes : List Byte) : State :=
  match (s.qp? qn).bind (·.sends.head?) with
  | none => s
  | some w =>
    match w.stage with
    | .started _ =>
      if bytes.length != w.back then s
      else (s.updQp qn fun q => { q with retries := 0, rnr := 0, sends := q.sends.map (·.restart s.time) }).updWr qn w.n fun w =>
        { w with stage := .landing 0 bytes }
    | _ => s

/-- The oldest started request. -/
def QPair.oldest (q : QPair) : Option (WorkReq × Nat) :=
  q.sends.findSome? fun w => match w.stage with | .started t => some (w, t) | _ => none

/-- The acknowledgement timeout has lapsed: sent again, or failed once the retry count is used up. -/
def State.ackTimeout (s : State) (qn : Nat) : State :=
  match s.qp? qn with
  | none => s
  | some q =>
    match q.oldest with
    | none => s
    | some (w, t) =>
      if s.time < t + q.timeout then s
      else if q.par 10 1 ≤ q.retries then s.failWr qn w.n 3
      else (s.updQp qn fun q => { q with retries := q.retries + 1 }).transmit q w

def execAcknowledgementTimeout (qp : Nat) (s : State) : Host.Outcome State Fault Refusal :=
  .next { s.ackTimeout qp with tick := s.tick + 1 }

/-- The responder was not ready: sent again, or failed once the RNR retry count, 7 for no limit, is used up. -/
def State.rnrNak (s : State) (qn : Nat) : State :=
  match s.qp? qn with
  | none => s
  | some q =>
    match q.oldest with
    | none => s
    | some (w, _) =>
      if q.par 11 1 != 7 && q.par 11 1 ≤ q.rnr then s.failWr qn w.n 4
      else (s.updQp qn fun q => { q with rnr := q.rnr + 1 }).transmit q w

/-- A NAK fails the oldest started request. The table of R432 gives a NAK for an invalid request no code of its own, so which of the two
remote codes it takes is free. -/
def State.qpNak (s : State) (qn : Nat) (k : NakKind) : State :=
  match s.qp? qn with
  | none => s
  | some q =>
    match q.oldest with
    | none => s
    | some (w, _) => s.failWr qn w.n (match k with | .remoteAccess => 1 | .remoteOp => 2 | .invalid => 1 + Config.freeNat s.tick 62000 % 2)

/-! ## The responder (R430, R435 to R437) -/

/-- How a packet's number stands to the expected one. -/
inductive Psn where
  | expected | duplicate | ahead
  deriving DecidableEq, Repr

def QPair.judge (q : QPair) (psn : Nat) : Psn :=
  let d := (psn + 2 ^ 24 - q.expPsn % 2 ^ 24) % 2 ^ 24
  if d = 0 then .expected else if 2 ^ 23 ≤ d then .duplicate else .ahead

/-- An inbound SEND consumes the oldest RECV. -/
def State.serveSend (s : State) (q : QPair) (psn : Nat) (bytes : List Byte) : State × Bool :=
  match q.judge psn with
  | .ahead => (s, true)
  | .duplicate => (s.reply q.n .ack psn [] 0, true)
  | .expected =>
    match q.recvs.find? (fun w => match w.stage with | .waiting => true | _ => false) with
    | none => (s.reply q.n .rnrNak psn [] 0, true)
    | some w =>
      if w.len < bytes.length then ((s.reply q.n .nakInvalid psn [] 0).failWr q.n w.n 6, true)
      else
        let s := s.updQp q.n fun q => { q with expPsn := psnAdd q.expPsn (q.packets bytes.length) }
        ((s.reply q.n .ack psn [] 0).updWr q.n w.n fun w => { w with stage := .landing 0 bytes, consumed := true }, true)

/-- A region entry's fields. -/
def Region.fld (r : Region) (lo n : Nat) : Nat := field r.bits.toNat lo n
/-- The region that an inbound access names admits it: `right` is the permission bit. -/
def State.regionOk (s : State) (q : QPair) (rkey va len right : Nat) : Bool :=
  match s.regions.find? fun r => r.n == rkey % 4096 with
  | none => false
  | some r =>
    r.fld 0 1 == 1 && r.fld 20 20 == rkey / 4096 % 2 ^ 20 && r.fld 14 6 == q.ctx && r.fld right 1 == 1 && r.fld 64 64 ≤ va &&
      va + len ≤ r.fld 64 64 + 4096 * r.fld 40 24

/-- A refused access: a NAK, a log to the host, and the queue pair in ERROR. The code that the pair then reports is free, since no work
request of its own failed. -/
def State.refuseAccess (s : State) (q : QPair) (kind psn rkey va : Nat) : State :=
  let s := (s.reply q.n .nakAccess psn [] 0).accessLog true kind 4 q.n va rkey
  s.failWr q.n s.nextWr (Config.freeNat s.tick 62001 % 10)

/-- The places of the sectors of a run. -/
def State.places (s : State) (c : Context) (need : Need) : List Nat → Except EngRead (List (Nat × Place))
  | [] => .ok []
  | sec :: rest =>
    match s.translate c (32 * sec % 2 ^ 64) need with
    | .cause k => .error (.cause k (32 * sec))
    | .wait _ => .error .later
    | .ok pa key lease host => match s.places c need rest with
      | .error e => .error e
      | .ok xs => .ok ((sec, pa, key, lease, host) :: xs)

/-- The sector lies in this device's memory. -/
def isNear (x : Nat × Place) : Bool := !x.2.2.2.2 && inMemory x.2.1

/-- Writes to a region's pages: those in memory at their homes, where no region bars them; those of host and peer pages by way of the
queue, for which the answer waits. The end of the answer gives their number. -/
def State.regionWrite (s : State) (q : QPair) (psn : Nat) (xs : List (Nat × Place)) (bs : List (Nat × Byte)) : Option (State × Nat) :=
  let mine (e : Nat × Place) : List (Nat × Byte) := (bs.filter fun b => b.1 / 32 == e.1).map fun b => (e.2.1 + b.1 % 32, b.2)
  let near := xs.filter isNear
  let ts := s.latestTs (nubNat (near.map fun e => lineOf e.2.1))
  match s.landBytes (near.map fun e => (e.2.2.1, mine e)) with
  | (_, false) => none
  | (s, true) =>
    let es := (xs.filter fun e => !isNear e).flatMap fun e =>
      engEntries (.reply q.n psn) q.ctx Config.clusters 0 (32 * e.1 % 2 ^ 64) e.2 (mine e) false
    let s := ((xs.foldl (fun s e => s.sample q.ctx (32 * e.1 % 2 ^ 64) 0xFF 5 e.2.1) s).enqueue q.ctx es).updCtx q.ctx fun c => c.chargeWrite (32 * near.length)
    some (s.updQp q.n fun q => { q with ackFrom := max q.ackFrom (seenFrom ts) }, es.length)

/-- The packets of an inbound RDMA WRITE, whose whole access its region admits and whose pages translate, one after another: a packet waits
while the write lane does not cover it, and its answer leaves once the time base has passed its T_S and 20 ns (R259, R436). The answer tells
what is left to be served: the number of its first packet, its address and bytes. -/
def State.writePackets (s : State) (qn psn rkey va : Nat) (bytes : List Byte) : (fuel : Nat) → State × Option (Nat × Nat × List Byte)
  | 0 => (s, none)
  | fuel + 1 =>
    match s.qp? qn with
    | none => (s, none)
    | some q => match s.ctx? q.ctx with
      | none => (s, none)
      | some c =>
        let bs := bytes.take q.mtu
        let rest := bytes.drop q.mtu
        match s.places c .write (sectorsOf va bs.length) with
        | .error (.cause _ _) => (s.refuseAccess q 1 psn rkey va, none)
        | .error _ => (s, some (psn, va, bytes))
        | .ok xs =>
          if !s.covers c (32 * xs.length) then (s, some (psn, va, bytes))
          else match s.regionWrite q psn xs (located va bs) with
            | none => (s.awaken (s.barred (xs.map fun e => e.2.1)), some (psn, va, bytes))
            | some (s, far) =>
              let s := (s.updQp q.n fun q => { q with expPsn := psnAdd q.expPsn 1 }).reply q.n .ack psn [] far
              if rest.isEmpty then (s, none) else s.writePackets qn (psnAdd psn 1) rkey (va + bs.length) rest fuel

/-- An inbound RDMA WRITE, all its packets: the access must lie wholly within its region, and all of its pages translate, before any of it is
applied (R435). A duplicate is only acknowledged. -/
def State.serveRdmaWrite (s : State) (q : QPair) (psn rkey va : Nat) (bytes : List Byte) : State × Option (Nat × Nat × List Byte) :=
  match q.judge psn, s.ctx? q.ctx with
  | .ahead, _ => (s, none)
  | .duplicate, _ => (s.reply q.n .ack psn [] 0, none)
  | .expected, none => (s, none)
  | .expected, some c =>
    if !s.regionOk q rkey va bytes.length 2 then (s.refuseAccess q 1 psn rkey va, none)
    else match s.places c .write (sectorsOf va bytes.length) with
      | .error (.cause _ _) => (s.refuseAccess q 1 psn rkey va, none)
      | _ => s.writePackets q.n psn rkey va bytes (q.packets bytes.length)

/-- An inbound READ, the first time or again: a poisoned sector, or one that a peer does not give, is answered with a NAK. -/
def State.serveRdmaRead (s : State) (q : QPair) (psn rkey va len : Nat) : State × Bool :=
  match q.judge psn, s.ctx? q.ctx with
  | .ahead, _ | _, none => (s, true)
  | j, some c =>
    if 2 ^ 31 < len then (s.reply q.n .nakInvalid psn [] 0, true)
    else if !s.regionOk q rkey va len 1 then (s.refuseAccess q 0 psn rkey va, true)
    else match s.places c .read (sectorsOf va len) with
      | .error (.cause _ _) => (s.refuseAccess q 0 psn rkey va, true)
      | .error _ => (s, false)
      | .ok places =>
        let who := Owner.reply q.n psn
        match s.readyAll who c.id Config.clusters 0 places with
        | (s, some (.cause _ _)) => ((s.endReads who).reply q.n .nakOp psn [] 0, true)
        | (s, some _) => (s, false)
        | (s, none) =>
          let (s, xs, _) := s.readHomes who c.id places
          let (bs, bad) := fromSectors xs va len
          if bad then (s.reply q.n .nakOp psn [] 0, true)
          else
            let s := if j = .duplicate then s else s.updQp q.n fun q => { q with expPsn := psnAdd q.expPsn (q.packets len) }
            (s.reply q.n .response psn bs 0, true)

/-- An inbound atomic of 8 bytes: performed once as a .G atomic; a duplicate is answered from the replay store of 16. -/
def State.serveAtomic (s : State) (q : QPair) (psn rkey va : Nat) (op : AOp) (v cmp : Nat) : State × Bool :=
  match q.judge psn, s.ctx? q.ctx with
  | .ahead, _ => (s, true)
  | .duplicate, _ =>
    if q.replies.any fun r => r.psn == psn then (s, true)
    else match q.replay.lookup psn with
      | some old => (s.reply q.n .response psn (leBytes 8 old.toNat) 0, true)
      | none => (s.reply q.n .nakOp psn [] 0, true)
  | .expected, none => (s, true)
  | .expected, some c =>
    if va % 8 != 0 then (s.reply q.n .nakInvalid psn [] 0, true)
    else if !s.regionOk q rkey va 8 3 then (s.refuseAccess q 2 psn rkey va, true)
    else match s.translate c va .both with
      | .cause _ => (s.refuseAccess q 2 psn rkey va, true)
      | .wait _ => (s, false)
      | .ok pa key lease host =>
        let next (s : State) : State := s.updQp q.n fun q => { q with expPsn := psnAdd q.expPsn 1 }
        let sampled (s : State) : State := s.sample c.id va 0xFF 2 pa
        if !s.covers c 32 then (s, false)
        else if host || !inMemory pa then
          let a : Access := { lane := 0, va := va, pa := some pa, key := key, lease := lease, host := host, v := v, cmp := cmp, old := none,
                              bad := false, done := false }
          let e : QEntry :=
            { n := 0, owner := .reply q.n psn, ctx := c.id, cluster := Config.clusters, core := none, kind := .atomic op .b64, line := lineOf pa,
              key := key, lease := lease, host := host, bytes := [], accs := [a], times := none, held := false, bad := false }
          (((next (sampled s)).enqueue c.id [e]).reply q.n .response psn [] 1, true)
        else match s.barred [pa] with
          | [] =>
            let s := ((sampled s).noteRewrite [pa]).updCtx c.id fun c => c.chargeWrite 32
            let (s, old, bad) := (s.ordinary [lineOf pa]).applyAtomic op 8 key pa v cmp
            if bad then (s.reply q.n .nakOp psn [] 0, true)
            else
              let s := (next s).updQp q.n fun q => { q with replay := ((psn, BitVec.ofNat 64 old) :: q.replay).take 16 }
              (s.reply q.n .response psn (leBytes 8 old) 0, true)
          | rs =>
            let again := s.home.reviving.contains (regionOf pa) && s.inbox.any fun k => k.qp == q.n
            ((if again then s else s.countElided pa).awaken rs, false)

/-! ## Port buffers (R436, R438) -/

/-- Serves a packet, or tells what of it must wait. -/
def State.servePacket (s : State) (q : QPair) (k : Arrival) : State × Option Arrival :=
  let whole (x : State × Bool) : State × Option Arrival := (x.1, if x.2 then none else some k)
  match k with
  | .send psn bytes => whole (s.serveSend q psn bytes)
  | .write psn rkey va bytes =>
    let (s, left) := s.serveRdmaWrite q psn rkey va bytes
    (s, left.map fun x => .write x.1 rkey x.2.1 x.2.2)
  | .read psn rkey va len => whole (s.serveRdmaRead q psn rkey va len)
  | .fetchAdd psn rkey va v => whole (s.serveAtomic q psn rkey va .add v 0)
  | .cmpSwap psn rkey va cmp new => whole (s.serveAtomic q psn rkey va .cas new cmp)
  | .answer bytes => (s.qpAck q.n bytes, none)
  | .rnrNak => (s.rnrNak q.n, none)
  | .nak k => (s.qpNak q.n k, none)
  | .immediate psn => (s.reply q.n .nakInvalid psn [] 0, none)

/-- The bytes that a packet takes in a port's buffer: its payload (log 115). -/
def Arrival.size : Arrival → Nat
  | .send _ bs | .write _ _ _ bs | .answer bs => bs.length
  | .fetchAdd _ _ _ _ => 8
  | .cmpSwap _ _ _ _ _ => 16
  | _ => 0

/-- Packets of a queue pair that wait in its port's buffer are served in the order of their arrival, as far as they can be; those for a
pair that is not in RTS are dropped. -/
def State.drain (s : State) (qn : Nat) : (fuel : Nat) → State
  | 0 => s
  | fuel + 1 =>
    match s.qp? qn, s.inbox.find? fun k => k.qp == qn with
    | some q, some k =>
      let out (s : State) : State := { s with inbox := s.inbox.erase k }
      if q.state != .rts then (out s).drain qn fuel
      else if !q.cached then s
      else match s.servePacket q k.what with
        | (s, none) => (out s).drain qn fuel
        | (s, some x) => { s with inbox := { k with what := x } :: s.inbox.erase k }
    | none, some _ => { s with inbox := s.inbox.filter fun k => k.qp != qn }
    | _, none => s

/-- Bytes of the packets that a port's buffer holds. -/
def State.buffered (s : State) (port : Nat) : Nat := sumBy (fun k : Packet => if k.port = port then k.what.size else 0) s.inbox

/-- A packet that comes marked by the network is answered with a congestion notification; whether one does is the network's, and free. -/
def State.notify (s : State) (qn : Nat) : State :=
  if Config.freeBit s.tick (62100 + qn) then { s with notified := (qn, s.time) :: s.notified } else s

/-- A packet arrives, an answer as well as a request. It is served at once, or held in the port's buffer behind those of its queue pair. One
that finds the buffer full is answered with an RNR NAK, and the pair's packets are dropped until the refused PSN comes again. -/
def State.packet (s : State) (qn psn : Nat) (k : Arrival) : State :=
  let s := (s.notify qn).drain qn (s.inbox.length + 1)
  match s.qp? qn with
  | none => s
  | some q =>
    if q.state != .rts || (q.refused.isSome && q.refused != some psn) then s
    else
      let s := s.updQp qn fun q => { q with refused := none }
      let (s, left) := if !q.cached || s.inbox.any (fun k => k.qp == qn) then (s, some k) else s.servePacket q k
      match left with
      | none => s
      | some k =>
        if 2 ^ 18 < s.buffered q.port + k.size then (s.reply qn .rnrNak psn [] 0).updQp qn fun q => { q with refused := some psn }
        else { s with inbox := s.inbox ++ [⟨q.port, qn, k⟩] }

/-- An answer comes for the oldest started request, whose packets it names. -/
def State.pairAnswered (s : State) (qn : Nat) (k : Arrival) : State :=
  match (s.qp? qn).bind (·.oldest) with
  | some (w, _) => s.packet qn w.psn k
  | none => s

/-- An acknowledgement or a response. While the oldest request of the pair is past that point, the engine goes on with its writes and
signals. -/
def execRdmaAcknowledgement (qp : Nat) (bytes : List Byte) (s : State) : Host.Outcome State Fault Refusal :=
  let started : Bool := match (s.qp? qp).bind (·.sends.head?) with
    | some w => (match w.stage with | .started _ => true | _ => false)
    | none => false
  .next { (if started then s.pairAnswered qp (.answer bytes) else s.qpAdvance qp) with tick := s.tick + 1 }
def execRnrNak (qp : Nat) (s : State) : Host.Outcome State Fault Refusal :=
  .next { s.pairAnswered qp .rnrNak with tick := s.tick + 1 }
def execNak (qp : Nat) (k : NakKind) (s : State) : Host.Outcome State Fault Refusal :=
  .next { s.pairAnswered qp (.nak k) with tick := s.tick + 1 }

/-- A message for the receive queue; the engine goes on with the RECVs under way. -/
def execInboundSend (qp psn : Nat) (bytes : List Byte) (s : State) : Host.Outcome State Fault Refusal :=
  .next { (s.packet qp psn (.send psn bytes)).qpAdvance qp with tick := s.tick + 1 }
def execInboundRdmaWrite (qp psn : Nat) (rkey : Word) (va : DWord) (bytes : List Byte) (s : State) : Host.Outcome State Fault Refusal :=
  .next { s.packet qp psn (.write psn rkey.toNat va.toNat bytes) with tick := s.tick + 1 }
def execInboundRdmaRead (qp psn : Nat) (rkey : Word) (va : DWord) (len : Nat) (s : State) : Host.Outcome State Fault Refusal :=
  .next { s.packet qp psn (.read psn rkey.toNat va.toNat len) with tick := s.tick + 1 }
def execInboundFetchAdd (qp psn : Nat) (rkey : Word) (va v : DWord) (s : State) : Host.Outcome State Fault Refusal :=
  .next { s.packet qp psn (.fetchAdd psn rkey.toNat va.toNat v.toNat) with tick := s.tick + 1 }
def execInboundCmpSwap (qp psn : Nat) (rkey : Word) (va cmp new : DWord) (s : State) : Host.Outcome State Fault Refusal :=
  .next { s.packet qp psn (.cmpSwap psn rkey.toNat va.toNat cmp.toNat new.toNat) with tick := s.tick + 1 }

/-! ## Contexts in the cache, congestion, flow control (R424, R438) -/

/-- Queue pairs that the engine's cache holds. -/
def qpCache : Nat := 4096

/-- A queue pair's context is fetched; where the cache is full, which other one leaves is free. -/
def State.contextFetch (s : State) (qn : Nat) : State :=
  match s.qp? qn with
  | none => s
  | some q =>
    if q.cached then s
    else
      let held := (s.qps.filter (·.cached)).map (·.n)
      let out := if held.length < qpCache then none else held[Config.freeNat s.tick 62003 % held.length]?
      { s with qps := s.qps.map fun q => if q.n = qn then { q with cached := true } else if some q.n = out then { q with cached := false } else q }

/-- The engine turns to a queue pair: its context is fetched, and packets held for it are served. -/
def execContextFetch (qp : Nat) (s : State) : Host.Outcome State Fault Refusal :=
  .next { (s.contextFetch qp).drain qp (s.inbox.length + 1) with tick := s.tick + 1 }

/-- A congestion notification changes the sending rate by a rule that firmware sets: the rate is free. -/
def execCnp (qp : Nat) (s : State) : Host.Outcome State Fault Refusal :=
  .next { s.updQp qp (fun q => { q with rate := Config.freeNat s.tick 62004 }) with tick := s.tick + 1 }

/-- A packet of another transport is dropped and counted; an operation with immediate data or invalidation is answered with a NAK. -/
def State.badPacket (s : State) (port : Nat) (k : BadPacket) : State :=
  match k with
  | .transport => { s with dropped := Sparse.set 0 s.dropped port (Sparse.get 0 s.dropped port + 1) }
  | .immediate qp psn => s.packet qp psn (.immediate psn)

def execUnreliablePacket (port : Nat) (k : BadPacket) (s : State) : Host.Outcome State Fault Refusal :=
  .next { s.badPacket port k with tick := s.tick + 1 }

/-- Packets of priorities that are not paused leave, in their order; those of pairs that are gone are dropped. -/
def State.releaseWires (s : State) : State :=
  let held (w : Wire) : Bool := match s.qp? w.qp with | some q => s.pausedPair q | none => false
  let go := s.wireHeld.filter fun w => (s.qp? w.qp).isSome && !held w
  { s with
    wireHeld := s.wireHeld.filter held
    wire := (go.map fun w => { w with time := max s.time w.time }).reverse ++ s.wire }

def execPriorityFlowControl (port prio : Nat) (pause : Bool) (s : State) : Host.Outcome State Fault Refusal :=
  let rest := s.paused.filter (· != (port, prio))
  let s' : State := { s with paused := if pause && port < 4 && prio < 8 then (port, prio) :: rest else rest }
  .next { s'.releaseWires with tick := s.tick + 1 }

end Sys2Proof.Machine
end

