-- ==== Sys2Proof/Machine/Debug.lean ====
section
/-! DEFINITION. TRAP, BRK and the debug instructions (spec/19_faults_and_preemption.md R395, R401; spec/20_program_debugger_stub.md R405,
R406). -/
namespace Sys2Proof.Machine

/-! ## TRAP and BRK (R393, R395) -/

/-- A wave notes the trap and halts after the instruction; on a sequencer the halt line is raised with the trap as primary cause. -/
def trapOp (i : Instr) (c : Cause) (n : BitVec 12) (s : State) : Host.Outcome State Fault Refusal :=
  issueOp i s fun σ s =>
    match σ.p with
    | .wave g k => .done (s.updWave g k fun w => w.noteTrap c n.toNat 0 none (va64 σ.t.pc)) none none
    | p => .done (s.take p ⟨c, va64 σ.t.pc, 0, none, false, n.toNat⟩) none none

def execTrap (n : BitVec 12) (s : State) : Host.Outcome State Fault Refusal := trapOp (.trap n) .softwareTrap n s
def execBrk (n : BitVec 12) (s : State) : Host.Outcome State Fault Refusal := trapOp (.brk n) .breakpoint n s

/-! ## DBGRD and DBGWR (R401) -/

/-- The cause of the first check that fails. Neither R43 nor R401 orders them: in the model ILLEGAL_OPERAND comes before PRIVILEGED and that
before MISALIGNED (log 124). -/
def Site.debugArgs (σ : Site) (tgt : Nat) (off : Nat) : Option (Cause × Nat) :=
  if tgt / 2 ^ 15 != 0 || Config.cores ≤ tgt % 256 then some (.illegalOperand, 0)
  else if !σ.n.dbg then some (.privileged, 0)
  else if off % 8 != 0 then some (.misaligned, off)
  else none

/-- Debug writes of the party that are not performed. -/
def State.debugPending (s : State) (p : Party) : Bool :=
  s.queue.any fun e => match e.owner, e.kind with | .flight q _, .debug _ _ _ => q == p | _, _ => false

/-- DBGRD is performed at its issue, once the wave's earlier DBGWRs are. -/
def execDbgrd (o : DbgrdF) (s : State) : Host.Outcome State Fault Refusal :=
  issueOp (.dbgrd o) s fun σ s =>
    let tgt := (σ.t.rs s.tick o.a).toNat
    match σ.debugArgs tgt o.off.toNat with
    | some (c, fa) => .raise s c fa none
    | none =>
      if s.debugPending σ.p then .hold s
      else
        let x := s.dbgRead σ.c.id (tgt % 256) (tgt / 256) o.off.toNat
        .done (s.updThread σ.p fun t => t.putS s.tick o.d (BitVec.ofNat 64 x)) none
          (some { σ.flight (.dbgrd o) true [] with done := true, olds := [(.s o.d, σ.t.now (.s o.d))] })

/-- DBGWR takes a place in the core's queue; the queue performs it. -/
def execDbgwr (o : DbgwrF) (s : State) : Host.Outcome State Fault Refusal :=
  issueOp (.dbgwr o) s fun σ s =>
    let tgt := (σ.t.rs s.tick o.a).toNat
    match σ.debugArgs tgt o.off.toNat with
    | some (c, fa) => .raise s c fa none
    | none =>
      if Config.storeQueueEntries ≤ s.queued σ.cluster σ.core then .hold s
      else
        let e : QEntry := { σ.entry (.debug tgt o.off.toNat (σ.t.rs s.tick o.b)) 0 0 0 false with n := s.nextQ, line := 2 ^ 60 }
        .done { s with queue := s.queue ++ [e], nextQ := s.nextQ + 1 } none (some { σ.flight (.dbgwr o) false [] with owed := 1 })

/-- A queued debug write of some kind is performed, in its turn. -/
def State.performKind (s : State) (n : Nat) (k : DebugKind) : State :=
  match s.queue.find? fun e => e.n == n with
  | none => s
  | some e =>
    match e.kind with
    | .debug tgt off v => if s.mayApply e && debugKind off v == k then s.debugPerform e tgt off v else s
    | _ => s

def execHaltreq (n : Nat) (s : State) : Host.Outcome State Fault Refusal :=
  .next { s.performKind n .haltreq with tick := s.tick + 1 }
def execResume (n : Nat) (s : State) : Host.Outcome State Fault Refusal :=
  .next { s.performKind n .resume with tick := s.tick + 1 }
def execWpWrite (n : Nat) (s : State) : Host.Outcome State Fault Refusal :=
  .next { s.performKind n .wp with tick := s.tick + 1 }

end Sys2Proof.Machine
end

