-- ==== Sys2Proof/Machine/Remote.lean ====
section
/-! DEFINITION. The answers that peers give to this device's requests, and the requests that fail (spec/21_package_and_peers.md R412,
R415 to R419). -/
namespace Sys2Proof.Machine

def State.dropReq (s : State) (n : Nat) : State := { s with peers := { s.peers with reqs := s.peers.reqs.filter fun r => r.n != n } }

/-- The timeout of a request has lapsed (R416). -/
def State.lapsed (s : State) (r : RemoteReq) : Bool := r.issued + s.peers.timeoutNs ≤ s.time

/-! ## Reads -/

/-- The place that a monitor of the thread reads. -/
def Thread.monitorPlace (t : Thread) : Option Nat :=
  match t.park with
  | some (.mwait _ _ pa _ _ _) | some (.cntwait _ pa _ _) | some (.gbar _ pa _ (some _)) => some pa
  | _ => none

/-- Where a read's answer goes: to a load, to a monitor of a place, to the engine that asked, or nowhere, since who asked waits no more. -/
inductive ReadFor where
  | load (f : Flight)
  | monitor (t : Thread) (pa : Nat)
  | engine
  | gone
  deriving DecidableEq, Repr

def State.readFor (s : State) (r : RemoteReq) : ReadFor :=
  match r.owner with
  | .flight p id =>
    match (s.wg? p.wg).bind (·.thread? p) with
    | none => .gone
    | some t =>
      match t.flight? id with
      | some f => (match f.i with | .ld _ | .sld _ => .load f | _ => .engine)
      | none => match t.monitorPlace with
        | some pa => if r.addr == pa - pa % 32 then .monitor t pa else .gone
        | none => .gone
  | .cmd n => if (s.cmd? n).isSome then .engine else .gone
  | .tile c n => if s.gatherers.any fun g => g.cluster == c && g.tiles.any fun t => t.n == n then .engine else .gone
  | _ => .engine

/-- The cluster that an answer goes to; none for what is not in a cluster now. -/
def State.ownerCluster (s : State) : Owner → Option Nat
  | .flight p _ => if s.isAway p then none else (s.siteOf p).map (·.cluster)
  | .cmd n => (s.cmd? n).map (·.cluster)
  | .tile c _ => some c
  | _ => none

/-- Answers about one line keep their order (R256): no earlier request to it waits for its answer, and for a read no acknowledgement of a
write to it is still on its way to the reader's cluster, whose copies that would overtake. -/
def State.answerDue (s : State) (r : RemoteReq) : Bool :=
  !((s.peers.reqs.takeWhile fun x => x.n != r.n).any fun x => x.recs.isNone && r.recs.isNone && lineOf x.addr == lineOf r.addr) &&
    (r.write || r.recs.isSome || !(s.ownerCluster r.owner).any fun k => s.ackDue k (lineOf r.addr))

/-- A sector that a peer's home has answered replaces what the reader's caches hold of it, and stays in the cluster cache while the home's
lease lasts; nothing of it stays where the lease has no length (R244 to R247). -/
def State.keepPeerCopy (s : State) (p : Party) (sector : Nat) (bytes : List Byte) (len : Nat) : State :=
  match s.siteOf p with
  | none => s
  | some σ =>
    let s := s.dropOwn σ.cluster σ.core [sector]
    if s.isAway p || !s.peers.synced || len = 0 then s
    else
      let c : Copy := ⟨σ.cluster, none, sector, bytes, false, s.time + len⟩
      { s with home := { s.home with copies := c :: s.home.copies } }.trimCache σ.cluster none

/-- What a read request's answer brings goes to the lanes of the load, to the monitor, or to the engine that asked. A monitor's place is
read at its home, so that no copy of it that the party may use is older (R244). -/
def State.deliverRead (s : State) (r : RemoteReq) (bytes : List Byte) (poison : Bool) (len : Nat) : State :=
  match r.owner, s.readFor r with
  | .flight p id, .load f =>
    let sec := sectorOf r.addr
    let mine := f.accs.filter fun a => match a.pa with | some pa => !a.done && sectorOf pa == sec | none => false
    let s := s.keepPeerCopy p sec bytes (if poison then 0 else len)
    (s.setFound p id (mine.map fun a => s.overlay p id (accSize f.i) a bytes poison)).tryLand p id
  | .flight p _, .monitor t pa =>
    if (match s.wg? p.wg with | some g => g.onCore | none => false) then
      (s.keepPeerCopy p (sectorOf pa) bytes 0).monitorValue p t (fromBytes ((bytes.drop (pa % 32)).take 8))
    else s
  | _, .gone => s
  | _, _ => { s with peers := { s.peers with returned := s.peers.returned ++ [(r.owner, r.addr, bytes, poison)] } }

/-! ## Writes -/

/-- What a peer's answer says of a queued write that is one request: the phase for an arrival, the sum for a counter. -/
def QEntry.applied (e : QEntry) (bytes : List Byte) (poison : Bool) : Applied :=
  let at_ := (e.bytes.headD (0, 0)).1
  match e.kind with
  | .arrive total => match gbarArrive (fromBytes (bytes.take 8)) total with
    | none => ⟨[], none, true, []⟩
    | some (x, ph) => ⟨[], some ph, false, located at_ (leBytes 8 x)⟩
  | .add v => ⟨[], none, false, if poison then [] else located at_ (leBytes 8 (fromBytes (bytes.take 8) + v.toNat))⟩
  | _ => ⟨[], none, false, []⟩

/-- What the answers to the requests of an atomic's lanes say of it: old values, and the bytes written; nothing of lanes whose requests
failed. -/
def QEntry.collected (e : QEntry) : Applied :=
  let xs := e.accs.filter fun a => !a.done && a.old.isSome
  match e.kind with
  | .atomic op size =>
    let n := sizeBytes size
    ⟨xs.map fun a => (a.lane, a.old.getD 0, a.bad), none, false,
      (xs.filter fun a => !a.bad).flatMap fun a => located (a.pa.getD 0) (leBytes n (aopNew op n (a.old.getD 0) a.v a.cmp))⟩
  | _ => ⟨[], none, false, []⟩

/-- Latest expiry of the copies of a peer's line that this device's caches hold. -/
def State.keptUntil (s : State) (line : Nat) : Nat :=
  (s.home.copies.filter fun c => c.sector / 4 == line).foldl (fun m c => max m c.expiry) 0

/-- A write at a peer is answered whole. The peer's home gives T_S, and knows the copies that it has leased to this device: they end no
sooner than those that are kept here; the write contributes nothing else (R248). Sums that MSTA makes there are not known here, so that the
writer keeps no copy of them (R249). -/
def State.peerWrote (s : State) (e : QEntry) (x : Applied) : State :=
  let kept := s.keptUntil e.line
  let k := Config.freeNat s.tick 63001 % 50002
  let s := match e.kind with
    | .accum _ _ => s.dropOwn e.cluster e.core (nubNat (e.accs.map fun a : Access => sectorOf (a.pa.getD 0)))
    | _ => s
  s.afterApply e (0, 0, if k = 0 || !s.peers.synced then kept else max kept (s.time + k - 1)) x

/-- One lane's request of an entry is over; with the last the entry is answered whole. -/
def State.partOver (s : State) (e : QEntry) (k : Nat) (f : Access → Access) : State :=
  let e := { e with accs := setAt e.accs k f }
  let s := { s with queue := s.queue.map fun x => if x.n = e.n then e else x }
  if s.peers.reqs.any fun r => r.entry == some e.n then s else s.peerWrote e e.collected

/-- The queue entry of a request. -/
def State.entryOf (s : State) (r : RemoteReq) : Option QEntry := s.queue.find? fun e => r.entry == some e.n

/-- The peer's answer to a queued write. -/
def State.deliverWrite (s : State) (r : RemoteReq) (bytes : List Byte) (poison : Bool) : State :=
  match s.entryOf r, r.part with
  | none, _ => s
  | some e, none => s.peerWrote e (e.applied bytes poison)
  | some e, some k => s.partOver e k fun a => { a with old := some (fromBytes bytes), bad := poison }

/-! ## Requests that fail (R417, R418) -/

/-- Lanes of an instruction whose request failed count as found; the lowest names the cause. -/
def State.failLanes (s : State) (p : Party) (id : Nat) (lanes : List Nat) (c : Cause) : State :=
  s.updThread p fun t => t.updFlight id fun f =>
    let mine := f.accs.filter fun a => lanes.contains a.lane
    let low := least (fun a : Access => a.lane) mine
    let fail := match low, f.fail with
      | some a, some (l, k, fa) => if a.lane < l then some (a.lane, c, a.va) else some (l, k, fa)
      | some a, none => some (a.lane, c, a.va)
      | none, x => x
    { f with fail := fail, accs := f.accs.map fun a => if lanes.contains a.lane then { a with old := some 0 } else a }

/-- The path on which a command's issuer learns of a remote failure. -/
def Command.path (c : Command) : Path := match c.req with | .acp => .acp | _ => .eng

/-- A command whose remote access failed abandons what it has left: a CQ with a counter gives no signal, and writes its error dwords; any
other lets its issuer know at its next wait. -/
def State.failCommand (s : State) (n : Nat) (k : Cause) (faddr : Nat) : State :=
  match s.cmd? n with
  | none => s
  | some c =>
    if c.cnta = 0 then (s.deferCause c.party c.flight c.path k faddr).cmdEnd { c with overrun := false }
    else match c.stage with
      | .failed _ _ | .signals 3 => s
      | _ => s.updCmd n fun c => { c with
          stage := .failed faddr k.code, ops := [], late := [], tb := none, tag := none, overrun := false, faulted := false }

/-- A work request whose access failed. -/
def State.failRequest (s : State) (n : Nat) : State :=
  s.qps.foldl (fun s q => if (q.sends ++ q.recvs).any (fun w => w.n == n) then s.failWr q.n n 5 else s) s

/-- A read request failed. -/
def State.failRead (s : State) (r : RemoteReq) (k : Cause) : State :=
  match r.owner, s.readFor r with
  | .flight p id, .load f =>
    let sec := sectorOf r.addr
    let lanes := (f.accs.filter fun a => match a.pa with | some pa => !a.done && sectorOf pa == sec | none => false).map (·.lane)
    (s.failLanes p id lanes k).tryLand p id
  | .flight p _, .monitor _ _ =>
    if s.isAway p then s.updThread p fun t => { t with deferred := t.deferred ++ [⟨.gld, k, r.va, r.iaddr⟩] }
    else (s.updThread p fun t => { t with park := none }).take p ⟨k, r.iaddr, r.va, none, false, 0⟩
  | .flight p id, .engine => (s.deferCause p id .eng k r.va).opDone p id
  | .cmd n, _ => s.failCommand n k r.va
  | .wr n, _ => s.failRequest n
  | _, .gone => s
  | _, _ => { s with peers := { s.peers with returned := s.peers.returned ++ [(r.owner, r.addr, [], k == .remoteTimeout)] } }

/-- The path on which a write's issuer learns of its failure: a store's, or an engine's of a sequencer. -/
def State.writePath (s : State) (p : Party) (id : Nat) : Path :=
  (((((s.wg? p.wg).bind (·.thread? p)).bind (·.flight? id)).bind (·.i.path))).getD .gst

/-- A write request failed: it may or may not have been applied at the peer, and its entry is freed; one of several lanes' frees it with the
last of them. -/
def State.failWrite (s : State) (r : RemoteReq) (e : QEntry) (k : Cause) : State :=
  let ended (s : State) : State := match r.part with
    | some i => s.partOver e i fun a => { a with done := true }
    | none => s.afterApply e (0, 0, 0) ⟨[], none, false, []⟩
  let again := e.accs.any (·.done)
  match e.owner, e.kind with
  | .flight p id, .atomic _ _ =>
    let load := match ((s.wg? p.wg).bind (·.thread? p)).bind (·.flight? id) with | some f => f.i.isLoad | none => false
    let lanes := match r.part with | some i => ((e.accs[i]?).map (·.lane)).toList | none => e.accs.map (·.lane)
    if load then (ended (s.failLanes p id lanes k)).tryLand p id
    else ended (if again then s else s.deferCause p id .gst k r.va)
  | .flight p _, .arrive _ => ended ((s.updThread p fun t => { t with park := none }).take p ⟨k, r.iaddr, r.va, none, false, 0⟩)
  | .flight p id, _ => ended (if again then s else s.deferCause p id (s.writePath p id) k r.va)
  | .cmd n, _ => (ended s).failCommand n k r.va
  | .wr n, _ => ended (s.failRequest n)
  | .reply qp psn, _ => ended (s.updQp qp fun q => q.updReply psn fun y => { y with kind := .nakOp, bytes := [] })
  | .tile _ _, _ | .other, _ => ended s

/-- A request ends without its answer: with an error completion, or at its timeout. Records not committed at the peer are dropped, and
an error record for each goes to the sender's context (R421). -/
def State.remoteFail (s : State) (r : RemoteReq) (k : Cause) : State :=
  let s := s.dropReq r.n
  match r.recs with
  | some (edge, _, bs) =>
    let node := ((s.ctx? r.ctx).bind fun c => (c.graph.bind fun g => g.nodes.find? fun n => n.edge0 ≤ edge && edge < n.edge0 + n.nout).map (·.nodeid)).getD 0xFFFF
    (bs.foldl (fun (s : State) _ => s.errorRecord { s.storeError r.ctx node 0 with cause := some k, cluster := 0 }) s).retryParked r.ctx
  | none =>
    if r.write then
      match s.entryOf r with
      | some e => s.failWrite r e k
      | none => s
    else s.failRead r k

/-! ## Causes met while a party was away (R419) -/

/-- Requests of some parties and of their workgroup's commands whose timeout lapsed while these were saved end now. -/
def State.raiseLapsed (s : State) (g : Nat) (ps : List Party) : State :=
  let mine (s : State) (r : RemoteReq) : Bool := s.lapsed r && (match r.owner with
    | .flight p _ => ps.contains p
    | .cmd n => s.cmds.any fun c => c.n == n && c.wg == g
    | _ => false)
  (s.peers.reqs.filter (mine s)).foldl (fun s r => if s.peers.reqs.any (·.n == r.n) then s.remoteFail r .remoteTimeout else s) s

/-- What remote requests met while their party was saved is raised before it issues. -/
def State.raiseHeld (s : State) (ps : List Party) : State :=
  ps.foldl (fun s p => match ((s.wg? p.wg).bind (·.thread? p)).bind (·.deferredOn .gld) with
    | some d => (s.updThread p fun t => { t.dropDeferred d with park := none }).take p ⟨d.cause, d.iaddr, d.faddr, none, false, 0⟩
    | none => s) s

end Sys2Proof.Machine
end

