-- ==== Sys2Proof/Machine/Saves.lean ====
section
/-! DEFINITION. Placement of waves on cores (spec/18_budgets_and_scheduling.md R372, R373), and the saving and restoring of workgroups
(spec/19_faults_and_preemption.md R381 to R384; spec/07_work_graph.md R174). -/
namespace Sys2Proof.Machine

/-! ## What a core holds (R10, R372) -/

/-- Waves that occupy a core. -/
def State.wavesOn (s : State) (core : Nat) : List Wave :=
  (s.wgs.filter Workgroup.onCore).flatMap fun g => g.waves.filter fun w => w.holds && w.core == core

/-- The part of a core's scratchpad that a workgroup holds: start and length. -/
def Workgroup.padOn (g : Workgroup) (core : Nat) : Option (Nat × Nat) :=
  if !g.onCore then none
  else match (List.range g.cores.length).find? fun k => g.cores.getD k 0 == core with
    | none => none
    | some p =>
      if g.cores.length ≤ 1 then some (g.scratchBase, g.scratchSize)
      else some (0, if p + 1 < g.cores.length then 2 ^ 20 else g.scratchSize - p * 2 ^ 20)

def State.padsOn (s : State) (core : Nat) : List (Nat × Nat) := (s.wgs.filterMap fun g => g.padOn core).filter fun e => e.2 != 0

/-- The lowest multiple of 1 KiB at which n bytes of a core's scratchpad are free. -/
def State.padRun (s : State) (core n : Nat) : Option Nat :=
  let used := s.padsOn core
  let up (x : Nat) : Nat := (x + 1023) / 1024 * 1024
  let ok (a : Nat) : Bool := a + n ≤ 2 ^ 20 && !used.any fun e => a < e.1 + e.2 && e.1 < a + n
  ((0 :: used.map fun e => up (e.1 + e.2)).filter ok).foldl
    (fun m a => match m with | some b => some (min a b) | none => some a) none

/-- What a workgroup needs to be placed: waves, register groups of 8 for each, scratchpad, cores, quadrants; and the adapter keys of its
records, which only say where it is best placed (R168). -/
structure Need4 where
  waves : List Nat
  regs8 : Nat
  pad : Nat
  span : Nat
  quads : Nat
  keys : List (List Byte) := []
  deriving DecidableEq, Repr

/-- Room for some waves on a core: 128 slots, and 4 MiB of registers in units of 8 KiB. -/
def State.coreFits (s : State) (core n regs8 : Nat) : Bool :=
  let ws := s.wavesOn core
  ws.length + n ≤ Config.slotsPerCore && sumBy (fun w : Wave => w.nregs / 8) ws + n * regs8 ≤ 512

/-! ## Adapter tables (R168, R219) -/

/-- The keys of records of a node that declares .adapterkey: a word or a dword of each, which the image does not tell. -/
def Node.adapterKeys (n : Node) (rs : List Rec) : List (List Byte) := if n.akv then rs.map fun r => (r.bytes.drop n.akoff).take 8 else []

/-- The sectors of the tables that a key names, with their places, where the context may read them all. -/
def State.tableSectors (s : State) (c : Context) (key : List Byte) : List (Option Place) :=
  (sectorsOf (Config.adapterTables key).1 (Config.adapterTables key).2).map fun sec => match s.translate c (32 * sec % 2 ^ 64) .read with
    | .ok pa k lease host => if host || !inMemory pa then none else some (pa, k, lease, host)
    | _ => none

/-- A cluster's cache holds the adapter tables of some keys. -/
def State.holdsTables (s : State) (c : Context) (cluster : Nat) (keys : List (List Byte)) : Bool :=
  keys.all fun k => (s.tableSectors c k).all fun x => match x with
    | some x => (s.copyOf cluster none (sectorOf x.1)).isSome
    | none => false

/-- A cluster that holds the tables comes before one that does not. -/
def State.akvRank (s : State) (c : Context) (cluster : Nat) (keys : List (List Byte)) : Nat :=
  if !keys.isEmpty && s.holdsTables c cluster keys then 0 else 1

/-- The scheduler brings the tables of a key into a cluster's cache, under leases; what cannot be read now is left. -/
def State.fetchTables (s : State) (c : Context) (cluster : Nat) (key : List Byte) : State :=
  (s.tableSectors c key).foldl (fun s x => match x with
    | some x => if s.ackDue cluster (lineOf x.1) then s else (s.readSector cluster none x.2.1 x.2.2.1 (sectorOf x.1)).1
    | none => s) s

/-- The keys of a context's queued records; for which of them tables are fetched now, and into which cluster, is free. -/
def State.prefetchTables (s : State) (c : Context) : State :=
  let keys := if c.run == .running then
      (c.slices.flatMap fun q => ((c.node? q.node).map fun n => n.adapterKeys q.recs).getD []) ++
        c.formed.flatMap fun f => ((c.node? f.node).map fun n => n.adapterKeys f.recs).getD []
    else []
  (nubBytes keys).foldl (fun s k =>
    if Config.freeBit s.tick (49000 + c.id) then s
    else s.fetchTables c (c.clusters.getD (Config.freeNat s.tick (49100 + fromBytes k) % max 1 c.clusters.length) 0) k) s
where
  nubBytes (ks : List (List Byte)) : List (List Byte) := ks.foldl (fun xs k => if xs.contains k then xs else xs ++ [k]) []

/-- Lists of n members of a list, in its order. -/
def choose : (n : Nat) → List Nat → List (List Nat)
  | 0, _ => [[]]
  | _ + 1, [] => []
  | n + 1, x :: xs => (choose n xs).map (x :: ·) ++ choose (n + 1) xs

/-- Places of one core: with the scratchpad's start. Without `board`, boarding windows bar none. -/
def State.placeOne (s : State) (c : Context) (n : Node) (d : Need4) (board : Bool) : Option (List Nat × Nat) :=
  let fit (k : Nat) : Option (Nat × Nat) :=
    let cl := clusterOfCore k
    if (!board || s.mayBoard c n cl) && s.coreFits k d.waves.length d.regs8 && decide (d.quads ≤ (s.freeQuads cl).length) then
      (s.padRun k d.pad).map fun a => (k, a) else none
  let key (e : Nat × Nat) : Nat := s.akvRank c (clusterOfCore e.1) d.keys * 2 ^ 40 + (s.wavesOn e.1).length * 2 ^ 20 + e.1
  (least key (c.partCores.filterMap fit)).map fun e => ([e.1], e.2)

/-- Places of a span: n cores of one cluster, every piece of the scratchpad free. -/
def State.placeSpan (s : State) (c : Context) (n : Node) (d : Need4) (board : Bool) : Option (List Nat × Nat) :=
  let cores (cl : Nat) : List Nat := (List.range Config.coresPerCluster).map (Config.coresPerCluster * cl + ·)
  let piece (p : Nat) : Nat := if p + 1 < d.span then 2 ^ 20 else d.pad - p * 2 ^ 20
  let coreOk (ks : List Nat) (p : Nat) : Bool :=
    let k := ks.getD p 0
    let nw := (d.waves.filter fun w => w % d.span == p).length
    s.coreFits k nw d.regs8 && (piece p == 0 || s.padRun k (piece p) == some 0)
  let ok (ks : List Nat) : Bool := (List.range d.span).all (coreOk ks)
  let slots (ks : List Nat) : Nat := sumBy (fun k => (s.wavesOn k).length) ks
  let key (ks : List Nat) : Nat := (s.akvRank c (clusterOfCore (ks.headD 0)) d.keys * 2 ^ 20 + slots ks) * 2 ^ 48 + ks.foldl (fun x k => 256 * x + k) 0
  let cls := c.clusters.filter fun cl => (!board || s.mayBoard c n cl) && decide (d.quads ≤ (s.freeQuads cl).length)
  (least key (cls.flatMap fun cl => (choose d.span (cores cl)).filter ok)).map fun ks => (ks, 0)

/-- Where a workgroup goes now, if it fits. -/
def State.place (s : State) (c : Context) (n : Node) (d : Need4) : Option (List Nat × Nat) :=
  if d.span ≤ 1 then s.placeOne c n d true else s.placeSpan c n d true

/-- There is room for a workgroup, whatever the boarding windows (R174). -/
def State.hasRoom (s : State) (c : Context) (n : Node) (d : Need4) : Bool :=
  (if d.span ≤ 1 then s.placeOne c n d false else s.placeSpan c n d false).isSome

/-- The need of a workgroup that a launch makes. -/
def Node.need (n : Node) (rs : List Rec) : Need4 := ⟨List.range n.waves, n.regs8, n.scratchK * 1024, n.spanM1 + 1, 0, n.adapterKeys rs⟩
/-- The need of a continuation: the waves that have not ended. -/
def Node.contNeed (n : Node) (g : Workgroup) : Need4 :=
  { n.need g.records with waves := (g.waves.filter fun w => !w.ended).map (·.waveid) }

/-- The place of each of some waves: number, core, slot. Which free slot a wave takes is free. -/
def State.seats (s : State) (cores : List Nat) : (taken : List (Nat × Nat)) → List Nat → List (Nat × Nat × Nat)
  | _, [] => []
  | taken, w :: ws =>
    let core := cores.getD (w % max 1 cores.length) 0
    let used := ((s.wavesOn core).map (·.slot)) ++ (taken.filter fun e => e.1 == core).map (·.2)
    let open_ := (List.range Config.slotsPerCore).filter fun k => !used.contains k
    let slot := open_.getD (Config.freeNat s.tick (43000 + w) % max 1 open_.length) 0
    (w, core, slot) :: s.seats cores ((core, slot) :: taken) ws

/-- GEN counts a wave placed in a slot (R400). -/
def bumpGen (gen : Sparse Nat) (seats : List (Nat × Nat × Nat)) : Sparse Nat :=
  seats.foldl (fun m e => let k := 128 * e.2.1 + e.2.2; Sparse.set 0 m k ((Sparse.get 0 m k + 1) % 2 ^ 16)) gen

/-! ## When a save may be written (R381, R285, R315, R331) -/

/-- An instruction in flight does not keep the frame back: its results are written or its faults recorded, or it is of a kind that the
frame records: commands, CSELK, NEVAL, FORK, QPOST, remote requests, and work of a sequencer kept with the reservation. -/
def Flight.mayWait (f : Flight) (kept : List Nat) : Bool :=
  f.done || kept.contains f.id ||
    (!f.i.isScratch && (!f.res || (match f.i with | .neval _ => true | _ => false) ||
      (!f.accs.isEmpty && f.accs.all fun a => a.done || a.old.isSome || (match a.pa with | none => true | some pa => inPeer pa))))

/-- A drain of the thread that can go on: no earlier work on its accumulator is left, and it waits for no page. -/
def SeqThread.drains (t : SeqThread) : Bool :=
  t.ops.any (fun o => match o.work with | .drain d _ _ _ => !t.pendingOn d o.id && !o.faulted | _ => false)

/-- Writes of a drain are on their way to homes of this device. What a peer has been sent is not waited for (R419). -/
def State.drainOwed (s : State) (g : Nat) (t : SeqThread) : Bool :=
  s.queue.any fun e => (match e.owner with
      | .flight p id => p == t.party g && t.t.flights.any fun f => f.id == id && (match f.i with | .mst _ | .msta _ => true | _ => false)
      | _ => false) && !s.peers.reqs.any fun r => r.entry == some e.n

/-- What a thread's own records say is left of its instructions. -/
def SeqThread.kept (t : SeqThread) : List Nat := t.ops.map (·.id) ++ t.claims.map (·.id)

/-- Every party of the workgroup has come to where its frame can be written. -/
def State.settled (s : State) (g : Workgroup) (running : Bool) : Bool :=
  g.waves.all (fun w => w.t.flights.all fun f => f.mayWait []) &&
    (match g.resv with
     | none => true
     | some r => r.threads.all fun t => t.t.flights.all (fun f => f.mayWait t.kept) && !s.drainOwed g.id t && !(running && t.drains))

/-- A command writes or signals into a workgroup's scratchpad or windows. -/
def Command.into (c : Command) (g : Nat) : Bool :=
  (c.stage != .new && c.stage != .tagHeld) &&
    ((c.targets.contains g && (c.tb.isSome || c.ops.any fun o => o.any fun x => match x.dst with | .pad _ => true | _ => false)) ||
     (c.wg == g && (c.tag.isSome || c.ops.any fun o => o.any fun x => match x.dst with | .win _ => true | _ => false)))

/-- An accepted command of another workgroup writes a tile or an accumulator of this one by a window (R217). -/
def State.copyOnto (s : State) (c : Command) (g : Nat) : Bool :=
  c.wg != g && c.stage != .new && c.stage != .tagHeld && c.ops.any fun o => o.any fun x => match x.dst with
    | .win a => (match winOf a with
      | .tile cl n _ => (s.ownerOfQuad cl (n / 8)).any (·.1.id == g)
      | .acc cl n _ => (s.ownerOfQuad cl (n / 4)).any (·.1.id == g)
      | _ => false)
    | _ => false

/-- A command waits for a peer's answer: no save waits for that (R419). -/
def State.cmdFar (s : State) (c : Command) : Bool := s.peers.reqs.any fun r => r.owner == .cmd c.n

/-- Accepted commands into the workgroup are complete, have met a fault, or, being its own, wait for a peer. -/
def State.copiesDone (s : State) (g : Nat) : Bool :=
  s.cmds.all fun c => c.faulted || ((!c.into g || s.cmdFar c) && !s.copyOnto c g)

/-! ## The frame (R382) -/

/-- Bytes of a thread's part of a frame: s registers, flags, PC, counters, completion registers and a record of each instruction
outstanding. -/
def Thread.frameBytes (t : Thread) : Nat := 1024 + sumBy (fun f : Flight => 64 + 64 * f.accs.length) t.flights
def Wave.frameBytes (w : Wave) : Nat := 1024 * w.nregs + 1024 + 48 * w.stack.length + w.t.frameBytes
def Reservation.frameBytes (r : Reservation) : Nat :=
  (32768 + 2048 + 32) * r.tiles.length + (65536 + 2048) * r.accs.length +
    sumBy (fun q : Nat × Nat × MetaQ => 512 * q.2.2.entries.length) r.queues + sumBy (fun t : SeqThread => 1024 + t.t.frameBytes) r.threads
/-- Bytes of a save frame: what it holds, since the spec gives its layout no other size. -/
def Workgroup.frameBytes (g : Workgroup) : Nat :=
  256 + g.scratchSize + sumBy Wave.frameBytes g.waves + (match g.resv with | some r => r.frameBytes | none => 0)

/-- Bytes of the Wintering store in use. -/
def State.storeUsed (s : State) (ctx : Nat) : Nat :=
  sumBy (fun g : Workgroup => if g.ctx == ctx && (g.status == .saved || g.status == .wintered) then g.frameBytes else 0) s.wgs
/-- The frames of some workgroups fit. -/
def State.framesFit (s : State) (c : Context) (gs : List Workgroup) : Bool := s.storeUsed c.id + sumBy Workgroup.frameBytes gs ≤ c.wstore

/-! ## Writing a frame -/

/-- Rows of a workgroup leave the bins and tiles of the gatherers, and their results are discarded (R331). -/
def State.withdraw (s : State) (g : Nat) : State :=
  let clear (f : Flight) : Flight := match f.i with
    | .neval _ => if f.done then f else { f with accs := f.accs.map fun a => { a with old := none, bad := false, cmp := 0 } }
    | _ => f
  let tiles (r : Gatherer) : List NTile :=
    (r.tiles.map fun t => { t with rows := t.rows.filter fun x => x.wg != g }).filter fun t => !t.rows.isEmpty
  let s : State := { s with gatherers := s.gatherers.map fun r =>
      { r with rows := r.rows.filter (fun x => x.wg != g), tiles := tiles r } }
  s.updWg g fun g => { g with waves := g.waves.map fun w => { w with t := { w.t with flights := w.t.flights.map clear } } }

/-- A time counted from an instant, as the length that it has lasted, and back. -/
def lasted (now : Nat) (x : Option Nat) : Option Nat := x.map fun t => now - t

/-- Every stall of a workgroup's threads becomes the time it has lasted, or the instant that would have begun it, and what a CLK does not
count becomes what it has counted, or the other way: each is its own inverse (R224, R404). -/
def Workgroup.mapStalls (g : Workgroup) (now cycles : Nat) : Workgroup :=
  let th (t : Thread) : Thread := { t with stallFrom := lasted now t.stallFrom, away := cycles - t.away }
  let op (o : MatOp) : MatOp := { o with stallFrom := lasted now o.stallFrom }
  let seq (t : SeqThread) : SeqThread := { t with t := th t.t, ops := t.ops.map op }
  { g with
    waves := g.waves.map fun w => { w with t := th w.t }
    resv := g.resv.map fun r => { r with threads := r.threads.map seq } }

def State.mapCmdStalls (s : State) (g : Nat) : State :=
  { s with cmds := s.cmds.map fun c => if c.wg = g then { c with stallFrom := lasted s.time c.stallFrom } else c }

/-- MFT aliases become plain tiles, and the quadrants are released (R315). -/
def Reservation.toFrame (r : Reservation) : Reservation :=
  { r with quads := [], tiles := r.tiles.map fun t => { t with pinned := false } }

/-- Watchpoints of a workgroup move with it: in a frame they stand under 256 and the core's place in the span (R394). -/
def wpsToFrame (g : Workgroup) (wps : List (Nat × Nat × DWord × Nat)) : List (Nat × Nat × DWord × Nat) :=
  wps.map fun w => if w.2.2.2 = g.id then
      match (List.range g.cores.length).find? (fun k => g.cores.getD k 0 == w.1) with
      | some k => (256 + k, w.2)
      | none => w
    else w

/-- A frame's watchpoints take their places on the new cores, unless an enabled one of another workgroup stands there. -/
def wpsFromFrame (g : Nat) (cores : List Nat) (wps : List (Nat × Nat × DWord × Nat)) : List (Nat × Nat × DWord × Nat) :=
  let mine := (wps.filter fun w => w.2.2.2 == g && 256 ≤ w.1).map fun w => (cores.getD (w.1 - 256) 0, w.2)
  let rest := wps.filter fun w => !(w.2.2.2 == g && 256 ≤ w.1)
  let free (w : Nat × Nat × DWord × Nat) : Bool := !rest.any fun e => e.1 == w.1 && e.2.1 == w.2.1 && e.2.2.1.getLsbD 0
  let placed := mine.filter free
  placed ++ rest.filter fun e => !placed.any fun w => e.1 == w.1 && e.2.1 == w.2.1

/-- The frame of a workgroup is written, with every result in its register (R25), and its slots, registers, scratchpad and quadrants are
freed. A command into it that waits for a peer is on its pending list. -/
def State.writeFrame (s : State) (g : Workgroup) (st : WgStatus) : State :=
  let s := (s.withdraw g.id).mapCmdStalls g.id
  let s : State := { s with
    wps := wpsToFrame g s.wps
    cmds := s.cmds.map fun c => if c.into g.id then { c with faulted := true } else c }
  s.updWg g.id fun g => { (g.flush).mapStalls s.time s.cycles with
    status := st, saveFailed := false, resv := g.flush.resv.map Reservation.toFrame }

/-! ## Members and reasons -/

/-- The workgroups saved and restored with one: its co-resident launch, or itself (R189). -/
def State.together (s : State) (g : Workgroup) : List Workgroup :=
  match (s.ctx? g.ctx).bind (·.node? g.node) with
  | some n => if n.cores = 0 then [g] else s.wgs.filter fun h => h.ctx == g.ctx && h.launch == g.launch
  | none => [g]

/-- Record space that a parked wave waits for: the slots of its OALLOC (R174). -/
def State.slotsWanted (s : State) (c : Context) (g : Workgroup) (w : Wave) : Nat :=
  match w.t.park with
  | some (.oalloc o _) => (match (c.node? g.node).bind fun d => c.edge? (d.edgeIdx o.e) with
      | some ed => (w.t.rs s.tick o.a).toNat * recSpace (c.typeSize ed.rtype)
      | none => 0)
  | _ => 0

/-- The record space that each parked wave of a workgroup waits for, and its phase records at a boundary. -/
def State.wants (s : State) (c : Context) (g : Workgroup) : List Nat :=
  (if g.allArrived then [g.phaseSpace c] else []) ++ g.waves.map (s.slotsWanted c g)

/-- Record space that a workgroup's parked waves wait for together. -/
def State.spaceWanted (s : State) (c : Context) (g : Workgroup) : Nat := sumBy id (s.wants c g)

/-- A stop's reason is over: the page is mapped, or the record space holds what the waves wait for. -/
def State.resolved (s : State) (c : Context) (g : Workgroup) : SaveWhy → Bool
  | .fault va => s.walk c va != .cause .pageFault
  | .space => s.recordRoom c (s.spaceWanted c g)

def State.allResolved (s : State) (c : Context) (gs : List Workgroup) : Bool := gs.all fun g => g.why.all fun w => s.resolved c g w

/-- The workgroup goes on where it is: nothing of it was saved. -/
def State.resumeHere (s : State) (g : Workgroup) : State :=
  let op (o : MatOp) : MatOp := { o with faulted := false }
  let s : State := { s with cmds := s.cmds.map fun c => if c.wg = g.id then { c with faulted := false } else c }
  s.updWg g.id fun g => { g with
    status := if g.waves.all (·.ended) then .ending else .resident
    why := []
    faultAt := []
    saveFailed := false
    resv := g.resv.map fun r => { r with threads := r.threads.map fun t => { t with ops := t.ops.map op } } }

/-! ## SAVE (R381 to R384) -/

/-- The save of a stopped workgroup, with its co-resident launch, once everything it waits for is settled; only then are the faults
reported. Where the frames do not fit the store, the workgroup stays, and goes on once its stop is resolved. -/
def State.save (s : State) (id : Nat) : State :=
  match s.wg? id with
  | none => s
  | some g =>
    match s.ctx? g.ctx with
    | none => s
    | some c =>
      let gs := (s.together g).filter Workgroup.onCore
      if g.status != .stopped || !gs.all (fun h => h.status != .resident && s.settled h (c.run == .running) && s.copiesDone h.id) then s
      else if s.framesFit c gs then ((gs.foldl (fun s h => s.writeFrame h .saved) s).retryParked g.ctx).sendPageRequests g.ctx
      else if s.allResolved c (s.together g) then gs.foldl State.resumeHere s
      else (gs.foldl (fun s h => s.updWg h.id fun h => { h with saveFailed := true }) s).sendPageRequests g.ctx

def execSave (wg : Nat) (s : State) : Host.Outcome State Fault Refusal :=
  .next { s.save wg with tick := s.tick + 1 }

/-! ## Restoring (R383, R316, R331, R350) -/

/-- What a frame needs to be placed. -/
def Workgroup.need (g : Workgroup) (n : Node) : Need4 :=
  { waves := (g.waves.filter Wave.holds).map (·.waveid)
    regs8 := (g.waves.head?.map fun w => w.nregs / 8).getD 0
    pad := g.scratchSize, span := g.cores.length
    quads := match g.resv with | some r => r.size | none => 0
    keys := n.adapterKeys g.records }

/-- Submits the recorded evaluations of a wave again, in issue order, as far as the bins have room. -/
def State.resubmit (s : State) (c : Context) (g : Nat) (w : Wave) : (ids : List Nat) → State
  | [] => s
  | id :: rest =>
    match w.t.flight? id with
    | some f => match f.i with
      | .neval o => match s.submit c g w.waveid (clusterOfCore w.core) id (o.nM1.val + 1) (o.mM1.val + 1) f.accs with
        | none => s
        | some (s, lanes) => (s.updWave g w.waveid fun w =>
            ({ w with resub := rest, t := w.t.updFlight id fun f => { f with accs := lanes } } : Wave).evalLand s.tick 64).resubmit c g w rest
      | _ => s
    | none => s

/-- The evaluations of a restored workgroup's waves: a wave issues nothing until all of its own are accepted (R331). -/
def State.resubmitAll (s : State) (g : Nat) : State :=
  match (s.wg? g).bind fun h => (s.ctx? h.ctx).map fun c => (c, h) with
  | some (c, h) => h.waves.foldl (fun s w => s.resubmit c g w w.resub) s
  | none => s

/-- The evaluations that a restored wave submits again. -/
def Wave.toResubmit (w : Wave) : List Nat :=
  (w.t.flights.filter fun f => !f.done && (match f.i with | .neval _ => true | _ => false)).map (·.id)

/-- Parties of a workgroup. -/
def Workgroup.parties (g : Workgroup) : List Party :=
  g.waves.map (fun w => .wave g.id w.waveid) ++ (match g.resv with | some r => r.threads.map (SeqThread.party g.id) | none => [])

/-- Parked MWAITs end with RESTORED (R207). -/
def State.endMwaits (s : State) (ps : List Party) : State :=
  ps.foldl (fun s p => match ((s.wg? p.wg).bind (·.thread? p)).bind (·.park) with
    | some (.mwait o _ _ _ _ _) => s.mwaitEnd p o 2
    | _ => s) s

/-- An uncorrectable error meets the read of a frame: whether one does is free (R383, R389). -/
def State.frameBad (s : State) (g : Workgroup) : Bool := Config.freeBit s.tick (2 ^ 20 + g.id)

/-- A wave that takes a place on some cores reads nothing older there than it has read before: copies that differ from what their homes hold
now go, and those of peers' sectors (R244). -/
def State.dropStale (s : State) (cores : List Nat) : State :=
  s.keepCopies fun k =>
    !(cores.any fun c => k.cluster == clusterOfCore c && (k.core.isNone || k.core == some c)) ||
      (inMemory (32 * k.sector) && s.home.bytes (32 * k.sector) 32 == k.data)

/-- Loads a frame on its place; the waves have the youngest stamps. -/
def State.loadFrame (s : State) (g : Workgroup) (cores : List Nat) (base : Nat) : State :=
  let seats := s.seats cores [] ((g.waves.filter Wave.holds).map (·.waveid))
  let quads := match g.resv with | some r => (s.freeQuads (clusterOfCore (cores.headD 0))).take r.size | none => []
  let sit (w : Wave) : Wave := match seats.find? (fun e => e.1 == w.waveid) with
    | some (_, core, slot) => { w with core := core, slot := slot, stamp := s.nextStamp, passed := 0, promoted := 0, resub := w.toResubmit }
    | none => w
  let s := s.dropStale cores
  let s : State := { s with gen := bumpGen s.gen seats, wps := wpsFromFrame g.id cores s.wps, nextStamp := s.nextStamp + 1 }
  let s := s.mapCmdStalls g.id
  let s := s.updWg g.id fun g =>
    let g := g.mapStalls s.time s.cycles
    { g with cores := cores, scratchBase := base, placed := s.time, waves := g.waves.map sit, resv := g.resv.map fun r => { r with quads := quads } }
  match s.wg? g.id with
  | some g => s.resumeHere g
  | none => s

/-- Registrations are made again at the new cluster, and their claims that can be served at once are. -/
def State.reboardAll (s : State) (c : Context) (n : Node) (g : Nat) (cluster : Nat) : State :=
  let s := s.updResv g fun r => { r with threads := r.threads.map fun t => { t with regs := t.regs.map fun e => s.reboard c n cluster e } }
  match (s.wg? g).bind (·.resv) with
  | some r => (r.threads.map (SeqThread.party g)).foldl (fun s p => s.landClaims p 64) s
  | none => s

/-- Restores one workgroup where it fits. -/
def State.restoreOne (s : State) (c : Context) (g : Workgroup) : Option State :=
  match c.node? g.node with
  | none => none
  | some n =>
    match s.place c n (g.need n) with
    | none => none
    | some (cores, base) =>
      let s := (s.loadFrame g cores base).resubmitAll g.id
      some ((((s.reboardAll c n g.id (clusterOfCore (cores.headD 0))).endMwaits g.parties).raiseHeld g.parties).raiseLapsed g.id g.parties)

/-- Restores some workgroups, all of them or none. -/
def State.restoreAll (s : State) (c : Context) : List Workgroup → Option State
  | [] => some s
  | g :: gs => match s.restoreOne c g with
    | some s => s.restoreAll c gs
    | none => none

/-! ## Placing workgroups (R19, R160, R168, R187, R189) -/

/-- A wave at its first instruction. -/
def newWave (n : Node) (stamp k core slot recs : Nat) : Wave :=
  { t := Thread.start n.entry 0, vregs := [], vmark := [], preds := []
    e := if n.kind = 0 then BitVec.ofNat 256 (2 ^ recs - 1) else BitVec.allOnes 256
    stack := [], fpst := 0, nevst := 0, nregs := 8 * n.regs8, waveid := k, core := core, slot := slot, token := none, stamp := stamp,
    passed := 0, promoted := 0, dbg := ⟨false, false, false, false, 0, none, none⟩, ended := false }

/-- A workgroup is placed with its records. -/
def State.startWg (s : State) (c : Context) (n : Node) (recs : List Rec) (wgid launch : Nat) (cores : List Nat) (base : Nat) : State :=
  let seats := s.seats cores [] (List.range n.waves)
  let g : Workgroup :=
    { id := s.nextWg, ctx := c.id, node := n.nodeid, wgid := wgid, launch := launch, depth := (recs.head?.map (·.depth)).getD 0, cores := cores,
      status := .resident, why := [], records := recs, doneTaken := false, join := 0, slots := [], scratchSize := n.scratchK * 1024,
      scratchBase := base, scratch := [], scratchBad := []
      waves := seats.map fun e => newWave n s.nextStamp e.1 e.2.1 e.2.2 recs.length
      resv := none, placed := s.time }
  { s with wgs := s.wgs ++ [g], nextWg := s.nextWg + 1, gen := bumpGen s.gen seats, nextStamp := s.nextStamp + 1 }

/-- Places some workgroups of one launch; under `all`, every one or none. -/
def State.startSome (s : State) (c : Context) (n : Node) (launch : Nat) (all : Bool) :
    (wgid : Nat) → List (List Rec) → Option (State × Nat)
  | k, [] => some (s, k)
  | k, rs :: rest =>
    match s.place c n (n.need rs) with
    | none => if all then none else some (s, k)
    | some (cores, base) => (s.startWg c n rs k launch cores base).startSome c n launch all (k + 1) rest

/-- Killed members of co-resident launches are launched again into them, all of those named or none (R187, R189). -/
def State.startMembers (s : State) (c : Context) : List Formed → Option State
  | [] => some s
  | f :: fs =>
    match f.member, c.node? f.node with
    | some (launch, wgid), some n => match s.startSome c n launch true wgid [f.recs] with
      | none => none
      | some (s, _) => (s.updCtx c.id fun c => { c with formed := c.formed.filter fun e => e.member != f.member }).startMembers c fs
    | _, _ => s.startMembers c fs

/-- The killed members, formed again, of some launches. -/
def Context.membersOf (c : Context) (launches : List Nat) : List Formed := c.formed.filter fun f => f.member.any fun m => launches.contains m.1

/-- Restores saved workgroups of one launch, all of them or none, with the members that wait to be launched again. One whose frame cannot be
read is killed instead (R383). -/
def State.restoreSaved (s : State) (c : Context) (gs : List Workgroup) : Option State :=
  ((s.restoreAll c (gs.filter fun g => !s.frameBad g)).bind fun s => s.startMembers c (c.membersOf (gs.map (·.launch)))).map fun s =>
    (gs.filter s.frameBad).foldl (fun s g => s.kill g { s.recordFor (.wave g.id 0) false ⟨.eccScratch, 0, 0, none, false, 0⟩ with unit := .recordStore }) s

end Sys2Proof.Machine
end

