-- ==== Sys2Proof/Machine/Ladder.lean ====
section
/-! DEFINITION. The pre-emption ladder, wintering, reset and destruction of a context (spec/19_faults_and_preemption.md R387 to R391). -/
namespace Sys2Proof.Machine

/-! ## Reset (R390) -/

/-- Work of a context in engines, queues and frames is gone; its address space, graph, budgets, trap node and breakpoints remain. -/
def State.discard (s : State) (ctx : Nat) : State :=
  let mine := (s.wgs.filter fun g => g.ctx == ctx).map (·.id)
  let s : State := { s with
    wgs := s.wgs.filter fun g => g.ctx != ctx
    wps := mine.foldl (fun w g => clearWps g w) s.wps
    cmds := s.cmds.filter fun c => c.ctx != ctx
    gatherers := s.gatherers.map fun r =>
      { r with rows := r.rows.filter (fun x => x.ctx != ctx), tiles := r.tiles.filter fun t => t.ctx != ctx }
    qps := s.qps.map fun q => if q.ctx = ctx && q.state != .error then q.fail s.nextWr 7 else q
    peers := { s.peers with reqs := s.peers.reqs.filter fun r => !(r.ctx == ctx && r.recs.isSome) }
    host := { s.host with outs := s.host.outs.map fun r => if r.ctx == some ctx && r.kind == 2 then { r with recs := [] } else r }
    ring := match s.ring.plan with
      | some p => if p.ctx = ctx then { s.ring with ends := true } else s.ring
      | none => s.ring }
  let s := s.breakChains s.qps.length
  let s : State := match s.ring.newPlan with
    | some p => if p.ctx = ctx then ({ s with ring := { s.ring with newPlan := none } } : State).planAnswers (some p) else s
    | none => s
  s.updCtx ctx fun c => { c with
    slices := [], formed := [], handles := [], trapWait := [], run := .running, ladder := .none, runnableSince := none,
    owed := none, placements := 0, holding := none }

/-! ## Destruction (R387, R376) -/

/-- The frames that a context's leaves and tables take: address and length. -/
def State.framesOf (s : State) (c : Context) : List (Nat × Nat) :=
  ((s.leavesOf c).filterMap fun l =>
    if field l.2.2.2 52 1 = 1 then none else some (field l.2.2.2 12 40 * 4096, 2 ^ leafBits l.2.2.1 l.2.2.2)) ++
  (s.tablesOf c).map fun t => t.2.2

/-- The context is gone: its rings, queue pairs, grants and bindings with it, and its frames, those too that entries named before they were
rewritten, read as zeros to a later owner. -/
def State.destroyCtx (s : State) (ctx tag : Nat) : State :=
  match s.ctx? ctx with
  | none => s
  | some c =>
    let frames := nubPairs (s.framesOf c ++ c.framesIn 0 0)
    let s := s.discard ctx
    let out (k : Copy) : Bool := !frames.any fun f => f.1 ≤ 32 * k.sector && 32 * k.sector < f.1 + f.2
    let s : State := { s with
      ctxs := s.ctxs.filter fun d => d.id != ctx
      qps := s.qps.filter fun q => q.ctx != ctx
      inbox := s.inbox.filter fun k => !s.qps.any fun q => q.n == k.qp && q.ctx == ctx
      host := { s.host with
        mailboxes := s.host.mailboxes.filter fun r => r.ctx != ctx
        outs := s.host.outs.filter fun r => r.ctx != some ctx }
      home := { s.home with copies := s.home.copies.filter out } }
    (frames.foldl (fun s f => s.freeFrame f.1 f.2) s).respond tag 0 0x02 0

/-- A reset, and its report with the cause that led to it; a context being destroyed is gone instead. -/
def State.resetCtx (s : State) (ctx cause : Nat) : State :=
  match (s.ctx? ctx).bind fun c => match c.ladder with | .drain _ d => d | _ => none with
  | some tag => s.destroyCtx ctx tag
  | none => (s.discard ctx).event (some ctx) 0x04 (leBytes 8 (ctx + 256 * cause))

/-! ## Starting and leaving the ladder (R387, R388) -/

/-- The ladder starts with a deadline; a context already in it keeps its own, and a destroy is noted there. -/
def State.startLadder (s : State) (ctx deadline : Nat) (destroy : Option Nat) : State :=
  s.updCtx ctx fun c => match c.ladder, destroy with
    | .none, _ => { c with ladder := .drain deadline destroy }
    | .drain d none, some t => { c with ladder := .drain d (some t) }
    | .winter, some t => { c with ladder := .drain 0 (some t) }
    | _, _ => c

/-- No workgroup of the context is on its partition. -/
def State.drained (s : State) (ctx : Nat) : Bool := s.wgs.all fun g => g.ctx != ctx || !g.onCore

/-- Drained contexts leave the ladder with nothing saved, or are destroyed. -/
def State.leaveLadders (s : State) : State :=
  (s.ctxs.map (·.id)).foldl (fun s k => match s.ctx? k with
    | some c => match c.ladder with
      | .drain _ d =>
        if !s.drained k then s
        else match d with
          | some tag => s.destroyCtx k tag
          | none => s.updCtx k fun c => { c with ladder := .none }
      | _ => s
    | none => s) s

/-! ## Wintering (R389) -/

/-- The cause that a reset after a halt reports. -/
def Context.haltCause (c : Context) : Nat :=
  if c.ladder == .winter then Cause.code .drainDeadline
  else match c.stops.reverse.find? (·.prim) with
    | some r => (r.cause.map Cause.code).getD 0
    | none => 0

/-- An uncorrectable error meets a write to the Wintering store: whether one does is free (R389). -/
def State.storeBad (s : State) (ctx : Nat) : Bool := Config.freeBit s.tick (2 ^ 19 + ctx)

/-- Writes the frames of a halted context once every party has come to a stop; where they do not fit the store, or a write to it fails,
the context is reset. One halted by the ladder may be thawed, one halted for a fault never is. -/
def State.winter (s : State) (ctx : Nat) : State :=
  match s.ctx? ctx with
  | none => s
  | some c =>
    let gs := s.wgs.filter fun g => g.ctx == ctx && g.onCore
    if c.run != .halted false || !c.wok || (match c.ladder with | .drain _ _ => true | _ => false) || !gs.all (fun g => s.settled g false) then s
    else if !s.framesFit c gs || (!gs.isEmpty && s.storeBad ctx) then s.resetCtx ctx c.haltCause
    else
      let run : CtxRun := if c.ladder == .winter then .winteredOut else .halted true
      (gs.foldl (fun s g => s.writeFrame g .wintered) s).updCtx ctx fun c => { c with run := run, ladder := .none }

def State.winterAll (s : State) : State := (s.ctxs.map (·.id)).foldl State.winter s

/-- Room for every frame of a wintered context at once, and for the members of its launches that wait to be launched again: the thaw of R389. One that meets a frame it cannot read resets the context. -/
def State.thaw (s : State) (c : Context) : Option State :=
  let gs := s.wgs.filter fun g => g.ctx == c.id && g.status == .wintered
  ((s.restoreAll c gs).bind fun s' => s'.startMembers c (c.membersOf (gs.map (·.launch)))).map fun s' =>
    if gs.any s.frameBad then s.resetCtx c.id (Cause.code .eccScratch) else s'.updCtx c.id fun c => { c with run := .running }

/-! ## DRAIN_DEADLINE (R388) -/

/-- The records of a halt that the ladder makes. -/
def State.ladderStops (s : State) (ctx : Nat) : List StopRec :=
  let none_ : StopRec := ⟨s.time, 0, 0, none, .recordStore, false, false, none, 0xFF, 0, 0, ctx, 0xFFFF, 0, 0, 0, 0, []⟩
  (s.otherStops ctx none_).map fun r => { r with cause := some .drainDeadline }

/-- A deadline passes before the context is drained: it is halted and wintered, or reset; a context being destroyed is reset and gone. -/
def State.drainDeadline (s : State) (ctx : Nat) : State :=
  match s.ctx? ctx with
  | none => s
  | some c =>
    match c.ladder with
    | .drain d destroy =>
      if s.time < d then s
      else if s.drained ctx then s.leaveLadders
      else
        let s := (s.updCtx ctx fun c => { c with stops := c.stops ++ s.ladderStops ctx, run := .halted false }).flushCtx ctx
        match destroy with
        | some tag => s.destroyCtx ctx tag
        | none =>
          if c.wok then (s.updCtx ctx fun c => { c with ladder := .winter }).winter ctx
          else s.resetCtx ctx (Cause.code .drainDeadline)
    | .winter => s.winter ctx
    | .none => s.winter ctx

def execDrainDeadline (ctx : Nat) (s : State) : Host.Outcome State Fault Refusal :=
  .next { s.drainDeadline ctx with tick := s.tick + 1 }

end Sys2Proof.Machine
end

