-- ==== Sys2Proof/Machine/Sched.lean ====
section
/-! DEFINITION. The scheduler: which context and node launch next, launches, restores and thaws (spec/07_work_graph.md R160, R167 to R174;
spec/18_budgets_and_scheduling.md R365 to R375). -/
namespace Sys2Proof.Machine

/-! ## Budgets (R365 to R367) -/

/-- Refills of a period: core time in slot-nanoseconds, bytes, energy units. -/
def Context.coreRefill (c : Context) : Nat := c.coreTok * 250 * 128
def Context.readRefill (c : Context) : Nat := c.readTok * 65536
def Context.writeRefill (c : Context) : Nat := c.wrTok * 4096
def Context.energyRefill (c : Context) : Nat := c.enTok

/-- Every limited level is above 0. -/
def Context.funded (c : Context) : Bool :=
  (!limited c.coreTok || decide (0 < c.bktCore)) && (!limited c.readTok || decide (0 < c.bktRead)) &&
    (!limited c.wrTok || decide (0 < c.bktWrite)) && (!limited c.enTok || decide (0 < c.bktEnergy))

/-- A level has come down to the overdraft limit. -/
def overdrawn (tok : Nat) (level : Int) (refill ovr : Nat) : Bool := limited tok && decide (8 * level ≤ -((ovr * refill : Nat) : Int))
def Context.overdrawn (c : Context) : Bool :=
  Machine.overdrawn c.coreTok c.bktCore c.coreRefill c.ovr || Machine.overdrawn c.readTok c.bktRead c.readRefill c.ovr ||
    Machine.overdrawn c.enTok c.bktEnergy c.energyRefill c.ovr

/-- One refill: unspent tokens lapse, debt carries over. -/
def refilled (tok : Nat) (level : Int) (refill : Nat) : Int := if limited tok then min level 0 + refill else level

/-! ## Candidates (R169) -/

/-- What a launch may be made of: saved workgroups that may be restored, a continuation, formed workgroups of a slice, or a killed member
of a co-resident launch, by its launch and %wgid. -/
inductive Cand where
  | restore (g : Nat)
  | cont (g : Nat)
  | input (node die : Nat)
  | member (launch wgid : Nat)
  deriving DecidableEq, Repr

/-- The formed workgroups of a slice, oldest first; a killed member of a launch is none of them. -/
def Context.formedOf (c : Context) (node die : Nat) : List Formed := c.formed.filter fun f => f.member.isNone && f.node == node && f.die == die
/-- A killed member that is formed again. -/
def Context.member? (c : Context) (launch wgid : Nat) : Option Formed := c.formed.find? fun f => f.member == some (launch, wgid)

def State.candNode (s : State) (c : Context) : Cand → Option Node
  | .restore g | .cont g => (s.wg? g).bind fun g => c.node? g.node
  | .input n _ => c.node? n
  | .member l k => (c.member? l k).bind fun f => c.node? f.node

/-- The age of a candidate: the time at which its oldest input record was committed. That of a continuation is that of its workgroup's input
record, also after DONE, since R169 does not say what its oldest record is (log 137). -/
def State.candTime (s : State) (c : Context) : Cand → Nat
  | .restore g | .cont g => ((s.wg? g).bind fun g => g.records.head?.map (·.time)).getD 0
  | .input n d => ((c.formedOf n d).head?.map (·.time)).getD 0
  | .member l k => ((c.member? l k).map (·.time)).getD 0

/-- A killed member may be launched again by itself: none of its launch is stopped or saved, for a launch is never partly saved (R189). -/
def State.launchOpen (s : State) (c : Context) (launch : Nat) : Bool :=
  s.wgs.all fun h => !(h.ctx == c.id && h.launch == launch) || !(h.status == .stopped || h.status == .saved || h.status == .wintered)

/-- The candidates of a context: saved workgroups whose stops are resolved, queued continuations, formed workgroups by slice, killed
members. -/
def State.candidates (s : State) (c : Context) : List Cand :=
  let mine := s.wgs.filter fun g => g.ctx == c.id
  let back := mine.filter fun g => g.status == .saved && s.allResolved c (s.together g) &&
    !(s.together g).any fun h => decide (h.id < g.id)
  let conts := mine.filter fun g => g.status == .phase true
  let keys := nubNat ((c.formed.filter (·.member.isNone)).map fun f => 8 * f.node + f.die)
  let members := c.formed.filterMap fun f => f.member.bind fun m => if s.launchOpen c m.1 then some (Cand.member m.1 m.2) else none
  back.map (fun g => .restore g.id) ++ conts.map (fun g => .cont g.id) ++ keys.map (fun k => .input (k / 8) (k % 8)) ++ members

/-- The records of the oldest formed workgroup of a slice. -/
def Context.firstFormed (c : Context) (node die : Nat) : List Rec := ((c.formedOf node die).head?.map (·.recs)).getD []

/-- One workgroup of the candidate fits somewhere in the partition now, or all of a saved launch. -/
def State.candFits (s : State) (c : Context) (k : Cand) : Bool :=
  match k, s.candNode c k with
  | _, none => false
  | .restore g, some _ => match s.wg? g with
    | some g => (s.restoreSaved c ((s.together g).filter fun h => h.status == .saved)).isSome
    | none => false
  | .cont g, some n => match s.wg? g with
    | some g => (s.place c n (n.contNeed g)).isSome
    | none => false
  | .input _ d, some n => (s.place c n (n.need (c.firstFormed n.nodeid d))).isSome
  | .member l k, some n => (s.place c n (n.need (((c.member? l k).map (·.recs)).getD []))).isSome

/-- Some edge of the node leads to a node that is above its mark, and the node is not. -/
def State.isBlocked (s : State) (c : Context) (n : Node) : Bool :=
  !s.above c n.nodeid && (List.range n.nout).any fun e => match c.edge? (n.edgeIdx e) with
    | some ed => s.above c ed.target
    | none => false

/-- The keys of R169 as one number, least first: restores, continuations, above, PRIO, distance, age. -/
def State.candKey (s : State) (c : Context) (k : Cand) (n : Node) : Nat :=
  let a := match k with | .restore _ => 0 | .cont _ => 1 | .input _ _ | .member _ _ => 2
  let b := if s.above c n.nodeid then 0 else 1
  (((a * 2 + b) * 4 + (3 - n.prio)) * 2 ^ 17 + (2 ^ 17 - 1 - n.dist)) * 2 ^ 64 + s.candTime c k

/-- The co-resident launch that is chosen and waits for room (R170). -/
def Context.held (c : Context) : Option (Nat × Nat) := c.holding.filter fun h => !(c.formedOf h.1 h.2).isEmpty

/-- The candidate that R169 chooses; without `fits`, as though there were room for any. A co-resident launch that is held goes before
everything else of its context (R170). Where all five keys are equal the spec names no order: the first of the list of candidates is taken
(log 118). -/
def State.choice (s : State) (c : Context) (fits : Bool) : Option Cand :=
  match c.held with
  | some (n, d) => some (.input n d)
  | none =>
    let all := ((s.candidates c).filter fun k => !fits || s.candFits c k).filterMap fun k => (s.candNode c k).map fun n => (k, n)
    let free := all.filter fun e => !s.isBlocked c e.2
    (least (fun e => s.candKey c e.1 e.2) (if free.isEmpty then all else free)).map (·.1)

/-! ## Launching (R168, R183, R187) -/

/-- Takes the first k formed workgroups of a slice out of the context. -/
def dropFormed (node die : Nat) : (k : Nat) → List Formed → List Formed
  | _, [] => []
  | 0, fs => fs
  | k + 1, f :: fs => if f.member.isNone ∧ f.node = node ∧ f.die = die then dropFormed node die k fs else f :: dropFormed node die (k + 1) fs

/-- A continuation is placed: each wave as its phase record holds it; after JOIN it acquires, which needs nothing here since its reads begin
after every store of the children is released, on cores that hold nothing older (R183, R244). -/
def State.startCont (s : State) (c : Context) (n : Node) (g : Workgroup) : Option State :=
  match s.place c n (n.contNeed g) with
  | none => none
  | some (cores, base) =>
    let seats := s.seats cores [] ((g.waves.filter fun w => !w.ended).map (·.waveid))
    let sit (w : Wave) : Wave := match seats.find? fun e => e.1 == w.waveid with
      | some e => { w with core := e.2.1, slot := e.2.2, stamp := s.nextStamp }
      | none => w
    let s := (s.dropStale cores).updWg g.id fun g =>
      { g with status := .resident, cores := cores, scratchSize := n.scratchK * 1024, scratchBase := base, placed := s.time,
               waves := g.waves.map sit }
    some { s with gen := bumpGen s.gen seats, nextStamp := s.nextStamp + 1 }

/-- The formed workgroups that the next launch of a slice takes: up to 16, or the one record of a co-resident launch (R168, R189). -/
def Context.nextFormed (c : Context) (n : Node) (node die : Nat) : List Formed :=
  (c.formedOf node die).take (if n.cores = 0 then 16 else 1)

/-- Makes a candidate's launch, if it fits. -/
def State.launch (s : State) (c : Context) (k : Cand) : Option State :=
  match k, s.candNode c k with
  | _, none => none
  | .restore g, some _ => (s.wg? g).bind fun g => s.restoreSaved c ((s.together g).filter fun h => h.status == .saved)
  | .cont g, some n => (s.wg? g).bind fun g => s.startCont c n g
  | .input node die, some n =>
    let fs := c.nextFormed n node die
    let recs := if n.cores = 0 then fs.map (·.recs) else fs.flatMap fun f => List.replicate n.cores f.recs
    match s.startSome c n s.nextLaunch (n.cores != 0) 0 recs with
    | none => none
    | some (_, 0) => none
    | some (s, m) =>
      let used := if n.cores = 0 then m else 1
      let s := s.updCtx c.id fun c => { c with formed := dropFormed node die used c.formed, holding := none }
      some { s with nextLaunch := s.nextLaunch + 1 }
  | .member l k, some _ => s.startMembers c (c.formed.filter fun f => f.member == some (l, k))

/-! ## Which contexts may launch (R368, R369, R375) -/

/-- The context of the service list's current entry. -/
def serviceCtx (e : DWord) : Nat := field e.toNat 58 6
def serviceSlice (e : DWord) : Nat := field e.toNat 42 16 * 1000
def servicePlim (e : DWord) : Nat := field e.toNat 26 16 * 1000

def Service.entry (v : Service) : Option DWord := v.list[v.pos]?

/-- The context may make launches, whatever it has to launch: it is not halted or in the ladder, and the budgets or the service list let it. -/
def State.mayLaunch (s : State) (c : Context) : Bool :=
  c.ladder == .none &&
    (if s.service.active then !s.service.ending && (s.service.entry.map serviceCtx) == some c.id
     else c.weight != 0 && c.funded)

/-- A workgroup of the context could be launched if there were room: its node is not deferred, or a boarding window is open. -/
def State.hasWork (s : State) (c : Context) : Bool :=
  (s.candidates c).any fun k => match s.candNode c k with | some n => s.mayForm c n.nodeid | none => false

/-- A workgroup formed under R167 whose node is not deferred: saved workgroups are none of these (R368). -/
def State.hasFormed (s : State) (c : Context) : Bool :=
  (s.candidates c).any fun k => match k, s.candNode c k with
    | .restore _, _ => false
    | _, some n => s.mayForm c n.nodeid
    | _, none => false

/-- Runnable (R368). -/
def State.isRunnable (s : State) (c : Context) : Bool :=
  (c.run == .running || c.run == .winteredOut) && !s.service.active && s.mayLaunch c && s.hasFormed c

/-- Whether and since when each context is runnable is noted; one that is not is owed nothing. -/
def State.noteRunnable (s : State) : State :=
  { s with ctxs := s.ctxs.map fun c =>
      if s.isRunnable c then (if c.runnableSince.isSome then c else { c with runnableSince := some s.time, placements := 0 })
      else { c with runnableSince := none, owed := none, placements := 0 } }

/-- What a context of E would launch now. -/
inductive Turn where
  | thaw
  | launch (k : Cand)
  deriving DecidableEq, Repr

/-- The turn of a context that may launch, if it has one that fits. -/
def State.turn (s : State) (c : Context) : Option Turn :=
  if !s.mayLaunch c then none
  else match c.run with
    | .winteredOut => if (s.thaw c).isSome then some .thaw else none
    | .running => match s.choice c true with
      | some k => if c.held.isNone || (s.launch c k).isSome then some (.launch k) else none
      | none => none
    | _ => none

/-- Of two shares U / WEIGHT the first is less; ties go to the lower number. -/
def shareLess (a b : Context) : Bool :=
  let x := a.used * b.weight
  let y := b.used * a.weight
  x < y || (x == y && decide (a.id < b.id))

/-- The context that R369 chooses: the one owed longest, else the one with the least share. -/
def pickCtx (es : List (Context × Turn)) : Option (Context × Turn) :=
  let owed := es.filter fun e => e.1.owed.isSome
  let before (a b : Context) : Bool :=
    if owed.isEmpty then shareLess a b
    else match a.owed, b.owed with
      | some x, some y => x < y || (x == y && decide (a.id < b.id))
      | _, _ => false
  (if owed.isEmpty then es else owed).foldl
    (fun m e => match m with | none => some e | some f => if before e.1 f.1 then some e else some f) none

/-- A launch has been made for the context. -/
def State.countLaunch (s : State) (ctx : Nat) : State :=
  s.updCtx ctx fun c => { c with placements := c.placements + 1, owed := none }

/-- The chosen context's turn. A co-resident launch that does not fit is held (R170). -/
def State.takeTurn (s : State) : State :=
  match pickCtx (s.ctxs.filterMap fun c => (s.turn c).map fun t => (c, t)) with
  | none => s
  | some (c, .thaw) => match s.thaw c with
    | some s => s.countLaunch c.id
    | none => s
  | some (c, .launch k) =>
    match s.launch c k with
    | some s => (s.countLaunch c.id).retryParked c.id
    | none => match k with
      | .input n d => s.updCtx c.id fun c => { c with holding := some (n, d) }
      | _ => s

/-! ## Making room in the record space (R174) -/

/-- What a formed workgroup or a continuation needs. -/
def State.candNeed (s : State) (c : Context) (n : Node) : Cand → Need4
  | .restore g | .cont g => match s.wg? g with | some g => n.contNeed g | none => n.need []
  | .input _ d => n.need (c.firstFormed n.nodeid d)
  | .member l k => n.need (((c.member? l k).map (·.recs)).getD [])

/-- Something of the context is formed that fits no core for want of wave slots, registers or scratchpad; a closed boarding window is no such
want. -/
def State.unplaced (s : State) (c : Context) : Bool := (s.candidates c).any fun k => match k, s.candNode c k with
  | .restore _, _ | _, none => false
  | k, some n => !s.hasRoom c n (s.candNeed c n k)

/-- The most recently placed workgroup with a wave parked for record space that is not there is stopped, to be saved. -/
def State.saveForSpace (s : State) (ctx : Nat) : State :=
  match s.ctx? ctx with
  | none => s
  | some c =>
    let mine := s.wgs.filter fun g => g.ctx == ctx
    let parked := mine.filter fun g => g.status == .resident && (s.wants c g).any fun n => n != 0 && !s.recordRoom c n
    if c.run != .running || mine.any (fun g => g.status == .stopped && g.why.contains .space) || !s.unplaced c then s
    else match parked.foldl (fun (m : Option Workgroup) g => match m with
        | none => some g
        | some h => if h.placed < g.placed || (h.placed == g.placed && decide (h.id < g.id)) then some g else some h) none with
      | some g => s.stopForFault g .space []
      | none => s

/-! ## SCHEDULER_DECISION (R369) -/

/-- Contexts whose levels are at the overdraft limit go into the ladder (R367). -/
def State.overdrafts (s : State) : State :=
  if s.service.active then s
  else s.ctxs.foldl (fun s c =>
    if c.run == .running && c.ladder == .none && c.overdrawn then s.startLadder c.id (s.time + c.drainUs * 1000) none else s) s

def State.schedule (s : State) : State :=
  let s := s.noteRunnable.overdrafts.leaveLadders.winterAll
  let s := (s.ctxs.map (·.id)).foldl (fun s k => (s.retryParked k).saveForSpace k) s
  let s := s.ctxs.foldl State.prefetchTables s
  s.takeTurn.noteRunnable

def execSchedulerDecision (s : State) : Host.Outcome State Fault Refusal :=
  .next { s.schedule with tick := s.tick + 1 }

end Sys2Proof.Machine
end

