-- ==== Sys2Proof/Machine/Periods.lean ====
section
/-! DEFINITION. The end of a workgroup (spec/07_work_graph.md R180, R186), period boundaries and service lists
(spec/18_budgets_and_scheduling.md R365, R368, R370, R375), and the choice of the wave that issues (R374). -/
namespace Sys2Proof.Machine

/-! ## WORKGROUP_END (R186) -/

/-- An instruction of an ending workgroup is over. A posted work request goes on without its wave. -/
def Flight.overAtEnd (f : Flight) : Bool := (f.done && f.owed == 0) || (match f.i with | .qpost _ => true | _ => false)

/-- Steps 1 and 2 of the end are done: every instruction and program is over, and every store is released at device scope. -/
def State.mayEnd (s : State) (g : Workgroup) : Bool :=
  g.waves.all (fun w => w.t.flights.all Flight.overAtEnd && w.t.wDev + 2 ≤ s.time) &&
    (match g.resv with | some r => r.threads.all (fun t => !t.running) | none => true) && !s.cmds.any fun c => c.wg == g.id

/-- A shared input record is released, and its parent's counter lowered, with the last workgroup of a co-resident launch: no other is left,
nor a killed member that is launched again (R186, R187). -/
def State.lastOfLaunch (s : State) (c : Context) (n : Node) (g : Workgroup) : Bool :=
  n.cores = 0 || (!(s.wgs.any fun h => h.ctx == g.ctx && h.launch == g.launch && h.id != g.id) && (c.membersOf [g.launch]).isEmpty)

def State.endWorkgroup (s : State) (id : Nat) : State :=
  match s.wg? id with
  | none => s
  | some g =>
    match (s.ctx? g.ctx).bind fun c => (c.node? g.node).map fun n => (c, n) with
    | none => s
    | some (c, n) =>
      if g.status != .ending || c.run != .running || !s.mayEnd g then s
      else
        let s := if s.lastOfLaunch c n g then s.lowerParents g.records else s
        let s : State := { s with wgs := s.wgs.filter (fun h => h.id != id), wps := clearWps id s.wps }
        s.retryParked g.ctx

def execWorkgroupEnd (wg : Nat) (s : State) : Host.Outcome State Fault Refusal :=
  .next { s.endWorkgroup wg with tick := s.tick + 1 }

/-! ## PERIOD_BOUNDARY (R365, R368, R370) -/

/-- The budgets of a context at a boundary: the rewritten descriptor takes effect, and every limited level is refilled. -/
def Context.newPeriod (c : Context) : Context :=
  let c := match c.newDesc with | some d => { c with desc := d, newDesc := none } | none => c
  { c with
    bktCore := refilled c.coreTok c.bktCore c.coreRefill
    bktRead := refilled c.readTok c.bktRead c.readRefill
    bktWrite := refilled c.wrTok c.bktWrite c.writeRefill
    bktEnergy := refilled c.enTok c.bktEnergy c.energyRefill
    used := 0 }

/-- A runnable context that has had nothing placed by the second boundary is owed; and one whose held launch only other contexts keep from
fitting (R170). -/
def Context.markOwed (c : Context) (boundary : Nat) (held : Bool) : Context :=
  match c.runnableSince with
  | some t =>
    if c.owed.isNone && (held || (c.placements = 0 && decide ((t / Config.periodNs + 2) * Config.periodNs ≤ boundary))) then
      { c with owed := some boundary }
    else c
  | none => c

/-- The order in which victims are taken: WEIGHT 0 first, the larger share first, the higher number first. -/
def victimBefore (a b : Context) : Bool :=
  if a.weight = 0 && b.weight = 0 then decide (b.used < a.used) || (a.used == b.used && decide (b.id < a.id))
  else if a.weight = 0 then true
  else if b.weight = 0 then false
  else
    let x := a.used * b.weight
    let y := b.used * a.weight
    y < x || (x == y && decide (b.id < a.id))

def sortVictims (cs : List Context) : List Context := cs.foldl (fun acc c => insertV c acc) []
where
  insertV (c : Context) : List Context → List Context
    | [] => [c]
    | d :: ds => if victimBefore c d then c :: d :: ds else d :: insertV c ds

/-- A context holds resources in the partition of another. -/
def State.holdsIn (s : State) (v c : Context) : Bool :=
  s.wgs.any fun g => g.ctx == v.id && g.onCore && g.cores.any c.partCores.contains

/-- The state without a context's workgroups on cores. -/
def State.without (s : State) (ctx : Nat) : State := { s with wgs := s.wgs.filter fun g => g.ctx != ctx || !g.onCore }

/-- The context could launch or be thawed now. -/
def State.fitsNow (s : State) (c : Context) : Bool :=
  match c.run with
  | .winteredOut => (s.thaw c).isSome
  | _ => match s.choice c false with
    | some k => (s.launch c k).isSome
    | none => true

/-- Victims in order, until removing them would let the context's candidate fit. -/
def State.victimsFor (s : State) (c : Context) : List Context → List Nat
  | [] => []
  | v :: vs => if s.fitsNow c then [] else v.id :: (s.without v.id).victimsFor c vs

/-- Room is made for every owed context: the ladder starts on each victim, with min(DRAIN, 20 µs). -/
def State.makeRoom (s : State) : State :=
  (s.ctxs.filter fun c => c.owed.isSome).foldl (fun s c =>
    let vs := sortVictims (s.ctxs.filter fun v => v.owed.isNone && v.id != c.id && v.run == .running && s.holdsIn v c)
    (s.victimsFor c vs).foldl (fun s v => match s.ctx? v with
      | some d => s.startLadder v (s.time + min (d.drainUs * 1000) 20000) none
      | none => s) s) s

/-- A held launch does not fit, and would if no other context were resident (R170). -/
def State.heldOut (s : State) (c : Context) : Bool :=
  c.held.isSome && !s.fitsNow c && ({ s with wgs := s.wgs.filter fun g => g.ctx == c.id || !g.onCore } : State).fitsNow c

/-- A change of mode that waited takes effect. -/
def Service.change (v : Service) (time : Nat) : Service :=
  match v.enter with
  | some es => ⟨true, none, false, [], es, 0, time, false⟩
  | none => if v.leave then ⟨false, none, false, [], [], 0, 0, false⟩ else v

/-- One boundary, where one is due. A level that came down to the overdraft limit before the refill starts its ladder (R367); victims are
taken by what they have spent in the period that ends (R370). -/
def State.periodBoundary (s : State) : State :=
  let b := s.period + Config.periodNs
  if s.time < b then s
  else
    let s := s.noteRunnable.overdrafts
    let tags := s.service.tags
    let s : State := { s with ctxs := s.ctxs.map fun c => if s.service.active then c else c.markOwed b (s.heldOut c) }
    let s := s.makeRoom
    let s : State := { s with
      period := b
      ctxs := s.ctxs.map Context.newPeriod
      gatherers := s.gatherers.map fun g => { g with used := [] }
      service := s.service.change s.time }
    (tags.foldl (fun s t => s.respond t 0 0x07 0) s).noteRunnable

def execPeriodBoundary (s : State) : Host.Outcome State Fault Refusal :=
  .next { s.periodBoundary with tick := s.tick + 1 }

/-! ## SLICE_END (R375) -/

/-- The entry's context exists and has something to run. -/
def State.entryAlive (s : State) (e : DWord) : Bool :=
  match s.ctx? (serviceCtx e) with
  | none => false
  | some c => (c.run == .winteredOut) || (c.run == .running && (s.hasWork c || !s.drained c.id))

/-- The entry's slice ends, and its context is put into the ladder; the next entry begins once its resources are free. -/
def State.sliceEnd (s : State) : State :=
  match s.service.active, s.service.entry with
  | true, some e =>
    let k := serviceCtx e
    let s :=
      if s.service.ending then s
      else if s.service.sliceFrom + serviceSlice e ≤ s.time || !s.entryAlive e then
        let s : State := { s with service := { s.service with ending := true } }
        match s.ctx? k with
        | some c => if c.run == .running && !s.drained k then s.startLadder k (s.time + servicePlim e) none else s
        | none => s
      else s
    if s.service.ending && s.drained k then
      let v := s.service
      { s with service := { v with ending := false, pos := (v.pos + 1) % max 1 v.list.length, sliceFrom := s.time } }
    else s
  | _, _ => s

def execSliceEnd (s : State) : Host.Outcome State Fault Refusal :=
  .next { s.sliceEnd with tick := s.tick + 1 }

/-! ## ISSUE (R374) -/

/-- The pipe that issues an instruction on a core: the memory forms are those that R140 names, and every other P-class form goes to a vector
pipe. -/
def pipeOf (i : Instr) : Pipe :=
  match i with
  | .ld _ | .st _ | .stNb _ | .atom _ | .red _ | .pf _ | .acp _ | .recld _ | .recst _ | .neval _ => .memory
  | i => if (encode i).headD 0 < 2 ^ 31 then .vector else .uniform

/-- The pipe that a party's next instruction is for; none while its fetch waits. What ends in a cause is met on the uniform pipe. -/
def State.nextPipe (s : State) (σ : Site) : Option Pipe :=
  match s.fetch σ with
  | .instr i => some (pipeOf i)
  | .wait => none
  | _ => some .uniform

/-- Things that no instruction does: debug halts asked for, traps that wait for results, barriers that a copy or a restore let pass,
evaluations that a restore submits again. -/
def State.sweep (s : State) : State :=
  let s := (s.wgs.filter fun g => g.waves.any fun w => !w.resub.isEmpty).foldl (fun (s : State) g => s.resubmitAll g.id) s
  let s : State := { s with wgs := s.wgs.map fun g =>
    if g.status != .resident then g
    else ({ g with waves := g.waves.map Wave.boundary } : Workgroup).wakeBarrier }
  let waiting := (s.wgs.filter fun g => g.status == .resident).flatMap fun g =>
    (g.waves.filter fun w => w.dbg.pending.isSome).map fun w => Party.wave g.id w.waveid
  waiting.foldl State.routeTrap s

/-- The order in which a core's pipes are filled in a cycle. -/
def pipeRank : Pipe → Nat
  | .vector => 0 | .memory => 1 | .uniform => 2

/-- The parties that a core has chosen earlier in its present cycle; a pipe that the cycle is past belongs to the next one. -/
def State.takenIn (s : State) (core : Nat) (k : Pipe) : List Party :=
  match s.filled.lookup core with
  | some (r, ps) => if r < pipeRank k then ps else []
  | none => []

/-- The waves of a core that may issue on a pipe now, as far as they have not been found waiting at issue. -/
def State.ready (s : State) (core : Nat) (k : Pipe) : List (Workgroup × Wave) :=
  s.wgs.flatMap fun g => (g.waves.filter fun w =>
    w.core == core && !w.passing && !(s.takenIn core k).contains (.wave g.id w.waveid) && (match s.siteOf (.wave g.id w.waveid) with
      | some σ => σ.runnable && !σ.t.windowShut && !s.blocked.contains σ.p && s.nextPipe σ == some k
      | none => false)).map fun w => (g, w)

/-- What a core's instruction that may wait at issue does when it is tried; none for one that waits for nothing but what `Site.holds` tells. -/
def Instr.trial (i : Instr) (s : State) : Option (Host.Outcome State Fault Refusal) :=
  match i with
  | .ld o => some (execLd o s) | .st o => some (execSt o s) | .stNb o => some (execStNb o s) | .atom o => some (execAtom o s)
  | .red o => some (execRed o s) | .sld o => some (execSld o s) | .sst o => some (execSst o s) | .satom o => some (execSatom o s)
  | .acp o => some (execAcp o s) | .tcp o => some (execTcp o s) | .recld o => some (execRecld o s) | .recst o => some (execRecst o s)
  | .neval o => some (execNeval o s) | .cselk a la => some (execCselk a la s) | .npin o => some (execNpin o s) | .qpost o => some (execQpost o s)
  | .fence o sc => some (execFence o sc s) | .waitc path a => some (execWaitc path a s) | .bara a => some (execBara a s)
  | .barw a => some (execBarw a s) | .baraw a => some (execBaraw a s) | .gbar a => some (execGbar a s) | .mwait o => some (execMwait o s)
  | .cntadd o => some (execCntadd o s) | .cntwait o => some (execCntwait o s) | .tbarv o => some (execTbarv o s)
  | .tbexp o => some (execTbexp o s) | .tbwait o => some (execTbwait o s) | .slotset o => some (execSlotset o s)
  | .slotwait o => some (execSlotwait o s) | .fork o => some (execFork o s) | .rdv p => some (execRdv p s) | .mrel m => some (execMrel m s)
  | .oalloc o => some (execOalloc o s) | .emit o => some (execEmit o s) | .spawn o => some (execSpawn o s) | .join => some (execJoin s)
  | .phase => some (execPhase s) | .done => some (execDone s) | .dbgrd o => some (execDbgrd o s) | .dbgwr o => some (execDbgwr o s)
  | _ => none

/-- A wave's next instruction waits at issue: what it leaves, which is a note of the wait and no effect. Such a wave is not in R (R374). -/
def State.waitsAtIssue (s : State) (p : Party) : Option State :=
  match s.siteOf p with
  | none => none
  | some σ => match s.fetch σ with
    | .instr i =>
      if σ.full i then some { s with blocked := p :: s.blocked }
      else match Sys2Proof.Machine.Instr.trial i { s with cur := some p } with
        | some (.next t) => if t.cur.isNone && t.blocked.contains p then some t else none
        | _ => none
    | _ => none

/-- The waves of a core that could issue on a pipe are tried: those that wait at issue are blocked. -/
def State.tried (s : State) (core : Nat) (k : Pipe) : State :=
  (s.ready core k).foldl (fun s e => (s.waitsAtIssue (.wave e.1.id e.2.waveid)).getD s) s

/-- A wave of a core whose passing over of R141 goes on: it issues nothing, so it takes no pipe. -/
def State.passer (s : State) (core : Nat) : Option Party :=
  s.wgs.findSome? fun g => (g.waves.find? fun w => w.core == core && w.passing && (match s.siteOf (.wave g.id w.waveid) with
    | some σ => σ.runnable && !σ.t.windowShut && !s.blocked.contains σ.p && (s.nextPipe σ).isSome
    | none => false)).map fun w => .wave g.id w.waveid

/-- class(w): PRIO, raised by a promotion. -/
def State.issueClass (s : State) (g : Workgroup) (w : Wave) : Nat :=
  let prio := match (s.ctx? g.ctx).bind (·.node? g.node) with | some n => n.prio | none => 0
  min 3 (prio + w.promoted)

/-- The highest class, then the oldest stamp. -/
def State.pickWave (s : State) (rs : List (Workgroup × Wave)) : Option (Workgroup × Wave) :=
  rs.foldl (fun m e => match m with
    | none => some e
    | some f =>
      let a := s.issueClass e.1 e.2
      let b := s.issueClass f.1 f.2
      if b < a || (a == b && decide (e.2.stamp < f.2.stamp)) then some e else some f) none

/-- A core has filled one of its pipes in its present cycle. -/
def State.fillPipe (s : State) (core : Nat) (k : Pipe) (p : List Party) : State :=
  { s with filled := (core, pipeRank k, p ++ s.takenIn core k) :: s.filled.filter fun e => e.1 != core }

/-- A unit chooses what issues next, unless something is chosen. A promotion that falls due is the next step of all. -/
def State.issue (s : State) (u : IssueUnit) : State :=
  if s.cur.isSome then s
  else
    let s := s.sweep
    match u with
    | .thread p => match s.siteOf p with
      | some σ => if p.executor != .core && σ.runnable && !σ.t.windowShut && !s.blocked.contains p then { s with cur := some p } else s
      | none => s
    | .pipe core k =>
      match s.passer core with
      | some p => { s with cur := some p }
      | none =>
      let s := s.tried core k
      let rs := s.ready core k
      match s.pickWave rs with
      | none => s.fillPipe core k []
      | some (g, w) =>
        let others := rs.filter fun e => !(e.1.id == g.id && e.2.waveid == w.waveid)
        let s := others.foldl (fun s e => s.updWave e.1.id e.2.waveid fun w => { w with passed := w.passed + 1 }) s
        let due : List Stimulus := (others.filter fun e => e.2.passed + 1 = 256).map fun e => ⟨0, .promotion (.wave e.1.id e.2.waveid)⟩
        { s.fillPipe core k [.wave g.id w.waveid] with cur := some (.wave g.id w.waveid), agenda := due ++ s.agenda }

/-- Time passes before a step. Whether each context is runnable is noted first, with the time from which it is. -/
def State.elapse (s : State) (dt : Nat) : State := if dt = 0 then s else s.noteRunnable.pass dt

def execIssue (u : IssueUnit) (s : State) : Host.Outcome State Fault Refusal :=
  .next { s.issue u with tick := s.tick + 1 }

/-- A wave passed over 256 times rises by one class. -/
def State.promote (s : State) (p : Party) : State :=
  match p with
  | .wave g k => s.updWave g k fun w => if 256 ≤ w.passed then { w with promoted := w.promoted + 1, passed := 0 } else w
  | _ => s

def execPromotion (p : Party) (s : State) : Host.Outcome State Fault Refusal :=
  .next { s.promote p with tick := s.tick + 1 }

end Sys2Proof.Machine
end

