-- ==== Sys2Proof/Machine/Peer.lean ====
section
/-! DEFINITION. The pod: accesses by peer devices, peers' answers, remote records, the pod's time base, and failures of the package
(spec/21_package_and_peers.md R411 to R423). -/
namespace Sys2Proof.Machine

/-! ## Inbound accesses (R413 to R415) -/

def State.answer (s : State) (src : Nat) (x : Option (List Byte × List Nat × Nat)) : State :=
  { s with peers := { s.peers with answers := (src, x) :: s.peers.answers } }

/-- An access that a check fails is answered with an error completion and logged. -/
def State.denyInbound (s : State) (kind check src off : Nat) : State := (s.accessLog false kind check src off 0).answer src none

/-- The parts of a request in blocks of some size, its 128-byte lines or 32-byte sectors: offset and length. -/
def blockParts (size : Nat) : (fuel : Nat) → (off n : Nat) → List (Nat × Nat)
  | 0, _, _ => []
  | fuel + 1, off, n =>
    if n = 0 then [] else let k := min n (size - off % size); (off, k) :: blockParts size fuel (off + k) (n - k)
def lineParts (off n : Nat) : List (Nat × Nat) := blockParts 128 3 off n

/-- The places of a request's parts, or the first check that fails. -/
def State.inboundPlaces (s : State) (src : Nat) (rd wr : Bool) : List (Nat × Nat) → Except (Nat × Nat) (List (Nat × Nat × Nat × Nat))
  | [] => .ok []
  | (off, n) :: rest =>
    match s.exportMap src off rd wr, s.inboundPlaces src rd wr rest with
    | .error k, _ => .error (k, off)
    | _, .error e => .error e
    | .ok (pa, key, lease), .ok xs => .ok ((pa, n, key, lease) :: xs)

/-- A request of a legal size, 32 to 256 bytes. -/
def inboundSize (n : Nat) : Bool := decide (32 ≤ n) && decide (n ≤ 256)

/-- The length of a home's grant to a peer: none while the pod's time is not confirmed (R246, R247, R423). -/
def State.peerLease (s : State) (pa lease : Nat) : Nat := if s.peers.synced then s.leaseLen (lineOf pa) lease false else 0
def State.leaseToPeer (s : State) (pa lease : Nat) : State :=
  let len := s.peerLease pa lease
  if len = 0 then s
  else { s with home := { s.home with grants := ⟨lineOf pa, Config.clusters, none, true, s.time + len⟩ :: s.home.grants } }

/-- Reads through the export table: the bytes and the sectors of the window that are poisoned among them, or the check that fails and
where. The lines of clean sectors are leased to the peer (R231, R413). -/
def State.readExport (s : State) (src off len : Nat) : State × Except (Nat × Nat) (List Byte × List Nat) :=
  match s.inboundPlaces src true false (lineParts off len) with
  | .error e => (s, .error e)
  | .ok xs =>
    let read (x : Nat × Nat × Nat × Nat) : List (Nat × Peek) := (blockParts 32 5 x.1 x.2.1).map fun y => (y.1, s.peek x.2.2.1 y.1 y.2)
    let ps := ((lineParts off len).zip xs).flatMap fun e => (read e.2).map fun y => (e.1.1 + (y.1 - e.2.1), y.2)
    let s' := (xs.foldl (fun s x => s.countElided x.1) s).lowerCounts (xs.map fun x => lineOf x.1)
    let clean := xs.filter fun x => (read x).any fun y => !y.2.bad
    (clean.foldl (fun s x => s.leaseToPeer x.1 x.2.2.2) s', .ok (ps.flatMap (·.2.bytes), (ps.filter (·.2.bad)).map (·.1 / 32)))

def State.inboundRead (s : State) (src off len : Nat) : State :=
  if !inboundSize len then s
  else match s.readExport src off len with
    | (s, .error (k, o)) => s.denyInbound 0 k src o
    | (s, .ok (bs, bad)) => s.answer src (some (bs, bad, 0))

def execInboundRead (src off len : Nat) (s : State) : Host.Outcome State Fault Refusal :=
  .next { s.inboundRead src off len with tick := s.tick + 1 }

/-- A write is held at a frozen or reviving region, and carries T_S back. -/
def State.inboundWrite (s : State) (src off : Nat) (bytes : List Byte) : State :=
  let parts := lineParts off bytes.length
  if !inboundSize bytes.length then s
  else match s.inboundPlaces src false true parts with
    | .error (k, o) => s.denyInbound 1 k src o
    | .ok xs =>
      match s.landOutside (.inboundWrite src off bytes)
          ((xs.zip parts).map fun e => (e.1.2.2.1, located e.1.1 ((bytes.drop (e.2.1 - off)).take e.2.2))) with
      | (s, some (t, _)) => s.answer src (some ([], [], t))
      | (s, none) => s

def execInboundWrite (src off : Nat) (bytes : List Byte) (s : State) : Host.Outcome State Fault Refusal :=
  .next { s.inboundWrite src off bytes with tick := s.tick + 1 }

/-- An atomic is held as a write is; the read half of one that meets a region that is not live counts as an elided read (R227). -/
def State.inboundAtomic (s : State) (src off : Nat) (op : AOp) (size : Size) (v cmp : DWord) : State :=
  let n := sizeBytes size
  let i : Instr := .inboundAtomic src off op size v cmp
  if (n != 4 && n != 8) || off % n != 0 then s
  else match s.exportMap src off true true with
    | .error k => s.denyInbound 2 k src off
    | .ok (pa, key, _) =>
      let (s, again) := s.unhold i
      match s.barred [pa] with
      | [] =>
        let t := (s.completion (lineOf pa) Config.clusters none).2.2
        let (s, old, bad) := ((s.noteRewrite [pa]).ordinary [lineOf pa]).applyAtomic op n (slotNow again key pa) pa v.toNat cmp.toNat
        s.answer src (some (leBytes n old, if bad then [off / 32] else [], t))
      | rs => (if again.isSome || s.home.frozen.contains (regionOf pa) then s else s.countElided pa).holdOutside i again rs

def execInboundAtomic (src off : Nat) (op : AOp) (size : Size) (v cmp : DWord) (s : State) : Host.Outcome State Fault Refusal :=
  .next { s.inboundAtomic src off op size v cmp with tick := s.tick + 1 }

/-! ## Answers to this device's requests (R412, R415, R416) -/

/-- A request to this device's own window, answered through its own export table as an inbound access: what it reads is leased by its own
home's grant, and a write that a region bars is held (R412). -/
def State.ownAnswer (s : State) (r : RemoteReq) (i : Instr) : State :=
  let src := Config.deviceId % 1024
  let off := peerOff r.addr
  if !r.write then
    let len := match s.exportMap src off true false with | .ok (pa, _, lease) => s.peerLease pa lease | .error _ => 0
    match s.readExport src off 32 with
    | (s, .error (k, o)) => (s.accessLog false 0 k src o 0).remoteFail r .remoteFault
    | (s, .ok (bs, bad)) => (s.dropReq r.n).deliverRead r bs (!bad.isEmpty) len
  else match s.entryOf r with
    | none => s.dropReq r.n
    | some e =>
      match s.exportMap src off (e.kind.access == 2) true with
      | .error k => (s.accessLog false e.kind.access k src off 0).remoteFail r .remoteFault
      | .ok (pa, key, _) =>
        let place (a : Nat) : Nat := pa + a - r.addr
        let places := e.bytes.map (fun b => place b.1) ++ e.accs.map fun a => place (a.pa.getD r.addr)
        let (s, again) := s.unhold i
        match s.barred [pa] with
        | [] =>
          let ts := max (s.keptUntil e.line) (s.completion (lineOf pa) Config.clusters none).2.2
          let (t, x) := ((s.dropReq r.n).noteRewrite places).applyHere e (slotNow again key pa) place
          t.afterApply e (0, 0, ts) x
        | rs =>
          (if again.isSome || e.kind.access != 2 || s.home.frozen.contains (regionOf pa) then s else s.countElided pa).holdOutside i again rs

/-- The peer's response to a request, of as many bytes as were asked for, in the order of the line's; one after the timeout is discarded
(R416). The length of the lease that comes with what was read is the peer's to choose, among those of R246 and the rest of a page's class
(R247). -/
def State.remoteResponse (s : State) (n : Nat) (bytes : List Byte) (poison : Bool) : State :=
  match s.peers.reqs.find? fun r => r.n == n with
  | none => (s.unhold (.remoteResponse n bytes poison)).1
  | some r =>
    let bs := (List.range r.len).map fun k => bytes.getD k 0
    if s.lapsed r || !s.answerDue r then s
    else if r.recs.isSome then (s.dropReq n).retryParked r.ctx
    else if ownWindow r.addr then s.ownAnswer r (.remoteResponse n bytes poison)
    else if r.write then (s.dropReq n).deliverWrite r bs poison
    else (s.dropReq n).deliverRead r bs poison (Config.freeNat s.tick 63000 % 50001)

def execRemoteResponse (req : Nat) (bytes : List Byte) (poison : Bool) (s : State) : Host.Outcome State Fault Refusal :=
  .next { s.remoteResponse req bytes poison with tick := s.tick + 1 }

/-- A peer answers with an error completion. -/
def State.errorCompletion (s : State) (n : Nat) : State :=
  match s.peers.reqs.find? fun r => r.n == n with
  | some r => if s.lapsed r || !s.answerDue r || (r.recs.isNone && ownWindow r.addr) then s else s.remoteFail r .remoteFault
  | none => s

def execErrorCompletion (req : Nat) (s : State) : Host.Outcome State Fault Refusal :=
  .next { s.errorCompletion req with tick := s.tick + 1 }

/-- The timeout lapses, counted on the time base from the request's departure (R416). -/
def State.remoteTimeout (s : State) (n : Nat) : State :=
  match s.peers.reqs.find? fun r => r.n == n with
  | some r => if s.lapsed r then s.remoteFail r .remoteTimeout else s
  | none => s

def execRemoteTimeout (req : Nat) (s : State) : Host.Outcome State Fault Refusal :=
  .next { s.remoteTimeout req with tick := s.tick + 1 }

/-! ## Remote records (R420, R421) -/

/-- The records of one EMIT of a peer are committed together, in handle order, to the slice of its source's die, and that is answered; those
that name no context or node, or whose size is not the node's, are refused with an error completion. While there is no room the station
keeps them, unanswered, and presents them again. -/
def State.remoteRecord (s : State) (r : RemoteRec) : State :=
  match (s.ctx? r.ctx).bind fun c => (c.node? r.node).map fun n => (c, n) with
  | none => s.answer r.src none
  | some (c, n) =>
    if r.recs.any fun b => b.length != c.typeSize n.intype then s.answer r.src none
    else if !s.recordRoom c (sumBy (fun b => recSpace b.length) r.recs) then s
    else (s.commit c.id r.node (c.dies.getD (r.src % max 1 c.dies.length) 0) (r.recs.map fun b => ⟨b, r.depth, none, s.time⟩)).answer r.src
      (some ([], [], 0))

def execRemoteRecord (r : RemoteRec) (s : State) : Host.Outcome State Fault Refusal :=
  .next { s.remoteRecord r with tick := s.tick + 1 }

/-! ## The pod's time base (R422, R423) -/

/-- What an exchange tells the time base: on joining a pod a step forward; later what it is to gain or lose, which it does by 1 ns in
10 µs at most (`Peers.paced`). The time master's own is not corrected. -/
def State.discipline (s : State) (master : Bool) (step : Int) : State :=
  match s.peers.lastSync with
  | none => { s with time := if master then s.time else s.time + step.toNat, peers := { s.peers with master := master } }
  | some _ => { s with peers := { s.peers with master := master, adjust := if master then 0 else step } }

/-- An exchange with the time master, or by the device that firmware has made it; and whether the skew, which the master has none of, is
confirmed. After 1 ms of confirmed skew, with no silence of 1 ms in it, the device is synchronised again. -/
def State.timeExchange (s : State) (master : Bool) (step : Int) (confirmed : Bool) : State :=
  let s := s.discipline master step
  let p := s.peers
  if !(confirmed || master) then { s with peers := { p with confirmedSince := none, lastSync := p.lastSync.or (some s.time) } }
  else if p.synced then { s with peers := { p with lastSync := some s.time } }
  else
    let silent := match p.lastSync with | some t => decide (t + 1000000 ≤ s.time) | none => true
    let since := if silent then s.time else p.confirmedSince.getD s.time
    if since + 1000000 ≤ s.time then
      ({ s with peers := { p with lastSync := some s.time, confirmedSince := none, synced := true } } : State).event none 0x0C (leBytes 8 0)
    else { s with peers := { p with lastSync := some s.time, confirmedSince := some since } }

def execTimeBaseExchange (e : Exchange) (confirmed : Bool) (s : State) : Host.Outcome State Fault Refusal :=
  .next { s.timeExchange e.master e.step confirmed with tick := s.tick + 1 }

/-- A device of a pod, not its time master, that has not confirmed its skew for 1 ms: its caches drop every peer lease, and its homes grant none. -/
def State.unsynchronise (s : State) : State :=
  match s.peers.lastSync with
  | none => s
  | some t =>
    if s.peers.master || !s.peers.synced || s.time < t + 1000000 then s
    else
      let s : State := { s with
        peers := { s.peers with synced := false, confirmedSince := none }
        home := { s.home with copies := s.home.copies.filter fun c => !inPeer (32 * c.sector) } }
      s.event none 0x0C (leBytes 8 1)

def execUnsynchronised (s : State) : Host.Outcome State Fault Refusal :=
  .next { s.unsynchronise with tick := s.tick + 1 }

/-! ## Failures of the package (R411, R414) -/

/-- A failing lane is mapped onto one of its link's two spares. -/
def State.remapLane (s : State) (link : Nat) : State :=
  let n := (s.peers.remaps.lookup link).getD 0
  if 2 ≤ n then s
  else { s with peers := { s.peers with remaps := (link, n + 1) :: s.peers.remaps.filter fun e => e.1 != link } }

def execLaneRemap (link : Nat) (s : State) : Host.Outcome State Fault Refusal :=
  .next { s.remapLane link with tick := s.tick + 1 }

/-- A link that cannot be repaired: the halt line of every context is raised, and every record has cause 0. A context in the ladder's halt
is now halted for a fault; one that was wintered is never thawed (R379, R391). -/
def State.linkFailure (s : State) (die : Nat) : State :=
  let s : State := { s with peers := { s.peers with failedDies := die :: s.peers.failedDies.filter (· != die) } }
  let halt (s : State) (c : Context) : State :=
    let z : StopRec := ⟨s.time, 0, 0, none, .recordStore, false, false, none, 0xFF, 0, 0, c.id, 0xFFFF, 0, 0, 0, 0, []⟩
    let ladder : Ladder := match c.ladder with | .drain d (some t) => .drain d (some t) | _ => .none
    match c.run with
    | .running =>
      ((s.updCtx c.id fun c => { c with run := .halted false, ladder := ladder, stops := c.stops ++ s.unitsOf c.id }).flushCtx c.id).haltEvent c.id z
    | .winteredOut => (s.updCtx c.id fun c => { c with run := .halted true, ladder := ladder }).haltEvent c.id z
    | .halted w => if c.ladder == .winter then (s.updCtx c.id fun c => { c with run := .halted w, ladder := .none }).haltEvent c.id z else s
  (s.ctxs.foldl halt s).event none 0x0B (leBytes 1 1 ++ leBytes 1 die ++ leBytes 6 0)

def execLinkFailure (die : Nat) (s : State) : Host.Outcome State Fault Refusal :=
  .next { s.linkFailure die with tick := s.tick + 1 }

/-- A station that trains below four lanes is disabled and reported. -/
def State.trainStation (s : State) (station lanes : Nat) : State :=
  let s : State := { s with peers := { s.peers with stations := (station, lanes) :: s.peers.stations.filter fun e => e.1 != station } }
  if lanes < 4 then s.event none 0x0B (leBytes 1 2 ++ leBytes 1 station ++ leBytes 6 0) else s

def execStationTraining (station lanes : Nat) (s : State) : Host.Outcome State Fault Refusal :=
  .next { s.trainStation station lanes with tick := s.tick + 1 }

end Sys2Proof.Machine
end

