-- ==== Sys2Proof/Machine/Mailboxes.lean ====
section
/-! DEFINITION. The host link: mailbox rings, the merge unit, out rings' HEAD, vectors, the registers of BAR0 and device reset
(spec/23_host_firmware_and_boot.md R440 to R450, R453, R455, R456; spec/11_consistency_model.md R259; spec/18_budgets_and_scheduling.md R363). -/
namespace Sys2Proof.Machine

/-! ## Records on a mailbox ring (R441, R442) -/

def Mailbox.run (r : Mailbox) (off n : Nat) : List Byte := (List.range n).map fun k => Sparse.get 0 r.bytes ((off + k) % r.size)
/-- Bytes between HEAD and TAIL. -/
def Mailbox.unread (r : Mailbox) : Nat := (r.tail + r.size - r.head) % r.size

/-- The record at HEAD: its header's fields, payload, and the stop reasons that hold for any ring. -/
structure HeadRec where
  skip : Bool
  entry : Nat
  len : Nat
  payload : List Byte
  errs : List Nat
  deriving DecidableEq, Repr

def HeadRec.size (h : HeadRec) : Nat := 4 + h.len

/-- Reads the record at HEAD, where there is one. A record that crosses the ring's end breaks both LENGTH and TAIL. -/
def Mailbox.head? (r : Mailbox) : Option HeadRec :=
  if r.tail % 4 != 0 || r.size ≤ r.tail then some ⟨false, 0, 0, [], [3]⟩
  else if r.unread = 0 then none
  else
    let h := fromBytes (r.run r.head 4)
    let len := field h 0 16
    let skip := field h 31 1 == 1
    let crosses := decide (r.size < r.head + 4 + len)
    let long := if skip then r.head + 4 + len != r.size else len < 4 || 128 < len || len % 4 != 0
    let errs := (if long || crosses then [1] else []) ++ (if crosses || decide (r.unread < 4 + len) then [3] else [])
    some ⟨skip, field h 16 8, len, if errs.isEmpty then r.run (r.head + 4) len else [], errs⟩

/-- Unread bytes of TAIL writes after n of them are taken. -/
def spend : (n : Nat) → List (Nat × Nat × Nat) → List (Nat × Nat × Nat)
  | _, [] => []
  | n, (k, t) :: rest => if n < k then (k - n, t) :: rest else spend (n - k) rest

/-- HEAD moves past a record. -/
def Mailbox.advance (r : Mailbox) (n : Nat) : Mailbox := { r with head := (r.head + n) % r.size, due := spend n r.due }
/-- A host write that arrived before number n is held still (R229, R259). -/
def State.hostHeld (s : State) (n : Nat) : Bool :=
  s.home.held.any fun h => (match h.what with | .hostWrite _ _ _ => true | _ => false) && decide (h.seq < n)

/-- The record at HEAD may be committed: the time base has passed T_S + 20 ns of every host write that reached the device before it, and
none of those is held (R259). -/
def State.mayTake (s : State) (r : Mailbox) : Bool :=
  match r.due with
  | (_, t, n) :: _ => (t = 0 || decide (t < s.time)) && !s.hostHeld n
  | [] => true

def State.mailbox? (s : State) (n : Nat) : Option Mailbox := s.host.mailboxes.find? fun r => r.n == n
def State.updMailbox (s : State) (n : Nat) (f : Mailbox → Mailbox) : State :=
  { s with host := { s.host with mailboxes := s.host.mailboxes.map fun r => if r.n == n then f r else r } }
def State.updRing0 (s : State) (f : Mailbox → Mailbox) : State := { s with host := { s.host with ring0 := f s.host.ring0 } }

/-- Bring-up is complete, and its flags (R450). -/
def State.isReady (s : State) : Bool := s.host.devstat.getLsbD 0
def State.isGolden (s : State) : Bool := s.host.devstat.getLsbD 1
def State.isRecov (s : State) : Bool := s.host.devstat.getLsbD 2

def stoppedEvent (n err : Nat) : List Byte := leBytes 2 n ++ leBytes 1 err ++ leBytes 5 0
/-- One of the reasons that hold: no rule orders them. -/
def oneOf (tick : Nat) (errs : List Nat) : Nat := errs.getD (Config.freeNat tick 70000 % max 1 errs.length) 0

/-! ## Firmware commands on ring 0 (R449, R451) -/

/-- Payload bytes of a command, the tag included. -/
def commandLen : (code : Nat) → Option Nat
  | 0x01 => some 68 | 0x02 => some 8 | 0x03 => some 24 | 0x04 => some 24 | 0x05 => some 16 | 0x06 => some 12 | 0x07 => some 16
  | 0x08 => some 60 | 0x09 => some 24 | 0x0A => some 16 | 0x0B => some 24 | 0x0C => some 8 | 0x0D => some 32 | 0x0E => some 20
  | 0x0F => some 8 | 0x10 => some 8 | 0x11 => some 24 | 0x12 => some 32 | 0x13 => some 24 | _ => none

/-- n bytes of a payload from byte k, little-endian. -/
def arg (p : List Byte) (k n : Nat) : Nat := fromBytes ((p.drop k).take n)

/-- Which action of a command a payload asks for; none where it names no action. -/
def action (code : Nat) (p : List Byte) : Option Nat :=
  match code with
  | 0x06 => some (if arg p 5 1 % 4 = 2 then 1 else 0)
  | 0x07 => if arg p 4 1 ≤ 1 then some (arg p 4 1) else none
  | 0x08 => if arg p 8 1 ≤ 5 then some (arg p 8 1) else none
  | 0x0B => if arg p 5 1 ≤ 2 then some (arg p 5 1) else none
  | 0x0C => if arg p 4 1 ≤ 3 then some (arg p 4 1) else none
  | 0x0D => if arg p 6 1 ≤ 1 then some (arg p 6 1) else none
  | 0x11 => if arg p 4 1 ≤ 1 then some (arg p 4 1) else none
  | 0x12 => some (arg p 29 1 % 2)
  | _ => some 0

/-- Firmware runs commands: it is up, and out ring 0 exists (R450, R453). -/
def State.serving (s : State) : Bool := s.isReady && s.host.fw == .running && (s.outRing? 0).isSome

/-- A record of ring 0 that is a command which firmware looks at; in recovery only DMA_WINDOW and IMAGE_UPDATE (R456). -/
def State.isCommand (s : State) (h : HeadRec) : Bool :=
  commandLen h.entry == some h.len && (action h.entry h.payload).isSome && (!s.isRecov || h.entry == 0x11 || h.entry == 0x13)

/-- Ring 0 up to its next command: skip records pass, what is no command is refused, and LENGTH and TAIL stop the ring (R442). -/
def State.serve (s : State) : (fuel : Nat) → State
  | 0 => s
  | fuel + 1 =>
    let r := s.host.ring0
    if !s.serving || r.state != .running then s
    else match r.head? with
      | none => s
      | some h =>
        if !h.errs.isEmpty then
          let e := oneOf s.tick h.errs
          ({ s with host := { s.host with ring0 := { r with state := .stopped, err := e }, cmdctl := 2 } } : State).event none 0x09 (stoppedEvent 0 e)
        else if h.skip then (s.updRing0 (·.advance h.size)).serve fuel
        else if s.isCommand h then s
        else ((s.updRing0 (·.advance h.size)).respond (arg h.payload 0 4) 1 h.entry 0).serve fuel

/-- As many records as ring 0 can hold. -/
def ring0Records : Nat := 16384

/-! ## TAIL (R441, R442) -/

/-- The host writes records from the old TAIL on, then TAIL, with the time and the number of its arrival. -/
def Mailbox.write (r : Mailbox) (bs : List Byte) (v : Nat) (due : Nat × Nat) : Mailbox :=
  { r with
    bytes := (located 0 bs).foldl (fun m e => Sparse.set 0 m ((r.tail + e.1) % r.size) e.2) r.bytes
    tail := v
    due := r.due ++ [((v + r.size - r.tail) % r.size, due)] }

/-- A TAIL write; before READY it is dropped (R456). Writes that reach the device after it get larger numbers. The register of a ring that
does not exist only holds it. -/
def State.tail (s : State) (ring : Nat) (bs : List Byte) (v : Nat) : State :=
  let due := (if s.host.writeTs = 0 then 0 else s.host.writeTs + 20, s.home.seq)
  let s' : State := { s with home := { s.home with seq := s.home.seq + 1 } }
  if !s.isReady then s
  else if ring = 0 then (s'.updRing0 (·.write bs v due)).serve ring0Records
  else if (s.mailbox? ring).isSome then s'.updMailbox ring (·.write bs v due)
  else if ring < 1024 then { s' with host := { s'.host with tails := Sparse.set 0 s'.host.tails ring v } }
  else s'

def execTail (ring : Nat) (bytes : List Byte) (v : Word) (s : State) : Host.Outcome State Fault Refusal :=
  .next { s.tail ring bytes v.toNat with tick := s.tick + 1 }

/-! ## MERGE (R443) -/

/-- The stop reasons of a record at HEAD, those of a ring that feeds a graph among them. -/
def Context.headErrs (c : Context) (h : HeadRec) : List Nat :=
  if h.skip then h.errs
  else match (c.graph.bind fun g => g.entries[h.entry]?).bind c.node? with
    | none => if h.errs == [3] && h.len = 0 then h.errs else h.errs ++ [2]
    | some n => if h.errs.isEmpty && c.typeSize n.intype != h.len then [4] else h.errs

/-- One ring's turn in a pass: a whole record is taken and committed, or the ring stops. Nothing is taken without room, not even a skip
record. The last part of the answer tells that the unit waits there, for record space or for the time of a record (R259). -/
def State.mergeTurn (s : State) (ctx ring : Nat) : State × Bool :=
  match s.ctx? ctx, s.mailbox? ring with
  | some c, some r =>
    if r.ctx != ctx || r.state != .running then (s, false)
    else match r.head? with
      | none => (s, false)
      | some h =>
        let errs := c.headErrs h
        if !errs.isEmpty then
          let e := oneOf (s.tick + ring) errs
          ((s.updMailbox ring fun r => { r with state := .stopped, err := e }).event none 0x09 (stoppedEvent ring e), false)
        else if !s.recordRoom c (recSpace (if h.skip then 4 else h.len)) then (s, true)
        else if h.skip then (s.updMailbox ring (·.advance h.size), false)
        else if !s.mayTake r then (s, true)
        else
          let die := c.dies.getD (ring % max 1 c.dies.length) 0
          let node := (c.graph.bind fun g => g.entries[h.entry]?).getD 0
          ((s.updMailbox ring (·.advance h.size)).commit ctx node die [⟨h.payload, 0, none, s.time⟩], false)
  | _, _ => (s, false)

/-- The turns of a round: pass after pass, the rings of more weight than the pass by rising index. -/
def State.mergeTurns (s : State) (ctx : Nat) : List Nat :=
  let rs := s.host.mailboxes.filter fun r => r.ctx == ctx
  (List.range 15).flatMap fun t =>
    (List.range 1024).filter fun i => rs.any fun r => r.n == i && decide (t < r.weight)

/-- Turns of a round until the unit must wait, and those that are left then. -/
def State.mergeRun (s : State) (ctx : Nat) : List Nat → State × List Nat
  | [] => (s, [])
  | i :: rest => match s.mergeTurn ctx i with
    | (s, true) => (s, i :: rest)
    | (s, false) => s.mergeRun ctx rest

/-- A round for one context, or the rest of one that had to wait. -/
def State.merge (s : State) (ctx : Nat) : State :=
  let left := ((s.ctx? ctx).map (·.merging)).getD []
  let turns := if left.isEmpty then s.mergeTurns ctx else left
  let (s, rest) := s.mergeRun ctx turns
  if rest == turns || rest == left then s else s.updCtx ctx fun c => { c with merging := rest }

def execMerge (ctx : Nat) (s : State) : Host.Outcome State Fault Refusal :=
  .next { s.merge ctx with tick := s.tick + 1 }

/-! ## OHEAD (R445) -/

/-- A HEAD write that is dropped and counted. -/
def State.dropHead (s : State) : State := { s with host := { s.host with headDrops := s.host.headDrops + 1 } }

/-- The host frees space of an out ring; a value that is no multiple of 4 or would pass TAIL is dropped and counted, which for a ring that
does not exist every value but 0 would. Firmware writes the events that wait, but not while it is reloaded (R453). -/
def State.freeOut (s : State) (ring v : Nat) : State :=
  match s.outRing? ring with
  | none => if s.isReady && ring < 1024 && v != 0 then s.dropHead else s
  | some r =>
    let d (a b : Nat) : Nat := (b + r.size - a) % r.size
    if v % 4 != 0 || r.size ≤ v || d r.ohead r.tail < d r.ohead v then s.dropHead
    else
      let s := s.updOut ring fun r => { r with ohead := v }
      if r.kind == 0 && s.host.fw == .reloading then s else s.flushOut ring (r.recs.length + 2)

def execOhead (ring : Nat) (v : Word) (s : State) : Host.Outcome State Fault Refusal :=
  .next { s.freeOut ring v.toNat with tick := s.tick + 1 }

/-! ## Vectors (R447) -/

def execHoldoff (v : Nat) (s : State) : Host.Outcome State Fault Refusal :=
  let x := s.vector v
  .next { (if x.due s.time then s.setVector x.fire else s) with tick := s.tick + 1 }

/-- A pending vector fires once it is unmasked. -/
def State.unmask (s : State) (v : Nat) : State :=
  let x := { s.vector v with masked := false }
  s.setVector (if x.pending || x.due s.time then x.fire else x)

def execUnmask (v : Nat) (s : State) : Host.Outcome State Fault Refusal :=
  .next { (if v < 256 then s.unmask v else s) with tick := s.tick + 1 }

/-! ## Registers of BAR0 (R445, R450) -/

/-- A write of EVCFG before out ring 0 exists. EN with a valid SIZE, once READY is set, brings the ring into being; READY is its first
record, and what was held follows, once firmware is not being reloaded (R453). The spec does not say what the register holds after EN = 1 with a SIZE above 12 or before READY: in the
model VEC and SIZE take what is written, EN reads 1, and the ring waits for a valid write (log 121). -/
def State.bringOut (s : State) (v : DWord) : State :=
  let n := field v.toNat 0 4
  let vec := field v.toNat 8 8
  let en := s.host.evcfg.getLsbD 31 || v.getLsbD 31
  if (s.outRing? 0).isSome then s
  else
    let s : State := { s with host := { s.host with evcfg := BitVec.ofNat 64 (en.toNat * 2 ^ 31 + vec * 2 ^ 8 + n) } }
    if !s.isReady || !v.getLsbD 31 || 12 < n then s
    else
      let r : OutRing :=
        { n := 0, ctx := none, kind := 0, vec := vec, base := s.host.evbase.toNat, size := 2 ^ (12 + n), state := .running,
          tail := 0, ohead := 0, shadow := s.host.evshadow.toNat, recs := [], lost := 0 }
      let s : State := { s with host := { s.host with outs := r :: s.host.outs } }
      let ready := outRecord 0x02 (leBytes 8 (s.isGolden.toNat + 2 * s.isRecov.toNat))
      if s.host.fw == .reloading then { s with host := { s.host with heldEvents := (0, ready) :: s.host.heldEvents } }
      else (s.emitOut 0 ready).releaseEvents.serve ring0Records

/-- Codes of a ring's state (R441, R445). -/
def RingState.code : RingState → Nat
  | .absent | .idle => 0 | .running => 1 | .stopped => 2

/-- The two registers of a mailbox ring: TAIL; STATE, ERR and HEAD (R441). -/
def State.ringRegs (s : State) (i : Nat) : Nat × Nat :=
  match (if i = 0 then some s.host.ring0 else s.mailbox? i) with
  | some r => (r.tail, r.state.code * 2 ^ 56 + (if r.state == .running then 0 else r.err) * 2 ^ 48 + r.head)
  | none => (Sparse.get 0 s.host.tails i, 0)

/-- The two registers of an out ring: OHEAD; OSTAT, whose SIZE is the size code (R445). -/
def State.outRegs (s : State) (j : Nat) : Nat × Nat :=
  match s.outRing? j with
  | some r => (r.ohead, r.state.code * 2 ^ 56 + r.kind * 2 ^ 48 + r.vec * 2 ^ 40 + (Nat.log2 r.size - 12) * 2 ^ 36 + r.tail)
  | none => (0, 0)

/-- The dword that a host read of BAR0 finds at an offset (R441, R445, R450); before READY 0 everywhere but at the registers of R450, and 0
where there is no register (R456). -/
def State.barRead (s : State) (off : Nat) : DWord :=
  let pair (x : Nat × Nat) : Nat := if off % 16 = 0 then x.1 else x.2
  if off = 0 then s.host.devstat
  else if off = 0x10 then s.host.evbase
  else if off = 0x18 then s.host.evcfg
  else if off = 0x20 then s.host.evshadow
  else if off = 0x28 then s.host.cmdctl
  else if !s.isReady || off % 8 != 0 then 0
  else if 0x100000 ≤ off && off < 0x104000 then BitVec.ofNat 64 (pair (s.ringRegs ((off - 0x100000) / 16)))
  else if 0x200000 ≤ off && off < 0x204000 then BitVec.ofNat 64 (pair (s.outRegs ((off - 0x200000) / 16)))
  else if 0x300000 ≤ off && off < 0x300800 then (s.vector ((off - 0x300000) / 8)).cfg
  else 0

/-- The offset in BAR0 of a register that the host writes; the mask of a vector lies in the table that PCIe defines. -/
def BarReg.offset : BarReg → Option Nat
  | .devstat => some 0 | .evbase => some 0x10 | .evcfg => some 0x18 | .evshadow => some 0x20 | .cmdctl => some 0x28
  | .ringState i => some (0x100000 + 16 * i + 8)
  | .ostat j => some (0x200000 + 16 * j + 8)
  | .vcfg v => some (0x300000 + 8 * v)
  | .vmask _ => none

/-- RESTART in CMDCTL: ring 0 starts again with HEAD = TAIL = 0. The bit reads 0 afterwards, which the spec does not say (log 122). -/
def State.restart (s : State) : State :=
  if !s.isReady then s
  else { s with host := { s.host with
      ring0 := { s.host.ring0 with state := .running, err := 0, head := 0, tail := 0, due := [] }, cmdctl := 0 } }

/-- A plain write. Registers and bits that are RO, and reserved bits, ignore it, and once out ring 0 exists its three registers do
(R6). -/
def State.writeReg (s : State) (r : BarReg) (v : DWord) : State :=
  let x := v.toNat
  let fixed := (s.outRing? 0).isSome
  match r with
  | .evbase => if fixed then s else { s with host := { s.host with evbase := BitVec.ofNat 64 (x / 4096 * 4096) } }
  | .evshadow => if fixed then s else { s with host := { s.host with evshadow := BitVec.ofNat 64 (x / 8 * 8) } }
  | .evcfg => s.bringOut v
  | .cmdctl => if v.getLsbD 0 then s.restart else s
  | .devstat | .ringState _ | .ostat _ => s
  | .vcfg n =>
    if 256 ≤ n then s
    else
      let y := { s.vector n with cfg := BitVec.ofNat 64 (x % 2 ^ 14) }
      s.setVector (if y.due s.time then y.fire else y)
  | .vmask n =>
    if 256 ≤ n then s
    else if v.getLsbD 0 then s.setVector { s.vector n with masked := true }
    else s.unmask n

def execRegisterWrite (r : BarReg) (v : DWord) (s : State) : Host.Outcome State Fault Refusal :=
  .next { s.writeReg r v with tick := s.tick + 1 }

def execEvcfgEn (v : DWord) (s : State) : Host.Outcome State Fault Refusal :=
  .next { s.bringOut v with tick := s.tick + 1 }

def execRestart (s : State) : Host.Outcome State Fault Refusal :=
  .next { s.restart with tick := s.tick + 1 }

/-! ## Device reset and bring-up (R456) -/

/-- DEVSTAT once bring-up is complete: step 5, READY, and which pair runs. -/
def readyStat (golden recov : Bool) : DWord := BitVec.ofNat 64 (5 * 2 ^ 24 + 4 * recov.toNat + 2 * golden.toNat + 1)

/-- DEVSTAT in a step of bring-up before READY; the pair that runs is loaded in step 1. -/
def bootStat (step : Nat) (golden : Bool) : DWord := BitVec.ofNat 64 (step * 2 ^ 24 + 2 * (golden && step != 1).toNat)

/-- Everything as at reset, and bring-up in its first step, in which the image pairs are verified. What the device has sent before, its
flash and its clock are not undone. A pair that IMAGE_UPDATE has written is loaded where it is the primary pair and verifies (R451). -/
def State.deviceReset (s : State) (primaryOk goldenOk : Bool) : State :=
  let r := State.reset
  { r with
    agenda := s.agenda
    tick := s.tick
    time := s.time
    period := s.time / Config.periodNs * Config.periodNs
    wire := s.wire
    host := { r.host with
      devstat := bootStat 1 false
      hostWrites := s.host.hostWrites
      mctpReplies := s.host.mctpReplies
      spdmReplies := s.host.spdmReplies
      flash := s.host.flash
      images := s.host.images
      loaded := if primaryOk then s.host.images else s.host.loaded
      pairs := (primaryOk, goldenOk)
      bootAt := s.time + Config.freeNat s.tick 70011 } }

/-- The golden pair runs, or, since neither verified, none. -/
def HostLink.onGolden (h : HostLink) : Bool := !h.pairs.1 && h.pairs.2
def HostLink.onNone (h : HostLink) : Bool := !h.pairs.1 && !h.pairs.2

/-- Bring-up is complete: READY is set, and ring 0 is in being. Firmware sets the peer timeout and the share of inbound writes as it comes
up, to free values of the steps that the spec allows (R414, R416, log 111). -/
def State.bringReady (s : State) : State :=
  { s with
    peers := { s.peers with
      timeoutNs := 10000 * (1 + Config.freeNat s.tick 70003 % 1000)
      share := 1 + Config.freeNat s.tick 70004 % 8 }
    host := { s.host with
      ring0 := { Mailbox.zero with size := 65536, state := .running }
      devstat := readyStat s.host.onGolden s.host.onNone
      fw := .running
      signal := s.time } }

/-- Bring-up goes on to its next step once the present one has ended; how long a step takes is free, since the times of R456 do not bind
(log 85). -/
def State.bootNext (s : State) : State :=
  let k := field s.host.devstat.toNat 24 8
  if s.isReady || k = 0 || s.time < s.host.bootAt then s
  else if k = 4 then s.bringReady
  else { s with host := { s.host with
      devstat := bootStat (k + 1) s.host.onGolden, bootAt := s.host.bootAt + Config.freeNat s.tick (70011 + k) } }

/-- Time passes for the device and for its bring-up. -/
def State.lapse (s : State) (dt : Nat) : State := (s.elapse dt).bootNext.bootNext.bootNext.bootNext

def execDeviceReset (primaryOk goldenOk : Bool) (s : State) : Host.Outcome State Fault Refusal :=
  .next { s.deviceReset primaryOk goldenOk with tick := s.tick + 1 }

/-! ## Firmware's watchdog (R453) -/

/-- Firmware has not signalled the watchdog for 100 ms: the hard core reloads the golden pair. When firmware signals the spec does not say:
in the model, as it comes up and with every command that it executes (log 144). -/
def execWatchdog (s : State) : Host.Outcome State Fault Refusal :=
  let s' : State := if s.host.fw == .running && !s.isRecov && s.host.signal + 100000000 ≤ s.time then
    { s with host := { s.host with fw := .reloading } } else s
  .next { s' with tick := s.tick + 1 }

/-- The golden pair runs: what was held is written, and commands that waited run. Where it did not verify, neither pair can be used (R456,
log 145). -/
def State.reloaded (s : State) : State :=
  if s.host.fw != .reloading then s
  else
    let s : State := { s with host := { s.host with
      fw := .running, signal := s.time, devstat := s.host.devstat ||| (if s.host.pairs.2 then 2 else 4) } }
    (if (s.outRing? 0).isSome then s.releaseEvents else s).serve ring0Records

def execGoldenReloadEnd (s : State) : Host.Outcome State Fault Refusal :=
  .next { s.reloaded with tick := s.tick + 1 }

/-! ## Power, bounds, the management controller (R448, R455) -/

/-- Above the cap the clock goes down 100 MHz, to 1.0 GHz at the least; 5 % below it, it comes up again. -/
def Power.govern (p : Power) (watts : Nat) : Power :=
  if p.capW < watts then { p with mhz := max 1000 (p.mhz - 100) }
  else if 100 * watts ≤ 95 * p.capW then { p with mhz := min 2500 (p.mhz + 100) }
  else p

def execPowerGovernor (watts : Nat) (s : State) : Host.Outcome State Fault Refusal :=
  .next { s with power := s.power.govern watts, tick := s.tick + 1 }

/-- Firmware sends a vector's MSI-X message directly. -/
def State.fwInterrupt (s : State) (v : Nat) : State :=
  let x := s.vector v
  ({ s with host := { s.host with fwMsi := (v, s.time) :: s.host.fwMsi.filter fun e => e.1 != v } } : State).setVector
    (if x.masked then { x with pending := true } else { x with fired := x.fired + 1 })

/-- An attempt of firmware at an action of R448, at a host address (row 1), on a vector (row 2) or through a queue pair (row 3): one within
its bound goes ahead, and one beyond it is blocked, counted and reported. What firmware moves and sends the spec does not say (log 146). -/
def State.bound (s : State) (row what : Nat) : State :=
  if row = 0 || 6 < row then s
  else if row = 1 && s.inWindow what 1 then s
  else if row = 2 && what < 256 && (match s.host.fwMsi.lookup what with | some t => decide (t + 10000 ≤ s.time) | none => true) then s.fwInterrupt what
  else if row = 3 && (match s.qp? what with | some q => q.approved | none => false) then s
  else s.reportBound row

def execBound (act : FwAct) (s : State) : Host.Outcome State Fault Refusal :=
  .next { s.bound act.row act.what with tick := s.tick + 1 }

/-- Power and temperature are reported: the spec gives neither their values nor the message's form, so the answer is free. -/
def execMctpRequest (s : State) : Host.Outcome State Fault Refusal :=
  let reply := freeBytes s.tick (Config.freeNat s.tick 70001 % 256)
  .next { s with host := { s.host with mctpReplies := s.host.mctpReplies ++ [reply] }, tick := s.tick + 1 }

/-! ## Descriptor rewrites (R363) -/

/-- The fields marked RW: WEIGHT, the refills and OVR, bits [439:364]. -/
def rewriteDesc (old new : BitVec 512) : BitVec 512 :=
  let mask := BitVec.ofNat 512 ((2 ^ 76 - 1) * 2 ^ 364)
  (old &&& ~~~mask) ||| (new &&& mask)

/-- Firmware rewrites a descriptor, but not while it is reloaded (R453). -/
def State.rewrite (s : State) (ctx : Nat) (d : BitVec 512) : State :=
  if 8 < field d.toNat 364 4 || s.host.fw == .reloading then s
  else s.updCtx ctx fun c => { c with newDesc := some (rewriteDesc c.desc d) }

def execDescriptorRewrite (ctx : Nat) (d : BitVec 512) (s : State) : Host.Outcome State Fault Refusal :=
  .next { s.rewrite ctx d with tick := s.tick + 1 }

/-! ## Host writes to device memory (R259) -/

/-- A host write has been applied with its T_S and its arrival number: records whose TAIL came later wait for it (R259). -/
def State.hostApplied (s : State) (t n : Nat) : State :=
  let late (e : Nat × Nat × Nat) : Nat × Nat × Nat := if n < e.2.2 then (e.1, max e.2.1 (t + 20), e.2.2) else e
  { s with host := { s.host with
      writeTs := max s.host.writeTs t
      mailboxes := s.host.mailboxes.map fun r => { r with due := r.due.map late } } }

/-- A host write at its homes, under a key slot: applied, or held at a frozen or reviving region. -/
def State.hostWrite (s : State) (pa : Nat) (key : Byte) (bs : List Byte) : State :=
  match s.landOutside (.hostWrite pa key bs) [(key.toNat, located pa bs)] with
  | (s, some (t, n)) => s.hostApplied t n
  | (s, none) => s

/-- Every byte of a run lies in the first tier, or every one in the second. -/
def inTier (pa n : Nat) : Bool := n != 0 && ((inFirst pa && inFirst (pa + n - 1)) || (inSecond pa && inSecond (pa + n - 1)))

def execHostWrite (pa : Nat) (key : Byte) (bytes : List Byte) (s : State) : Host.Outcome State Fault Refusal :=
  if !inTier pa bytes.length && !bytes.isEmpty then .fault .noSuchAddress
  else if bytes.isEmpty || s.keyOf key.toNat = 0 then .next { s with tick := s.tick + 1 }
  else .next { s.hostWrite pa key bytes with tick := s.tick + 1 }

end Sys2Proof.Machine
end

