-- ==== Sys2Proof/Machine/Install.lean ====
section
/-! DEFINITION. The graph image, its checks and its installation (spec/02_encoding_and_assembly.md R56 to R61; spec/07_work_graph.md R162,
R163, R169, R458). -/
namespace Sys2Proof.Machine

/-! ## Reading the image -/

/-- A page of the image as its leaf maps it. -/
structure ImagePage where
  pa : Nat
  key : Nat
  moving : Bool
  r : Bool
  w : Bool
  x : Bool
  deriving DecidableEq, Repr

/-- The valid page at a virtual address, in a frame of the context. -/
def State.imagePage (s : State) (c : Context) (va : Nat) : Option ImagePage :=
  match s.walk c va with
  | .ok pa key _ false moving r w x => if inMemory pa then some ⟨pa, key, moving, r, w, x⟩ else none
  | _ => none

/-- n bytes of the image from an address, little-endian. -/
def State.imageNat (s : State) (c : Context) (va n : Nat) : Nat :=
  fromBytes ((List.range n).map fun k => match s.imagePage c (va + k) with
    | some p => (s.peek p.key p.pa 1).bytes.headD 0
    | none => 0)

/-- The header of R59: counts, image offsets of the node table, type table, edge table, entry list and section area, length. -/
structure ImageHeader where
  nodes : Nat
  types : Nat
  entries : Nat
  edges : Nat
  noff : Nat
  toff : Nat
  eoff : Nat
  loff : Nat
  soff : Nat
  len : Nat
  deriving DecidableEq, Repr

def State.imageHeader (s : State) (c : Context) (va : Nat) : ImageHeader :=
  let h := s.imageNat c
  ⟨h (va + 6) 2, h (va + 8) 2, h (va + 10) 2, h (va + 12) 4, h (va + 16) 8, h (va + 24) 8, h (va + 32) 8, h (va + 40) 8, h (va + 48) 8,
   h (va + 56) 8⟩

/-- The header and the tables: offsets and lengths. -/
def ImageHeader.tables (h : ImageHeader) : List (Nat × Nat) :=
  [(0, 64), (h.noff, 64 * h.nodes), (h.toff, 2 * h.types), (h.eoff, 8 * h.edges), (h.loff, 2 * h.entries)]

/-- Magic word, version, counts, and everything inside the image. A section area at no multiple of 4 KiB is refused, which the spec does not
ask in so many words (log 96). -/
def State.headerOk (s : State) (c : Context) (va len : Nat) (h : ImageHeader) : Bool :=
  s.imageNat c va 4 == 0x49474B56 && s.imageNat c (va + 4) 2 == 1 && h.len == len && decide (64 ≤ len) && decide (1 ≤ h.nodes) &&
    decide (h.types ≤ 4096) && decide (1 ≤ h.entries ∧ h.entries ≤ 256) && decide (h.edges ≤ 524280) &&
    h.tables.all (fun t => t.1 + t.2 ≤ len) && h.soff % 4096 == 0 && decide (h.soff ≤ len)

/-! ## Nodes -/

/-- The node descriptor's bits (R60). -/
def State.imageNode (s : State) (c : Context) (va : Nat) (h : ImageHeader) (k : Nat) : Nat := s.imageNat c (va + h.noff + 64 * k) 64

/-- Where sections begin. -/
def sectionStarts (ds : List Nat) : List Nat :=
  (ds.flatMap fun d => [field d 448 64, field d 384 64, field d 320 64]).filter fun x => x != 0

/-- The page of an image offset is execute-only. -/
def State.execPage (s : State) (c : Context) (va off : Nat) : Bool :=
  match s.imagePage c (va + off) with | some p => p.x && !p.r && !p.w | none => false

/-- Execute-only bytes from an image offset on, page by page. -/
def State.execRun (s : State) (c : Context) (va off : Nat) : (fuel : Nat) → Nat
  | 0 => 0
  | fuel + 1 =>
    let n := 4096 - off % 4096
    if s.execPage c va off then n + s.execRun c va (off + n) fuel else 0

/-- Length of the sequencer section at an offset: up to the next section, the image's end, or the end of its execute-only pages. -/
def State.sectionLen (s : State) (c : Context) (va len : Nat) (starts : List Nat) (off : Nat) : Nat :=
  if off = 0 then 0
  else
    let next := (starts.filter fun x => off < x).foldl min len
    min (next - off) (s.execRun c va off 18)

/-- The node that a descriptor describes, with its addresses virtual. -/
def nodeOf (d base mlen clen : Nat) : Node :=
  let f := field d
  let at_ (x : Nat) : Nat := if x = 0 then 0 else base + x
  { entry := base + f 448 64, msec := at_ (f 384 64), cseq := at_ (f 320 64), mlen := mlen, clen := clen, nodeid := f 304 16,
    intype := f 292 12, edge0 := f 272 20, nout := f 268 4, kind := f 266 2, prio := f 264 2, wavesM1 := f 259 5, regs8 := f 255 4,
    spanM1 := f 253 2, depth := f 248 5, scratchK := f 235 13, phased := f 234 1 == 1, idemp := f 233 1 == 1, dbg := f 232 1 == 1,
    isEntry := f 231 1 == 1, cores := f 216 15, timer := f 200 16, akv := f 199 1 == 1, akoff := f 192 7, bfirst := f 176 16,
    blast := f 160 16, carry := BitVec.ofNat 96 (f 32 96), dist := 0 }

/-- The limits of R56, R57 and R60 on a node. AKOFF other than 0 where AKV is 0 is refused, which no rule asks (log 96). -/
def nodeOk (h : ImageHeader) (types : List Nat) (entries : List Nat) (d k : Nat) (n : Node) : Bool :=
  let off (x : Nat) : Bool := x % 4 == 0 && decide (h.soff ≤ x) && decide (x < h.len)
  let sec (x : Nat) : Bool := x == 0 || off x
  let none_ := n.bfirst == 0xFFFF && n.blast == 0xFFFF
  off (field d 448 64) && sec (field d 384 64) && sec (field d 320 64) && decide (n.mlen ≤ 65536) && decide (n.clen ≤ 65536) &&
    n.nodeid == k && decide (n.intype < h.types) && decide (n.nout ≤ 8) && decide (n.edge0 ≤ 524279) && decide (n.edge0 + n.nout ≤ h.edges) && n.kind != 3 &&
    (n.kind == 2 || n.wavesM1 == 0) && decide (1 ≤ n.regs8 ∧ n.regs8 ≤ 12) && decide (n.depth ≤ 16) &&
    decide (n.scratchK ≤ 1024 * (n.spanM1 + 1)) && n.isEntry == entries.contains k && decide (n.cores ≤ 24576) &&
    decide (1 ≤ n.timer ∧ n.timer ≤ 4000) &&
    (if n.akv then n.akoff % 4 == 0 && decide (n.akoff + 4 ≤ types.getD n.intype 0) else n.akoff == 0) &&
    (none_ || decide (n.bfirst ≤ n.blast ∧ n.blast ≤ 65534)) && field d 128 32 == 0 && field d 0 32 == 0 &&
    (n.carry == 0 || n.phased) && decide (n.carry.toNat < 2 ^ (8 * n.regs8))

/-! ## The edge graph (R162, R169) -/

/-- Pairs of a node and the target of one of its edges that is not recursive. -/
def plainEdges (nodes : List Node) (edges : List Edge) : List (Nat × Nat) :=
  nodes.flatMap fun n => (List.range n.nout).filterMap fun e => match edges[n.edgeIdx e]? with
    | some ed => if ed.recursive then none else some (n.nodeid, ed.target)
    | none => none

/-- Takes away every node that no other leads to, as often as there are nodes: nothing is left of a graph without cycles. -/
def peel (ps : List (Nat × Nat)) : (fuel : Nat) → List Nat → List Nat
  | 0, ns => ns
  | fuel + 1, ns => peel ps fuel (ns.filter fun n => ps.any fun p => p.2 == n && ns.contains p.1)

/-- Longest paths from entries, by rounds. -/
def farther (ps : List (Nat × Nat)) : (fuel : Nat) → List (Nat × Nat) → List (Nat × Nat)
  | 0, ds => ds
  | fuel + 1, ds =>
    let step (ds : List (Nat × Nat)) (p : Nat × Nat) : List (Nat × Nat) :=
      match ds.lookup p.1 with
      | none => ds
      | some d => if (ds.lookup p.2).any fun e => decide (d + 1 ≤ e) then ds else (p.2, d + 1) :: ds.filter fun e => e.1 != p.2
    farther ps fuel (ps.foldl step ds)

/-- The device places all the workgroups of a co-resident node on an otherwise empty partition. -/
def State.coresFit (s : State) (c : Context) (n : Node) : Bool :=
  let empty : State := { s with wgs := [], ring := { s.ring with plan := none } }
  (empty.startSome c n 0 true 0 (List.replicate n.cores [])).isSome

/-- The check of R162 on an entry of the edge table, whether or not a node owns it: the record type is the target's input type, and the
target of a recursive edge declares .depth. -/
def edgeOk (nodes : List Node) (e : Edge) : Bool :=
  match nodes[e.target]? with
  | some t => e.rtype == t.intype && (!e.recursive || t.depth != 0)
  | none => false

/-- The checks of R162 on a node: fit, carry (in `nodeOk`), co-residency. -/
def State.graphOk (s : State) (c : Context) (n : Node) : Bool :=
  let per := (n.waves + n.spanM1) / (n.spanM1 + 1)
  decide (per * n.regs8 ≤ 512) && (n.cores == 0 || (n.kind != 0 && !n.phased && s.coresFit c n))

/-! ## Pages (R458) -/

/-- Every page is valid; pages of the header and the tables are read-write, those of a core, .matrix or .copyseq section execute-only, those
of .const read-only and those of .data readable. To which section a page belongs the image says only where one of code starts: elsewhere the
answer is free (log 123). -/
def State.pagesOk (s : State) (c : Context) (va : Nat) (h : ImageHeader) (ds starts : List Nat) : Bool :=
  (List.range ((h.len + 4095) / 4096)).all fun k =>
    match s.imagePage c (va + 4096 * k) with
    | none => false
    | some p =>
      let holds := h.tables.any fun t => t.2 != 0 && t.1 < 4096 * (k + 1) && 4096 * k < t.1 + t.2
      let sec := if starts.any fun x => x / 4096 == k then 0 else Config.pageSection ds k
      (!holds || (p.r && p.w && !p.x)) &&
        (4096 * k < h.soff || (match sec with | 0 => p.x && !p.r && !p.w | 1 => p.r && !p.w && !p.x | _ => p.r && !p.x))

/-! ## Installation -/

/-- The image read and checked whole: the graph as it will be installed, or none. -/
def State.readGraph (s : State) (c : Context) (va len : Nat) : Option (Graph × ImageHeader) :=
  let h := s.imageHeader c va
  if !s.headerOk c va len h then none
  else
    let types := (List.range h.types).map fun k => s.imageNat c (va + h.toff + 2 * k) 2
    let entries := (List.range h.entries).map fun k => s.imageNat c (va + h.loff + 2 * k) 2
    let ds := (List.range h.nodes).map fun k => s.imageNode c va h k
    let starts := sectionStarts ds
    let nodes := ds.map fun d =>
      nodeOf d va (s.sectionLen c va len starts (field d 384 64)) (s.sectionLen c va len starts (field d 320 64))
    let words := (List.range h.edges).map fun k => s.imageNat c (va + h.eoff + 8 * k) 8
    let edges := words.map fun w => (⟨field w 48 16, field w 32 16, 0, field w 15 1 == 1, .here⟩ : Edge)
    let ps := plainEdges nodes edges
    let ok := types.all (fun t => 4 ≤ t && t ≤ 128 && t % 4 == 0) && entries.all (fun e => e < h.nodes) &&
      ((ds.zip nodes).zip (List.range h.nodes)).all (fun x => nodeOk h types entries x.1.1 x.2 x.1.2) &&
      words.all (fun w => field w 0 15 == 0) && edges.all (fun e => e.rtype < h.types && edgeOk nodes e) &&
      nodes.all (s.graphOk c) && (peel ps h.nodes (List.range h.nodes)).isEmpty && s.pagesOk c va h ds starts
    if !ok then none
    else
      let far := farther ps h.nodes (nubNat entries |>.map fun e => (e, 0))
      let nodes := nodes.map fun n => { n with dist := (far.lookup n.nodeid).getD 0 }
      let edges := edges.map fun e => { e with high := (nodes[e.target]?.map c.high).getD 0 }
      some (⟨va, nodes, types, edges, entries⟩, h)

/-- What installation writes into the header and the tables: virtual addresses for offsets, and high-water marks. -/
def imageWrites (va : Nat) (h : ImageHeader) (g : Graph) : List (Nat × List Byte) :=
  let put (off x : Nat) : Nat × List Byte := (va + off, leBytes 8 x)
  [put 16 (va + h.noff), put 24 (va + h.toff), put 32 (va + h.eoff), put 40 (va + h.loff), put 48 (va + h.soff)] ++
  (g.nodes.flatMap fun n =>
    let at_ := h.noff + 64 * n.nodeid
    [put (at_ + 56) n.entry, put (at_ + 48) n.msec, put (at_ + 40) n.cseq]) ++
  (List.range g.edges.length).map fun k =>
    (va + h.eoff + 8 * k + 2, leBytes 2 ((g.edges[k]?.map (·.high)).getD 0))

/-- Installation's writes at their homes, under the slots of their pages. -/
def State.imagePlaces (s : State) (c : Context) (ws : List (Nat × List Byte)) : List (Nat × List (Nat × Byte)) :=
  ws.flatMap fun w => (located w.1 w.2).filterMap fun e => (s.imagePage c e.1).map fun p => (p.key, [(p.pa, e.2)])

end Sys2Proof.Machine
end

