-- ==== Sys2Proof/Machine/Commands.lean ====
section
/-! DEFINITION. The firmware commands of ring 0 (spec/23_host_firmware_and_boot.md R449, R451, R454 to R456), one for each action. A
command is the record at HEAD of ring 0; where the record there is not the command, or firmware does not run, nothing happens (log 1). -/
namespace Sys2Proof.Machine

/-! ## Executing a command (R449) -/

/-- How a command ends: its effect complete with a result, refused, busy, answered later, or not yet possible, so that it stays. -/
inductive Reply where
  | done (s : State) (result : Nat)
  | refused
  | busy
  | later (s : State)
  | wait (s : State)

/-- The command with a code and action at HEAD, if that is what is there. -/
def State.commandAt (s : State) (code act : Nat) : Option HeadRec :=
  if !s.serving || s.host.ring0.state != .running then none
  else match s.host.ring0.head? with
    | none => none
    | some h =>
      if h.errs.isEmpty && !h.skip && s.isCommand h && h.entry == code && action code h.payload == some act then some h else none

/-- Firmware signals the watchdog with every command that it executes (R453, log 144). -/
def State.signalled (s : State) : State := { s with host := { s.host with signal := s.time } }

/-- Runs the command at HEAD, answers it, and looks at the records behind it. -/
def State.command (s : State) (code act : Nat) (f : State → List Byte → Reply) : State :=
  match s.commandAt code act with
  | none => s
  | some h =>
    let tag := arg h.payload 0 4
    let next (s : State) : State := s.signalled.updRing0 (·.advance h.size)
    match f s h.payload with
    | .done s' r => ((next s').respond tag 0 code r).serve ring0Records
    | .refused => ((next s).respond tag 1 code 0).serve ring0Records
    | .busy => ((next s).respond tag 2 code 0).serve ring0Records
    | .later s' => (next s').serve ring0Records
    | .wait s' => s'

/-- The step of a command. -/
def commandOp (s : State) (code act : Nat) (f : State → List Byte → Reply) : Host.Outcome State Fault Refusal :=
  .next { s.command code act f with tick := s.tick + 1 }

/-- Refuses unless a condition holds. -/
def Reply.when (b : Bool) (r : Reply) : Reply := if b then r else .refused
/-- The context that a payload names. -/
def withCtx (s : State) (k : Nat) (f : Context → Reply) : Reply := match s.ctx? k with | some c => f c | none => .refused
/-- Bytes of a payload that must be 0. -/
def zero (p : List Byte) (k n : Nat) : Bool := arg p k n == 0

/-! ## Contexts (R363, R364, R387, R390) -/

/-- The limits of the descriptor's fields. -/
def descOk (d : BitVec 512) : Bool :=
  let f := field d.toNat
  let within (lo n a b : Nat) : Bool := decide (a ≤ f lo n ∧ f lo n ≤ b)
  f 440 32 != 0 && within 364 4 0 8 && f 360 4 == 0 && within 350 10 1 1000 && within 346 4 0 8 && within 326 12 1 4095 &&
    f 323 2 == 0 && within 313 10 1 512 && within 302 11 0 1024 && within 291 11 0 1280 && (f 325 1 == 0 || f 291 11 != 0) &&
    (f 286 5 == 0 || within 286 5 4 20) && within 281 5 0 18 && f 0 236 == 0

/-- A new context: its buckets hold one refill each (R365). -/
def newContext (k : Nat) (d : BitVec 512) : Context :=
  let c : Context :=
    { id := k, desc := d, newDesc := none, bktCore := 0, bktRead := 0, bktWrite := 0, bktEnergy := 0, used := 0, runnableSince := none,
      owed := none, placements := 0, holding := none, graph := none, slices := [], formed := [], handles := [], keys := [],
      run := .running, ladder := .none, stops := [], trapNode := none, mailbox := none, bps := [0, 0, 0, 0], smpIdx := 0, smpLost := 0,
      smpCount := 0, events := none, trapWait := [], ats := [], pri := [], tlb := [] }
  c.newPeriod

/-- The lowest free context number. -/
def State.freeCtx (s : State) : Option Nat := (List.range Config.contexts).find? fun k => (s.ctx? k).isNone

/-- No die's record store and no spill and Wintering space is exceeded. -/
def State.storesFit (s : State) (c : Context) : Bool :=
  let all := c :: s.ctxs
  (List.range 8).all (fun die => sumBy (fun (d : Context) => if d.dies.contains die then d.fld 313 10 else 0) all ≤ 512) &&
    sumBy (fun (d : Context) => d.fld 302 11 + d.fld 291 11) all ≤ 3072

def ctxCreateCmd (s : State) (p : List Byte) : Reply :=
  let d := BitVec.ofNat 512 (arg p 4 64)
  match s.freeCtx with
  | none => .refused
  | some k =>
    let c := newContext k d
    .when (descOk d && s.storesFit c) (.done ({ s with ctxs := s.ctxs ++ [c] } : State).trimSlices k)

def execCtxCreate (s : State) : Host.Outcome State Fault Refusal := commandOp s 0x01 0 ctxCreateCmd

/-- The ladder starts with the context's DRAIN; the response follows once the context is gone. A second destroy finds it busy. -/
def ctxDestroyCmd (s : State) (p : List Byte) : Reply :=
  let k := arg p 4 1
  .when (zero p 5 3) (withCtx s k fun c => match c.ladder with
    | .drain _ (some _) => .busy
    | _ => .later ((s.startLadder k (s.time + c.drainUs * 1000) (some (arg p 0 4))).leaveLadders))

def execCtxDestroy (s : State) : Host.Outcome State Fault Refusal := commandOp s 0x02 0 ctxDestroyCmd

def ctxResetCmd (s : State) (p : List Byte) : Reply :=
  .when (zero p 5 3) (withCtx s (arg p 4 1) fun c => .done (s.resetCtx c.id 0) 0)

def execCtxReset (s : State) : Host.Outcome State Fault Refusal := commandOp s 0x10 0 ctxResetCmd

/-! ## Graphs and invalidation (R61, R162, R237) -/

/-- An image is checked whole, then written in place and installed. It waits while a page of it is being moved or its region is frozen. -/
def graphInstallCmd (s : State) (p : List Byte) : Reply :=
  let va := arg p 8 8
  let len := arg p 16 8
  let moving (c : Context) : Bool := (List.range ((len + 4095) / 4096)).any fun k =>
    match s.imagePage c (va + 4096 * k) with | some q => q.moving | none => false
  .when (zero p 5 3 && va % 4096 == 0 && decide (va + len ≤ 2 ^ 64) && canonical va && canonical (va + len - 1)) (withCtx s (arg p 4 1) fun c =>
    .when c.graph.isNone (match s.readGraph c va len with
      | none => .refused
      | some (g, h) =>
        if moving c then .wait s
        else match s.landBytes (s.imagePlaces c (imageWrites va h g)) with
          | (s, false) => .wait s
          | (s, true) => .done (s.updCtx c.id fun c => { c with graph := some g }) 0))

def execGraphInstall (s : State) : Host.Outcome State Fault Refusal := commandOp s 0x03 0 graphInstallCmd

def invalidateCmd (s : State) (p : List Byte) : Reply :=
  let va := arg p 8 8
  let len := arg p 16 8
  .when (zero p 5 3 && va % 4096 == 0 && len % 4096 == 0) (withCtx s (arg p 4 1) fun c =>
    if s.canInvalidate c va len then .done (s.invalidate c.id va len) 0 else .wait s)

def execInvalidate (s : State) : Host.Outcome State Fault Refusal := commandOp s 0x04 0 invalidateCmd

/-! ## Lap plans (R335 to R337) -/

/-- n bytes of device memory under key slot 0. -/
def State.fwRead (s : State) (pa n : Nat) : Nat := fromBytes (s.peekRun 0 pa n).bytes

/-- A layer entry. -/
def planLayer (x : Nat) : PlanLayer :=
  { maddr := field x 192 64, ctxmask := BitVec.ofNat 64 (field x 128 64), layer := field x 112 16, nseg := field x 96 16,
    key := field x 88 8, lead := field x 76 12, die := field x 73 3, ring := field x 72 1, scl := field x 71 1 == 1,
    fbok := field x 70 1 == 1 }

/-- The limits of a layer entry, and its image inside its die's stack of the first tier. -/
def State.layerOk (s : State) (x ring : Nat) : Bool :=
  let l := planLayer x
  let stack := 0x1800000000
  field x 0 70 == 0 && l.ring == ring && decide (l.layer ≤ 65534) && decide (1 ≤ l.nseg) && decide (1 ≤ l.lead ∧ l.lead ≤ 4095) &&
    l.maddr % 4096 == 0 && decide (stack * l.die ≤ l.maddr ∧ l.maddr + 2048 * l.total ≤ stack * (l.die + 1)) &&
    (List.range Config.contexts).all fun k => !l.ctxmask.getLsbD k ||
      (match s.ctx? k with | some c => c.keys.contains l.key | none => false)

/-- The nominal lap of at most 1 s, in main-clock cycles at 2.5 GHz. -/
def LapPlan.lapOk (p : LapPlan) : Bool :=
  [0, 1].all fun r => 16 * p.frames r ≤ (2500000000 - 64) * p.tempo

def State.readPlan (s : State) (ctx pa : Nat) : Option LapPlan :=
  let h := s.fwRead pa 64
  let n0 := field h 464 16
  let n1 := field h 448 16
  let stall := field h 428 12
  let xs := (List.range (n0 + n1)).map fun k => s.fwRead (pa + 64 + 32 * k) 32
  let p : LapPlan := ⟨ctx, field h 440 4 + 1, stall, xs.map planLayer, (pa, 64 + 32 * (n0 + n1)), []⟩
  let ok := field h 480 32 == 0 && field h 444 4 == 0 && field h 0 428 == 0 && decide (1 ≤ n0 + n1 ∧ n0 + n1 ≤ 65535) &&
    decide (1 ≤ stall ∧ stall ≤ 4000) && inTier pa (64 + 32 * (n0 + n1)) &&
    (xs.zip (List.range xs.length)).all (fun e => s.layerOk e.1 (if e.2 < n0 then 0 else 1)) &&
    (nubNat (p.layers.map (·.layer))).length == p.layers.length && p.lapOk
  if ok then some p else none

/-- An accepted plan waits for the lap boundary, or starts at once on idle rings: it is answered then, together with one that it has
replaced (log 80). -/
def planSubmitCmd (s : State) (p : List Byte) : Reply :=
  .when (zero p 5 3 && arg p 8 8 % 64 == 0 && inTier (arg p 8 8) 64) (withCtx s (arg p 4 1) fun c =>
    match s.readPlan c.id (arg p 8 8) with
    | none => .refused
    | some q =>
      let q := { q with tags := ((s.ring.newPlan.map (·.tags)).getD []) ++ [arg p 0 4] }
      let s : State := { s with ring := { s.ring with newPlan := some q } }
      .later (if s.ring.plan.isNone then s.lapBoundary else s))

def execPlanSubmit (s : State) : Host.Outcome State Fault Refusal := commandOp s 0x05 0 planSubmitCmd

/-! ## Debugging (R392) -/

/-- Sets the trap node, the debug mailbox or both; a refusal changes neither. -/
def debugSetCmd (s : State) (p : List Byte) : Reply :=
  let what := arg p 5 1
  let node := arg p 6 2
  let ring := arg p 8 2
  let nodeOk (c : Context) : Bool := node == 0xFFFF || (match c.node? node with | some n => c.typeSize n.intype == 64 | none => false)
  let ringOk (c : Context) : Bool := ring == 0xFFFF || (match s.outRing? ring with | some r => r.kind == 1 && r.ctx == some c.id | none => false)
  .when (what < 4 && zero p 10 2) (withCtx s (arg p 4 1) fun c =>
    .when ((what % 2 == 0 || nodeOk c) && (what / 2 == 0 || ringOk c)) (.done (s.updCtx c.id fun c => { c with
      trapNode := if what % 2 = 0 then c.trapNode else if node = 0xFFFF then none else some node
      mailbox := if what / 2 = 0 then c.mailbox else if ring = 0xFFFF then none else some ring }) 0))

def execDebugSetTrapNode (s : State) : Host.Outcome State Fault Refusal := commandOp s 0x06 0 debugSetCmd
def execDebugSetMailbox (s : State) : Host.Outcome State Fault Refusal := commandOp s 0x06 1 debugSetCmd

/-! ## Service lists (R375) -/

/-- A valid entry's limits. -/
def serviceOk (e : Nat) : Bool := field e 0 25 == 0 && (field e 25 1 == 0 || (field e 42 16 != 0 && decide (1 ≤ field e 26 16 ∧ field e 26 16 ≤ 4095)))

/-- The mode changes at the next period boundary, which is when the command is answered. -/
def serviceEnterCmd (s : State) (p : List Byte) : Reply :=
  let pa := arg p 8 8
  let es := (List.range 64).map fun k => s.fwRead (pa + 8 * k) 8
  let valid := es.filter fun e => field e 25 1 == 1
  .when (zero p 5 3 && pa % 8 == 0 && inTier pa 512 && es.all serviceOk && !valid.isEmpty)
    (.later { s with service := { s.service with
      enter := some (valid.map (BitVec.ofNat 64)), leave := false, tags := s.service.tags ++ [arg p 0 4] } })

def serviceLeaveCmd (s : State) (p : List Byte) : Reply :=
  .when (zero p 5 3) (.later { s with service := { s.service with
    enter := none, leave := true, tags := s.service.tags ++ [arg p 0 4] } })

def execServiceListEnter (s : State) : Host.Outcome State Fault Refusal := commandOp s 0x07 1 serviceEnterCmd
def execServiceListLeave (s : State) : Host.Outcome State Fault Refusal := commandOp s 0x07 0 serviceLeaveCmd

/-! ## Queue pairs, regions, exports (R413, R425, R433, R435) -/

/-- Bytes of QP_SET's payload that are 0 whatever the action. -/
def qpZeros (p : List Byte) : Bool := zero p 18 2 && zero p 54 6
/-- The payload's limits, which hold for every action (R449). -/
def qpParamsOk (p : List Byte) : Bool :=
  let within (k n a b : Nat) : Bool := decide (a ≤ arg p k n ∧ arg p k n ≤ b)
  within 7 1 0 3 && within 9 1 1 20 && within 10 1 0 7 && within 11 1 0 7 && within 12 2 1 4096 && within 14 2 1 4096 && within 16 1 0 2 &&
    within 17 1 0 7 && qpZeros p
/-- The queue pair that a payload within its limits names. -/
def withQp (s : State) (p : List Byte) (f : QPair → Reply) : Reply :=
  .when (qpParamsOk p) (match s.qp? (arg p 4 2) with | some q => f q | none => .refused)

/-- A new queue pair's context is fetched when it is first used (R438). Its sending rate is firmware's, and free. -/
def qpCreateCmd (s : State) (p : List Byte) : Reply :=
  .when ((s.qp? (arg p 4 2)).isNone && qpParamsOk p) (withCtx s (arg p 6 1) fun c =>
    let q : QPair :=
      { n := arg p 4 2, ctx := c.id, state := .init, firstErr := 0, params := BitVec.ofNat 512 (fromBytes p), sends := [], recvs := [],
        scc := 0, rcc := 0, flc := 0, nextPsn := arg p 24 3, expPsn := arg p 28 3, retries := 0, rnr := 0, approved := false, replay := [],
        cached := false, rate := Config.freeNat s.tick 70002 }
    .done { s with qps := s.qps ++ [q] } 0)

/-- From INIT to RTS. -/
def qpToRtsCmd (s : State) (p : List Byte) : Reply :=
  withQp s p fun q => .when (q.state == .init) (.done (s.updQp q.n fun q => { q with state := .rts }) 0)

/-- From ERROR to RTS, the counts kept, once every work request is flushed. -/
def qpFromErrorCmd (s : State) (p : List Byte) : Reply :=
  withQp s p fun q => .when (q.state == .error)
    (if !(q.sends.isEmpty && q.recvs.isEmpty) then .wait s
     else .done (s.updQp q.n fun q => { q with state := .rts, firstErr := 0, retries := 0, rnr := 0 }) 0)

/-- A queue pair that still has work requests is put into ERROR and flushed first. -/
def qpDestroyCmd (s : State) (p : List Byte) : Reply :=
  withQp s p fun q => if !(q.sends.isEmpty && q.recvs.isEmpty) then .wait (if q.state == .error then s else s.failWr q.n s.nextWr 7)
    else .done { s with qps := s.qps.filter fun r => r.n != q.n } 0

def qpApprovalCmd (on : Bool) (s : State) (p : List Byte) : Reply :=
  withQp s p fun q => .done (s.updQp q.n fun q => { q with approved := on }) 0

def execQpSetCreate (s : State) : Host.Outcome State Fault Refusal := commandOp s 0x08 0 qpCreateCmd
def execQpSetToRts (s : State) : Host.Outcome State Fault Refusal := commandOp s 0x08 1 qpToRtsCmd
def execQpSetFromError (s : State) : Host.Outcome State Fault Refusal := commandOp s 0x08 2 qpFromErrorCmd
def execQpSetDestroy (s : State) : Host.Outcome State Fault Refusal := commandOp s 0x08 3 qpDestroyCmd
def execQpSetApprove (s : State) : Host.Outcome State Fault Refusal := commandOp s 0x08 4 (qpApprovalCmd true)
def execQpSetWithdraw (s : State) : Host.Outcome State Fault Refusal := commandOp s 0x08 5 (qpApprovalCmd false)

/-- A region entry's limits; a valid one has pages and a context. -/
def State.regionEntryOk (s : State) (e : Nat) : Bool :=
  field e 4 10 == 0 && field e 64 12 == 0 && (field e 0 1 == 0 || (field e 40 24 != 0 && (s.ctx? (field e 14 6)).isSome))

def mrWriteCmd (s : State) (p : List Byte) : Reply :=
  let n := arg p 4 2
  let e := arg p 8 16
  .when (n < 4096 && zero p 6 2 && s.regionEntryOk e)
    (.done { s with regions := ⟨n, BitVec.ofNat 128 e⟩ :: s.regions.filter fun r => r.n != n } 0)

def execMrWrite (s : State) : Host.Outcome State Fault Refusal := commandOp s 0x09 0 mrWriteCmd

/-- An export entry's limits: reserved bits, the lease code, and its 2 GiB in one tier. -/
def exportOk (e : Nat) : Bool :=
  field e 52 12 == 0 && field e 20 1 == 0 && field e 5 4 == 0 && field e 1 2 == 0 && field e 21 2 != 3 &&
    (field e 0 1 == 0 || inTier (field e 31 21 * 2 ^ 31) (2 ^ 31))

def exportWriteCmd (s : State) (p : List Byte) : Reply :=
  let n := arg p 4 1
  let e := arg p 8 8
  .when (zero p 5 3 && exportOk e)
    (.done { s with peers := { s.peers with exports := (n, BitVec.ofNat 64 e) :: s.peers.exports.filter fun x => x.1 != n } } 0)

def execExportWrite (s : State) : Host.Outcome State Fault Refusal := commandOp s 0x0A 0 exportWriteCmd

/-! ## Edges (R420, R446) -/

/-- Binds an edge of a context's graph. -/
def State.bindEdge (s : State) (ctx k : Nat) (b : EdgeBind) : State :=
  let at_ (g : Graph) : Graph := { g with edges := (List.range g.edges.length).zipWith (fun i e => if i = k then { e with bind := b } else e) g.edges }
  s.updCtx ctx fun c => { c with graph := c.graph.map at_ }

def withEdge (s : State) (p : List Byte) (f : Context → Edge → Reply) : Reply :=
  .when (zero p 6 2 && zero p 15 1 && zero p 20 4) (withCtx s (arg p 4 1) fun c =>
    match c.edge? (arg p 8 4) with | some e => f c e | none => .refused)

def edgeBindRemoteCmd (s : State) (p : List Byte) : Reply :=
  withEdge s p fun c e => .when (!e.recursive && arg p 12 2 < 1024)
    (.done (s.bindEdge c.id (arg p 8 4) (.remote (arg p 12 2) (arg p 14 1) (arg p 16 2))) 0)

def edgeBindOutCmd (s : State) (p : List Byte) : Reply :=
  let n := arg p 18 2
  withEdge s p fun c _ => match s.outRing? n with
    | some r => .when (r.kind == 2 && r.ctx == some c.id) (.done (s.bindEdge c.id (arg p 8 4) (.outRing n)) 0)
    | none => .refused

def edgeUnbindCmd (s : State) (p : List Byte) : Reply :=
  withEdge s p fun c _ => .done (s.bindEdge c.id (arg p 8 4) .here) 0

def execEdgeBindRemote (s : State) : Host.Outcome State Fault Refusal := commandOp s 0x0B 0 edgeBindRemoteCmd
def execEdgeBindOutRing (s : State) : Host.Outcome State Fault Refusal := commandOp s 0x0B 1 edgeBindOutCmd
def execEdgeUnbind (s : State) : Host.Outcome State Fault Refusal := commandOp s 0x0B 2 edgeUnbindCmd

/-! ## Key slots (R454) -/

/-- Slots 1 to 255; slot 0 is firmware's. -/
def keySlotOk (p : List Byte) : Bool := arg p 5 1 != 0 && zero p 7 1

/-- A fresh key, unless the slot holds one. -/
def keyCreateCmd (s : State) (p : List Byte) : Reply :=
  let n := arg p 5 1
  .when (keySlotOk p && s.keyOf n == 0)
    (.done { s with keys := (n, s.nextKey) :: s.keys.filter (fun k => k.1 != n), nextKey := s.nextKey + 1 } 0)

def keyClearCmd (s : State) (p : List Byte) : Reply :=
  .when (keySlotOk p) (.done { s with keys := s.keys.filter fun k => k.1 != arg p 5 1 } 0)

def keyGrantCmd (s : State) (p : List Byte) : Reply :=
  .when (keySlotOk p) (withCtx s (arg p 6 1) fun c => .done (s.updCtx c.id fun c => { c with keys := nubNat (arg p 5 1 :: c.keys) }) 0)

def keyRevokeCmd (s : State) (p : List Byte) : Reply :=
  .when (keySlotOk p) (withCtx s (arg p 6 1) fun c => .done (s.updCtx c.id fun c => { c with keys := c.keys.filter (· != arg p 5 1) }) 0)

def execKeySetCreate (s : State) : Host.Outcome State Fault Refusal := commandOp s 0x0C 0 keyCreateCmd
def execKeySetClear (s : State) : Host.Outcome State Fault Refusal := commandOp s 0x0C 1 keyClearCmd
def execKeySetGrant (s : State) : Host.Outcome State Fault Refusal := commandOp s 0x0C 2 keyGrantCmd
def execKeySetRevoke (s : State) : Host.Outcome State Fault Refusal := commandOp s 0x0C 3 keyRevokeCmd

/-! ## Rings (R441, R444, R451) -/

def ringOk (p : List Byte) : Bool :=
  decide (1 ≤ arg p 4 2 ∧ arg p 4 2 ≤ 1023) && arg p 9 1 ≤ 12 && zero p 28 4

/-- A mailbox ring, in place of an older one of its number, with HEAD = TAIL = 0. -/
def ringMailboxCmd (s : State) (p : List Byte) : Reply :=
  let n := arg p 4 2
  .when (ringOk p && decide (1 ≤ arg p 10 1 ∧ arg p 10 1 ≤ 15)) (withCtx s (arg p 8 1) fun c =>
    let r : Mailbox := { Mailbox.zero with n := n, ctx := c.id, size := 2 ^ (12 + arg p 9 1), weight := arg p 10 1, state := .running }
    .done { s with host := { s.host with
      mailboxes := r :: s.host.mailboxes.filter fun x => x.n != n, tails := Sparse.set 0 s.host.tails n 0 } } 0)

/-- An out ring, in place of an older one. A context's EVENTS ring takes its events from then on; records that wait for room in a ring of
the same context and kind go on waiting. -/
def ringOutCmd (s : State) (p : List Byte) : Reply :=
  let n := arg p 4 2
  let kind := arg p 7 1
  let base := arg p 12 8
  let shadow := arg p 20 8
  let size := 2 ^ (12 + arg p 9 1)
  .when (ringOk p && kind ≤ 2 && base % 4096 == 0 && s.inWindow base size && shadow % 8 == 0 && s.inWindow shadow 8)
    (withCtx s (arg p 8 1) fun c =>
      let old := (s.outRing? n).filter fun r => r.kind == kind && r.ctx == some c.id
      let r : OutRing :=
        { n := n, ctx := some c.id, kind := kind, vec := arg p 11 1, base := base, size := size, state := .running, tail := 0, ohead := 0,
          shadow := shadow, recs := (old.map (·.recs)).getD [], lost := (old.map (·.lost)).getD 0 }
      let point (d : Context) : Context :=
        { d with
          events := if d.id = c.id && kind = 0 then some n else if d.events == some n then none else d.events
          mailbox := if d.mailbox == some n && !(d.id = c.id && kind = 1) then none else d.mailbox }
      let s : State := { s with
        host := { s.host with outs := r :: s.host.outs.filter fun x => x.n != n }
        ctxs := s.ctxs.map point }
      .done (s.flushOut n (r.recs.length + 2)) 0)

def execRingCreateMailbox (s : State) : Host.Outcome State Fault Refusal := commandOp s 0x0D 0 ringMailboxCmd
def execRingCreateOut (s : State) : Host.Outcome State Fault Refusal := commandOp s 0x0D 1 ringOutCmd

/-! ## Stop records, the power cap, windows (R380, R448, R455) -/

/-- Writes stop records, oldest first, to the host; the result is their number. -/
def stopReadCmd (s : State) (p : List Byte) : Reply :=
  let a := arg p 8 8
  .when (zero p 5 3) (withCtx s (arg p 4 1) fun c =>
    let rs := c.stops.take (arg p 16 4)
    .when (s.inWindow a (64 * rs.length))
      (.done ((rs.zip (List.range rs.length)).foldl (fun s e => s.writeHost (a + 64 * e.2) e.1.bytes) s) rs.length))

def execStopRead (s : State) : Host.Outcome State Fault Refusal := commandOp s 0x0E 0 stopReadCmd

def powerCapCmd (s : State) (p : List Byte) : Reply :=
  let w := arg p 4 2
  .when (decide (1000 ≤ w ∧ w ≤ 4400) && w % 50 == 0 && zero p 6 2) (.done { s with power := { s.power with capW := w } } 0)

def execPowerCap (s : State) : Host.Outcome State Fault Refusal := commandOp s 0x0F 0 powerCapCmd

/-- Rings that waited for their window write what they hold. -/
def State.flushAll (s : State) : State := s.host.outs.foldl (fun s r => s.flushOut r.n (r.recs.length + 2)) s

def windowAddCmd (s : State) (p : List Byte) : Reply :=
  let n := arg p 5 1
  .when (n < 64 && zero p 6 2 && arg p 8 8 % 4096 == 0 && arg p 16 8 % 4096 == 0)
    (.done ({ s with host := { s.host with
      windows := (n, arg p 8 8, arg p 16 8) :: s.host.windows.filter fun w => w.1 != n } } : State).flushAll 0)

def windowRemoveCmd (s : State) (p : List Byte) : Reply :=
  let n := arg p 5 1
  .when (n < 64 && zero p 6 2 && arg p 8 8 % 4096 == 0 && arg p 16 8 % 4096 == 0 && s.host.windows.any fun w => w.1 == n)
    (.done { s with host := { s.host with windows := s.host.windows.filter fun w => w.1 != n } } 0)

def execDmaWindowAdd (s : State) : Host.Outcome State Fault Refusal := commandOp s 0x11 0 windowAddCmd
def execDmaWindowRemove (s : State) : Host.Outcome State Fault Refusal := commandOp s 0x11 1 windowRemoveCmd

/-! ## MEM_WRITE and IMAGE_UPDATE (R235, R451, R456) -/

/-- Writes device memory under a key slot; it waits while a region is frozen or reviving. `src` is what the host's window holds. -/
def memWriteCmd (src : Option (List Byte)) (s : State) (p : List Byte) : Reply :=
  let pa := arg p 16 8
  let n := arg p 24 4
  let key := arg p 28 1
  let from_ := match src with | some _ => s.inWindow (arg p 8 8) n | none => true
  let reserved := (List.range (lineOf (pa + n - 1) - lineOf pa + 1)).any fun k => Config.firmwareReserved (lineOf pa + k)
  .when (zero p 4 4 && pa % 4 == 0 && n % 4 == 0 && decide (4 ≤ n ∧ n ≤ 2 ^ 24) && inTier pa n && arg p 29 1 < 2 && zero p 30 2 && from_ &&
      s.keyOf key != 0 && !reserved)
    (match s.landBytes [(key, located pa ((src.getD (zeros n)).take n))] with
     | (s, false) => .wait s
     | (s, true) => .done s 0)

def execMemWrite (bytes : List Byte) (s : State) : Host.Outcome State Fault Refusal :=
  commandOp s 0x12 0 fun s p => if bytes.length = arg p 24 4 then memWriteCmd (some bytes) s p else .wait s
def execMemWriteZeroFill (s : State) : Host.Outcome State Fault Refusal := commandOp s 0x12 1 (memWriteCmd none)

/-- The pair is written to flash only where both signatures verify; it runs from the next device reset. -/
def imageUpdateCmd (verified : Bool) (s : State) (p : List Byte) : Reply :=
  let a := arg p 8 8
  let n := arg p 16 8
  .when (zero p 4 4 && s.inWindow a n && verified) (.done { s with host := { s.host with flash := some (a, n), images := s.host.images + 1 } } 0)

def execImageUpdate (verified : Bool) (s : State) : Host.Outcome State Fault Refusal := commandOp s 0x13 0 (imageUpdateCmd verified)

/-! ## Attestation (R457) -/

/-- An answer through DOE, once the link is up. -/
def State.attest (s : State) (r : SpdmReply) : Host.Outcome State Fault Refusal :=
  let s' : State := if s.isReady then { s with host := { s.host with spdmReplies := s.host.spdmReplies ++ [r] } } else s
  .next { s' with tick := s.tick + 1 }

/-- The five measurements in index order: the mask ROM, the bitstream and the firmware image of the pair that runs, the configuration
record, and the golden-fallback flag. -/
def State.measurements (s : State) : List (List Byte) :=
  [Config.measurement 0 false 0, Config.measurement 1 s.isGolden s.host.loaded, Config.measurement 2 s.isGolden s.host.loaded,
    Config.measurement 3 false 0, leBytes 1 s.isGolden.toNat]

def execGetVersion (s : State) : Host.Outcome State Fault Refusal := s.attest (.version 1 3)
def execGetCapabilities (s : State) : Host.Outcome State Fault Refusal := s.attest .capabilities
def execNegotiateAlgorithms (s : State) : Host.Outcome State Fault Refusal := s.attest (.algorithms .ecdsaP384 .sha384)
def execGetDigests (s : State) : Host.Outcome State Fault Refusal := s.attest (.digests Config.digests)
def execGetCertificate (s : State) : Host.Outcome State Fault Refusal := s.attest (.certificate Config.certificate)
def execChallenge (nonce : List Byte) (s : State) : Host.Outcome State Fault Refusal := s.attest (.challenge nonce (Config.signature nonce))
def execGetMeasurements (s : State) : Host.Outcome State Fault Refusal := s.attest (.measurements s.measurements)

end Sys2Proof.Machine
end

