-- ==== Sys2Proof/Machine/IntLane.lean ====
section
/-! DEFINITION. Per-lane integer instructions (spec/04_arithmetic_instructions.md R90 to R96) and MRANK
(spec/06_waves_and_lanes.md R149). -/
namespace Sys2Proof.Machine

/-- A 32-bit result in each active lane. -/
def aluV (i : Instr) (d : Nat) (s : State) (f : Wave → Nat → Nat → Word) : Host.Outcome State Fault Refusal :=
  laneOp i s fun w tick => ((w.active tick i).map fun l => ⟨.v d l, (f w tick l).toNat⟩, 0)
/-- A 64-bit result in each active lane, in an even pair (R11). -/
def aluV2 (i : Instr) (d : Nat) (s : State) (f : Wave → Nat → Nat → DWord) : Host.Outcome State Fault Refusal :=
  laneOp i s fun w tick => ((w.active tick i).flatMap fun l => writesN d l 2 (f w tick l).toNat, 0)
/-- A predicate bit in each active lane; no flags. -/
def aluP (i : Instr) (d : Nat) (s : State) (f : Wave → Nat → Nat → Bool) : Host.Outcome State Fault Refusal :=
  laneOp i s fun w tick => ((w.active tick i).map fun l => ⟨.p d l, (f w tick l).toNat⟩, 0)

/-- Register forms of R90. -/
def op2 (i : Instr) (o : P1R) (s : State) (f : Word → Word → Word) : Host.Outcome State Fault Refusal :=
  aluV i o.d s fun w tick l => f (w.src32 tick l o.a) (w.src32 tick l o.b)
/-- Immediate forms: imm7 is sign-extended. -/
def op2I (i : Instr) (o : P1I) (s : State) (f : Word → Word → Word) : Host.Outcome State Fault Refusal :=
  aluV i o.d s fun w tick l => f (w.src32 tick l o.a) (o.imm.signExtend 32)
/-- Register shifts: the amount is b[4:0] of each lane. -/
def opSh (i : Instr) (o : P1R) (s : State) (f : Word → Nat → Word) : Host.Outcome State Fault Refusal :=
  aluV i o.d s fun w tick l => f (w.src32 tick l o.a) ((w.src32 tick l o.b).toNat % 32)
def opShI (i : Instr) (o : P1S) (s : State) (f : Word → Nat → Word) : Host.Outcome State Fault Refusal :=
  aluV i o.d s fun w tick l => f (w.src32 tick l o.a) o.n.toNat
/-- One-operand forms of R91. -/
def op1 (i : Instr) (o : P1U) (s : State) (f : Word → Word) : Host.Outcome State Fault Refusal :=
  aluV i o.d s fun w tick l => f (w.src32 tick l o.a)
/-- LEA's address (R94). -/
def opLea (i : Instr) (o : P1R) (k : Nat) (s : State) : Host.Outcome State Fault Refusal :=
  aluV2 i o.d s fun w tick l => w.src64 tick l o.a + (w.src32 tick l o.b).signExtend 64 * BitVec.ofNat 64 k

def execIadd (o : P1R) (s : State) : Host.Outcome State Fault Refusal :=
  op2 (.iadd o) o s fun a b => a + b

def execIsub (o : P1R) (s : State) : Host.Outcome State Fault Refusal :=
  op2 (.isub o) o s fun a b => a - b

def execImul (o : P1R) (s : State) : Host.Outcome State Fault Refusal :=
  op2 (.imul o) o s fun a b => a * b

def execImin (o : P1R) (s : State) : Host.Outcome State Fault Refusal :=
  op2 (.imin o) o s fun a b => if a.slt b then a else b

def execIminU (o : P1R) (s : State) : Host.Outcome State Fault Refusal :=
  op2 (.iminU o) o s fun a b => if a.ult b then a else b

def execImax (o : P1R) (s : State) : Host.Outcome State Fault Refusal :=
  op2 (.imax o) o s fun a b => if a.slt b then b else a

def execImaxU (o : P1R) (s : State) : Host.Outcome State Fault Refusal :=
  op2 (.imaxU o) o s fun a b => if a.ult b then b else a

def execIand (o : P1R) (s : State) : Host.Outcome State Fault Refusal :=
  op2 (.iand o) o s fun a b => a &&& b

def execIor (o : P1R) (s : State) : Host.Outcome State Fault Refusal :=
  op2 (.ior o) o s fun a b => a ||| b

def execIxor (o : P1R) (s : State) : Host.Outcome State Fault Refusal :=
  op2 (.ixor o) o s fun a b => a ^^^ b

def execIandn (o : P1R) (s : State) : Host.Outcome State Fault Refusal :=
  op2 (.iandn o) o s fun a b => a &&& ~~~b

def execIaddI (o : P1I) (s : State) : Host.Outcome State Fault Refusal :=
  op2I (.iaddI o) o s fun a b => a + b

def execIsubI (o : P1I) (s : State) : Host.Outcome State Fault Refusal :=
  op2I (.isubI o) o s fun a b => a - b

def execImulI (o : P1I) (s : State) : Host.Outcome State Fault Refusal :=
  op2I (.imulI o) o s fun a b => a * b

def execIandI (o : P1I) (s : State) : Host.Outcome State Fault Refusal :=
  op2I (.iandI o) o s fun a b => a &&& b

def execIorI (o : P1I) (s : State) : Host.Outcome State Fault Refusal :=
  op2I (.iorI o) o s fun a b => a ||| b

def execIxorI (o : P1I) (s : State) : Host.Outcome State Fault Refusal :=
  op2I (.ixorI o) o s fun a b => a ^^^ b

def execShl (o : P1R) (s : State) : Host.Outcome State Fault Refusal :=
  opSh (.shl o) o s fun a n => a <<< n

def execShlI (o : P1S) (s : State) : Host.Outcome State Fault Refusal :=
  opShI (.shlI o) o s fun a n => a <<< n

def execShr (o : P1R) (s : State) : Host.Outcome State Fault Refusal :=
  opSh (.shr o) o s fun a n => a >>> n

def execShrI (o : P1S) (s : State) : Host.Outcome State Fault Refusal :=
  opShI (.shrI o) o s fun a n => a >>> n

def execSar (o : P1R) (s : State) : Host.Outcome State Fault Refusal :=
  opSh (.sar o) o s fun a n => a.sshiftRight n

def execSarI (o : P1S) (s : State) : Host.Outcome State Fault Refusal :=
  opShI (.sarI o) o s fun a n => a.sshiftRight n

def execIabs (o : P1U) (s : State) : Host.Outcome State Fault Refusal :=
  op1 (.iabs o) o s fun a => if a.slt 0 then 0 - a else a

def execIneg (o : P1U) (s : State) : Host.Outcome State Fault Refusal :=
  op1 (.ineg o) o s fun a => 0 - a

def execInot (o : P1U) (s : State) : Host.Outcome State Fault Refusal :=
  op1 (.inot o) o s fun a => ~~~a

def execPopc (o : P1U) (s : State) : Host.Outcome State Fault Refusal :=
  op1 (.popc o) o s fun a => BitVec.ofNat 32 (popCount 32 a.toNat)

def execClz (o : P1U) (s : State) : Host.Outcome State Fault Refusal :=
  op1 (.clz o) o s fun a => BitVec.ofNat 32 (leadZeros 32 a.toNat)

def execBrev (o : P1U) (s : State) : Host.Outcome State Fault Refusal :=
  op1 (.brev o) o s fun a => BitVec.ofNat 32 (reverseBits 32 a.toNat)

def execMov (o : P1U) (s : State) : Host.Outcome State Fault Refusal :=
  op1 (.mov o) o s fun a => a

def execLeaX1 (o : P1R) (s : State) : Host.Outcome State Fault Refusal :=
  opLea (.leaX1 o) o 1 s

def execLeaX2 (o : P1R) (s : State) : Host.Outcome State Fault Refusal :=
  opLea (.leaX2 o) o 2 s

def execLeaX4 (o : P1R) (s : State) : Host.Outcome State Fault Refusal :=
  opLea (.leaX4 o) o 4 s

def execLeaX8 (o : P1R) (s : State) : Host.Outcome State Fault Refusal :=
  opLea (.leaX8 o) o 8 s

/-- The number of active lanes below a lane whose bit of pN is 1 (R149). -/
def execMrank (o : P1M) (s : State) : Host.Outcome State Fault Refusal :=
  laneOp (.mrank o) s fun w tick =>
    let act := w.active tick (.mrank o)
    let sel := act.filter (w.rp tick o.p)
    (act.map fun l => ⟨.v o.d l, (sel.filter (· < l)).length⟩, 0)

def execImad (o : ImadF) (s : State) : Host.Outcome State Fault Refusal :=
  aluV (.imad o) o.d s fun w tick l => w.src32 tick l o.a * w.src32 tick l o.b + w.src32 tick l o.c

def execImadWide (o : ImadF) (s : State) : Host.Outcome State Fault Refusal :=
  aluV2 (.imadWide o) o.d s fun w tick l =>
    (w.src32 tick l o.a).setWidth 64 * (w.src32 tick l o.b).setWidth 64 + w.src64 tick l o.c

def execImulh (o : ImulhF) (s : State) : Host.Outcome State Fault Refusal :=
  aluV (.imulh o) o.d s fun w tick l =>
    let a := w.src32 tick l o.a
    let b := w.src32 tick l o.b
    if o.u then BitVec.ofNat 32 (a.toNat * b.toNat / 2 ^ 32)
    else BitVec.ofInt 32 ((a.toInt * b.toInt) / 2 ^ 32)

def execIcmp (o : IcmpF) (s : State) : Host.Outcome State Fault Refusal :=
  aluP (.icmp o) o.d s fun w tick l => icmp o.cond (w.src32 tick l o.a) (w.src32 tick l o.b)

def execSel (o : SelF) (s : State) : Host.Outcome State Fault Refusal :=
  aluV (.sel o) o.d s fun w tick l => if w.rp tick o.p l then w.src32 tick l o.a else w.src32 tick l o.b

def execMovi (o : MoviF) (s : State) : Host.Outcome State Fault Refusal :=
  aluV (.movi o) o.d s fun _ _ _ => o.imm.signExtend 32

def execMoviZ (o : MoviF) (s : State) : Host.Outcome State Fault Refusal :=
  aluV (.moviZ o) o.d s fun _ _ _ => o.imm.setWidth 32

def execMoviHi (o : MoviF) (s : State) : Host.Outcome State Fault Refusal :=
  aluV (.moviHi o) o.d s fun w tick l => o.imm ++ (w.rv tick o.d l).setWidth 16

/-- Position and length of BFX's and BFI's field (R95). -/
def fieldOf (w : Wave) (tick l : Nat) : Fld → Nat × Nat
  | .imm pos lenM1 => (pos, lenM1 + 1)
  | .reg b => regField (w.src32 tick l b)

def execBfx (o : BfxF) (s : State) : Host.Outcome State Fault Refusal :=
  aluV (.bfx o) o.d s fun w tick l =>
    let (pos, len) := fieldOf w tick l o.fld
    bfx o.sgn pos len (w.src32 tick l o.a)

def execBfi (o : BfiF) (s : State) : Host.Outcome State Fault Refusal :=
  aluV (.bfi o) o.d s fun w tick l =>
    let (pos, len) := fieldOf w tick l o.fld
    bfi pos len (w.rv tick o.d l) (w.src32 tick l o.a)

def execIdot4 (o : Idot4F) (s : State) : Host.Outcome State Fault Refusal :=
  aluV (.idot4 o) o.d s fun w tick l =>
    idot4 o.sa o.sb o.sat (w.src32 tick l o.a) (w.src32 tick l o.b) (w.src32 tick l o.c)

end Sys2Proof.Machine
end

