-- ==== Sys2Proof/Machine/FloatLane.lean ====
section
/-! DEFINITION. Per-lane floating point and conversions (spec/04_arithmetic_instructions.md R97 to R108). -/
namespace Sys2Proof.Machine

/-- A result of n registers with its flags in each active lane (R70, R84). -/
def laneF (i : Instr) (d n : Nat) (s : State) (f : Wave → Nat → Nat → DWord × FlagSet) : Host.Outcome State Fault Refusal :=
  laneOp i s fun w tick =>
    let rs := (w.active tick i).map fun l => (l, f w tick l)
    (rs.flatMap fun r => writesN d r.1 n r.2.1.toNat, rs.foldl (fun a r => a ||| r.2.2) 0)
/-- A predicate bit with its flags in each active lane. -/
def laneP (i : Instr) (d : Nat) (s : State) (f : Wave → Nat → Nat → Bool × FlagSet) : Host.Outcome State Fault Refusal :=
  laneOp i s fun w tick =>
    let rs := (w.active tick i).map fun l => (l, f w tick l)
    (rs.map fun r => ⟨.p d r.1, r.2.1.toNat⟩, rs.foldl (fun a r => a ||| r.2.2) 0)

/-- A source of a floating form: 64 bits under .F64 (R97). -/
def Wave.srcF (w : Wave) (tick l : Nat) (t : FTy) (a : Src) : DWord :=
  if t == .f64 then w.src64 tick l a else (w.src32 tick l a).setWidth 64
/-- A source of a conversion (R103). -/
def Wave.srcT (w : Wave) (tick l : Nat) (t : Ty) (a : Src) : Nat :=
  if t.wide then (w.src64 tick l a).toNat else (w.src32 tick l a).toNat

def opF2 (i : Instr) (o : F2) (s : State) (op : FloatFmt → Nat → Nat → Res) : Host.Outcome State Fault Refusal :=
  laneF i o.d (ftyRegs o.m.ty) s fun w tick l =>
    perElem o.m.ty (fun f a b _ => op f a b) (w.srcF tick l o.m.ty o.a) (w.srcF tick l o.m.ty o.b) 0
def opF1 (i : Instr) (o : F1) (s : State) (op : FloatFmt → Nat → Res) : Host.Outcome State Fault Refusal :=
  laneF i o.d (ftyRegs o.m.ty) s fun w tick l => perElem o.m.ty (fun f a _ _ => op f a) (w.srcF tick l o.m.ty o.a) 0 0

def execFadd (o : F2) (s : State) : Host.Outcome State Fault Refusal := opF2 (.fadd o) o s (elAdd o.m)
def execFsub (o : F2) (s : State) : Host.Outcome State Fault Refusal := opF2 (.fsub o) o s (elSub o.m)
def execFmul (o : F2) (s : State) : Host.Outcome State Fault Refusal := opF2 (.fmul o) o s (elMul o.m)
def execFmin (o : F2) (s : State) : Host.Outcome State Fault Refusal := opF2 (.fmin o) o s (elMinMax true o.m)
def execFmax (o : F2) (s : State) : Host.Outcome State Fault Refusal := opF2 (.fmax o) o s (elMinMax false o.m)
def execFfma (o : F3) (s : State) : Host.Outcome State Fault Refusal :=
  laneF (.ffma o) o.d (ftyRegs o.m.ty) s fun w tick l =>
    perElem o.m.ty (elFma o.m) (w.srcF tick l o.m.ty o.a) (w.srcF tick l o.m.ty o.b) (w.srcF tick l o.m.ty o.c)
def execFcmp (o : FcmpF) (s : State) : Host.Outcome State Fault Refusal :=
  laneP (.fcmp o) o.d s fun w tick l =>
    perElemP o.ty (elCmp o.cond o.ftz) (w.srcF tick l o.ty o.a) (w.srcF tick l o.ty o.b)
def execFclass (o : FclassF) (s : State) : Host.Outcome State Fault Refusal :=
  laneP (.fclass o) o.d s fun w tick l =>
    perElemP o.ty (fun f a _ => (o.mask.getLsbD (elClass f a), 0)) (w.srcF tick l o.ty o.a) 0
def execFrnd (o : F1) (s : State) : Host.Outcome State Fault Refusal := opF1 (.frnd o) o s (elRnd o.m)
def execFfrac (o : F1) (s : State) : Host.Outcome State Fault Refusal := opF1 (.ffrac o) o s (elFrac o.m)
def execFrcp (o : F1) (s : State) : Host.Outcome State Fault Refusal := opF1 (.frcp o) o s (elFn .rcp o.m)
def execFrsq (o : F1) (s : State) : Host.Outcome State Fault Refusal := opF1 (.frsq o) o s (elFn .rsq o.m)
def execFsqrt (o : F1) (s : State) : Host.Outcome State Fault Refusal := opF1 (.fsqrt o) o s (elSqrt o.m)
def execFexp2 (o : F1) (s : State) : Host.Outcome State Fault Refusal := opF1 (.fexp2 o) o s (elFn .exp2 o.m)
def execFlog2 (o : F1) (s : State) : Host.Outcome State Fault Refusal := opF1 (.flog2 o) o s (elFn .log2 o.m)
def execFsin (o : F1) (s : State) : Host.Outcome State Fault Refusal := opF1 (.fsin o) o s (elFn .sin o.m)
def execFcos (o : F1) (s : State) : Host.Outcome State Fault Refusal := opF1 (.fcos o) o s (elFn .cos o.m)
def execFtanh (o : F1) (s : State) : Host.Outcome State Fault Refusal := opF1 (.ftanh o) o s (elFn .tanh o.m)

/-! ## Conversions -/

def execCvt (o : CvtF) (s : State) : Host.Outcome State Fault Refusal :=
  laneF (.cvt o) o.d (tyRegs o.dst) s fun w tick l =>
    let r := convert o.src o.dst o.rm o.sat o.ftz (w.srcT tick l o.src o.a)
    (BitVec.ofNat 64 r.bits, r.fl)
def execCvtsr (o : CvtsrF) (s : State) : Host.Outcome State Fault Refusal :=
  laneF (.cvtsr o) o.d 1 s fun w tick l =>
    let r := cvtsr o.dst o.sat o.ftz ((w.src32 tick l o.c).toNat % 65536) (w.src32 tick l o.a).toNat
    (BitVec.ofNat 64 r.bits, r.fl)

/-- Bit position of a slot and its width in the register (R106). -/
def slotPlace (t : Ty) (pos : Nat) : Nat × Nat :=
  match t with
  | .f16 | .bf16 => (16 * pos, 16)
  | .e2m1 | .int4 => (4 * pos, 4)
  | _ => (8 * pos, 8)

/-- The type PACK and UNPK pair an element type with (R106). -/
def packWide (t : Ty) : Ty := match t with | .int8 | .int4 => .s32 | _ => .f32

def execPack (o : PackF) (s : State) : Host.Outcome State Fault Refusal :=
  laneF (.pack o) o.d 1 s fun w tick l =>
    let r := convert (packWide o.ty) o.ty .rn o.sat false (w.src32 tick l o.a).toNat
    let (lo, n) := slotPlace o.ty o.pos
    ((bfi lo n (w.rv tick o.d l) (BitVec.ofNat 32 r.bits)).setWidth 64, r.fl)
def execUnpk (o : UnpkF) (s : State) : Host.Outcome State Fault Refusal :=
  laneF (.unpk o) o.d 1 s fun w tick l =>
    let (lo, n) := slotPlace o.ty o.pos
    let r := convert o.ty (packWide o.ty) .rn false false (field (w.src32 tick l o.a).toNat lo n)
    (BitVec.ofNat 64 r.bits, r.fl)

/-- QBLK works on blocks of 32 lanes; an inactive lane counts as an input of 0 (R107). -/
def execQblk (o : QblkF) (s : State) : Host.Outcome State Fault Refusal :=
  laneOp (.qblk o) s fun w tick =>
    let act := w.active tick (.qblk o)
    let rs := (List.range 8).flatMap fun j =>
      let lanes := act.filter fun l => l / 32 == j
      if lanes.isEmpty then []
      else
        let x := blockScale o.ty (lanes.map fun l => (w.src32 tick l o.a).toNat)
        lanes.map fun l => (l, blockElem o.ty o.rm (w.src32 tick l o.a).toNat x, x.bits)
    (rs.flatMap fun r => [⟨.v o.d r.1, r.2.1.bits⟩, ⟨.v o.c r.1, r.2.2⟩], rs.foldl (fun a r => a ||| r.2.1.fl) 0)
def execDqblk (o : DqblkF) (s : State) : Host.Outcome State Fault Refusal :=
  laneF (.dqblk o) o.d 1 s fun w tick l =>
    let r := dequant o.ty (w.src32 tick l o.a).toNat (w.src32 tick l o.c).toNat
    (BitVec.ofNat 64 r.bits, r.fl)

end Sys2Proof.Machine
end

