-- ==== Sys2Proof/Machine/Cross.lean ====
section
/-! DEFINITION. Shuffles, broadcasts, reductions and scans (spec/06_waves_and_lanes.md R150 to R152), special registers and the
clock (spec/19_faults_and_preemption.md R402 to R404). -/
namespace Sys2Proof.Machine

def execShfl (o : ShflF) (s : State) : Host.Outcome State Fault Refusal :=
  aluV (.shfl o) o.d s fun w tick l => w.src32 tick (w.shflFrom tick l o) o.a

def execBcast (o : BcastF) (s : State) : Host.Outcome State Fault Refusal :=
  aluV (.bcast o) o.d s fun w tick _ => w.src32 tick (w.bcastFrom tick o) o.a

/-! ## Reductions and scans (R152) -/

def rnF32 : FpMod := ⟨.f32, .rn, false⟩

/-- One step of the chain: value and flags. -/
def ropApply (op : ROp) (a b : Word) : Word × FlagSet :=
  let f (r : Res) : Word × FlagSet := (BitVec.ofNat 32 r.bits, r.fl)
  match op with
  | .iadd => (a + b, 0)
  | .imin => (if a.slt b then a else b, 0)
  | .imax => (if a.slt b then b else a, 0)
  | .iminU => (if a.ult b then a else b, 0)
  | .imaxU => (if a.ult b then b else a, 0)
  | .and => (a &&& b, 0)
  | .or => (a ||| b, 0)
  | .xor => (a ^^^ b, 0)
  | .fadd => f (elAdd rnF32 fF32 a.toNat b.toNat)
  | .fmin => f (elMinMax true rnF32 fF32 a.toNat b.toNat)
  | .fmax => f (elMinMax false rnF32 fF32 a.toNat b.toNat)

/-- P[1]: the first lane's value; a NaN under a float operation is written canonical, a signalling one raises IV. -/
def ropFirst (op : ROp) (a : Word) : Word × FlagSet :=
  match op with
  | .fadd | .fmin | .fmax =>
    match fF32.value a.toNat with
    | .nan sig => (0x7FC00000, flagIf sig flIV)
    | _ => (a, 0)
  | _ => (a, 0)

def ropIdentity : ROp → Word
  | .iadd | .imaxU | .or | .xor => 0
  | .imin => 0x7FFFFFFF
  | .imax => 0x80000000
  | .iminU | .and => 0xFFFFFFFF
  | .fadd => 0x80000000
  | .fmin => 0x7F800000
  | .fmax => 0xFF800000

/-- P[i] for the values after the first, with the flags of each step. -/
def ropChain (op : ROp) : Word → List Word → List (Word × FlagSet)
  | _, [] => []
  | p, x :: xs =>
    let r := ropApply op p x
    r :: ropChain op r.1 xs

/-- P[1] to P[m] in lane order. -/
def ropPrefixes (op : ROp) : List Word → List (Word × FlagSet)
  | [] => []
  | x :: xs =>
    let r := ropFirst op x
    r :: ropChain op r.1 xs

def execWreduce (o : WreduceF) (s : State) : Host.Outcome State Fault Refusal :=
  laneOp (.wreduce o) s fun w tick =>
    let act := w.active tick (.wreduce o)
    let ps := ropPrefixes o.op (act.map fun l => w.src32 tick l o.a)
    let last := (ps.getLast?.map (·.1)).getD 0
    (act.map fun l => ⟨.v o.d l, last.toNat⟩, ps.foldl (fun a r => a ||| r.2) 0)

def execWscan (o : WscanF) (s : State) : Host.Outcome State Fault Refusal :=
  laneOp (.wscan o) s fun w tick =>
    let act := w.active tick (.wscan o)
    let ps := ropPrefixes o.op (act.map fun l => w.src32 tick l o.a)
    let vals := if o.excl then ropIdentity o.op :: (ps.map (·.1)).dropLast else ps.map (·.1)
    (act.zipWith (fun l x => ⟨.v o.d l, x.toNat⟩) vals, ps.foldl (fun a r => a ||| r.2) 0)

/-! ## Special registers (R14, R402) -/

/-- A special register's value for a lane of a wave. %time is the time base. -/
def Wave.special (w : Wave) (g : Workgroup) (n : Node) (tick time l : Nat) (idx : Byte) : Nat :=
  match idx.toNat with
  | 0x00 => l
  | 0x01 => w.waveid
  | 0x02 => w.slot
  | 0x03 => w.core
  | 0x04 => clusterOfCore w.core
  | 0x05 => g.wgid
  | 0x06 => n.waves
  | 0x07 => g.node
  | 0x08 => g.depth
  | 0x09 => g.ctx
  | 0x20 => (w.rfpst tick).toNat
  | 0x21 => (w.rnevst tick).toNat
  | _ => time % 2 ^ 64

/-- The per-lane form: a per-wave value is the same in every lane; %time takes a pair. -/
def execSregPerLane (o : SregPF) (s : State) : Host.Outcome State Fault Refusal :=
  issueOp (.sregPerLane o) s fun σ s =>
    match σ.p, σ.w with
    | .wave g k, some w =>
      let n := if o.idx == 0x30 then 2 else 1
      let ws := (w.active s.tick (.sregPerLane o)).flatMap fun l =>
        writesN o.d l n (w.special σ.g σ.n s.tick s.time l o.idx)
      .done (s.updWave g k fun w => w.putAll s.tick ws) none (σ.window (.sregPerLane o) (ws.map fun e => (e.k, w.now e.k)) 0)
    | _, _ => .hold s

/-- The uniform form; on a sequencer the identifiers are those of the owning workgroup's wave 0, and the status registers raise
ILLEGAL_OPERAND. -/
def execSreg (d : SReg) (idx : Byte) (s : State) : Host.Outcome State Fault Refusal :=
  issueOp (.sreg d idx) s fun σ s =>
    let put (x : Nat) : Body := .done (s.updThread σ.p fun t => t.putS s.tick d (BitVec.ofNat 64 x)) none none
    match σ.w with
    | some w => put (w.special σ.g σ.n s.tick s.time 0 idx)
    | none =>
      if idx == 0x20 || idx == 0x21 then .raise s .illegalOperand 0 none
      else match σ.g.waves.head? with
        | some w => put (w.special σ.g σ.n s.tick s.time 0 idx)
        | none => .hold s

def execSset (a : SReg) (idx : Byte) (s : State) : Host.Outcome State Fault Refusal :=
  issueOp (.sset a idx) s fun σ s =>
    match σ.p, σ.w with
    | .wave g k, some w =>
      let x := (w.t.rs s.tick a).setWidth 32
      if idx == 0x20 then .done (s.updWave g k fun w => w.setFpst s.tick x) none none
      else .done (s.updWave g k fun w => w.setNevst s.tick (nevstMask x)) none none
    | _, _ => .hold s
where
  /-- Reserved bits of %nevst ignore the value (R329). -/
  nevstMask (x : Word) : Word := x &&& 0x1F

/-- The executing unit's count of main-clock cycles since device reset, which does not run for a party while it is saved (R404). -/
def Site.clock (σ : Site) (cycles : Nat) : Nat :=
  let unit := match σ.p, σ.w with
    | .wave _ _, some w => w.core
    | .mseq _ k, _ => 256 + 8 * σ.g.cluster + σ.g.physical k
    | .cseq _ k, _ => 512 + 8 * σ.g.cluster + σ.g.physical k
    | _, _ => 0
  cycles + Config.clockOffset unit - σ.t.away

def execClk (d : SReg) (s : State) : Host.Outcome State Fault Refusal :=
  issueOp (.clk d) s fun σ s =>
    .done (s.updThread σ.p fun t => t.putS s.tick d (BitVec.ofNat 64 (σ.clock s.cycles))) none none

end Sys2Proof.Machine
end

