-- ==== Sys2Proof/Machine/Uniform.lean ====
section
/-! DEFINITION. Uniform instructions: integer and floating point (spec/04_arithmetic_instructions.md R109 to R116), and the
mask counts (spec/06_waves_and_lanes.md R147, R148). -/
namespace Sys2Proof.Machine

/-- A 64-bit result in an s register. -/
def uniS (i : Instr) (d : Nat) (s : State) (f : Thread → Nat → DWord) : Host.Outcome State Fault Refusal :=
  uniOp i s fun t tick => ([⟨.s d, (f t tick).toNat⟩], 0)
/-- Three-operand integer forms, over 64 bits or under .W32 over 32 (R109). -/
def opU3 (i : Instr) (o : U3) (s : State) (op : (w : Nat) → BitVec w → BitVec w → BitVec w) :
    Host.Outcome State Fault Refusal :=
  uniS i o.d s fun t tick => uop o.w32 op (t.rs tick o.a) (t.ropnd tick o.b)
/-- Shift amounts are b[5:0], or b[4:0] under .W32 (R44). -/
def opUSh (i : Instr) (o : U3) (s : State) (op : (w : Nat) → BitVec w → Nat → BitVec w) : Host.Outcome State Fault Refusal :=
  uniS i o.d s fun t tick => uop o.w32 (fun w a b => op w a (b.toNat % w)) (t.rs tick o.a) (t.ropnd tick o.b)

def execSadd (o : U3) (s : State) : Host.Outcome State Fault Refusal :=
  opU3 (.sadd o) o s fun _ a b => a + b

def execSsub (o : U3) (s : State) : Host.Outcome State Fault Refusal :=
  opU3 (.ssub o) o s fun _ a b => a - b

def execSmul (o : U3) (s : State) : Host.Outcome State Fault Refusal :=
  opU3 (.smul o) o s fun _ a b => a * b

def execSand (o : U3) (s : State) : Host.Outcome State Fault Refusal :=
  opU3 (.sand o) o s fun _ a b => a &&& b

def execSor (o : U3) (s : State) : Host.Outcome State Fault Refusal :=
  opU3 (.sor o) o s fun _ a b => a ||| b

def execSxor (o : U3) (s : State) : Host.Outcome State Fault Refusal :=
  opU3 (.sxor o) o s fun _ a b => a ^^^ b

def execSmad (o : U3) (s : State) : Host.Outcome State Fault Refusal :=
  uniS (.smad o) o.d s fun t tick =>
    uop o.w32 (fun _ x y => x + y) (uop o.w32 (fun _ x y => x * y) (t.rs tick o.a) (t.ropnd tick o.b)) (t.rs tick o.d)

def execSmin (o : UMM) (s : State) : Host.Outcome State Fault Refusal :=
  uniS (.smin o) o.d s fun t tick =>
    uop o.w32 (fun _ x y => if (if o.u then x.ult y else x.slt y) then x else y) (t.rs tick o.a) (t.ropnd tick o.b)

def execSmax (o : UMM) (s : State) : Host.Outcome State Fault Refusal :=
  uniS (.smax o) o.d s fun t tick =>
    uop o.w32 (fun _ x y => if (if o.u then x.ult y else x.slt y) then y else x) (t.rs tick o.a) (t.ropnd tick o.b)

def execSshl (o : U3) (s : State) : Host.Outcome State Fault Refusal :=
  opUSh (.sshl o) o s fun _ a n => a <<< n

def execSshr (o : U3) (s : State) : Host.Outcome State Fault Refusal :=
  opUSh (.sshr o) o s fun _ a n => a >>> n

def execSsar (o : U3) (s : State) : Host.Outcome State Fault Refusal :=
  opUSh (.ssar o) o s fun _ a n => a.sshiftRight n

/-- An integer condition over 64 bits, or over bits [31:0] under .W32 (R110). -/
def execScmp (o : ScmpF) (s : State) : Host.Outcome State Fault Refusal :=
  uniOp (.scmp o) s fun t tick =>
    let a := t.rs tick o.a
    let b := t.ropnd tick o.b
    let r := if o.w32 then icmp o.cond (a.setWidth 32) (b.setWidth 32) else icmp o.cond a b
    ([⟨.f o.d, r.toNat⟩], 0)

def execSsel (o : SselF) (s : State) : Host.Outcome State Fault Refusal :=
  uniS (.ssel o) o.d s fun t tick => if t.rf tick o.f != o.neg then t.rs tick o.a else t.rs tick o.b

def execSmov (o : DA) (s : State) : Host.Outcome State Fault Refusal :=
  uniS (.smov o) o.d s fun t tick => t.rs tick o.a

def execSlit (o : SlitF) (s : State) : Host.Outcome State Fault Refusal :=
  uniS (.slit o) o.d s fun _ _ => o.v.signExtend 64

def execSlitMid (o : SlitF) (s : State) : Host.Outcome State Fault Refusal :=
  uniS (.slitMid o) o.d s fun t tick =>
    let x := t.rs tick o.d
    (x.extractLsb' 56 8 ++ (o.v ++ x.extractLsb' 0 28))

def execSlitTop (o : SlitTopF) (s : State) : Host.Outcome State Fault Refusal :=
  uniS (.slitTop o) o.d s fun t tick => o.v ++ (t.rs tick o.d).extractLsb' 0 56

def execSlea (o : SleaF) (s : State) : Host.Outcome State Fault Refusal :=
  uniS (.slea o) o.d s fun t tick => t.rs tick o.a + (t.ropnd tick o.b <<< o.k.val)

/-- Width and value that .W32 leaves of a source (R113). -/
def narrowed (w32 : Bool) (x : DWord) : Nat × Nat := if w32 then (32, x.toNat % 2 ^ 32) else (64, x.toNat)

def execSpopc (o : SCntF) (s : State) : Host.Outcome State Fault Refusal :=
  uniS (.spopc o) o.d s fun t tick => let (w, x) := narrowed o.w32 (t.rs tick o.a); BitVec.ofNat 64 (popCount w x)

def execSclz (o : SCntF) (s : State) : Host.Outcome State Fault Refusal :=
  uniS (.sclz o) o.d s fun t tick => let (w, x) := narrowed o.w32 (t.rs tick o.a); BitVec.ofNat 64 (leadZeros w x)

def execSbfx (o : SbfxF) (s : State) : Host.Outcome State Fault Refusal :=
  uniS (.sbfx o) o.d s fun t tick =>
    let len := o.lenM1.val + 1
    let f := field (t.rs tick o.a).toNat o.pos len
    if o.sgn then BitVec.ofNat 64 (wrapInt 64 (readInt len true f)) else BitVec.ofNat 64 f

/-! ## Floating point (R114 to R116) -/

/-- A floating result in its place, zero-extended, with its flags. -/
def uniF (i : Instr) (o : SfF) (s : State) (op : FpMod → FloatFmt → Nat → Nat → Nat → Res) :
    Host.Outcome State Fault Refusal :=
  uniOp i s fun t tick =>
    let f := styFmt o.ty
    let w := f.mb + f.eb + 1
    let r := op ⟨.f32, o.rm, o.ftz⟩ f (elem (t.rs tick o.a) 0 w) (elem (t.rs tick o.b) 0 w) (elem (t.rs tick o.d) 0 w)
    ([⟨.s o.d, r.bits⟩], r.fl)

def execSfadd (o : SfF) (s : State) : Host.Outcome State Fault Refusal := uniF (.sfadd o) o s fun m f a b _ => elAdd m f a b

def execSfmul (o : SfF) (s : State) : Host.Outcome State Fault Refusal := uniF (.sfmul o) o s fun m f a b _ => elMul m f a b

def execSffma (o : SfF) (s : State) : Host.Outcome State Fault Refusal := uniF (.sffma o) o s fun m f a b d => elFma m f a b d

def execSfcmp (o : SfcmpF) (s : State) : Host.Outcome State Fault Refusal :=
  uniOp (.sfcmp o) s fun t tick =>
    let f := styFmt o.ty
    let w := f.mb + f.eb + 1
    let r := elCmp o.cond false f (elem (t.rs tick o.a) 0 w) (elem (t.rs tick o.b) 0 w)
    ([⟨.f o.d, r.1.toNat⟩], r.2)

def execScvt (o : ScvtF) (s : State) : Host.Outcome State Fault Refusal :=
  uniOp (.scvt o) s fun t tick =>
    let r := convert o.src o.dst o.rm o.sat o.ftz (t.rs tick o.a).toNat
    ([⟨.s o.d, r.bits⟩], r.fl)

/-! ## Ballots (R147, R148) -/

/-- The lanes of E whose bit of pN is 1. -/
def Wave.chosen (w : Wave) (tick : Nat) (p : Nat) : Mask := w.e &&& w.rpMask tick p

/-- A uniform form that reads the wave's predicates. -/
def waveU (i : Instr) (s : State) (f : Wave → Nat → List Write) : Host.Outcome State Fault Refusal :=
  laneOp i s fun w tick => (f w tick, 0)

def execBallot (d : SReg) (p : PReg) (s : State) : Host.Outcome State Fault Refusal :=
  waveU (.ballot d p) s fun w tick => (List.range 4).map fun k =>
    ⟨.s (d.val + k), ((w.chosen tick p).extractLsb' (64 * k) 64).toNat⟩

def execMcount (d : SReg) (p : PReg) (s : State) : Host.Outcome State Fault Refusal :=
  waveU (.mcount d p) s fun w tick => [⟨.s d, popCount 256 (w.chosen tick p).toNat⟩]

end Sys2Proof.Machine
end

