-- ==== Sys2Proof/Machine/Dispatch.lean ====
section
/-! DEFINITION. One arm for each step of the machine, in the order of spec/opcode_table.json. -/
namespace Sys2Proof.Machine

def exec (i : Instr) (s : State) : Host.Outcome State Fault Refusal :=
  match i with
  | .iadd o => Sys2Proof.Machine.execIadd o s
  | .iaddI o => Sys2Proof.Machine.execIaddI o s
  | .isub o => Sys2Proof.Machine.execIsub o s
  | .isubI o => Sys2Proof.Machine.execIsubI o s
  | .imul o => Sys2Proof.Machine.execImul o s
  | .imulI o => Sys2Proof.Machine.execImulI o s
  | .imin o => Sys2Proof.Machine.execImin o s
  | .iminU o => Sys2Proof.Machine.execIminU o s
  | .imax o => Sys2Proof.Machine.execImax o s
  | .imaxU o => Sys2Proof.Machine.execImaxU o s
  | .iabs o => Sys2Proof.Machine.execIabs o s
  | .ineg o => Sys2Proof.Machine.execIneg o s
  | .shl o => Sys2Proof.Machine.execShl o s
  | .shlI o => Sys2Proof.Machine.execShlI o s
  | .shr o => Sys2Proof.Machine.execShr o s
  | .shrI o => Sys2Proof.Machine.execShrI o s
  | .sar o => Sys2Proof.Machine.execSar o s
  | .sarI o => Sys2Proof.Machine.execSarI o s
  | .iand o => Sys2Proof.Machine.execIand o s
  | .iandI o => Sys2Proof.Machine.execIandI o s
  | .ior o => Sys2Proof.Machine.execIor o s
  | .iorI o => Sys2Proof.Machine.execIorI o s
  | .ixor o => Sys2Proof.Machine.execIxor o s
  | .ixorI o => Sys2Proof.Machine.execIxorI o s
  | .iandn o => Sys2Proof.Machine.execIandn o s
  | .inot o => Sys2Proof.Machine.execInot o s
  | .popc o => Sys2Proof.Machine.execPopc o s
  | .clz o => Sys2Proof.Machine.execClz o s
  | .brev o => Sys2Proof.Machine.execBrev o s
  | .mov o => Sys2Proof.Machine.execMov o s
  | .leaX1 o => Sys2Proof.Machine.execLeaX1 o s
  | .leaX2 o => Sys2Proof.Machine.execLeaX2 o s
  | .leaX4 o => Sys2Proof.Machine.execLeaX4 o s
  | .leaX8 o => Sys2Proof.Machine.execLeaX8 o s
  | .mrank o => Sys2Proof.Machine.execMrank o s
  | .fadd o => Sys2Proof.Machine.execFadd o s
  | .fsub o => Sys2Proof.Machine.execFsub o s
  | .fmul o => Sys2Proof.Machine.execFmul o s
  | .fmin o => Sys2Proof.Machine.execFmin o s
  | .fmax o => Sys2Proof.Machine.execFmax o s
  | .ffma o => Sys2Proof.Machine.execFfma o s
  | .fcmp o => Sys2Proof.Machine.execFcmp o s
  | .fclass o => Sys2Proof.Machine.execFclass o s
  | .frnd o => Sys2Proof.Machine.execFrnd o s
  | .ffrac o => Sys2Proof.Machine.execFfrac o s
  | .frcp o => Sys2Proof.Machine.execFrcp o s
  | .frsq o => Sys2Proof.Machine.execFrsq o s
  | .fsqrt o => Sys2Proof.Machine.execFsqrt o s
  | .fexp2 o => Sys2Proof.Machine.execFexp2 o s
  | .flog2 o => Sys2Proof.Machine.execFlog2 o s
  | .fsin o => Sys2Proof.Machine.execFsin o s
  | .fcos o => Sys2Proof.Machine.execFcos o s
  | .ftanh o => Sys2Proof.Machine.execFtanh o s
  | .imad o => Sys2Proof.Machine.execImad o s
  | .imadWide o => Sys2Proof.Machine.execImadWide o s
  | .imulh o => Sys2Proof.Machine.execImulh o s
  | .icmp o => Sys2Proof.Machine.execIcmp o s
  | .sel o => Sys2Proof.Machine.execSel o s
  | .movi o => Sys2Proof.Machine.execMovi o s
  | .moviZ o => Sys2Proof.Machine.execMoviZ o s
  | .moviHi o => Sys2Proof.Machine.execMoviHi o s
  | .bfx o => Sys2Proof.Machine.execBfx o s
  | .bfi o => Sys2Proof.Machine.execBfi o s
  | .idot4 o => Sys2Proof.Machine.execIdot4 o s
  | .cvt o => Sys2Proof.Machine.execCvt o s
  | .cvtsr o => Sys2Proof.Machine.execCvtsr o s
  | .pack o => Sys2Proof.Machine.execPack o s
  | .unpk o => Sys2Proof.Machine.execUnpk o s
  | .qblk o => Sys2Proof.Machine.execQblk o s
  | .dqblk o => Sys2Proof.Machine.execDqblk o s
  | .ld o => Sys2Proof.Machine.execLd o s
  | .st o => Sys2Proof.Machine.execSt o s
  | .stNb o => Sys2Proof.Machine.execStNb o s
  | .atom o => Sys2Proof.Machine.execAtom o s
  | .red o => Sys2Proof.Machine.execRed o s
  | .pf o => Sys2Proof.Machine.execPf o s
  | .acp o => Sys2Proof.Machine.execAcp o s
  | .recld o => Sys2Proof.Machine.execRecld o s
  | .recst o => Sys2Proof.Machine.execRecst o s
  | .neval o => Sys2Proof.Machine.execNeval o s
  | .shfl o => Sys2Proof.Machine.execShfl o s
  | .wreduce o => Sys2Proof.Machine.execWreduce o s
  | .wscan o => Sys2Proof.Machine.execWscan o s
  | .bcast o => Sys2Proof.Machine.execBcast o s
  | .sregPerLane o => Sys2Proof.Machine.execSregPerLane o s
  | .nop => Sys2Proof.Machine.execNop s
  | .bra off => Sys2Proof.Machine.execBra off s
  | .brx a => Sys2Proof.Machine.execBrx a s
  | .call off => Sys2Proof.Machine.execCall off s
  | .ret a => Sys2Proof.Machine.execRet a s
  | .brf o => Sys2Proof.Machine.execBrf o s
  | .bany o => Sys2Proof.Machine.execBany o s
  | .ball o => Sys2Proof.Machine.execBall o s
  | .ifP o => Sys2Proof.Machine.execIfP o s
  | .elseP off => Sys2Proof.Machine.execElseP off s
  | .endifP => Sys2Proof.Machine.execEndifP s
  | .loopP off => Sys2Proof.Machine.execLoopP off s
  | .breakP p neg => Sys2Proof.Machine.execBreakP p neg s
  | .endloopP off => Sys2Proof.Machine.execEndloopP off s
  | .exit => Sys2Proof.Machine.execExit s
  | .sadd o => Sys2Proof.Machine.execSadd o s
  | .ssub o => Sys2Proof.Machine.execSsub o s
  | .smul o => Sys2Proof.Machine.execSmul o s
  | .smad o => Sys2Proof.Machine.execSmad o s
  | .smin o => Sys2Proof.Machine.execSmin o s
  | .smax o => Sys2Proof.Machine.execSmax o s
  | .sand o => Sys2Proof.Machine.execSand o s
  | .sor o => Sys2Proof.Machine.execSor o s
  | .sxor o => Sys2Proof.Machine.execSxor o s
  | .sshl o => Sys2Proof.Machine.execSshl o s
  | .sshr o => Sys2Proof.Machine.execSshr o s
  | .ssar o => Sys2Proof.Machine.execSsar o s
  | .scmp o => Sys2Proof.Machine.execScmp o s
  | .ssel o => Sys2Proof.Machine.execSsel o s
  | .smov o => Sys2Proof.Machine.execSmov o s
  | .slit o => Sys2Proof.Machine.execSlit o s
  | .slitMid o => Sys2Proof.Machine.execSlitMid o s
  | .slitTop o => Sys2Proof.Machine.execSlitTop o s
  | .slea o => Sys2Proof.Machine.execSlea o s
  | .spopc o => Sys2Proof.Machine.execSpopc o s
  | .sclz o => Sys2Proof.Machine.execSclz o s
  | .sbfx o => Sys2Proof.Machine.execSbfx o s
  | .sfadd o => Sys2Proof.Machine.execSfadd o s
  | .sfmul o => Sys2Proof.Machine.execSfmul o s
  | .sffma o => Sys2Proof.Machine.execSffma o s
  | .sfcmp o => Sys2Proof.Machine.execSfcmp o s
  | .scvt o => Sys2Proof.Machine.execScvt o s
  | .ballot d p => Sys2Proof.Machine.execBallot d p s
  | .mcount d p => Sys2Proof.Machine.execMcount d p s
  | .cselk a la => Sys2Proof.Machine.execCselk a la s
  | .cselkCompletion p => Sys2Proof.Machine.execCselkCompletion p s
  | .sld o => Sys2Proof.Machine.execSld o s
  | .sst o => Sys2Proof.Machine.execSst o s
  | .satom o => Sys2Proof.Machine.execSatom o s
  | .ord order scope => Sys2Proof.Machine.execOrd order scope s
  | .fence order scope => Sys2Proof.Machine.execFence order scope s
  | .releaseWaitEnd p => Sys2Proof.Machine.execReleaseWaitEnd p s
  | .waitc path a => Sys2Proof.Machine.execWaitc path a s
  | .bara a => Sys2Proof.Machine.execBara a s
  | .barw a => Sys2Proof.Machine.execBarw a s
  | .baraw a => Sys2Proof.Machine.execBaraw a s
  | .gbar a => Sys2Proof.Machine.execGbar a s
  | .mwait o => Sys2Proof.Machine.execMwait o s
  | .monitorReread p => Sys2Proof.Machine.execMonitorReread p s
  | .mwaitTimeout p => Sys2Proof.Machine.execMwaitTimeout p s
  | .sleep n => Sys2Proof.Machine.execSleep n s
  | .sleepExpiry p => Sys2Proof.Machine.execSleepExpiry p s
  | .yield => Sys2Proof.Machine.execYield s
  | .tcp o => Sys2Proof.Machine.execTcp o s
  | .tbinit o => Sys2Proof.Machine.execTbinit o s
  | .tbarv o => Sys2Proof.Machine.execTbarv o s
  | .tbexp o => Sys2Proof.Machine.execTbexp o s
  | .tbwait o => Sys2Proof.Machine.execTbwait o s
  | .cntadd o => Sys2Proof.Machine.execCntadd o s
  | .cntwait o => Sys2Proof.Machine.execCntwait o s
  | .slotset o => Sys2Proof.Machine.execSlotset o s
  | .slotwait o => Sys2Proof.Machine.execSlotwait o s
  | .fork o => Sys2Proof.Machine.execFork o s
  | .rdv p => Sys2Proof.Machine.execRdv p s
  | .mrsv f nM1 => Sys2Proof.Machine.execMrsv f nM1 s
  | .mrel m => Sys2Proof.Machine.execMrel m s
  | .oalloc o => Sys2Proof.Machine.execOalloc o s
  | .emit o => Sys2Proof.Machine.execEmit o s
  | .spawn o => Sys2Proof.Machine.execSpawn o s
  | .join => Sys2Proof.Machine.execJoin s
  | .phase => Sys2Proof.Machine.execPhase s
  | .qdepth d e => Sys2Proof.Machine.execQdepth d e s
  | .done => Sys2Proof.Machine.execDone s
  | .npin o => Sys2Proof.Machine.execNpin o s
  | .nunpin a => Sys2Proof.Machine.execNunpin a s
  | .rboard o => Sys2Proof.Machine.execRboard o s
  | .rwait o => Sys2Proof.Machine.execRwait o s
  | .rstat o => Sys2Proof.Machine.execRstat o s
  | .qpost o => Sys2Proof.Machine.execQpost o s
  | .qstat o => Sys2Proof.Machine.execQstat o s
  | .trap n => Sys2Proof.Machine.execTrap n s
  | .brk n => Sys2Proof.Machine.execBrk n s
  | .sreg d idx => Sys2Proof.Machine.execSreg d idx s
  | .sset a idx => Sys2Proof.Machine.execSset a idx s
  | .clk d => Sys2Proof.Machine.execClk d s
  | .dbgrd o => Sys2Proof.Machine.execDbgrd o s
  | .dbgwr o => Sys2Proof.Machine.execDbgwr o s
  | .mld o => Sys2Proof.Machine.execMld o s
  | .mft o => Sys2Proof.Machine.execMft o s
  | .mldr o => Sys2Proof.Machine.execMldr o s
  | .mma o => Sys2Proof.Machine.execMma o s
  | .mzero d => Sys2Proof.Machine.execMzero d s
  | .mst o => Sys2Proof.Machine.execMst o s
  | .msta o => Sys2Proof.Machine.execMsta o s
  | .mtag d t => Sys2Proof.Machine.execMtag d t s
  | .mqbind q a => Sys2Proof.Machine.execMqbind q a s
  | .msync => Sys2Proof.Machine.execMsync s
  | .madp o => Sys2Proof.Machine.execMadp o s
  | .munpin d => Sys2Proof.Machine.execMunpin d s
  | .cq a la => Sys2Proof.Machine.execCq a la s
  | .cqmeta o => Sys2Proof.Machine.execCqmeta o s
  | .csync => Sys2Proof.Machine.execCsync s
  | .issue u => Sys2Proof.Machine.execIssue u s
  | .promotion p => Sys2Proof.Machine.execPromotion p s
  | .storeStarved p => Sys2Proof.Machine.execStoreStarved p s
  | .requestGroup p id => Sys2Proof.Machine.execRequestGroup p id s
  | .homeWrite n => Sys2Proof.Machine.execHomeWrite n s
  | .acknowledgement n => Sys2Proof.Machine.execAcknowledgement n s
  | .eviction e => Sys2Proof.Machine.execEviction e s
  | .rekey region slot => Sys2Proof.Machine.execRekey region slot s
  | .revival region => Sys2Proof.Machine.execRevival region s
  | .atsReply ctx va reply => Sys2Proof.Machine.execAtsReply ctx va reply s
  | .pageRequestGroupResponse ctx va ok => Sys2Proof.Machine.execPageRequestGroupResponse ctx va ok s
  | .atsInvalidationRequest ctx va len => Sys2Proof.Machine.execAtsInvalidationRequest ctx va len s
  | .pageMove ctx va frame finish => Sys2Proof.Machine.execPageMove ctx va frame finish s
  | .rewalk p => Sys2Proof.Machine.execRewalk p s
  | .gatherTimer ctx node die => Sys2Proof.Machine.execGatherTimer ctx node die s
  | .schedulerDecision => Sys2Proof.Machine.execSchedulerDecision s
  | .workgroupEnd wg => Sys2Proof.Machine.execWorkgroupEnd wg s
  | .periodBoundary => Sys2Proof.Machine.execPeriodBoundary s
  | .drainDeadline ctx => Sys2Proof.Machine.execDrainDeadline ctx s
  | .sliceEnd => Sys2Proof.Machine.execSliceEnd s
  | .save wg => Sys2Proof.Machine.execSave wg s
  | .haltreq n => Sys2Proof.Machine.execHaltreq n s
  | .resume n => Sys2Proof.Machine.execResume n s
  | .wpWrite n => Sys2Proof.Machine.execWpWrite n s
  | .registerWrite r v => Sys2Proof.Machine.execRegisterWrite r v s
  | .lineOperation cmd => Sys2Proof.Machine.execLineOperation cmd s
  | .signals cmd => Sys2Proof.Machine.execSignals cmd s
  | .tagRetest cmd => Sys2Proof.Machine.execTagRetest cmd s
  | .nevalGatherTimer cluster ctx h => Sys2Proof.Machine.execNevalGatherTimer cluster ctx h s
  | .tileOperation cluster => Sys2Proof.Machine.execTileOperation cluster s
  | .injection ring => Sys2Proof.Machine.execInjection ring s
  | .frameArrival ring cluster crcOk => Sys2Proof.Machine.execFrameArrival ring cluster crcOk s
  | .lapBoundary => Sys2Proof.Machine.execLapBoundary s
  | .boardingWindowOpen ctx node => Sys2Proof.Machine.execBoardingWindowOpen ctx node s
  | .fallback p layer => Sys2Proof.Machine.execFallback p layer s
  | .hostWrite pa key bytes => Sys2Proof.Machine.execHostWrite pa key bytes s
  | .tail ring bytes v => Sys2Proof.Machine.execTail ring bytes v s
  | .merge ctx => Sys2Proof.Machine.execMerge ctx s
  | .ohead ring v => Sys2Proof.Machine.execOhead ring v s
  | .holdoff v => Sys2Proof.Machine.execHoldoff v s
  | .evcfgEn v => Sys2Proof.Machine.execEvcfgEn v s
  | .restart => Sys2Proof.Machine.execRestart s
  | .deviceReset primaryOk goldenOk => Sys2Proof.Machine.execDeviceReset primaryOk goldenOk s
  | .watchdog => Sys2Proof.Machine.execWatchdog s
  | .powerGovernor watts => Sys2Proof.Machine.execPowerGovernor watts s
  | .bound act => Sys2Proof.Machine.execBound act s
  | .ctxCreate => Sys2Proof.Machine.execCtxCreate s
  | .ctxDestroy => Sys2Proof.Machine.execCtxDestroy s
  | .ctxReset => Sys2Proof.Machine.execCtxReset s
  | .graphInstall => Sys2Proof.Machine.execGraphInstall s
  | .invalidate => Sys2Proof.Machine.execInvalidate s
  | .planSubmit => Sys2Proof.Machine.execPlanSubmit s
  | .debugSetTrapNode => Sys2Proof.Machine.execDebugSetTrapNode s
  | .debugSetMailbox => Sys2Proof.Machine.execDebugSetMailbox s
  | .serviceListEnter => Sys2Proof.Machine.execServiceListEnter s
  | .serviceListLeave => Sys2Proof.Machine.execServiceListLeave s
  | .qpSetCreate => Sys2Proof.Machine.execQpSetCreate s
  | .qpSetToRts => Sys2Proof.Machine.execQpSetToRts s
  | .qpSetFromError => Sys2Proof.Machine.execQpSetFromError s
  | .qpSetDestroy => Sys2Proof.Machine.execQpSetDestroy s
  | .qpSetApprove => Sys2Proof.Machine.execQpSetApprove s
  | .qpSetWithdraw => Sys2Proof.Machine.execQpSetWithdraw s
  | .mrWrite => Sys2Proof.Machine.execMrWrite s
  | .exportWrite => Sys2Proof.Machine.execExportWrite s
  | .edgeBindRemote => Sys2Proof.Machine.execEdgeBindRemote s
  | .edgeBindOutRing => Sys2Proof.Machine.execEdgeBindOutRing s
  | .edgeUnbind => Sys2Proof.Machine.execEdgeUnbind s
  | .keySetCreate => Sys2Proof.Machine.execKeySetCreate s
  | .keySetClear => Sys2Proof.Machine.execKeySetClear s
  | .keySetGrant => Sys2Proof.Machine.execKeySetGrant s
  | .keySetRevoke => Sys2Proof.Machine.execKeySetRevoke s
  | .ringCreateMailbox => Sys2Proof.Machine.execRingCreateMailbox s
  | .ringCreateOut => Sys2Proof.Machine.execRingCreateOut s
  | .stopRead => Sys2Proof.Machine.execStopRead s
  | .powerCap => Sys2Proof.Machine.execPowerCap s
  | .dmaWindowAdd => Sys2Proof.Machine.execDmaWindowAdd s
  | .dmaWindowRemove => Sys2Proof.Machine.execDmaWindowRemove s
  | .memWrite bytes => Sys2Proof.Machine.execMemWrite bytes s
  | .memWriteZeroFill => Sys2Proof.Machine.execMemWriteZeroFill s
  | .imageUpdate verified => Sys2Proof.Machine.execImageUpdate verified s
  | .getVersion => Sys2Proof.Machine.execGetVersion s
  | .getCapabilities => Sys2Proof.Machine.execGetCapabilities s
  | .negotiateAlgorithms => Sys2Proof.Machine.execNegotiateAlgorithms s
  | .getDigests => Sys2Proof.Machine.execGetDigests s
  | .getCertificate => Sys2Proof.Machine.execGetCertificate s
  | .challenge nonce => Sys2Proof.Machine.execChallenge nonce s
  | .getMeasurements => Sys2Proof.Machine.execGetMeasurements s
  | .inboundRead src off len => Sys2Proof.Machine.execInboundRead src off len s
  | .inboundWrite src off bytes => Sys2Proof.Machine.execInboundWrite src off bytes s
  | .inboundAtomic src off op size v cmp => Sys2Proof.Machine.execInboundAtomic src off op size v cmp s
  | .remoteResponse req bytes poison => Sys2Proof.Machine.execRemoteResponse req bytes poison s
  | .errorCompletion req => Sys2Proof.Machine.execErrorCompletion req s
  | .remoteTimeout req => Sys2Proof.Machine.execRemoteTimeout req s
  | .remoteRecord r => Sys2Proof.Machine.execRemoteRecord r s
  | .timeBaseExchange e confirmed => Sys2Proof.Machine.execTimeBaseExchange e confirmed s
  | .unsynchronised => Sys2Proof.Machine.execUnsynchronised s
  | .laneRemap link => Sys2Proof.Machine.execLaneRemap link s
  | .linkFailure die => Sys2Proof.Machine.execLinkFailure die s
  | .stationTraining station lanes => Sys2Proof.Machine.execStationTraining station lanes s
  | .workRequestStart qp => Sys2Proof.Machine.execWorkRequestStart qp s
  | .rdmaAcknowledgement qp bytes => Sys2Proof.Machine.execRdmaAcknowledgement qp bytes s
  | .acknowledgementTimeout qp => Sys2Proof.Machine.execAcknowledgementTimeout qp s
  | .rnrNak qp => Sys2Proof.Machine.execRnrNak qp s
  | .nak qp k => Sys2Proof.Machine.execNak qp k s
  | .inboundSend qp psn bytes => Sys2Proof.Machine.execInboundSend qp psn bytes s
  | .inboundRdmaWrite qp psn rkey va bytes => Sys2Proof.Machine.execInboundRdmaWrite qp psn rkey va bytes s
  | .inboundRdmaRead qp psn rkey va len => Sys2Proof.Machine.execInboundRdmaRead qp psn rkey va len s
  | .inboundFetchAdd qp psn rkey va v => Sys2Proof.Machine.execInboundFetchAdd qp psn rkey va v s
  | .inboundCmpSwap qp psn rkey va cmp new => Sys2Proof.Machine.execInboundCmpSwap qp psn rkey va cmp new s
  | .contextFetch qp => Sys2Proof.Machine.execContextFetch qp s
  | .cnp qp => Sys2Proof.Machine.execCnp qp s
  | .kBlockBoundary p id => Sys2Proof.Machine.execKBlockBoundary p id s
  | .tileFill p id => Sys2Proof.Machine.execTileFill p id s
  | .scratchpadPass p id => Sys2Proof.Machine.execScratchpadPass p id s
  | .unmask v => Sys2Proof.Machine.execUnmask v s
  | .unreliablePacket port k => Sys2Proof.Machine.execUnreliablePacket port k s
  | .priorityFlowControl port prio pause => Sys2Proof.Machine.execPriorityFlowControl port prio pause s
  | .goldenReloadEnd => Sys2Proof.Machine.execGoldenReloadEnd s
  | .descriptorRewrite ctx d => Sys2Proof.Machine.execDescriptorRewrite ctx d s
  | .mctpRequest => Sys2Proof.Machine.execMctpRequest s

end Sys2Proof.Machine
end

