-- ==== Sys2Proof/Machine/Step.lean ====
section
/-! DEFINITION. One step of the device: the chosen party's instruction, or the next step of another agent (log 1); and the
state in which a given word is the next instruction (log 3). -/
namespace Sys2Proof.Machine

/-- The party chosen by ISSUE fetches and executes, or goes on with a passing over of R141; with no party chosen, the next queued step of another agent happens, or the
outside world takes one, or nothing does. -/
def step (s : State) : Host.Outcome State Fault Refusal :=
  match s.cur with
  | some p =>
    match s.siteOf p with
    | none => .next s.wait
    | some σ =>
      if !σ.runnable || σ.t.windowShut then .next s.wait
      else match s.passOn σ with
        | some t => .next t
        | none =>
          match s.fetch σ with
          | .instr i => exec i (s.sampleFetch σ)
          | r => .next (s.fetchFails σ r)
  | none =>
    match s.agenda with
    | e :: rest => exec e.what (({ s with agenda := rest }.lapse e.after).unblock e.what)
    | [] =>
      match Config.happening s.tick with
      | some (dt, i) => exec i (({ s with tick := s.tick + 1 }.lapse dt).unblock i)
      | none => .next { s with tick := s.tick + 1 }

/-! ## A given word as the next instruction -/

/-- Physical address of the page of code, and its virtual address. -/
def codePage : Nat := 0x10000

/-- Page tables that map the code page execute-only under key slot 1 (R232, R233). -/
def codeTables : List (Nat × Byte) :=
  let entry (a e : Nat) := located a (leBytes 8 e)
  entry 0x1000 0x2001 ++ entry 0x2000 0x3001 ++ entry 0x3000 0x4001 ++ entry 0x4000 0x5001 ++
  entry (0x5000 + 8 * 16) (2 ^ 56 + codePage + 0xA1)

/-- Context 0 with its tables at 0x1000, every cluster, no budget limits, RSTORE 1, no Wintering, and the descriptor's reset values
else (R363). -/
def codeContext : Context :=
  { id := 0
    desc := 0x1FFFFFFFF01FFFFFFFFFFFFFFFF4002903C320002000000000000000000000000000000000000000000000000000000000000000000000000000000#512
    newDesc := none, bktCore := 0, bktRead := 0, bktWrite := 0, bktEnergy := 0, used := 0, runnableSince := none,
    owed := none, placements := 0, holding := none
    graph := some
      { base := codePage
        nodes := [{ entry := codePage, msec := codePage, cseq := codePage, mlen := 4096, clen := 4096, nodeid := 0, intype := 0, edge0 := 0, nout := 1,
                    kind := 2, prio := 1, wavesM1 := 0, regs8 := 12, spanM1 := 0, depth := 16, scratchK := 4, phased := true,
                    idemp := false, dbg := true, isEntry := true, cores := 0, timer := 40, akv := false, akoff := 0,
                    bfirst := 0xFFFF, blast := 0xFFFF, carry := 0, dist := 0 }]
        types := [8], edges := [⟨0, 0, 64, true, .here⟩], entries := [0] }
    slices := [], formed := [], handles := [], keys := [1], run := .running, ladder := .none, stops := [], trapNode := none,
    mailbox := none, bps := [0, 0, 0, 0], smpIdx := 0, smpLost := 0, smpCount := 0, events := none, trapWait := [], ats := [],
    pri := [], tlb := [] }

/-- A thread at the code page, all else as R19 gives it. -/
def codeThread : Thread :=
  { pc := codePage, sregs := [], fregs := 0, smark := 0, flights := [], nextId := 0, wCluster := 0, wDev := 0, wSys := 0,
    ord := none, park := none, deferred := [], stallFrom := none, acqFences := [] }

/-- One resident workgroup of that context: one wave on core 0, a quadrant, and both sequencer threads running. -/
def codeWorkgroup : Workgroup :=
  { id := 0, ctx := 0, node := 0, wgid := 0, launch := 0, depth := 0, cores := [0], status := .resident, why := [],
    records := [⟨zeros 8, 0, none, 0⟩], doneTaken := false, join := 0, slots := [], scratchSize := 4096,
    scratchBase := 0, scratch := [], scratchBad := []
    waves := [{ t := codeThread, vregs := [], vmark := [], preds := [], e := 1, stack := [], fpst := 0, nevst := 0,
                nregs := 96, waveid := 0, core := 0, slot := 0, token := none, stamp := 0, passed := 0, promoted := 0,
                dbg := ⟨false, false, false, false, 0, none, none⟩, ended := false }]
    resv := some
      { quads := [0], tiles := List.replicate 8 ⟨[], 0, [], [], false⟩, accs := List.replicate 4 ⟨[], []⟩,
        queues := [], threads :=
          [⟨true, 0, codeThread, true, (0, 0), none, [], [], []⟩, ⟨false, 0, codeThread, true, (0, 0), none, [], [], []⟩],
        rdv := [] }
    placed := 0 }

/-- The party that runs a first word: a wave, or the sequencer whose extension it belongs to (R48). -/
def partyFor (w1 : Nat) : Party :=
  if permitted .core w1 then .wave 0 0 else if permitted .matrix w1 then .mseq 0 0 else .cseq 0 0

/-- Stands for the load of a program from outside the machine, by the host through firmware, and for its launch (log 3). -/
def State.withFetchWord (s : State) (nbits w : Nat) : State :=
  let bytes := leBytes 8 (w % 2 ^ nbits)
  let mem := (codeTables ++ located codePage bytes).foldl (fun m e => Sparse.set 0 m e.1 e.2) s.home.mem
  { s with
    cur := some (partyFor (w % 2 ^ nbits % 2 ^ 32))
    wgs := [codeWorkgroup]
    ctxs := [codeContext]
    nextWg := 1
    keys := [(1, 2)]
    home := { s.home with mem := mem, live := [0], poison := [], lineKey := [] } }

end Sys2Proof.Machine
end

