-- ==== Sys2Proof/Safety.lean ====
section
/-! DEFINITION. What counts as a safe run, and the words that claims use: the registers, memory and special state of a device, when an
instruction issues, and what its issue leaves (spec/01_sequential_machine.md R9 to R25, spec/09_memory_levels.md R215). -/
namespace Sys2Proof.Machine

/-! ## Runs -/

/-- The state after n steps, where every one of them answers a next state. -/
def State.after (s : State) : Nat → Option State
  | 0 => some s
  | n + 1 =>
    match step s with
    | .next t => t.after n
    | _ => none

/-- A run of n steps is safe: no step faults or is refused. -/
def State.SafeFor (s : State) (n : Nat) : Prop := (s.after n).isSome = true

/-- Memory is in its canonical form: addresses rise strictly and no listed byte is 0. -/
def State.MemOk (s : State) : Prop := s.home.mem.wf = true

/-! ## What a claim reads -/

/-- The thread of a party: a wave's or a sequencer's. -/
def State.threadOf (s : State) (p : Party) : Option Thread := (s.wg? p.wg).bind (·.thread? p)
def State.waveOf (s : State) (g k : Nat) : Option Wave := (s.wg? g).bind (·.wave? k)

/-- The contents of registers: v register r of lane l, s register n, predicate bit, flag. p0 and f0 read 1. -/
def Wave.v (w : Wave) (r l : Nat) : Word := Sparse.get 0 w.vregs (256 * r + l)
def Thread.s (t : Thread) (n : Nat) : DWord := Sparse.get 0 t.sregs n
def Wave.p (w : Wave) (k l : Nat) : Bool := k = 0 || (Sparse.get 0 w.preds k : Mask).getLsbD l
def Thread.f (t : Thread) (n : Nat) : Bool := n = 0 || t.fregs.getLsbD n

/-- The byte that memory holds at a physical address. -/
def State.byte (s : State) (a : Nat) : Byte := s.home.byte a

/-- No window is open over a register: a read sees what the register holds, and a write takes it (R21, R24). -/
def Thread.Quiet (t : Thread) : Prop := ∀ k, t.early k = []

/-- The lanes of a P-class form: the mask bit and the guard, with its negation, are 1 (R18, R31, R32). -/
def Wave.on (w : Wave) (i : Instr) (l : Nat) : Bool := w.e.getLsbD l && w.p (guard i).1 l != (guard i).2

/-- The word `w` stands at a program counter of a context: in device memory, on a page with execute permission, whole. -/
def State.WordAt (s : State) (c : Context) (pc w : Nat) : Prop :=
  w < 2 ^ 32 ∧ ∃ pa key lease, s.translate c (va64 pc) .exec = .ok pa key lease false ∧ inMemory pa = true ∧
    s.peekRun key pa 4 = ⟨leBytes 4 w, false⟩

/-! ## Issuing -/

/-- The party that issues is at σ, and nothing of R10, R20 to R23, R47 to R50, R86, R138, R198 or R252 keeps its instruction from
having its own effect now. -/
structure Issues (i : Instr) (s : State) (σ : Site) : Prop where
  site : s.site = some σ
  /-- its context runs, its workgroup is resident (a sequencer's may be ending, R292) with no lanes left of a fault (R383), and it is
  neither parked nor halted for debugging -/
  runnable : σ.runnable = true
  /-- no lookahead count of an earlier instruction has run out (R22) -/
  window : σ.t.windowShut = false
  /-- the counter of its path is below 63 (R138) -/
  room : σ.full i = false
  /-- an instruction of the executor's map (R46 to R48) with operands that encode (R49) -/
  runs : i.runsOn σ.p.executor = true
  wf : i.wf = true
  /-- every v register it names is allocated (R10) -/
  regs : ∀ w, σ.w = some w → vTop i ≤ w.nregs
  detached : i.la = 15 → σ.p.executor = .core → i.path ≠ none
  pad : σ.p.executor = .core ∨ scratchForm i = false
  /-- a pending ORD accepts it (R198) -/
  ord : ∀ o sc, σ.t.ord = some (o, sc) → ordOk o i = true
  /-- no source register that it reads is marked poisoned (R86) -/
  marks : (match σ.w with
    | some w => w.markedSrc s.tick i
    | none => (sSrcs i).any fun n => σ.t.smark.getLsbD n) = false
  /-- what a TBARV checks before its release finds nothing (R273) -/
  early : σ.early i s.tick = none
  /-- a release that it makes has nothing to wait for, and no deferred cause (R252, R260) -/
  release : ∀ sc, σ.releaseOf i = some sc →
    s.released σ sc = true ∧ (σ.p.executor = .core → σ.t.deferredOn .gst = none)

/-- The same, as a test. -/
def issuesB (i : Instr) (s : State) (σ : Site) : Bool :=
  s.site == some σ && !σ.holds i && (σ.gate i s.tick).isNone && (σ.early i s.tick).isNone &&
    match σ.releaseOf i with
    | some sc => s.released σ sc && (σ.p.executor != .core || (σ.t.deferredOn .gst).isNone)
    | none => true

/-- The wave does not step (R397), no halt is asked of it, and no trap waits. -/
def Wave.Undebugged (w : Wave) : Prop := w.dbg.step = false ∧ w.dbg.haltreq = false ∧ w.dbg.pending = none

/-- It issues, no register of the party is inside an open window, and nobody debugs the party. -/
structure Plain (i : Instr) (s : State) (σ : Site) : Prop where
  issues : Issues i s σ
  quiet : σ.t.Quiet
  still : ∀ w, σ.w = some w → w.Undebugged

/-- The same for wave k of workgroup g. -/
structure PlainWave (i : Instr) (s : State) (σ : Site) (g k : Nat) (w : Wave) : Prop where
  plain : Plain i s σ
  party : σ.p = .wave g k
  wave : σ.w = some w

/-- Nobody issues next, and one step has gone by. -/
def State.issued (s : State) : State := { s with cur := none, blocked := [], tick := s.tick + 1 }

/-- `t` is `s` after an issue that turns wave k of workgroup g from w into w'. Nothing else of the machine has changed. -/
def State.Leaves (s t : State) (g k : Nat) (w w' : Wave) : Prop := ∃ f : Wave → Wave, f w = w' ∧ t = s.issued.updWave g k f
/-- The same of a sequencer thread. -/
def State.LeavesThread (s t : State) (p : Party) (u u' : Thread) : Prop :=
  ∃ f : Thread → Thread, f u = u' ∧ t = s.issued.updThread p f

/-- The address after an instruction (R16, R28). -/
def Thread.past (t : Thread) (i : Instr) : Nat := (t.pc + 4 * i.words) % 2 ^ 57

/-- A thread after one of its instructions has issued: what its s registers and flags hold, and where it goes on. All else but its
instructions in flight is as before, and a pending ORD has been used up (R198). -/
structure ThreadStep (t t' : Thread) (pc : Nat) (sr : Nat → DWord) (fr : Nat → Bool) : Prop where
  sregs : ∀ n, n < 64 → t'.s n = sr n
  flags : ∀ n, n < 8 → t'.f n = fr n
  rest : t' = { t with pc := pc, sregs := t'.sregs, fregs := t'.fregs, smark := t'.smark, flights := t'.flights,
                       nextId := t'.nextId, ord := none, stallFrom := none }

/-- A wave after one of its instructions has issued: its registers, the flags raised so far, where it goes on. All else is as
before. -/
structure WaveStep (w w' : Wave) (pc : Nat) (v : Nat → Nat → Word) (p : Nat → Nat → Bool) (sr : Nat → DWord)
    (fr : Nat → Bool) (raised : FlagSet) : Prop where
  vregs : ∀ r l, l < 256 → w'.v r l = v r l
  preds : ∀ k l, l < 256 → w'.p k l = p k l
  thread : ThreadStep w.t w'.t pc sr fr
  flags : w'.flags = w.flags ||| raised
  rest : w' = { w with t := w'.t, vregs := w'.vregs, vmark := w'.vmark, preds := w'.preds, fpst := w'.fpst, passed := 0,
                       promoted := 0, dbg := { w.dbg with skipbp := false } }

/-- The state in which party σ.p has issued with thread t' and, on a core, the raised flags: nothing else of the machine has
changed but who issues next. -/
def UniformStep (s s' : State) (σ : Site) (pc : Nat) (sr : Nat → DWord) (fr : Nat → Bool) (raised : FlagSet) : Prop :=
  match σ.p, σ.w with
  | .wave g k, some w =>
    ∃ w', s.Leaves s' g k w w' ∧ WaveStep w w' pc w.v w.p sr fr raised
  | p, _ => ∃ t', s.LeavesThread s' p σ.t t' ∧ ThreadStep σ.t t' pc sr fr

/-! ## Sources as a claim names them -/

/-- A 32-bit source of a lane (R12). -/
def Wave.a32 (w : Wave) (l : Nat) : Src → Word
  | .v r => w.v r l
  | .s n => (w.t.s n).setWidth 32
/-- A 64-bit source of a lane: an even pair or a broadcast register (R11, R12). -/
def Wave.a64 (w : Wave) (l : Nat) : Src → DWord
  | .v r => w.v (r + 1) l ++ w.v r l
  | .s n => w.t.s n
/-- The second source of a scalar form (R44). -/
def Thread.opnd (t : Thread) : SOpnd → DWord
  | .r n => t.s n
  | .imm n => n.setWidth 64

/-! ## Results of per-lane forms, as the rules give them -/

/-- The least of two words, signed or not. -/
def leastOf (signed : Bool) (a b : Word) : Word :=
  if signed then (if a.toInt ≤ b.toInt then a else b) else if a.toNat ≤ b.toNat then a else b
def greatestOf (signed : Bool) (a b : Word) : Word :=
  if signed then (if a.toInt ≤ b.toInt then b else a) else if a.toNat ≤ b.toNat then b else a

/-- Position and length of the field of BFX and BFI (R95). -/
def fieldAt (w : Wave) (l : Nat) : Fld → Nat × Nat
  | .imm pos lenM1 => (pos, lenM1 + 1)
  | .reg b =>
    let x := w.a32 l b
    let pos := (x.extractLsb' 0 5).toNat
    (pos, min ((x.extractLsb' 8 5).toNat + 1) (32 - pos))

/-- Byte i of a word as a number, signed or not. -/
def byteOf (signed : Bool) (x : Word) (i : Nat) : Int :=
  if signed then (x.extractLsb' (8 * i) 8).toInt else (x.extractLsb' (8 * i) 8).toNat

/-- Four products of bytes and a word added exactly, then saturated or wrapped (R96). -/
def dotOf (sa sb sat : Bool) (a b c : Word) : Word :=
  let signed := sa || sb
  let sum := (if signed then c.toInt else c.toNat) + byteOf sa a 0 * byteOf sb b 0 + byteOf sa a 1 * byteOf sb b 1 +
    byteOf sa a 2 * byteOf sb b 2 + byteOf sa a 3 * byteOf sb b 3
  let lo : Int := if signed then -2 ^ 31 else 0
  let hi : Int := if signed then 2 ^ 31 - 1 else 2 ^ 32 - 1
  BitVec.ofInt 32 (if sat then max lo (min hi sum) else sum)

/-- The lane that SHFL reads (R150). -/
def shuffled (m : ShflMode) (l n : Nat) : Nat :=
  match m with
  | .idx => n
  | .up => if n ≤ l then l - n else l
  | .down => if l + n < 256 then l + n else l
  | .xor => l ^^^ n

/-- Forms with a 32-bit result in each active lane: the register and its value in a lane (R90 to R96, R149 to R151). -/
def laneWord (w : Wave) (l : Nat) (i : Instr) : Option (Nat × Word) :=
  let x := w.a32 l
  match i with
  | .iadd o => some (o.d, x o.a + x o.b)
  | .iaddI o => some (o.d, x o.a + o.imm.signExtend 32)
  | .isub o => some (o.d, x o.a - x o.b)
  | .isubI o => some (o.d, x o.a - o.imm.signExtend 32)
  | .imul o => some (o.d, x o.a * x o.b)
  | .imulI o => some (o.d, x o.a * o.imm.signExtend 32)
  | .imin o => some (o.d, leastOf true (x o.a) (x o.b))
  | .iminU o => some (o.d, leastOf false (x o.a) (x o.b))
  | .imax o => some (o.d, greatestOf true (x o.a) (x o.b))
  | .imaxU o => some (o.d, greatestOf false (x o.a) (x o.b))
  | .iabs o => some (o.d, if (x o.a).toInt < 0 then -(x o.a) else x o.a)
  | .ineg o => some (o.d, -(x o.a))
  | .shl o => some (o.d, x o.a <<< ((x o.b).extractLsb' 0 5).toNat)
  | .shlI o => some (o.d, x o.a <<< o.n.toNat)
  | .shr o => some (o.d, x o.a >>> ((x o.b).extractLsb' 0 5).toNat)
  | .shrI o => some (o.d, x o.a >>> o.n.toNat)
  | .sar o => some (o.d, (x o.a).sshiftRight ((x o.b).extractLsb' 0 5).toNat)
  | .sarI o => some (o.d, (x o.a).sshiftRight o.n.toNat)
  | .iand o => some (o.d, x o.a &&& x o.b)
  | .iandI o => some (o.d, x o.a &&& o.imm.signExtend 32)
  | .ior o => some (o.d, x o.a ||| x o.b)
  | .iorI o => some (o.d, x o.a ||| o.imm.signExtend 32)
  | .ixor o => some (o.d, x o.a ^^^ x o.b)
  | .ixorI o => some (o.d, x o.a ^^^ o.imm.signExtend 32)
  | .iandn o => some (o.d, x o.a &&& ~~~(x o.b))
  | .inot o => some (o.d, ~~~(x o.a))
  | .popc o => some (o.d, BitVec.ofNat 32 ((List.range 32).filter (x o.a).getLsbD).length)
  | .clz o => some (o.d, BitVec.ofNat 32 ((List.range 32).takeWhile fun k => !(x o.a).getLsbD (31 - k)).length)
  | .brev o => some (o.d, (x o.a).reverse)
  | .mov o => some (o.d, x o.a)
  | .mrank o => some (o.d, BitVec.ofNat 32 ((List.range l).filter fun j => w.on i j && w.p o.p j).length)
  | .imad o => some (o.d, x o.a * x o.b + x o.c)
  | .imulh o =>
    some (o.d, if o.u then ((x o.a).setWidth 64 * (x o.b).setWidth 64).extractLsb' 32 32
      else ((x o.a).signExtend 64 * (x o.b).signExtend 64).extractLsb' 32 32)
  | .sel o => some (o.d, if w.p o.p l then x o.a else x o.b)
  | .movi o => some (o.d, o.imm.signExtend 32)
  | .moviZ o => some (o.d, o.imm.setWidth 32)
  | .moviHi o => some (o.d, o.imm ++ (w.v o.d l).extractLsb' 0 16)
  | .bfx o =>
    let f := fieldAt w l o.fld
    let y := x o.a <<< (32 - f.1 - f.2)
    some (o.d, if o.sgn then y.sshiftRight (32 - f.2) else y >>> (32 - f.2))
  | .bfi o =>
    let f := fieldAt w l o.fld
    let m := ((1#32 <<< f.2) - 1) <<< f.1
    some (o.d, (w.v o.d l &&& ~~~m) ||| ((x o.a <<< f.1) &&& m))
  | .idot4 o => some (o.d, dotOf o.sa o.sb o.sat (x o.a) (x o.b) (x o.c))
  | .shfl o =>
    let n := match o.n with | .reg b => ((x b).extractLsb' 0 8).toNat | .imm n => n.toNat
    some (o.d, w.a32 (shuffled o.mode l n) o.a)
  | .bcast o =>
    let j := match o.n with | .imm n => n.toNat | .s n => ((w.t.s n).extractLsb' 0 8).toNat
    some (o.d, w.a32 j o.a)
  | _ => none

/-- Forms with a 64-bit result in each active lane (R94, R92). -/
def laneDword (w : Wave) (l : Nat) : Instr → Option (Nat × DWord)
  | .leaX1 o => some (o.d, w.a64 l o.a + (w.a32 l o.b).signExtend 64)
  | .leaX2 o => some (o.d, w.a64 l o.a + 2 * (w.a32 l o.b).signExtend 64)
  | .leaX4 o => some (o.d, w.a64 l o.a + 4 * (w.a32 l o.b).signExtend 64)
  | .leaX8 o => some (o.d, w.a64 l o.a + 8 * (w.a32 l o.b).signExtend 64)
  | .imadWide o => some (o.d, (w.a32 l o.a).setWidth 64 * (w.a32 l o.b).setWidth 64 + w.a64 l o.c)
  | _ => none

/-- The truth of an integer condition (R93). -/
def condOf {n : Nat} (c : ICond) (a b : BitVec n) : Bool :=
  match c with
  | .eq => decide (a = b)
  | .ne => decide (a ≠ b)
  | .lt => decide (a.toInt < b.toInt)
  | .le => decide (a.toInt ≤ b.toInt)
  | .gt => decide (b.toInt < a.toInt)
  | .ge => decide (b.toInt ≤ a.toInt)
  | .ltU => decide (a.toNat < b.toNat)
  | .leU => decide (a.toNat ≤ b.toNat)
  | .gtU => decide (b.toNat < a.toNat)
  | .geU => decide (b.toNat ≤ a.toNat)

/-! ## Results of floating forms and conversions -/

/-- A source of a floating form: 64 bits under .F64, 32 otherwise (R97). -/
def Wave.aF (w : Wave) (l : Nat) (t : FTy) (a : Src) : DWord := if t = .f64 then w.a64 l a else (w.a32 l a).setWidth 64
/-- A source of a conversion (R103). -/
def Wave.aT (w : Wave) (l : Nat) (t : Ty) (a : Src) : Nat := if t.wide = true then (w.a64 l a).toNat else (w.a32 l a).toNat

/-- Forms with a result of one or two registers and flags in each active lane: first register, number of registers, value, raised flags
(R97 to R99, R102 to R106, R108). The operations on one element are those of Num, FloatOps and Approx. -/
def laneFloat (w : Wave) (l : Nat) (i : Instr) : Option (Nat × Nat × DWord × FlagSet) :=
  let two (o : F2) (op : FloatFmt → Nat → Nat → Res) : Option (Nat × Nat × DWord × FlagSet) :=
    some (o.d, ftyRegs o.m.ty, perElem o.m.ty (fun f a b _ => op f a b) (w.aF l o.m.ty o.a) (w.aF l o.m.ty o.b) 0)
  let one (o : F1) (op : FloatFmt → Nat → Res) : Option (Nat × Nat × DWord × FlagSet) :=
    some (o.d, ftyRegs o.m.ty, perElem o.m.ty (fun f a _ _ => op f a) (w.aF l o.m.ty o.a) 0 0)
  let word (d n : Nat) (r : Res) : Option (Nat × Nat × DWord × FlagSet) := some (d, n, BitVec.ofNat 64 r.bits, r.fl)
  match i with
  | .fadd o => two o (elAdd o.m)
  | .fsub o => two o (elSub o.m)
  | .fmul o => two o (elMul o.m)
  | .fmin o => two o (elMinMax true o.m)
  | .fmax o => two o (elMinMax false o.m)
  | .ffma o =>
    some (o.d, ftyRegs o.m.ty, perElem o.m.ty (elFma o.m) (w.aF l o.m.ty o.a) (w.aF l o.m.ty o.b) (w.aF l o.m.ty o.c))
  | .frnd o => one o (elRnd o.m)
  | .ffrac o => one o (elFrac o.m)
  | .fsqrt o => one o (elSqrt o.m)
  | .frcp o => one o (elFn .rcp o.m)
  | .frsq o => one o (elFn .rsq o.m)
  | .fexp2 o => one o (elFn .exp2 o.m)
  | .flog2 o => one o (elFn .log2 o.m)
  | .fsin o => one o (elFn .sin o.m)
  | .fcos o => one o (elFn .cos o.m)
  | .ftanh o => one o (elFn .tanh o.m)
  | .cvt o => word o.d (if o.dst.wide = true then 2 else 1) (convert o.src o.dst o.rm o.sat o.ftz (w.aT l o.src o.a))
  | .cvtsr o => word o.d 1 (cvtsr o.dst o.sat o.ftz ((w.a32 l o.c).extractLsb' 0 16).toNat (w.a32 l o.a).toNat)
  | .pack o =>
    let r := convert (packWide o.ty) o.ty .rn o.sat false (w.a32 l o.a).toNat
    let pl := slotPlace o.ty o.pos
    let m := ((1#32 <<< pl.2) - 1) <<< pl.1
    some (o.d, 1, ((w.v o.d l &&& ~~~m) ||| ((BitVec.ofNat 32 r.bits <<< pl.1) &&& m)).setWidth 64, r.fl)
  | .unpk o =>
    let pl := slotPlace o.ty o.pos
    word o.d 1 (convert o.ty (packWide o.ty) .rn false false ((w.a32 l o.a).extractLsb' pl.1 pl.2).toNat)
  | .dqblk o => word o.d 1 (dequant o.ty (w.a32 l o.a).toNat (w.a32 l o.c).toNat)
  | _ => none

/-- Forms with a predicate bit and flags in each active lane (R100, R101). -/
def laneTruth (w : Wave) (l : Nat) : Instr → Option (Nat × Bool × FlagSet)
  | .fcmp o => some (o.d, perElemP o.ty (elCmp o.cond o.ftz) (w.aF l o.ty o.a) (w.aF l o.ty o.b))
  | .fclass o => some (o.d, perElemP o.ty (fun f a _ => (o.mask.getLsbD (elClass f a), 0)) (w.aF l o.ty o.a) 0)
  | _ => none

/-- The active lanes in rising order. -/
def Wave.lanes (w : Wave) (i : Instr) : List Nat := (List.range 256).filter (w.on i)
/-- Flags raised over the active lanes (R70). -/
def Wave.raisedBy (w : Wave) (i : Instr) (f : Nat → FlagSet) : FlagSet := (w.lanes i).foldl (fun a l => a ||| f l) 0

/-- The value that a chain of a reduction has after the values of some lanes, and the flags it has raised (R152). -/
def chainOf (op : ROp) : List Word → Word × FlagSet
  | [] => (ropIdentity op, 0)
  | x :: xs => xs.foldl (fun p y => ((ropApply op p.1 y).1, p.2 ||| (ropApply op p.1 y).2)) (ropFirst op x)

/-! ## Results of uniform forms -/

/-- A condition or operation over 64 bits, or under .W32 over bits [31:0] with a zero-extended result (R109, R110). -/
def at32 (w32 : Bool) (f : {n : Nat} → BitVec n → BitVec n → BitVec n) (a b : DWord) : DWord :=
  if w32 then (f (a.setWidth 32) (b.setWidth 32)).setWidth 64 else f a b
/-- The width of the operation. -/
def width32 (w32 : Bool) : Nat := if w32 then 32 else 64

/-- Uniform forms with a 64-bit result: its register and value (R109, R110 to R113). -/
def uniWord (t : Thread) : Instr → Option (Nat × DWord)
  | .sadd o => some (o.d, at32 o.w32 (fun a b => a + b) (t.s o.a) (t.opnd o.b))
  | .ssub o => some (o.d, at32 o.w32 (fun a b => a - b) (t.s o.a) (t.opnd o.b))
  | .smul o => some (o.d, at32 o.w32 (fun a b => a * b) (t.s o.a) (t.opnd o.b))
  | .smad o => some (o.d, at32 o.w32 (fun a b => a + b) (at32 o.w32 (fun a b => a * b) (t.s o.a) (t.opnd o.b)) (t.s o.d))
  | .smin o =>
    some (o.d, at32 o.w32 (fun a b => if (if o.u then a.toNat < b.toNat else a.toInt < b.toInt) then a else b) (t.s o.a) (t.opnd o.b))
  | .smax o =>
    some (o.d, at32 o.w32 (fun a b => if (if o.u then a.toNat < b.toNat else a.toInt < b.toInt) then b else a) (t.s o.a) (t.opnd o.b))
  | .sand o => some (o.d, at32 o.w32 (fun a b => a &&& b) (t.s o.a) (t.opnd o.b))
  | .sor o => some (o.d, at32 o.w32 (fun a b => a ||| b) (t.s o.a) (t.opnd o.b))
  | .sxor o => some (o.d, at32 o.w32 (fun a b => a ^^^ b) (t.s o.a) (t.opnd o.b))
  | .sshl o => some (o.d, at32 o.w32 (fun a b => a <<< (b.toNat % width32 o.w32)) (t.s o.a) (t.opnd o.b))
  | .sshr o => some (o.d, at32 o.w32 (fun a b => a >>> (b.toNat % width32 o.w32)) (t.s o.a) (t.opnd o.b))
  | .ssar o => some (o.d, at32 o.w32 (fun a b => a.sshiftRight (b.toNat % width32 o.w32)) (t.s o.a) (t.opnd o.b))
  | .ssel o => some (o.d, if t.f o.f != o.neg then t.s o.a else t.s o.b)
  | .smov o => some (o.d, t.s o.a)
  | .slit o => some (o.d, o.v.signExtend 64)
  | .slitMid o => some (o.d, (t.s o.d &&& 0xFF0000000FFFFFFF) ||| (o.v.setWidth 64 <<< 28))
  | .slitTop o => some (o.d, (t.s o.d &&& 0x00FFFFFFFFFFFFFF) ||| (o.v.setWidth 64 <<< 56))
  | .slea o => some (o.d, t.s o.a + t.opnd o.b * BitVec.ofNat 64 (2 ^ o.k.val))
  | .spopc o => some (o.d, BitVec.ofNat 64 ((List.range (width32 o.w32)).filter (t.s o.a).getLsbD).length)
  | .sclz o =>
    let n := width32 o.w32
    some (o.d, BitVec.ofNat 64 ((List.range n).takeWhile fun k => !(t.s o.a).getLsbD (n - 1 - k)).length)
  | .sbfx o =>
    let x := (t.s o.a).extractLsb' o.pos.val (o.lenM1.val + 1)
    some (o.d, if o.sgn then x.signExtend 64 else x.setWidth 64)
  | _ => none

/-- Uniform floating forms and SCVT: the register, the result in its place, and the raised flags (R114, R116). -/
def uniFloat (t : Thread) : Instr → Option (Nat × Res) :=
  let place (ty : STy) (n : Nat) : Nat := (t.s n).toNat % 2 ^ ((styFmt ty).mb + (styFmt ty).eb + 1)
  fun i => match i with
  | .sfadd o => some (o.d, elAdd ⟨.f32, o.rm, o.ftz⟩ (styFmt o.ty) (place o.ty o.a) (place o.ty o.b))
  | .sfmul o => some (o.d, elMul ⟨.f32, o.rm, o.ftz⟩ (styFmt o.ty) (place o.ty o.a) (place o.ty o.b))
  | .sffma o => some (o.d, elFma ⟨.f32, o.rm, o.ftz⟩ (styFmt o.ty) (place o.ty o.a) (place o.ty o.b) (place o.ty o.d))
  | .scvt o => some (o.d, convert o.src o.dst o.rm o.sat o.ftz (t.s o.a).toNat)
  | _ => none

/-- Uniform compares: the flag, its value and the raised flags (R110, R115). -/
def uniTruth (t : Thread) : Instr → Option (Nat × Bool × FlagSet)
  | .scmp o =>
    let a := t.s o.a
    let b := t.opnd o.b
    some (o.d, if o.w32 then condOf o.cond (a.setWidth 32) (b.setWidth 32) else condOf o.cond a b, 0)
  | .sfcmp o =>
    let w := (styFmt o.ty).mb + (styFmt o.ty).eb + 1
    let r := elCmp o.cond false (styFmt o.ty) ((t.s o.a).toNat % 2 ^ w) ((t.s o.b).toNat % 2 ^ w)
    some (o.d, r.1, r.2)
  | _ => none

/-- A special register's value in a lane, where no flag is still on its way to %fpst (R14, R402). -/
def specialOf (s : State) (σ : Site) (w : Wave) (l : Nat) (idx : Byte) : DWord :=
  BitVec.ofNat 64 <|
    if idx = 0x00 then l else if idx = 0x01 then w.waveid else if idx = 0x02 then w.slot else if idx = 0x03 then w.core
    else if idx = 0x04 then clusterOfCore w.core else if idx = 0x05 then σ.g.wgid else if idx = 0x06 then σ.n.wavesM1 + 1
    else if idx = 0x07 then σ.g.node else if idx = 0x08 then σ.g.depth else if idx = 0x09 then σ.g.ctx
    else if idx = 0x20 then w.fpst.toNat else if idx = 0x21 then w.nevst.toNat else s.time

/-! ## Issues that leave more than registers -/

/-- `t` is `s`, in which a claim has made the instruction's other effects, after party σ.p has issued: a wave or a sequencer thread
that was, but for those effects, `u`. -/
def IssueStep (s t : State) (σ : Site) (u : Thread) (pc : Nat) (sr : Nat → DWord) (fr : Nat → Bool) : Prop :=
  match σ.p, σ.w with
  | .wave g k, some w => ∃ w', s.Leaves t g k w w' ∧ WaveStep { w with t := u } w' pc w.v w.p sr fr 0
  | p, _ => ∃ t', s.LeavesThread t p σ.t t' ∧ ThreadStep u t' pc sr fr

/-- The same where only the program counter has moved and an instruction may have joined those in flight. -/
def PlainStep (i : Instr) (s t : State) (σ : Site) : Prop := IssueStep s t σ σ.t (σ.t.past i) σ.t.s σ.t.f

/-- The stop record's detail of a cause met at issue, with no fault address (R380). -/
def Site.detail (σ : Site) (c : Cause) (faddr : Nat := 0) (lane : Option Nat := none) : Detail :=
  ⟨c, va64 σ.t.pc, faddr, lane, false, 0⟩

/-! ## Branches and structured regions -/

/-- An address that a branch may go to (R38). -/
def reachable (a : Nat) : Bool := a % 4 == 0 && canonical a
/-- The address of a word at a signed offset from an instruction (R38). -/
def offsetFrom (pc : Nat) (off : Int) : Nat := (((va64 pc : Nat) + 4 * off) % (2 ^ 64 : Nat)).toNat

/-- A wave's lanes of E whose predicate bit, negated where asked, is 1. -/
def Wave.those (w : Wave) (p : Nat) (neg : Bool) (l : Nat) : Bool := w.e.getLsbD l && w.p p l != neg

/-- Whether an instruction is NOP or a branch. -/
def isBranch : Instr → Bool
  | .nop | .bra _ | .brx _ | .call _ | .ret _ | .brf _ | .bany _ | .ball _ => true
  | _ => false

/-- Where a branch goes, if it does (R117, R118, R145). -/
def branchOf (σ : Site) : Instr → Option Nat
  | .bra off | .call off => some (offsetFrom σ.t.pc off.toInt)
  | .brx a | .ret a => some (σ.t.s a).toNat
  | .brf o => if σ.t.f o.f != o.neg then some (offsetFrom σ.t.pc o.off.toInt) else none
  | .bany o =>
    match σ.w with
    | some w => if (List.range 256).any (w.those o.p o.neg) then some (offsetFrom σ.t.pc o.off.toInt) else none
    | none => none
  | .ball o =>
    match σ.w with
    | some w => if (List.range 256).all fun l => !w.e.getLsbD l || w.those o.p o.neg l then some (offsetFrom σ.t.pc o.off.toInt) else none
    | none => none
  | _ => none

/-- E and a predicate, negated where asked, as a mask. -/
def Wave.theseLanes (w : Wave) (p : Nat) (neg : Bool) : Mask :=
  let m : Mask := if p = 0 then BitVec.allOnes 256 else Sparse.get 0 w.preds p
  w.e &&& (if neg then ~~~m else m)

/-- What a structured instruction leaves: program counter, E and the mask stack, before the check for an empty E; none where its own
check fails (R142, R143). -/
def structured (pc : Nat) (w : Wave) : Instr → Option (Nat × Mask × List MaskEntry)
  | .ifP o =>
    let t := w.theseLanes o.p o.neg
    if w.stack.length < 32 then some (pc + 8, t, ⟨.ifK, w.e &&& ~~~t, offsetFrom pc o.off.toInt % 2 ^ 57⟩ :: w.stack) else none
  | .elseP off =>
    match w.stack with
    | ⟨.ifK, m, _⟩ :: rest => some (pc + 4, m, ⟨.elseK, w.e, offsetFrom pc off.toInt % 2 ^ 57⟩ :: rest)
    | _ => none
  | .endifP =>
    match w.stack with
    | ⟨.ifK, m, _⟩ :: rest | ⟨.elseK, m, _⟩ :: rest => some (pc + 4, w.e ||| m, rest)
    | _ => none
  | .loopP off =>
    if w.stack.length < 32 then some (pc + 4, w.e, ⟨.loopK, w.e, (offsetFrom pc off.toInt + 2 ^ 57 - 4) % 2 ^ 57⟩ :: w.stack) else none
  | .breakP p neg => if w.stack.any (·.kind == .loopK) then some (pc + 4, w.e &&& ~~~(w.theseLanes p neg), w.stack) else none
  | .endloopP off =>
    match w.stack with
    | ⟨.loopK, m, _⟩ :: rest => if w.e = 0 then some (pc + 4, m, rest) else some (offsetFrom pc off.toInt, w.e, w.stack)
    | _ => none
  | _ => none

/-- The target of a structured instruction that has one which it uses: ENDLOOP with E empty uses none. -/
def structTarget (pc : Nat) (e : Mask) : Instr → Option Nat
  | .ifP o => some (offsetFrom pc o.off.toInt)
  | .elseP off | .loopP off => some (offsetFrom pc off.toInt)
  | .endloopP off => if e = 0 then none else some (offsetFrom pc off.toInt)
  | _ => none

def isStructured : Instr → Bool
  | .ifP _ | .elseP _ | .endifP | .loopP _ | .breakP _ _ | .endloopP _ => true
  | _ => false

/-- ELSE, ENDIF and ENDLOOP, the instructions that an empty E may meet (R141). -/
def isClosing : Instr → Bool
  | .elseP _ | .endifP | .endloopP _ => true
  | _ => false

/-! ## Accesses -/

/-- Contexts are as they were, but for bucket levels and kept translations (R236, R367). -/
def State.Charged (s t : State) : Prop :=
  ∀ k c, s.ctx? k = some c → ∃ c', t.ctx? k = some c' ∧ c' = { c with bktRead := c'.bktRead, bktWrite := c'.bktWrite, tlb := c'.tlb }

/-- A barrier word after an arrival, in a workgroup of n waves (R199, R200). -/
def barrierNext (x n : Nat) : Nat :=
  let expected := if x / 2 ^ 16 % 64 = 0 then n else x / 2 ^ 16 % 64
  if x % 64 + 1 = expected then (x / 2 ^ 32 + 1) % 2 ^ 32 * 2 ^ 32 + (x % 2 ^ 32 - x % 64) else x + 1

/-- A barrier word that a wave may arrive at: in bounds, aligned, not marked, reserved bits 0, EXPECTED at most 32, and an arrival still
expected (R201). -/
structure Site.BarrierAt (σ : Site) (off x : Nat) : Prop where
  aligned : off % 8 = 0
  inside : off + 8 ≤ σ.g.scratchSize
  word : σ.g.scratchRead off 8 = x
  clean : σ.g.scratchMarked off 8 = false

structure BarrierOpen (x n : Nat) : Prop where
  reserved : x / 64 % 2 ^ 10 = 0 ∧ x / 2 ^ 22 % 2 ^ 10 = 0
  expected : x / 2 ^ 16 % 64 ≤ 32
  arrived : x % 64 < if x / 2 ^ 16 % 64 = 0 then n else x / 2 ^ 16 % 64

/-- The truth of a monitor's condition between the value read and the value compared (R207). -/
def metBy (c : MCond) (v x : Nat) : Prop :=
  match c with
  | .ne => v ≠ x
  | .eq => v = x
  | .geu => x ≤ v
  | .ltu => v < x

/-- The queue entry of one atomic that a uniform form makes at a checked place (R136, R203, R275). -/
def Site.atomicEntry (σ : Site) (n : Nat) (kind : QKind) (a : Access) : QEntry :=
  { n := n, owner := .flight σ.p σ.t.nextId, ctx := σ.c.id, cluster := σ.cluster, core := σ.core, kind := kind, line := lineOf (a.pa.getD 0),
    key := a.key, lease := a.lease, host := a.host, bytes := [(a.pa.getD 0, 0)], accs := [a], times := none, held := false, bad := false }

/-- An instruction in flight of a thread, that owes acknowledgements. -/
def Thread.owes (u : Thread) (i : Instr) (id n : Nat) : Prop := ∃ f ∈ u.flights, f.id = id ∧ f.i = i ∧ f.owed = n

/-- A step of another agent that does nothing but count as one. -/
def State.idle (s : State) : State := { s with tick := s.tick + 1 }

/-- The address of a lane's access (R125). -/
def Wave.place (w : Wave) (l : Nat) (sp : Space) (a : Src) (ix : Option (Src × Fin 4)) (off : BitVec 12) : Int :=
  let i : Int := match ix with | some (b, k) => (w.a32 l b).toInt * (2 ^ k.val : Nat) | none => 0
  match sp with
  | .g => ((w.a64 l a).toNat + i + off.toInt) % (2 ^ 64 : Nat)
  | .s => (w.a32 l a).toNat + i + off.toInt
/-- The address of a uniform access (R134). -/
def Thread.place (t : Thread) (sp : Space) (a : Nat) (off : BitVec 20) : Int :=
  match sp with
  | .g => ((t.s a).toNat + off.toInt) % (2 ^ 64 : Nat)
  | .s => ((t.s a).toNat % 2 ^ 32 : Nat) + off.toInt
/-- n registers of a lane as a number, or a broadcast register (R11, R12). -/
def Wave.words (w : Wave) (l n : Nat) : Src → Nat
  | .v r => (List.range n).foldr (fun k acc => (w.v (r + k) l).toNat + 2 ^ 32 * acc) 0
  | .s m => (w.t.s m).toNat
/-- The operand of an atomic and, under CAS, the value compared: the first half of its registers is compared, the second stored (R192). -/
def Wave.operand (w : Wave) (l : Nat) (op : AOp) (size : Size) (b : Src) : Nat × Nat :=
  match op, b with
  | .cas, .v r => (w.words l (sizeRegs size) (.v (Fin.ofNat 96 (r + sizeRegs size))), w.words l (sizeRegs size) b)
  | _, _ => (w.words l (sizeRegs size) b % 2 ^ (8 * sizeBytes size), 0)

/-- What a memory instruction does in a lane: space, bytes, use of the page, address, operand and compared value. -/
structure Touch where
  sp : Space
  bytes : Nat
  need : Need
  addr : Int
  v : Nat
  cmp : Nat

/-- The access of a per-lane form in a lane, and of a uniform form (R124 to R134, R192). -/
def Site.touch (σ : Site) (l : Nat) (i : Instr) : Option Touch :=
  match i, σ.w with
  | .ld o, some w => some ⟨o.sp, sizeBytes o.size, .read, w.place l o.sp o.mem.a o.mem.ix o.mem.off, 0, 0⟩
  | .st o, some w | .stNb o, some w =>
    some ⟨o.sp, sizeBytes o.size, .write, w.place l o.sp o.mem.a o.mem.ix o.mem.off, w.words l (sizeRegs o.size) o.d % 2 ^ (8 * sizeBytes o.size), 0⟩
  | .atom o, some w =>
    some ⟨o.sp, sizeBytes o.size, .both, w.place l o.sp o.a none o.off, (w.operand l o.op o.size o.b).1, (w.operand l o.op o.size o.b).2⟩
  | .red o, some w =>
    some ⟨o.sp, sizeBytes o.size, .both, w.place l o.sp o.a none o.off, (w.operand l o.op o.size o.b).1, (w.operand l o.op o.size o.b).2⟩
  | .sld o, _ => some ⟨o.sp, sizeBytes o.size, .read, σ.t.place o.sp o.a o.off, 0, 0⟩
  | .sst o, _ => some ⟨o.sp, sizeBytes o.size, .write, σ.t.place o.sp o.a o.off, (σ.t.s o.b).toNat % 2 ^ (8 * sizeBytes o.size), 0⟩
  | .satom o, _ =>
    let n := 2 ^ (8 * sizeBytes o.size)
    let b := (σ.t.s o.b).toNat % n
    let x := if o.op = .cas then ((σ.t.s (o.b + 1)).toNat % n, b) else (b, 0)
    some ⟨o.sp, sizeBytes o.size, .both, σ.t.place o.sp o.a o.off, x.1, x.2⟩
  | _, _ => none

def isUniformAccess : Instr → Bool
  | .sld _ | .sst _ | .satom _ => true
  | _ => false
/-- The lanes that a memory instruction acts in: a uniform form acts once. -/
def Site.touchLanes (σ : Site) (i : Instr) : List Nat :=
  if isUniformAccess i then [0] else match σ.w with | some w => w.lanes i | none => []

/-- The space that a form of these instructions names. -/
def touchSpace : Instr → Option Space
  | .ld o => some o.sp
  | .st o | .stNb o => some o.sp
  | .atom o => some o.sp
  | .red o => some o.sp
  | .sld o => some o.sp
  | .sst o => some o.sp
  | .satom o => some o.sp
  | _ => none

/-- Every lane's access passes the checks of R126, and these are the accesses, with their data. -/
def Touches (s : State) (σ : Site) (i : Instr) (sp : Space) (accs : List Access) : Prop :=
  touchSpace i = some sp ∧ ∃ acc : Nat → Access, (∀ l ∈ σ.touchLanes i, ∃ x, σ.touch l i = some x ∧
      ∃ a, s.check σ x.sp x.bytes x.need l x.addr = .ok a ∧ acc l = { a with v := x.v, cmp := x.cmp }) ∧
    accs = (σ.touchLanes i).map acc

/-- The thread, with the acquire of a pending ORD made (R198). -/
def Site.ordered (σ : Site) : Thread :=
  match σ.t.ord with
  | some (.acq, _) | some (.ar, _) => σ.t.acquire (σ.t.nextId + 1)
  | _ => σ.t

/-- What a memory instruction puts into the store queue: a store with its reader count, or an atomic (R136, R195). -/
def storeKind : Instr → Option (QKind × Nat)
  | .st o | .stNb o => some (.store o.rc, sizeBytes o.size)
  | .sst o => some (.store o.rc, sizeBytes o.size)
  | .atom o => some (.atomic o.op o.size, sizeBytes o.size)
  | .red o => some (.atomic o.op o.size, sizeBytes o.size)
  | .satom o => some (.atomic o.op o.size, sizeBytes o.size)
  | _ => none

/-- The entries of an instruction's accesses, one for each distinct sector, numbered from the queue's next number. -/
def State.newEntries (s : State) (σ : Site) (kind : QKind) (size : Nat) (accs : List Access) : List QEntry :=
  let es := σ.entries kind size accs
  es.zipWith (fun e k => { e with n := s.nextQ + k }) (List.range es.length)

/-- An instruction in flight with its accesses. -/
def Thread.holds (u : Thread) (i : Instr) (id : Nat) (accs : List Access) (owed : Nat) : Prop :=
  ∃ f ∈ u.flights, f.id = id ∧ f.i = i ∧ f.accs = accs ∧ f.owed = owed ∧ f.done = false

/-- What an access of a memory form stores over the value that it finds; none for a load. -/
def newAt (i : Instr) (old : Nat) (x : Access) : Option Nat :=
  match i with
  | .st _ | .stNb _ | .sst _ => some x.v
  | .atom o => some (aopNew o.op (sizeBytes o.size) old x.v x.cmp)
  | .red o => some (aopNew o.op (sizeBytes o.size) old x.v x.cmp)
  | .satom o => some (aopNew o.op (sizeBytes o.size) old x.v x.cmp)
  | _ => none
/-- Bytes of a scratchpad after some accesses of one form, lane after lane, and what each lane finds (R195, R214). -/
def padRun (i : Instr) : (m : Nat → Byte) → List Access → (Nat → Byte) × List (Nat × Nat)
  | m, [] => (m, [])
  | m, x :: xs =>
    let old := fromBytes ((List.range (accSize i)).map fun k => m (x.va + k))
    let m' : Nat → Byte := match newAt i old x with
      | some y => fun a => ((located x.va (leBytes (accSize i) y)).lookup a).getD (m a)
      | none => m
    ((padRun i m' xs).1, (x.lane, old) :: (padRun i m' xs).2)
/-- The v registers of a per-lane form's value: the first and how many; and the s register of a uniform form's. -/
def laneResult : Instr → Option (Nat × Nat)
  | .ld o => some (o.d.val, sizeRegs o.size)
  | .atom o => some (o.d.val, sizeRegs o.size)
  | _ => none
def uniformResult : Instr → Option Nat
  | .sld o => some o.d.val
  | .satom o => some o.d.val
  | _ => none

/-- A lane of a load in flight is still to be read, whole, in an unmarked sector of device memory that the load reads under one key. -/
def State.Served (s : State) (f : Flight) (x : Access) : Prop :=
  x.done = false ∧ x.host = false ∧ x.old = none ∧ ∃ pa, x.pa = some pa ∧ inMemory pa = true ∧
    pa % accSize f.i = 0 ∧ (s.peek x.key (32 * sectorOf pa) 32).bad = false ∧
    ∀ y ∈ f.accs, y.pa.map sectorOf = some (sectorOf pa) → y.key = x.key ∧ y.lease = x.lease

/-! ## The copy engine -/

/-- A transaction barrier after an update, evaluated (R271, R272): ARRV in bits [5:0], QUOTA in [17:12], LANDB in [63:32], DECLB in [95:64],
PHASE in [127:96]. -/
def tbAfter (x : Nat) : Nat :=
  if x % 64 = x / 2 ^ 12 % 64 ∧ x / 2 ^ 32 % 2 ^ 32 = x / 2 ^ 64 % 2 ^ 32 then
    (x / 2 ^ 96 + 1) % 2 ^ 32 * 2 ^ 96 + (x % 2 ^ 32 - x % 64)
  else x

/-- The new object of TBINIT, TBARV and TBEXP with operand n, before the evaluation; none where the operand or the object is refused
(R273). -/
def tbUpdate (x n : Nat) : Instr → Option Nat
  | .tbinit _ => if 1 ≤ n ∧ n ≤ 63 then some (n * 2 ^ 12) else none
  | .tbarv _ =>
    let quota := x / 2 ^ 12 % 64
    if x / 2 ^ 6 % 64 = 0 ∧ x / 2 ^ 18 % 2 ^ 14 = 0 ∧ quota ≠ 0 ∧ 1 ≤ n ∧ x % 64 + n ≤ quota then some (x + n) else none
  | .tbexp _ =>
    if x / 2 ^ 6 % 64 = 0 ∧ x / 2 ^ 18 % 2 ^ 14 = 0 ∧ x / 2 ^ 12 % 64 ≠ 0 ∧ x / 2 ^ 64 % 2 ^ 32 + n < 2 ^ 32 then some (x + n * 2 ^ 64) else none
  | _ => none

/-- The operands of the transaction barriers' instructions. -/
def tbOperands : Instr → Option SS
  | .tbinit o | .tbarv o | .tbexp o | .tbwait o => some o
  | _ => none

/-- The code of a slot's tag (R277). -/
def tagCode : SlotTag → Nat
  | .empty => 0
  | .filling => 1
  | .full => 2
  | .draining => 3
/-- The byte of an array that holds a slot's tag, with the tag replaced. -/
def tagByte (b slot code : Nat) : Nat := b - b / 2 ^ (2 * (slot % 4)) % 4 * 2 ^ (2 * (slot % 4)) + code * 2 ^ (2 * (slot % 4))

/-- `t` is `s` after σ's party has issued `i`, which has given the copy engine command `c`. -/
structure Commanded (i : Instr) (s t : State) (σ : Site) (c : Command) : Prop where
  step : IssueStep { s with ctxs := t.ctxs, cmds := s.cmds ++ [c], nextCmd := s.nextCmd + 1 } t σ σ.t (σ.t.past i) σ.t.s σ.t.f
  charged : s.Charged t
  number : c.n = s.nextCmd
  issuer : c.party = σ.p ∧ c.flight = σ.t.nextId ∧ c.ctx = σ.c.id ∧ c.wg = σ.g.id ∧ c.cluster = σ.cluster ∧ c.iaddr = va64 σ.t.pc ∧ c.launch = σ.g.launch
  fresh : c.counted = 0 ∧ c.owedAcks = 0 ∧ c.overrun = false ∧ c.faulted = false ∧ c.late = [] ∧ c.landed = []

/-- The offset that a .TB register names, and whether it may hold a barrier (R265). -/
def Site.tbOffset (σ : Site) (tb : Fin 16) : Option Nat := if tb.val = 0 then none else some ((σ.t.s tb.val).toNat % 2 ^ 32)
def Site.tbFits (σ : Site) (tb : Fin 16) : Prop := ∀ off, σ.tbOffset tb = some off → off % 16 = 0 ∧ off + 16 ≤ σ.g.scratchSize

/-! ## Translations -/

/-- Every byte of the frames that entries of a range name or named is still in use: an invalidation of the range frees none (R226). -/
def State.KeepsFrames (s : State) (ctx va len : Nat) : Prop :=
  ∀ c, s.ctx? ctx = some c → ∀ f ∈ c.framesIn va len, ∀ a, f.1 ≤ a → a < f.1 + f.2 → s.inUse a 1 = true

/-! ## Remote memory access -/

/-- A queue pair whose work request n, wherever it is queued, becomes f of it. -/
def QPair.withWr (q : QPair) (n : Nat) (f : WorkReq → WorkReq) : QPair :=
  { q with sends := q.sends.map (fun w => if w.n = n then f w else w), recvs := q.recvs.map fun w => if w.n = n then f w else w }

/-- The engine serves the pair: it is in RTS, its context is in the engine's cache, and the packet is the expected one and can be served at
once (R430, R431, R438). -/
structure State.Expects (s : State) (qn psn : Nat) (q : QPair) : Prop where
  pair : s.qp? qn = some q
  rts : q.state = .rts
  cached : q.cached = true
  next : q.judge psn = .expected
  /-- its port and priority are not paused -/
  flows : s.pausedPair q = false
  /-- no packet of the pair waits in a port's buffer, none was refused there, and no answer of the pair waits -/
  alone : ∀ k ∈ s.inbox, k.qp ≠ qn
  taken : q.refused = none
  first : q.replies = []

/-- What the ports have sent once an answer of a pair has left: not before the writes answered so far are seen by every reader (R259). -/
def State.sent (s : State) (qn : Nat) (q : QPair) (kind : WireKind) (psn : Nat) (bs : List Byte) : List Wire :=
  ⟨qn, kind, psn, bs, max s.time q.ackFrom⟩ :: s.wire

/-- A work request as QPOST reads it from its 64 bytes. -/
def Site.workReq (σ : Site) (s : State) (va : Nat) (bs : List Byte) : WorkReq :=
  ⟨s.nextWr, va, BitVec.ofNat 512 (fromBytes bs), σ.p, σ.t.nextId, .waiting, 0, [], 0, 0, 0, 0, false⟩

/-! ## Commands of ring 0 -/

/-- A command of a code and action stands at HEAD of ring 0, alone, and firmware serves it (R441, R449). -/
structure State.Asks (s : State) (code act : Nat) (h : HeadRec) : Prop where
  here : s.commandAt code act = some h
  alone : (s.host.ring0.advance h.size).unread = 0

/-- `s`, in which a claim has made the command's effect, after HEAD has moved past it. -/
def State.taken (s : State) (h : HeadRec) : State := { s.signalled.updRing0 (·.advance h.size) with tick := s.tick + 1 }
/-- The same after the response with a status and a result: 0 done, 1 refused (R452). -/
def State.answered (s : State) (h : HeadRec) (code status result : Nat) : State :=
  { (s.signalled.updRing0 (·.advance h.size)).respond (arg h.payload 0 4) status code result with tick := s.tick + 1 }

end Sys2Proof.Machine
end

