-- ==== Sys2Proof/Certificates/Slice0/Obligations.lean ====
section
/-! DEFINITION. The statements for the provers: what the instructions and the machine do, from the numbered rules of spec/. -/
open Sys2Proof Sys2Proof.Machine

/-! ## Encodings -/

/-- The five encodings that the spec's worked example assembles field by field, and three more written out from R43, R45 and R46, decode to the
instructions they stand for: IADD.I, LD with lookahead 2, a guarded ST with index, scale, offset and .RC2, SADD.I, BRA back, EMIT.REL, MMA, CQ. -/
def Obligations.WordsDecode : Prop :=
  decodeWords 0x02040808 0 = .ok (.iaddI ⟨2, .v 2, 1, 0⟩) ∧
  decodeWords 0x72040000 0x40400000 = .ok (.ld ⟨.g, .b32, 2, ⟨.v 0, none, 0⟩, ⟨0, false, 2⟩⟩) ∧
  decodeWords 0x7313903B 0x40126010 = .ok (.st ⟨.g, .b32, 2, .v 9, ⟨.s 4, some (.v 7, 2), 16⟩, ⟨3, true, 0⟩⟩) ∧
  decodeWords 0x90145220 0 = .ok (.sadd ⟨5, 5, .imm 8, false⟩) ∧
  decodeWords 0x81FFFFFD 0 = .ok (.bra (-3)) ∧
  decodeWords 0xC700628B 0 = .ok (.emit ⟨6, 10, true, 3⟩) ∧
  decodeWords 0xE3082141 0x28400000 = .ok (.mma ⟨true, false, 2, 1, 2, 2, 5, 2⟩) ∧
  decodeWords 0xF0007000 0xF0000000 = .ok (.cq 7 15)

/-- For every well-formed instruction that has an encoding, the bytes of its words, the lowest address first, followed by any bytes, decode to that
instruction, and the bytes after it are left: no bit of any operand at any value is dropped. -/
def Obligations.DecodeOfEncode : Prop :=
  ∀ i : Instr, i.wf = true → i.isCode = true → ∀ rest : List Byte,
    decode ((encode i).flatMap (leBytes 4) ++ rest) = .ok (i, rest)

/-- Two words that decode, decode to a well-formed instruction whose encoding they are: no two words
stand for one instruction, and a one-word form does not look at the second word. That every bit which no field names is 0, whether or not the spec
calls it reserved, is the model's reading of R49 row 2 (log 5, DEDUCED). -/
def Obligations.EncodeOfDecode : Prop :=
  ∀ (w1 w2 : Nat) (i : Instr), w1 < 2 ^ 32 → w2 < 2 ^ 32 → decodeWords w1 w2 = .ok i →
    i.wf = true ∧ encode i = if twoWords w1 then [w1, w2] else [w1]

/-- A first word whose opcode R39, R43, R45 or R46 leaves unassigned is refused as an illegal opcode, whatever its other bits and the second
word. -/
def Obligations.UnassignedOpcodes : Prop :=
  ∀ w1 w2 : Nat,
    (field w1 31 1 = 0 ∧ (op7 w1 = 0 ∨ 0x24 ≤ op7 w1 ∧ op7 w1 ≤ 0x5F)) ∨
      (field w1 31 1 = 1 ∧ (op7 w1 = 0x0F ∨ 0x5B ≤ op7 w1 ∧ op7 w1 ≤ 0x5F ∨ 0x6C ≤ op7 w1 ∧ op7 w1 ≤ 0x6F ∨ 0x73 ≤ op7 w1)) →
    decodeWords w1 w2 = .error .illegalOpcode

/-! ## Steps -/

/-- Where a party has been chosen that may issue, no breakpoint stands at its program counter, the pages of its words map to device memory
with execute permission, and the words there decode to an instruction of its executor, step is exec of that instruction, in the state whose
translation is kept and whose fetch the sampler has counted, unless the party is a wave whose mask is empty. Such a wave goes on with the passing over of R141 instead: where the
stack's top entry names the address of an ELSE, ENDIF or ENDLOOP whose check passes and which brings lanes back, the step takes that effect, and no instruction is issued; no halt and no trap waits for its end. -/
def Obligations.StepRunsDecoded : Prop :=
  (∀ (s : State) (p : Party) (σ : Site) (w1 w2 : Nat) (i : Instr),
    s.cur = some p → s.siteOf p = some σ → σ.runnable = true → σ.t.windowShut = false → σ.breakAt = none →
    s.WordAt σ.c σ.t.pc w1 → (twoWords w1 = true → s.WordAt σ.c (σ.t.pc + 4) w2) →
    decodeWords w1 (if twoWords w1 then w2 else 0) = .ok i → i.runsOn σ.p.executor = true → permitted σ.p.executor w1 = true →
    (∀ w, σ.w = some w → w.e ≠ 0) →
    step s = exec i (s.sampleFetch σ)) ∧
  ∀ (s : State) (g k : Nat) (σ : Site) (w : Wave) (w1 pc : Nat) (j : Instr) (e : Mask) (stack : List MaskEntry) (top : MaskEntry),
    s.cur = some (.wave g k) → s.siteOf (.wave g k) = some σ → σ.runnable = true → σ.t.windowShut = false → σ.w = some w → w.e = 0 →
    w.stack.head? = some top → s.WordAt σ.c top.addr w1 → twoWords w1 = false → decodeWords w1 0 = .ok j → isClosing j = true →
    structured top.addr w j = some (pc, e, stack) → e ≠ 0 → (∀ a, structTarget top.addr 0 j = some a → reachable a = true) →
    w.dbg.haltreq = false → w.dbg.pending = none →
    ∃ t, step s = .next t ∧ s.Leaves t g k w { w with e := e, stack := stack, t := { w.t with pc := pc % 2 ^ 57 } }

/-- With the hotness sampler of the party's context off, the fetch of an instruction changes nothing but two things: contexts keep translations, and the elided-read counters
rise where a word lies in a region that is not live. Where the words stand in device memory the translation that maps the program counter is kept. With the sampler on, and no
sample due, the context's count rises by one, or by two where the second word lies in another sector. -/
def Obligations.FetchFrame : Prop :=
  ∀ (s : State) (p : Party) (σ : Site), s.siteOf p = some σ →
    let t := s.sampleFetch σ
    (σ.c.smpK = 0 →
      t = { s with ctxs := t.ctxs, home := { s.home with elided := t.home.elided } } ∧
      (∀ k c, s.ctx? k = some c → ∃ tlb, t.ctx? k = some { c with tlb := tlb }) ∧
      ((∀ a, s.isLive a = true) → t.home.elided = s.home.elided) ∧
      ∀ w1, s.WordAt σ.c σ.t.pc w1 → ∃ c, t.ctx? σ.c.id = some c ∧ ∃ e ∈ c.tlb, e.covers (va64 σ.t.pc) = true) ∧
    ∀ w1 w2, s.WordAt σ.c σ.t.pc w1 → (twoWords w1 = true → s.WordAt σ.c (σ.t.pc + 4) w2) →
      let n := if twoWords w1 = true ∧ (σ.t.pc + 4) % 32 = 0 then 2 else 1
      σ.c.smpK ≠ 0 → σ.c.smpCount + n < 2 ^ σ.c.smpK →
      ∃ tlb, t.ctx? σ.c.id = some { σ.c with smpCount := σ.c.smpCount + n, tlb := tlb }

/-- From every state whose memory lists its bytes by rising address and lists no byte that holds 0, a step that answers a next state answers one
whose memory has that form too: no instruction, engine, command or host write leaves memory in another. -/
def Obligations.StepKeepsMemoryForm : Prop :=
  ∀ s t : State, s.MemOk → step s = .next t → t.MemOk

/-- The state right after device reset lists its memory in the form that every step keeps. -/
def Obligations.ResetMemoryForm : Prop := State.reset.MemOk

/-- Right after device reset every vector has threshold 1 and holdoff 1 µs (R447), and the count of main-clock cycles is 0 (R404). -/
def Obligations.ResetVectors : Prop :=
  (∀ v : Nat, (State.reset.vector v).threshold = 1 ∧ (State.reset.vector v).holdoff = 1000) ∧ State.reset.cycles = 0

/-- Right after device reset no context, workgroup, command or queue pair exists, no party issues, every key slot and every liveness bit is clear
(R456), the registers of R450 are 0, no out ring exists, and the lap number of the rings is 0 (R334). Every byte of memory reads 0, since a region whose
liveness bit is clear reads as zeros (R227). -/
def Obligations.ResetRest : Prop :=
  State.reset.cur = none ∧ State.reset.wgs = [] ∧ State.reset.ctxs = [] ∧ State.reset.cmds = [] ∧ State.reset.qps = [] ∧
  State.reset.queue = [] ∧ State.reset.keys = [] ∧ State.reset.home.live = [] ∧ State.reset.host.outs = [] ∧
  State.reset.host.devstat = 0 ∧ State.reset.host.evbase = 0 ∧ State.reset.host.evcfg = 0 ∧ State.reset.host.evshadow = 0 ∧
  State.reset.host.cmdctl = 0 ∧ State.reset.ring.lap = 0 ∧
  ∀ slot a n : Nat, State.reset.peek slot a n = ⟨List.replicate n 0, false⟩

/-! ## Per-lane forms -/

/-- Each per-lane form with a 32-bit result (IADD to MOV with their immediate and register shifts, MRANK, IMAD, IMULH, SEL, MOVI with .Z and .HI, BFX, BFI,
IDOT4, SHFL, BCAST) that issues for a wave completes: in every lane whose mask bit and guard are 1 the destination takes the value the rules give, from the
registers as they stood; every other register of every lane, every predicate, s register and flag, the floating-point flags and the rest of the machine
are as before, and the wave goes on after the instruction. -/
def Obligations.IntegerLanes : Prop :=
  ∀ (i : Instr) (s : State) (σ : Site) (g k : Nat) (w : Wave), PlainWave i s σ g k w → (laneWord w 0 i).isSome = true →
    ∃ t w', exec i s = .next t ∧ s.Leaves t g k w w' ∧
      WaveStep w w' (w.t.past i)
        (fun r l => match laneWord w l i with
          | some (d, x) => if w.on i l = true ∧ r = d then x else w.v r l
          | none => w.v r l)
        w.p w.t.s w.t.f 0

/-- LEA with each scale and IMAD.WIDE complete: each active lane's even destination register takes bits [31:0] of the 64-bit result and the odd one above it
bits [63:32]; nothing else changes, and the wave goes on after the instruction.
ICMP completes: in each active lane the destination predicate's bit becomes the truth of the condition, unless the destination is p0, whose bits stay 1
and are written by nothing; every other predicate bit and every register is as before. -/
def Obligations.PairAndCompareLanes : Prop :=
  (∀ (i : Instr) (s : State) (σ : Site) (g k : Nat) (w : Wave), PlainWave i s σ g k w → (laneDword w 0 i).isSome = true →
    ∃ t w', exec i s = .next t ∧ s.Leaves t g k w w' ∧
      WaveStep w w' (w.t.past i)
        (fun r l => match laneDword w l i with
          | some (d, x) => if w.on i l = true ∧ r = d then x.setWidth 32
              else if w.on i l = true ∧ r = d + 1 then (x >>> 32).setWidth 32 else w.v r l
          | none => w.v r l)
        w.p w.t.s w.t.f 0) ∧
  (∀ (o : IcmpF) (s : State) (σ : Site) (g k : Nat) (w : Wave), PlainWave (.icmp o) s σ g k w →
    ∃ t w', exec (.icmp o) s = .next t ∧ s.Leaves t g k w w' ∧
      WaveStep w w' (w.t.past (.icmp o)) w.v
        (fun j l => if j = 0 then true
          else if j = o.d.val ∧ w.on (.icmp o) l = true then condOf o.cond (w.a32 l o.a) (w.a32 l o.b) else w.p j l)
        w.t.s w.t.f 0)

/-- Each floating form with a register result (FADD to FFMA, FRND, FFRAC, FSQRT and the approximate functions), and CVT, CVTSR, PACK, UNPK and DQBLK, completes:
each active lane's destination of one register, or two under .F64 or a 64-bit type, takes the result of the form's operation on each element of its sources
as they stood; the flags raised are those of every active lane together; nothing else changes. -/
def Obligations.FloatLanes : Prop :=
  ∀ (i : Instr) (s : State) (σ : Site) (g k : Nat) (w : Wave), PlainWave i s σ g k w → (laneFloat w 0 i).isSome = true →
    ∃ t w', exec i s = .next t ∧ s.Leaves t g k w w' ∧
      WaveStep w w' (w.t.past i)
        (fun r l => match laneFloat w l i with
          | some (d, n, x, _) =>
            if w.on i l = true ∧ d ≤ r ∧ r < d + n then x.extractLsb' (32 * (r - d)) 32 else w.v r l
          | none => w.v r l)
        w.p w.t.s w.t.f (w.raisedBy i fun l => ((laneFloat w l i).map (·.2.2.2)).getD 0)

/-- FCMP and FCLASS complete: in each active lane the destination predicate's bit becomes the truth of the condition or class test on every element of the sources,
unless the destination is p0; FCMP raises the flags of every active lane together; nothing else changes. -/
def Obligations.FloatTruths : Prop :=
  ∀ (i : Instr) (s : State) (σ : Site) (g k : Nat) (w : Wave), PlainWave i s σ g k w → (laneTruth w 0 i).isSome = true →
    ∃ t w', exec i s = .next t ∧ s.Leaves t g k w w' ∧
      WaveStep w w' (w.t.past i) w.v
        (fun j l => match laneTruth w l i with
          | some (d, b, _) => if j = 0 then true else if j = d ∧ w.on i l = true then b else w.p j l
          | none => w.p j l)
        w.t.s w.t.f (w.raisedBy i fun l => ((laneTruth w l i).map (·.2.2)).getD 0)

/-- QBLK completes: in each block of 32 lanes with an active lane, every active lane's c register takes the scale that the active lanes' sources give the block,
and its d register its own source in the element type under that scale; the elements' flags are raised together; nothing else changes.
WREDUCE completes with the chain over every active lane's value, in rising lane order, in each of them; WSCAN completes with the chain up to and including the
lane, or under .EX up to the lane before it, the identity in the first. The flags of the whole chain are raised; inactive lanes and everything else are as before. -/
def Obligations.BlocksAndScans : Prop :=
  (∀ (o : QblkF) (s : State) (σ : Site) (g k : Nat) (w : Wave), PlainWave (.qblk o) s σ g k w →
    let scale (l : Nat) := blockScale o.ty (((w.lanes (.qblk o)).filter fun j => j / 32 = l / 32).map fun j => (w.a32 j o.a).toNat)
    let elem (l : Nat) := blockElem o.ty o.rm (w.a32 l o.a).toNat (scale l)
    ∃ t w', exec (.qblk o) s = .next t ∧ s.Leaves t g k w w' ∧
      WaveStep w w' (w.t.past (.qblk o))
        (fun r l => if w.on (.qblk o) l = true ∧ r = o.d.val then BitVec.ofNat 32 (elem l).bits
          else if w.on (.qblk o) l = true ∧ r = o.c.val then BitVec.ofNat 32 (scale l).bits else w.v r l)
        w.p w.t.s w.t.f (w.raisedBy (.qblk o) fun l => (elem l).fl)) ∧
  ((∀ (o : WreduceF) (s : State) (σ : Site) (g k : Nat) (w : Wave), PlainWave (.wreduce o) s σ g k w →
    let xs := (w.lanes (.wreduce o)).map fun l => w.a32 l o.a
    ∃ t w', exec (.wreduce o) s = .next t ∧ s.Leaves t g k w w' ∧
      WaveStep w w' (w.t.past (.wreduce o))
        (fun r l => if w.on (.wreduce o) l = true ∧ r = o.d.val then (chainOf o.op xs).1 else w.v r l)
        w.p w.t.s w.t.f (if xs = [] then 0 else (chainOf o.op xs).2)) ∧
  (∀ (o : WscanF) (s : State) (σ : Site) (g k : Nat) (w : Wave), PlainWave (.wscan o) s σ g k w →
    let upto (l : Nat) := ((w.lanes (.wscan o)).filter fun j => if o.excl = true then j < l else j ≤ l).map fun j => w.a32 j o.a
    let all := (w.lanes (.wscan o)).map fun l => w.a32 l o.a
    ∃ t w', exec (.wscan o) s = .next t ∧ s.Leaves t g k w w' ∧
      WaveStep w w' (w.t.past (.wscan o))
        (fun r l => if w.on (.wscan o) l = true ∧ r = o.d.val then (chainOf o.op (upto l)).1 else w.v r l)
        w.p w.t.s w.t.f (chainOf o.op all).2))

/-- In binary64, binary32, binary16 and bfloat16, every pattern that is a finite number, read without flushing and written back in the same format under any rounding
mode, gives the same pattern and raises nothing: rounding alters no value that the format holds, subnormal numbers and both zeros included.
In each of the four wide formats a sum, difference or product with a NaN among its operands is the format's canonical NaN, and the operation raises IV alone where
one of them signals and nothing where none does. -/
def Obligations.WideFormats : Prop :=
  (∀ f ∈ [fF64, fF32, fF16, fBF16], ∀ (rm : Rm) (x : Nat), x < 2 ^ (f.mb + f.eb + 1) → (∃ neg m e, f.value x = .fin neg m e) →
    f.write rm false (f.value x) = ⟨x, 0⟩) ∧
  (∀ f ∈ [fF64, fF32, fF16, fBF16], ∀ (m : FpMod) (a b : Nat),
    (f.read m.ftz a).isNaN = true ∨ (f.read m.ftz b).isNaN = true →
    let bad := (f.read m.ftz a).isSNaN || (f.read m.ftz b).isSNaN
    ∀ op ∈ [elAdd m, elSub m, elMul m], op f a b = ⟨f.nan.getD 0, if bad then flIV else 0⟩)

/-! ## Uniform forms -/

/-- SADD to SBFX (SADD, SSUB, SMUL, SMAD, SMIN, SMAX, SAND, SOR, SXOR, SSHL, SSHR, SSAR, SSEL, SMOV, the three SLITs, SLEA, SPOPC, SCLZ, SBFX) complete for a
wave and for a sequencer thread: the destination takes the value the rules give over 64 bits, or over 32 bits zero-extended under .W32; every other register, predicate and
flag, the floating-point flags and the rest of the machine are as before, and the party goes on after the instruction. -/
def Obligations.UniformIntegers : Prop :=
  ∀ (i : Instr) (s : State) (σ : Site) (d : Nat) (x : DWord), Plain i s σ → uniWord σ.t i = some (d, x) →
    ∃ t, exec i s = .next t ∧ UniformStep s t σ (σ.t.past i) (fun n => if n = d then x else σ.t.s n) σ.t.f 0

/-- SFADD, SFMUL, SFFMA and SCVT complete: the destination takes the result in its place, zero-extended; on a core the flags the operation raises join the wave's,
on a sequencer they are discarded; every other register and flag and the rest of the machine are as before.
SCMP and SFCMP complete: the destination flag becomes the truth of the condition over the operands, and with f0 as destination no flag changes, f0 reading 1; SFCMP
raises its flags on a core; every register and the rest of the machine are as before. -/
def Obligations.UniformFloatsAndCompares : Prop :=
  (∀ (i : Instr) (s : State) (σ : Site) (d : Nat) (r : Res), Plain i s σ → uniFloat σ.t i = some (d, r) →
    ∃ t, exec i s = .next t ∧
      UniformStep s t σ (σ.t.past i) (fun n => if n = d then BitVec.ofNat 64 r.bits else σ.t.s n) σ.t.f r.fl) ∧
  (∀ (i : Instr) (s : State) (σ : Site) (d : Nat) (b : Bool) (fl : FlagSet), Plain i s σ → uniTruth σ.t i = some (d, b, fl) →
    ∃ t, exec i s = .next t ∧
      UniformStep s t σ (σ.t.past i) σ.t.s (fun n => if n = 0 then true else if n = d then b else σ.t.f n) fl)

/-- BALLOT completes with the lanes of E whose predicate bit is 1 in s registers d to d + 3, 64 lanes each, lowest lanes first; MCOUNT completes with their number in one.
Nothing else of the machine changes. -/
def Obligations.Ballots : Prop :=
  ∀ (s : State) (σ : Site) (g k : Nat) (w : Wave) (d : SReg) (p : PReg),
    let chosen (l : Nat) : Bool := w.e.getLsbD l && w.p p.val l
    (PlainWave (.ballot d p) s σ g k w → ∃ t w', exec (.ballot d p) s = .next t ∧ s.Leaves t g k w w' ∧
      ∃ sr : Nat → DWord, WaveStep w w' (w.t.past (.ballot d p)) w.v w.p sr w.t.f 0 ∧
        (∀ l, l < 256 → (sr (d.val + l / 64)).getLsbD (l % 64) = chosen l) ∧ ∀ n, n < d.val ∨ d.val + 4 ≤ n → sr n = w.t.s n) ∧
    (PlainWave (.mcount d p) s σ g k w → ∃ t w', exec (.mcount d p) s = .next t ∧ s.Leaves t g k w w' ∧
      WaveStep w w' (w.t.past (.mcount d p)) w.v w.p
        (fun n => if n = d.val then BitVec.ofNat 64 ((List.range 256).filter chosen).length else w.t.s n) w.t.f 0)

/-- SREG completes with the special register's value in its destination: a wave's own, and on a sequencer those of its workgroup's wave 0, where %fpst and %nevst raise
ILLEGAL_OPERAND instead; CLK completes with the executing unit's count of main-clock cycles. Nothing else of the machine changes.
The per-lane SREG completes with the special register's value in each active lane's destination, a pair under %time. SSET completes with bits [31:0] of its
source in %fpst or %nevst, of which only the assigned bits keep the value. Nothing else changes. Both where no flag is still on its way to %fpst or, where SSET writes it, to %nevst. -/
def Obligations.SpecialRegisters : Prop :=
  ((∀ (s : State) (σ : Site) (d : SReg) (idx : Byte) (w : Wave), Plain (.sreg d idx) s σ → (∀ f ∈ w.t.flights, f.fl = 0) →
    (σ.w = some w ∨ σ.w = none ∧ σ.g.waves.head? = some w ∧ idx ≠ 0x20 ∧ idx ≠ 0x21) →
    ∃ t, exec (.sreg d idx) s = .next t ∧
      UniformStep s t σ (σ.t.past (.sreg d idx)) (fun n => if n = d.val then specialOf s σ w 0 idx else σ.t.s n) σ.t.f 0) ∧
  (∀ (s : State) (σ : Site) (d : SReg) (idx : Byte), Plain (.sreg d idx) s σ → σ.w = none → idx = 0x20 ∨ idx = 0x21 →
    exec (.sreg d idx) s = .next (s.raise σ.p ⟨.illegalOperand, va64 σ.t.pc, 0, none, false, 0⟩)) ∧
  ∀ (s : State) (σ : Site) (d : SReg), Plain (.clk d) s σ →
    ∃ t, exec (.clk d) s = .next t ∧
      UniformStep s t σ (σ.t.past (.clk d)) (fun n => if n = d.val then BitVec.ofNat 64 (σ.clock s.cycles) else σ.t.s n) σ.t.f 0) ∧
  ((∀ (s : State) (σ : Site) (g k : Nat) (w : Wave) (o : SregPF), PlainWave (.sregPerLane o) s σ g k w → (∀ f ∈ w.t.flights, f.fl = 0) →
    ∃ t w', exec (.sregPerLane o) s = .next t ∧ s.Leaves t g k w w' ∧
      WaveStep w w' (w.t.past (.sregPerLane o))
        (fun r l =>
          let x := specialOf s σ w l o.idx
          if w.on (.sregPerLane o) l = true ∧ r = o.d.val then x.setWidth 32
          else if w.on (.sregPerLane o) l = true ∧ o.idx = 0x30 ∧ r = o.d.val + 1 then (x >>> 32).setWidth 32 else w.v r l)
        w.p w.t.s w.t.f 0) ∧
  ∀ (s : State) (σ : Site) (g k : Nat) (w : Wave) (a : SReg) (idx : Byte), PlainWave (.sset a idx) s σ g k w →
    (∀ f ∈ w.t.flights, f.fl = 0 ∧ ∀ o, f.i ≠ .neval o) →
    let x : Word := (w.t.s a.val).setWidth 32
    let u : Wave := if idx = 0x20 then { w with fpst := x.setWidth 6 } else { w with nevst := x &&& 0x1F }
    ∃ t w', exec (.sset a idx) s = .next t ∧ s.Leaves t g k w w' ∧ WaveStep u w' (w.t.past (.sset a idx)) w.v w.p w.t.s w.t.f 0)

/-! ## Branches, structured regions, ends and traps -/

/-- NOP, BRA, BRX, CALL, RET, BRF, BANY and BALL complete: one that goes nowhere leaves the party after it; one that goes to a reachable address leaves it there, and
CALL puts the address after itself into s63; nothing else changes. One that would go to an address that is misaligned, or not canonical, raises MISALIGNED or PROTECTION and has
no effect. That MISALIGNED comes first (log 107) and that a branch not taken raises nothing for its target (log 108) are the model's choices. -/
def Obligations.Branches : Prop :=
  ∀ (i : Instr) (s : State) (σ : Site), Plain i s σ → isBranch i = true →
    match branchOf σ i with
    | none => ∃ t, exec i s = .next t ∧ UniformStep s t σ (σ.t.past i) σ.t.s σ.t.f 0
    | some a =>
      if a % 4 ≠ 0 then exec i s = .next (s.raise σ.p (σ.detail .misaligned))
      else if canonical a = false then exec i s = .next (s.raise σ.p (σ.detail .protection))
      else ∃ t, exec i s = .next t ∧
        UniformStep s t σ (a % 2 ^ 57)
          (fun n => if n = 63 ∧ (∃ off, i = .call off) then BitVec.ofNat 64 (va64 (σ.t.pc + 4)) else σ.t.s n) σ.t.f 0

/-- A structured instruction whose check of the mask stack passes, whose target can be reached, and which leaves some lane in E, completes: E, the stack and the program counter
are those of R142, and nothing else changes. One whose check fails raises ILLEGAL_OPERAND; one whose target cannot be reached raises MISALIGNED or PROTECTION; neither has
another effect. The order of those causes is the model's (log 107). -/
def Obligations.StructuredRegions : Prop :=
  ∀ (i : Instr) (s : State) (σ : Site) (g k : Nat) (w : Wave), PlainWave i s σ g k w → isStructured i = true →
    match structured w.t.pc w i with
    | none => exec i s = .next (s.raise σ.p (σ.detail .illegalOperand))
    | some (pc, e, stack) =>
      match structTarget w.t.pc w.e i with
      | some a =>
        if a % 4 ≠ 0 then exec i s = .next (s.raise σ.p (σ.detail .misaligned))
        else if canonical a = false then exec i s = .next (s.raise σ.p (σ.detail .protection))
        else e ≠ 0 → ∃ t w', exec i s = .next t ∧ s.Leaves t g k w w' ∧
          WaveStep { w with e := e, stack := stack } w' (pc % 2 ^ 57) w.v w.p w.t.s w.t.f 0
      | none => e ≠ 0 → ∃ t w', exec i s = .next t ∧ s.Leaves t g k w w' ∧
          WaveStep { w with e := e, stack := stack } w' (pc % 2 ^ 57) w.v w.p w.t.s w.t.f 0

/-- Where a structured instruction leaves E empty and the stack's top entry names the address of an ELSE, ENDIF or ENDLOOP whose own check passes and which brings lanes back,
that instruction takes effect too, without being issued; with the stack empty, and no cause deferred to its end, the wave ends. -/
def Obligations.PassingOver : Prop :=
  ∀ (i : Instr) (s : State) (σ : Site) (g k : Nat) (w : Wave) (pc : Nat) (stack : List MaskEntry),
    PlainWave i s σ g k w → isStructured i = true → structured w.t.pc w i = some (pc, 0, stack) →
    (∀ a, structTarget w.t.pc w.e i = some a → reachable a = true) →
    (∀ (j : Instr) (w1 pc' : Nat) (e' : Mask) (stack' : List MaskEntry) (top : MaskEntry),
      stack.head? = some top → s.WordAt σ.c top.addr w1 → twoWords w1 = false → decodeWords w1 0 = .ok j → isClosing j = true →
      structured top.addr { w with e := 0, stack := stack } j = some (pc', e', stack') → e' ≠ 0 →
      (∀ a, structTarget top.addr 0 j = some a → reachable a = true) →
      ∃ t w', exec i s = .next t ∧ s.Leaves t g k w w' ∧
        WaveStep { w with e := e', stack := stack' } w' (pc' % 2 ^ 57) w.v w.p w.t.s w.t.f 0) ∧
    (stack = [] → w.t.deferred = [] → ∃ t w', exec i s = .next t ∧ t.waveOf g k = some w' ∧ w'.ended = true)

/-- EXIT of a wave with no cause deferred to its end completes: the wave has ended, its reserved slots are gone, the workgroup is ending where no other wave is left; every
byte of memory, and the registers of every other party that does not wait at a phase boundary, are as before. -/
def Obligations.ExitOfWave : Prop :=
  ∀ (s : State) (σ : Site) (g k : Nat) (w : Wave), PlainWave .exit s σ g k w → w.t.deferred = [] →
    ∃ t w' h, exec .exit s = .next t ∧ t.waveOf g k = some w' ∧ w'.ended = true ∧ t.wg? g = some h ∧ (∀ o ∈ h.slots, o.wave ≠ k) ∧
      ((∀ x ∈ σ.g.waves, x.ended = true ∨ x.waveid = k) → h.status = .ending) ∧ (∀ a, t.byte a = s.byte a) ∧
      ∀ q u, q ≠ .wave g k → s.threadOf q = some u → (∀ j, u.park ≠ some (.boundary j)) →
        ∃ u', t.threadOf q = some u' ∧ (∀ n, u'.s n = u.s n) ∧ (∀ n, u'.f n = u.f n) ∧ u'.pc = u.pc

/-- TRAP n and BRK n of a wave with lanes active and nothing in flight complete, with the program counter after the instruction and every byte of memory as before. With a debug mailbox or a trap
node the wave is debug-halted with the cause's code as reason; without either the context halts, and its primary record holds the cause, n and the instruction's address.
A TRAP or BRK of a sequencer thread completes and raises the halt line with itself as primary cause: its context is halted, its record names the cause, n and the address of the
instruction; every byte of memory is as before. -/
def Obligations.TrapsTaken : Prop :=
  (∀ (s : State) (σ : Site) (g k : Nat) (w : Wave) (n : BitVec 12) (i : Instr) (cause : Cause),
    i = .trap n ∧ cause = .softwareTrap ∨ i = .brk n ∧ cause = .breakpoint →
    PlainWave i s σ g k w → w.e ≠ 0 → w.t.flights = [] →
    ∃ t w', exec i s = .next t ∧ t.waveOf g k = some w' ∧ w'.t.pc = w.t.past i ∧ (∀ a, t.byte a = s.byte a) ∧
      (∀ n, w'.t.s n = w.t.s n) ∧ (∀ n, w'.t.f n = w.t.f n) ∧ w'.vregs = w.vregs ∧ w'.preds = w.preds ∧ w'.e = w.e ∧ w'.stack = w.stack ∧
      (σ.c.mailbox.isSome = true ∨ σ.c.trapNode.isSome = true → w'.dbg.halted = true ∧ w'.dbg.reason = cause.code ∧ w'.dbg.pending = none) ∧
      (σ.c.mailbox = none → σ.c.trapNode = none →
        ∃ c r, t.ctx? σ.c.id = some c ∧ c.run = .halted false ∧ r ∈ c.stops ∧ r.prim = true ∧ r.cause = some cause ∧ r.code = n.toNat ∧
          r.iaddr = va64 σ.t.pc ∧ r.time = s.time)) ∧
  (∀ (s : State) (σ : Site) (n : BitVec 12) (i : Instr) (cause : Cause),
    i = .trap n ∧ cause = .softwareTrap ∨ i = .brk n ∧ cause = .breakpoint →
    Plain i s σ → σ.w = none →
    ∃ t c r, exec i s = .next t ∧ (∀ a, t.byte a = s.byte a) ∧ t.ctx? σ.c.id = some c ∧ c.run = .halted false ∧ r ∈ c.stops ∧
      r.prim = true ∧ r.cause = some cause ∧ r.code = n.toNat ∧ r.iaddr = va64 σ.t.pc)

/-! ## Causes -/

/-- A party that cannot run, whose window has run out or whose counter is full waits. Else an instruction that is not its executor's raises ILLEGAL_OPCODE; one with an operand
that does not encode, a v register not allocated, a detached lookahead without a path, a scratchpad form on a sequencer, or one that a pending ORD rejects, raises ILLEGAL_OPERAND;
one with a marked source raises ECC_REGISTER,
with the lowest active lane that reads it. A class H cause halts the context and records the cause, with no register, program counter, mask or byte changed; a page fault
stops the workgroup for it and keeps the record; a class K cause ends the workgroup, or forms it again where its node is idempotent. That the record of a marked source names a lane, and
which, is the model's choice (log 99). A wave that steps is debug-halted after its NOP. -/
def Obligations.CausesTaken : Prop :=
  (∀ (i : Instr) (s : State) (σ : Site), i.isCode = true → s.site = some σ →
    let own := i.runsOn σ.p.executor
    let bad : Prop := i.wf = false ∨ (∃ w, σ.w = some w ∧ w.nregs < vTop i) ∨ (i.la = 15 ∧ σ.p.executor = .core ∧ i.path = none) ∨
      (σ.p.executor ≠ .core ∧ scratchForm i = true) ∨ ∃ o sc, σ.t.ord = some (o, sc) ∧ ordOk o i = false
    let marked := match σ.w with
      | some w => w.markedSrc s.tick i
      | none => (sSrcs i).any fun n => σ.t.smark.getLsbD n
    (σ.holds i = true → exec i s = .next { s with cur := none, blocked := s.cur.toList ++ s.blocked }) ∧
    (σ.holds i = false →
      (own = false → exec i s = .next (s.raise σ.p (σ.detail .illegalOpcode))) ∧
      (own = true → bad → exec i s = .next (s.raise σ.p (σ.detail .illegalOperand))) ∧
      (own = true → ¬ bad → marked = true → exec i s = .next (s.raise σ.p (σ.detail .eccRegister 0 (σ.w.bind fun w => w.markedLane s.tick i)))))) ∧
  (∀ (s : State) (p : Party) (σ : Site) (d : Detail), s.siteOf p = some σ → σ.c.run = .running →
    let t := s.raise p d
    (d.cause.class_ = .halt → (∀ a, t.byte a = s.byte a) ∧ (∀ q u, s.threadOf q = some u → ∃ fl, t.threadOf q = some { u with flights := fl }) ∧
      (∀ g k w, s.waveOf g k = some w → ∃ u fp, t.waveOf g k = some { w with t := u, fpst := fp }) ∧ ∃ c r, t.ctx? σ.c.id = some c ∧ c.run = .halted false ∧
      r ∈ c.stops ∧ r.prim = true ∧ r.cause = some d.cause ∧ r.iaddr = d.iaddr ∧ r.faddr = d.faddr ∧ r.lane = d.lane ∧ r.ctx = σ.c.id ∧ r.time = s.time) ∧
    (d.cause = .pageFault → σ.g.status = .resident → (∀ a, t.byte a = s.byte a) ∧ (∀ q, t.threadOf q = s.threadOf q) ∧ t.ctxs = s.ctxs ∧
      ∃ g, t.wg? σ.g.id = some g ∧ g.status = .stopped ∧ .fault d.faddr ∈ g.why ∧
        ∃ r ∈ g.faultAt, r.cause = some .pageFault ∧ r.iaddr = d.iaddr ∧ r.faddr = d.faddr ∧ r.lane = d.lane) ∧
    (d.cause.class_ = .kill → (∀ a, t.byte a = s.byte a) ∧ ∃ c, t.ctx? σ.c.id = some c ∧ c.run = .running ∧
      if σ.n.idemp = true ∧ σ.g.doneTaken = false then
        t.wg? σ.g.id = none ∧ ∃ f ∈ c.formed, f.node = σ.g.node ∧ f.die = σ.g.die ∧ f.recs = σ.g.records
      else ∃ g, t.wg? σ.g.id = some g ∧ g.status = .ending ∧ g.slots = [] ∧ ∀ w ∈ g.waves, w.ended = true)) ∧
  ∀ (s : State) (σ : Site) (g k : Nat) (w : Wave), Issues .nop s σ → σ.p = .wave g k → σ.w = some w → w.e ≠ 0 → w.dbg.step = true → σ.n.dbg = false → w.t.flights = [] →
    σ.c.mailbox.isSome = true ∨ σ.c.trapNode.isSome = true →
    ∃ t w', exec .nop s = .next t ∧ t.waveOf g k = some w' ∧ w'.t.pc = w.t.past .nop ∧ w'.dbg.halted = true ∧ w'.dbg.reason = Cause.code .singleStep ∧
      (∀ a, t.byte a = s.byte a)

/-! ## Ordering and waiting -/

/-- ORD completes and is pending on the party's next instruction. FENCE, whose release is over when it issues, completes; with an acquire the accesses after it wait for the loads before
it. WAITC with its path's counter at or below its operand and no cause deferred to it completes; with the counter above, the party waits and nothing but that is
changed. None of them changes a register, a flag or memory. -/
def Obligations.OrderAndCounters : Prop :=
  (∀ (s : State) (σ : Site) (o : Order) (sc : Scope), Plain (.ord o sc) s σ →
    ∃ t, exec (.ord o sc) s = .next t ∧
      ∃ u, PlainStep (.ord o sc) s u σ ∧ t = u.updThread σ.p fun x => { x with ord := some (o, sc) }) ∧
  (∀ (s : State) (σ : Site) (o : Order) (sc : Scope), Plain (.fence o sc) s σ →
    ∃ t, exec (.fence o sc) s = .next t ∧
      IssueStep s t σ (if o = .acq ∨ o = .ar then σ.t.acquire σ.t.nextId else σ.t) (σ.t.past (.fence o sc)) σ.t.s σ.t.f) ∧
  ∀ (s : State) (σ : Site) (path : Path) (a : SReg), Plain (.waitc path a) s σ →
    (σ.t.counter path ≤ (σ.t.s a).toNat → σ.t.deferredOn path = none →
      ∃ t, exec (.waitc path a) s = .next t ∧ PlainStep (.waitc path a) s t σ) ∧
    ((σ.t.s a).toNat < σ.t.counter path → exec (.waitc path a) s = .next s.wait)

/-- BARA and BARAW at a barrier word that still expects an arrival, with the wave's accesses complete, complete: the word takes the arrival, and waves that wait for a phase now
past go on. BARA leaves the wave with a token for the phase; BARAW leaves it waiting for that phase to pass, or going on where it has. No register and no other byte of the
scratchpad or of memory changes.
BARW at a readable barrier word completes: with a token for that word it waits for the token's phase to pass and uses the token up, without one for the word's present phase;
where the phase has passed the wave goes on and acquires. Nothing else changes. -/
def Obligations.Barriers : Prop :=
  (∀ (s : State) (σ : Site) (g k : Nat) (w : Wave) (a : SReg) (x : Nat),
    let off := (w.t.s a).toNat % 2 ^ 32
    let y := barrierNext x σ.n.waves
    let s1 : State := s.updWg σ.g.id fun h => (h.scratchWrite off 8 y).wakeBarrier
    σ.BarrierAt off x → BarrierOpen x σ.n.waves → σ.t.drained = true →
    (PlainWave (.bara a) s σ g k w →
      ∃ t w', exec (.bara a) s = .next t ∧ s1.Leaves t g k w w' ∧
        WaveStep { w with token := some (off, x / 2 ^ 32 % 2 ^ 32) } w' (w.t.past (.bara a)) w.v w.p w.t.s w.t.f 0) ∧
    (PlainWave (.baraw a) s σ g k w →
      let u : Thread := if y / 2 ^ 32 % 2 ^ 32 = x / 2 ^ 32 % 2 ^ 32 then { w.t with park := some (.barrier off (x / 2 ^ 32 % 2 ^ 32)) }
        else w.t.acquire w.t.nextId
      ∃ t w', exec (.baraw a) s = .next t ∧ s1.Leaves t g k w w' ∧
        WaveStep { w with token := none, t := u } w' (w.t.past (.baraw a)) w.v w.p w.t.s w.t.f 0)) ∧
  (∀ (s : State) (σ : Site) (g k : Nat) (w : Wave) (a : SReg) (x : Nat),
    let off := (w.t.s a).toNat % 2 ^ 32
    let now := x / 2 ^ 32 % 2 ^ 32
    let ph := match w.token with | some (o, p) => if o = off then p else now | none => now
    let u : Thread := if now = ph then { w.t with park := some (.barrier off ph) } else w.t.acquire w.t.nextId
    PlainWave (.barw a) s σ g k w → σ.BarrierAt off x →
    ∃ t w', exec (.barw a) s = .next t ∧ s.Leaves t g k w w' ∧
      WaveStep { w with token := (match w.token with | some (o, p) => if o = off then none else some (o, p) | none => none), t := u } w'
        (w.t.past (.barw a)) w.v w.p w.t.s w.t.f 0)

/-- GBAR of a node with co-resident workgroups, and CNTADD, whose place passes the checks of R126 and for whose entry the queue has room, complete: one entry joins the queue's end,
an arrival of the launch's waves or an add of the operand, and the instruction owes its acknowledgement; GBAR leaves the wave waiting. Nothing else changes but the
bucket it charges and the translation it keeps. -/
def Obligations.QueuedAtomics : Prop :=
  (∀ (s : State) (σ : Site) (a : SReg) (x : Access), Plain (.gbar a) s σ → σ.n.cores ≠ 0 → σ.t.drained = true → σ.c.smpK = 0 →
    s.check σ .g 8 .both 0 (σ.t.s a).toNat = .ok x → s.queueRoom σ 1 = true →
    ∃ t u, exec (.gbar a) s = .next t ∧ s.Charged t ∧
      IssueStep { s with ctxs := t.ctxs, nextQ := s.nextQ + 1, queue := s.queue ++ [σ.atomicEntry s.nextQ (.arrive (σ.n.cores * σ.n.waves)) x] } t σ
        { σ.t with park := some (.gbar x.va (x.pa.getD 0) x.key none) } (σ.t.past (.gbar a)) σ.t.s σ.t.f ∧
      t.threadOf σ.p = some u ∧ u.owes (.gbar a) σ.t.nextId 1) ∧
  ∀ (s : State) (σ : Site) (o : SS) (x : Access), Plain (.cntadd o) s σ → σ.c.smpK = 0 →
    s.check σ .g 8 .both 0 (σ.t.s o.a).toNat = .ok x → s.queueRoom σ 1 = true →
    ∃ t u, exec (.cntadd o) s = .next t ∧ s.Charged t ∧
      IssueStep { s with ctxs := t.ctxs, nextQ := s.nextQ + 1, queue := s.queue ++ [σ.atomicEntry s.nextQ (.add (σ.t.s o.b)) x] } t σ
        σ.t (σ.t.past (.cntadd o)) σ.t.s σ.t.f ∧
      t.threadOf σ.p = some u ∧ u.owes (.cntadd o) σ.t.nextId 1

/-- MWAIT of a scratchpad place with no scratchpad access of the wave outstanding and no acquire barring it, and MWAIT and CNTWAIT of a place in device memory that no earlier access bars and whose line has no acknowledgement on
its way, complete: where the value read meets the condition the party goes on and acquires, MWAIT with 0 in its destination; else it waits at the place, with its deadline. No other register and no byte
of memory changes. -/
def Obligations.Monitors : Prop :=
  (∀ (s : State) (σ : Site) (o : MwaitF) (x : Access) (pa : Nat), Plain (.mwait o) s σ → σ.c.smpK = 0 →
    let n := sizeBytes o.size
    let cmp := (σ.t.s o.b).toNat % 2 ^ (8 * n)
    let deadline := if o.tmo = 0 then none else some (s.time + 64 * o.tmo.toNat)
    let v := if o.sp = .s then σ.g.scratchRead x.va n else fromBytes (s.peek x.key pa n).bytes
    s.check σ o.sp n .read 0 (if o.sp = .s then (σ.t.s o.a).toNat % 2 ^ 32 else (σ.t.s o.a).toNat) = .ok x →
    (o.sp = .s → σ.t.acqBars σ.t.nextId = false ∧ σ.g.scratchMarked x.va n = false ∧ pa = x.va ∧ ∀ f ∈ σ.t.flights, f.i.isScratch = true → f.done = true) →
    (o.sp = .g → x.pa = some pa ∧ inMemory pa = true ∧ s.readBarred σ pa = false ∧ s.ackDue σ.cluster (lineOf pa) = false) →
    (metBy o.cond v cmp →
      ∃ t, exec (.mwait o) s = .next t ∧ s.Charged t ∧
        IssueStep { s with ctxs := t.ctxs, home := { s.home with elided := t.home.elided, copies := t.home.copies },
                           peers := { s.peers with reqs := s.peers.reqs.filter fun r => r.owner != .flight σ.p σ.t.nextId || r.write } } t σ
          (σ.t.acquire σ.t.nextId) (σ.t.past (.mwait o)) (fun m => if m = o.d.val then 0 else σ.t.s m) σ.t.f) ∧
    (¬ metBy o.cond v cmp →
      ∃ t, exec (.mwait o) s = .next t ∧ s.Charged t ∧
        IssueStep { s with ctxs := t.ctxs, home := { s.home with elided := t.home.elided, copies := t.home.copies } } t σ
          { σ.t with park := some (.mwait o x.va pa x.key (BitVec.ofNat 64 cmp) deadline) } (σ.t.past (.mwait o)) σ.t.s σ.t.f)) ∧
  ∀ (s : State) (σ : Site) (o : SSL) (x : Access) (pa : Nat), Plain (.cntwait o) s σ → σ.c.smpK = 0 →
    s.check σ .g 8 .read 0 (σ.t.s o.a).toNat = .ok x → x.pa = some pa → inMemory pa = true → s.readBarred σ pa = false → s.ackDue σ.cluster (lineOf pa) = false →
    ∃ t, exec (.cntwait o) s = .next t ∧ s.Charged t ∧
      IssueStep { s with ctxs := t.ctxs, home := { s.home with elided := t.home.elided, copies := t.home.copies } } t σ
        (if (σ.t.s o.b).toNat ≤ fromBytes (s.peek x.key pa 8).bytes then σ.t.acquire σ.t.nextId
         else { σ.t with park := some (.cntwait x.va pa x.key (σ.t.s o.b)) })
        (σ.t.past (.cntwait o)) σ.t.s σ.t.f

/-- SLEEP n completes and the party waits for 64·n ns; YIELD completes with the wave's stamp the newest. A release wait that is over lets the party issue next; a sleep whose time is up
ends; a monitor that reads a value meeting its condition ends with 0 in MWAIT's destination, one whose deadline has passed and whose last read does not, with 1; where none of that
holds the step changes nothing. -/
def Obligations.WaitsEnd : Prop :=
  (∀ (s : State) (σ : Site) (n : BitVec 12), Plain (.sleep n) s σ →
    ∃ t, exec (.sleep n) s = .next t ∧
      IssueStep s t σ { σ.t with park := some (.sleep (s.time + 64 * n.toNat)) } (σ.t.past (.sleep n)) σ.t.s σ.t.f) ∧
  (∀ (s : State) (σ : Site) (g k : Nat) (w : Wave), PlainWave .yield s σ g k w →
    ∃ t w', exec .yield s = .next t ∧ ({ s with nextStamp := s.nextStamp + 1 } : State).Leaves t g k w w' ∧
      WaveStep { w with stamp := s.nextStamp } w' (w.t.past .yield) w.v w.p w.t.s w.t.f 0) ∧
  (∀ (s : State) (p : Party) (σ : Site) (i : Instr) (pc : Nat) (sc : Scope), s.siteOf p = some σ → σ.t.park = some (.release i pc sc) →
    exec (.releaseWaitEnd p) s = .next
      (if σ.lives = true ∧ s.cur = none ∧ s.released σ sc = true then
        { s.updThread p fun t => { t with park := none } with cur := some p, tick := s.tick + 1 }
      else s.idle)) ∧
  (∀ (s : State) (p : Party) (σ : Site) (d : Nat), s.siteOf p = some σ → σ.t.park = some (.sleep d) →
    exec (.sleepExpiry p) s = .next
      (if d ≤ s.time ∧ σ.lives = true then { s.updThread p fun t => { t with park := none } with tick := s.tick + 1 } else s.idle)) ∧
  (∀ (s : State) (p : Party) (σ : Site) (o : MwaitF) (addr pa key : Nat) (cmp : DWord) (dl : Option Nat),
    s.siteOf p = some σ → σ.t.park = some (.mwait o addr pa key cmp dl) → σ.lives = true → σ.t.Quiet →
    (o.sp = .g → inMemory pa = true ∧ s.ackDue σ.cluster (lineOf pa) = false) →
    let v := if o.sp = .s then σ.g.scratchRead addr (sizeBytes o.size) else fromBytes (s.peek key pa (sizeBytes o.size)).bytes
    (metBy o.cond (v % 2 ^ (8 * sizeBytes o.size)) cmp.toNat →
      ∃ t u, exec (.monitorReread p) s = .next t ∧ t.threadOf p = some u ∧ u.park = none ∧
        (∀ n, n < 64 → u.s n = if n = o.d.val then 0 else σ.t.s n) ∧ (∀ n, u.f n = σ.t.f n) ∧ u.pc = σ.t.pc ∧ ∀ a, t.byte a = s.byte a) ∧
    (¬ metBy o.cond (v % 2 ^ (8 * sizeBytes o.size)) cmp.toNat →
      exec (.monitorReread p) s = .next { s.idle with home := if o.sp = .s then s.home else ((s.countElided pa).dropOwn σ.cluster σ.core [sectorOf pa]).home } ∧
      ∀ d, dl = some d → d ≤ s.time →
        ∃ t u, exec (.mwaitTimeout p) s = .next t ∧ t.threadOf p = some u ∧ u.park = none ∧
          (∀ n, n < 64 → u.s n = if n = o.d.val then 1 else σ.t.s n) ∧ (∀ n, u.f n = σ.t.f n) ∧ u.pc = σ.t.pc ∧ ∀ a, t.byte a = s.byte a))

/-! ## Memory instructions -/

/-- LD and SLD whose every lane's address passes the checks of R126 complete their issue: the instruction is in flight with each lane's address and place; registers, memory and
everything else but kept translations and an acquire of a pending ORD are as before; the values come with the request group. -/
def Obligations.LoadsIssue : Prop :=
  ∀ (i : Instr) (s : State) (σ : Site) (accs : List Access), (∃ o, i = .ld o) ∨ (∃ o, i = .sld o) → Plain i s σ → σ.c.smpK = 0 →
    Touches s σ i .g accs →
    ∃ t u, exec i s = .next t ∧ s.Charged t ∧ IssueStep { s with ctxs := t.ctxs } t σ σ.ordered (σ.t.past i) σ.t.s σ.t.f ∧
      t.threadOf σ.p = some u ∧ (accs ≠ [] → u.holds i σ.t.nextId accs 0)

/-- ST, ST.NB, SST, ATOM, RED and SATOM whose every lane's address passes the checks of R126 and whose entries the queue and the bucket have room for complete: their entries, one for each
distinct sector, join the queue's end in order, the instruction owes as many acknowledgements, and nothing else but the bucket, kept translations and an acquire of a pending ORD
changes: no register, and no byte of memory before HOME_WRITE. Without room all but ST.NB wait, and only note since when.
ST.NB whose every lane's address passes the checks of R126 and for whose entries there is no room completes without a store: in every active lane the guard's predicate takes the
value that makes the guard false; no other register, no entry of the queue and no byte of memory changes. -/
def Obligations.StoresIssued : Prop :=
  (∀ (i : Instr) (s : State) (σ : Site) (accs : List Access) (kind : QKind) (size : Nat), storeKind i = some (kind, size) → Plain i s σ →
    σ.c.smpK = 0 → Touches s σ i .g accs →
    (s.queueRoom σ (s.newEntries σ kind size accs).length = true →
      ∃ t u, exec i s = .next t ∧ s.Charged t ∧
        IssueStep { s with ctxs := t.ctxs, nextQ := s.nextQ + (s.newEntries σ kind size accs).length,
                           queue := s.queue ++ s.newEntries σ kind size accs } t σ σ.ordered (σ.t.past i) σ.t.s σ.t.f ∧
        t.threadOf σ.p = some u ∧ (accs ≠ [] → u.holds i σ.t.nextId accs (s.newEntries σ kind size accs).length)) ∧
    (s.queueRoom σ (s.newEntries σ kind size accs).length = false → (∀ o, i ≠ .stNb o) → exec i s = .next (s.stall σ).wait)) ∧
  (∀ (o : StF) (s : State) (σ : Site) (g k : Nat) (w : Wave) (accs : List Access), PlainWave (.stNb o) s σ g k w → Touches s σ (.stNb o) .g accs →
    s.queueRoom σ (s.newEntries σ (.store o.rc) (sizeBytes o.size) accs).length = false →
    ∃ t w', exec (.stNb o) s = .next t ∧ s.Leaves t g k w w' ∧
      WaveStep { w with t := σ.ordered } w' (w.t.past (.stNb o)) w.v
        (fun j l => if j = 0 then true else if j = o.t.g.val ∧ w.on (.stNb o) l = true then o.t.neg else w.p j l) w.t.s w.t.f 0)

/-- A scratchpad form of LD, ST, ATOM, RED, SLD, SST or SATOM whose every lane's offset is aligned and in bounds completes its issue: it is in flight with each lane's offset and data,
and no register and no byte changes, where no watchpoint meets it. SCRATCHPAD_PASS of the oldest such form that is left performs the lanes whose rows that pass serves, one after another,
where no word that it reads is marked: a store's data and an atomic's new values stand at their offsets, and no other byte changes; a form without a result is over after its
last pass, and not before. The values that LD and ATOM find, an atomic's as the lanes before it left them, come into their lanes' destinations, and those of SLD and SATOM into their s
register; no other register changes. -/
def Obligations.ScratchpadForms : Prop :=
  (∀ (i : Instr) (s : State) (σ : Site) (accs : List Access), Plain i s σ → Touches s σ i .s accs →
    s.watchHit σ.g.id (accSize i) (scratchReads i) (scratchWrites i) accs = none →
    ∃ t u, exec i s = .next t ∧ IssueStep s t σ σ.ordered (σ.t.past i) σ.t.s σ.t.f ∧
      t.threadOf σ.p = some u ∧ (accs ≠ [] → u.holds i σ.t.nextId accs 0)) ∧
  (∀ (s : State) (p : Party) (σ : Site) (f : Flight), s.siteOf p = some σ → σ.g.status = .resident → σ.t.acqBars f.id = false →
    σ.t.flights.find? (fun f => f.i.isScratch && !f.done) = some f → (∀ y ∈ σ.t.flights, y.id = f.id → y = f) →
    (scratchReads f.i = true → ∀ x ∈ σ.g.nowServed f, σ.g.scratchMarked x.va (accSize f.i) = false) →
    ∃ t h u, exec (.scratchpadPass p f.id) s = .next t ∧ t.wg? p.wg = some h ∧ t.threadOf p = some u ∧ (∀ a, t.byte a = s.byte a) ∧
      (∀ a, h.scratchByte a = (padRun f.i σ.g.scratchByte (σ.g.nowServed f)).1 a) ∧ (∀ n, u.f n = σ.t.f n) ∧ u.pc = σ.t.pc ∧
      (f.i.isLoad = false → (∀ n, u.s n = σ.t.s n) ∧
        if 1 < f.passes then ∃ f' ∈ u.flights, f'.id = f.id ∧ f'.passes = f.passes - 1 ∧ f'.done = false
        else ∀ f' ∈ u.flights, f'.id = f.id → f'.done = true)) ∧
  (∀ (s : State) (g k : Nat) (w : Wave) (σ : Site) (f : Flight) (d n : Nat), s.siteOf (.wave g k) = some σ → σ.w = some w → w.ended = false →
    σ.g.status = .resident → σ.t.acqBars f.id = false → σ.t.Quiet → f.clob = [] → w.t.flights = [f] → f.done = false →
    f.i.isScratch = true → laneResult f.i = some (d, n) → (∀ x ∈ σ.g.nowServed f, σ.g.scratchMarked x.va (accSize f.i) = false ∧ x.lane < 256) →
    (f.accs.map (·.lane)).Nodup →
    ∃ t w', exec (.scratchpadPass (.wave g k) f.id) s = .next t ∧ t.waveOf g k = some w' ∧
      (∀ e ∈ (padRun f.i σ.g.scratchByte (σ.g.nowServed f)).2, ∀ j, j < n → w'.v (d + j) e.1 = BitVec.ofNat 32 (e.2 / 2 ^ (32 * j))) ∧
      ∀ r l, l < 256 → (r < d ∨ d + n ≤ r ∨ ∀ x ∈ σ.g.nowServed f, x.lane ≠ l) → w'.v r l = w.v r l) ∧
  ∀ (s : State) (p : Party) (σ : Site) (f : Flight) (d : Nat) (x : Access), s.siteOf p = some σ → (∀ w, σ.w = some w → w.ended = false) →
    σ.g.status = .resident → σ.t.acqBars f.id = false → σ.t.Quiet → f.clob = [] → σ.t.flights = [f] → f.done = false →
    f.i.isScratch = true → uniformResult f.i = some d → f.accs = [x] → σ.g.nowServed f = [x] → σ.g.scratchMarked x.va (accSize f.i) = false →
    ∃ t u, exec (.scratchpadPass p f.id) s = .next t ∧ t.threadOf p = some u ∧
      ∀ n, n < 64 → u.s n = if n = d then BitVec.ofNat 64 (fromBytes ((List.range (accSize f.i)).map fun k => σ.g.scratchByte (x.va + k))) else σ.t.s n

/-- For an LD or SLD in flight whose lanes all have places in device memory, where no copy of their sectors is leased to the cluster, nothing waits in the queue, it has asked no peer, and no line has a reader
count, REQUEST_GROUP writes into each lane's destination, or into SLD's s register, the bytes that its home holds; no other register and no byte of memory changes. HOME_WRITE of the entry of an ATOM's or SATOM's
one lane notes what the home held before it. An ACKNOWLEDGEMENT with which every lane of an ATOM, or a SATOM, has its old value writes these into the lanes' destinations, or into the s register; no other register and
no byte of memory changes. -/
def Obligations.LoadsReturn : Prop :=
  (∀ (s : State) (g k : Nat) (w : Wave) (σ : Site) (f : Flight) (o : LdF), s.siteOf (.wave g k) = some σ → σ.w = some w → w.ended = false →
    σ.t.Quiet → f.clob = [] → σ.t.acqBars f.id = false → w.t.flights = [f] → f.done = false → f.fail = none → f.i = .ld o → o.sp = .g →
    f.accs ≠ [] → (f.accs.map (·.lane)).Nodup → (∀ x ∈ f.accs, x.lane < 256 ∧ s.Served f x) →
    s.home.copies = [] → s.home.counts = [] → s.queue = [] → (∀ r ∈ s.peers.reqs, r.owner ≠ .flight (.wave g k) f.id) →
    ∃ t w', exec (.requestGroup (.wave g k) f.id) s = .next t ∧ t.waveOf g k = some w' ∧ (∀ a, t.byte a = s.byte a) ∧ w'.t.pc = w.t.pc ∧
      (∀ x ∈ f.accs, ∀ j, j < sizeRegs o.size →
        w'.v (o.d.val + j) x.lane = BitVec.ofNat 32 (fromBytes (s.peek x.key (x.pa.getD 0) (sizeBytes o.size)).bytes / 2 ^ (32 * j))) ∧
      (∀ r l, l < 256 → (r < o.d.val ∨ o.d.val + sizeRegs o.size ≤ r ∨ ∀ x ∈ f.accs, x.lane ≠ l) → w'.v r l = w.v r l) ∧
      (∀ j l, l < 256 → w'.p j l = w.p j l) ∧ ∀ n, n < 64 → w'.t.s n = w.t.s n) ∧
  (∀ (s : State) (p : Party) (σ : Site) (f : Flight) (o : SldF) (x : Access), s.siteOf p = some σ → (∀ w, σ.w = some w → w.ended = false) →
    σ.t.Quiet → f.clob = [] → σ.t.acqBars f.id = false → σ.t.flights = [f] → f.done = false → f.fail = none → f.i = .sld o → o.sp = .g →
    f.accs = [x] → s.Served f x →
    s.home.copies = [] → s.home.counts = [] → s.queue = [] → (∀ r ∈ s.peers.reqs, r.owner ≠ .flight p f.id) →
    ∃ t u, exec (.requestGroup p f.id) s = .next t ∧ t.threadOf p = some u ∧ (∀ a, t.byte a = s.byte a) ∧ u.pc = σ.t.pc ∧
      (∀ n, n < 64 → u.s n = if n = o.d.val then BitVec.ofNat 64 (fromBytes (s.peek x.key (x.pa.getD 0) (sizeBytes o.size)).bytes) else σ.t.s n) ∧
      ∀ n, u.f n = σ.t.f n) ∧
  (∀ (s : State) (n : Nat) (e : QEntry) (op : AOp) (size : Size) (p : Party) (u : Thread) (f : Flight) (x : Access) (pa : Nat),
    s.queue.find? (fun x => x.n == n) = some e → e.kind = .atomic op size → e.owner = .flight p f.id → s.mayApply e = true → s.groupOf e = [e] →
    e.host = false → inMemory (128 * e.line) = true → s.isLive (128 * e.line) = true → s.home.frozen.contains (regionOf (128 * e.line)) = false →
    e.accs = [x] → x.pa = some pa → (s.peek e.key pa (sizeBytes size)).bad = false → s.threadOf p = some u → u.flight? f.id = some f →
    ∃ t u' f', exec (.homeWrite n) s = .next t ∧ t.threadOf p = some u' ∧ u'.flight? f.id = some f' ∧ f'.i = f.i ∧
      ∀ y ∈ f'.accs, y.lane = x.lane → y.old = some (fromBytes (s.peek e.key pa (sizeBytes size)).bytes) ∧ y.bad = false) ∧
  ∀ (s : State) (n : Nat) (e : QEntry) (p : Party) (σ : Site) (f : Flight), s.queue.find? (fun x => x.n == n) = some e → e.times.isSome = true →
    s.ackInOrder e = true → e.owner = .flight p f.id → s.siteOf p = some σ → (∀ w, σ.w = some w → w.ended = false) → σ.t.Quiet → f.clob = [] →
    σ.t.flights = [f] → f.done = false → f.fail = none → f.accs ≠ [] → (f.accs.map (·.lane)).Nodup →
    (∀ x ∈ f.accs, x.lane < 256 ∧ x.pa.isSome = true ∧ x.done = false ∧ x.old.isSome = true ∧ x.bad = false) →
    (∀ g k w o, p = .wave g k → σ.w = some w → f.i = .atom o →
      ∃ t w', exec (.acknowledgement n) s = .next t ∧ t.waveOf g k = some w' ∧ (∀ a, t.byte a = s.byte a) ∧
        (∀ x ∈ f.accs, ∀ j, j < sizeRegs o.size → w'.v (o.d.val + j) x.lane = BitVec.ofNat 32 (x.old.getD 0 / 2 ^ (32 * j))) ∧
        (∀ r l, l < 256 → (r < o.d.val ∨ o.d.val + sizeRegs o.size ≤ r ∨ ∀ x ∈ f.accs, x.lane ≠ l) → w'.v r l = w.v r l) ∧
        ∀ n, n < 64 → w'.t.s n = w.t.s n) ∧
    ∀ o x, f.i = .satom o → f.accs = [x] →
      ∃ t u, exec (.acknowledgement n) s = .next t ∧ t.threadOf p = some u ∧ (∀ a, t.byte a = s.byte a) ∧ u.pc = σ.t.pc ∧
        ∀ n, n < 64 → u.s n = if n = o.d.val then BitVec.ofNat 64 (x.old.getD 0) else σ.t.s n

/-- An entry n that may not be applied changes nothing. One that may be, in a live, unfrozen region of device memory, is applied with every entry that its home serves together with it, and
each takes completion times, or is held where one of them has frozen its region. Where that is the entry alone: a store's bytes are written, the last for an address standing; an atomic of one lane on an unmarked sector leaves the operation's
new value there; every other byte is as before, and the times are those of its line's grants; in a frozen region every byte stays as it is. -/
def Obligations.HomeWrites : Prop :=
  ∀ (s : State) (n : Nat) (e : QEntry), s.queue.find? (fun x => x.n == n) = some e → (∀ tgt off v, e.kind ≠ .debug tgt off v) →
    ∃ t, exec (.homeWrite n) s = .next t ∧
      (s.mayApply e = false → t = s.idle) ∧
      (s.mayApply e = true → e.host = false → inMemory (128 * e.line) = true →
        (∀ x ∈ s.groupOf e, s.mayApply x = true ∧ x.host = false ∧ s.isLive (128 * x.line) = true ∧ s.home.frozen.contains (regionOf (128 * x.line)) = false) →
        ∀ x ∈ s.groupOf e, ∃ y ∈ t.queue, y.n = x.n ∧ (y.times.isSome = true ∨ t.home.frozen.contains (regionOf (128 * x.line)) = true)) ∧
      (s.mayApply e = true → e.host = false → inMemory (128 * e.line) = true → s.groupOf e = [e] →
        (s.home.frozen.contains (regionOf (128 * e.line)) = true → ∀ a, t.byte a = s.byte a) ∧
        (s.home.frozen.contains (regionOf (128 * e.line)) = false → s.isLive (128 * e.line) = true →
          (∃ e', t.queue.find? (fun x => x.n == n) = some e' ∧ e'.times = some (s.completion e.line e.cluster e.core)) ∧
          (∀ rc, e.kind = .store rc → ∀ a, t.byte a = (e.bytes.reverse.lookup a).getD (s.byte a)) ∧
          (∀ op size x pa, e.kind = .atomic op size → e.accs = [x] → x.pa = some pa → (s.peek e.key pa (sizeBytes size)).bad = false →
            ∀ a, t.byte a = ((located pa (leBytes (sizeBytes size)
              (aopNew op (sizeBytes size) (fromBytes (s.peek e.key pa (sizeBytes size)).bytes) x.v x.cmp))).lookup a).getD (s.byte a))))

/-- An entry of a store in flight that has been applied, with no earlier acknowledgement of its line on its way to the cluster, leaves the queue, and no other does; the party owes one acknowledgement less, its W_CLUSTER, W_DEV and W_SYS are at least as late as
before and as the entry's times; its registers, its program counter and every byte of memory are as before. -/
def Obligations.Acknowledgements : Prop :=
  ∀ (s : State) (n : Nat) (e : QEntry) (p : Party) (u : Thread) (f : Flight) (w1 w2 w3 : Nat), s.queue.find? (fun x => x.n == n) = some e →
    e.times = some (w1, w2, w3) → s.ackInOrder e = true → e.owner = .flight p f.id → s.threadOf p = some u → u.flights = [f] → f.i.isLoad = false → f.fail = none →
    ∃ t u', exec (.acknowledgement n) s = .next t ∧ t.queue = s.queue.filter (fun x => x.n != n) ∧ t.threadOf p = some u' ∧
      (∀ f' ∈ u'.flights, f'.owed = f.owed - 1) ∧ max u.wCluster w1 ≤ u'.wCluster ∧ max u.wDev w2 ≤ u'.wDev ∧ max u.wSys w3 ≤ u'.wSys ∧
      u'.pc = u.pc ∧ (∀ m, u'.s m = u.s m) ∧ (∀ m, u'.f m = u.f m) ∧ ∀ a, t.byte a = s.byte a

/-- PF completes whatever its addresses are, with every register, flag and byte of memory as before: it changes cached copies, kept translations and the count of elided reads alone. RECLD at an aligned offset completes with the bytes of each active lane's record in
its destination. RECST at an aligned offset of slots that hold it completes with each active lane's data at that offset of its slot, the highest lane standing where two name one
slot. Nothing else changes. -/
def Obligations.PrefetchAndRecords : Prop :=
  (∀ (s : State) (σ : Site) (g k : Nat) (w : Wave) (o : PfF), PlainWave (.pf o) s σ g k w →
    ∃ t w', exec (.pf o) s = .next t ∧ s.Charged t ∧ ({ s with ctxs := t.ctxs, home := { s.home with copies := t.home.copies, grants := t.home.grants, elided := t.home.elided } } : State).Leaves t g k w w' ∧ (∀ a, t.byte a = s.byte a) ∧
      WaveStep w w' (w.t.past (.pf o)) w.v w.p w.t.s w.t.f 0) ∧
  (∀ (s : State) (σ : Site) (g k : Nat) (w : Wave) (o : RecldF), PlainWave (.recld o) s σ g k w → o.off.val % sizeBytes o.size = 0 →
    let rn (l : Nat) : Nat := match o.rn with | some b => (w.a32 l b).toNat | none => if σ.n.kind = 0 then l else 0
    (∀ l ∈ w.lanes (.recld o), rn l < σ.g.records.length) → σ.g.doneTaken = false →
    ∃ t w', exec (.recld o) s = .next t ∧ s.Leaves t g k w w' ∧
      WaveStep w w' (w.t.past (.recld o))
        (fun r l =>
          let bs := (σ.g.records[rn l]?.map (·.bytes)).getD []
          let x := fromBytes ((List.range (sizeBytes o.size)).map fun j => bs.getD (o.off.val + j) 0)
          if w.on (.recld o) l = true ∧ o.d.val ≤ r ∧ r < o.d.val + sizeRegs o.size then BitVec.ofNat 32 (x / 2 ^ (32 * (r - o.d.val))) else w.v r l)
        w.p w.t.s w.t.f 0) ∧
  ∀ (s : State) (σ : Site) (g k : Nat) (w : Wave) (o : RecstF) (slot : Nat → OutSlot), PlainWave (.recst o) s σ g k w → o.off.val % sizeBytes o.size = 0 →
    (∀ l ∈ w.lanes (.recst o), σ.g.slotOf (w.a32 l o.a).toNat = some (slot l) ∧ o.off.val + sizeBytes o.size ≤ (slot l).bytes.length) →
    (∀ x ∈ σ.g.slots, ∀ y ∈ σ.g.slots, x.idx = y.idx → x = y) →
    ∃ t w', exec (.recst o) s = .next t ∧
      ∃ put : List OutSlot → List OutSlot, (s.updWg g fun h => { h with slots := put h.slots }).Leaves t g k w w' ∧
        WaveStep w w' (w.t.past (.recst o)) w.v w.p w.t.s w.t.f 0 ∧
        (put σ.g.slots).map (fun x => (x.idx, x.edge, x.wave)) = σ.g.slots.map (fun x => (x.idx, x.edge, x.wave)) ∧
        ∀ x ∈ σ.g.slots, ∃ y ∈ put σ.g.slots, y.idx = x.idx ∧ y.bytes.length = x.bytes.length ∧ ∀ j, j < x.bytes.length →
          y.bytes.getD j 0 =
            (match ((w.lanes (.recst o)).filter fun l => (slot l).idx == x.idx).getLast? with
             | some l => if o.off.val ≤ j ∧ j < o.off.val + sizeBytes o.size then
                 (leBytes (sizeBytes o.size) (w.words l (sizeRegs o.size) o.d)).getD (j - o.off.val) 0 else x.bytes.getD j 0
             | none => x.bytes.getD j 0)

/-! ## The work graph -/

/-- OALLOC of n slots that fit completes: they are appended, zeroed, at the lowest free run of indices, its handle goes to the destination and the flag becomes 1. Where they do not fit the
flag becomes 0, or under .WAIT the wave parks. EMIT and SPAWN of slots of the wave on a local edge complete: the slots leave the window, and each record is in the target's
queue or in a workgroup formed for it, one level deeper under SPAWN or a recursive edge; SPAWN adds their number to the join counter and puts it into its destination. With no slot both only
go on, which for SPAWN's destination is the model's reading (log 31). EMIT on an edge bound to a remote node, whose station takes one more request, sends the records to it; on one bound to an
out ring it completes too. No byte of memory changes. The lowest of several free runs of indices is the model's choice (log 119). -/
def Obligations.RecordsOut : Prop :=
  (∀ (s : State) (σ : Site) (g k : Nat) (w : Wave) (o : OallocF) (n : Nat) (ed : Edge), PlainWave (.oalloc o) s σ g k w →
    n = (w.t.s o.a).toNat → 0 < n → n ≤ Config.outputSlots → o.e.val < σ.n.nout → (o.f.val ≠ 0 ∨ o.wait = true) →
    σ.c.edge? (σ.n.edgeIdx o.e) = some ed →
    let free (a : Nat) : Prop := a + n ≤ Config.outputSlots ∧ ∀ x ∈ σ.g.slots, x.idx < a ∨ a + n ≤ x.idx
    (∀ a, free a → (∀ b, b < a → ¬ free b) → s.recordRoom σ.c (n * recSpace (σ.c.typeSize ed.rtype)) = true →
      ∃ t w', exec (.oalloc o) s = .next t ∧
        (s.updWg g fun h => { h with slots := h.slots ++ (List.range n).map fun j => ⟨a + j, o.e, k, List.replicate (σ.c.typeSize ed.rtype) 0⟩ }).Leaves
          t g k w w' ∧
        WaveStep w w' (w.t.past (.oalloc o)) w.v w.p (fun m => if m = o.d.val then BitVec.ofNat 64 (a + 4096 * o.e.val) else w.t.s m)
          (fun m => if m = 0 then true else if m = o.f.val then true else w.t.f m) 0) ∧
    ((∀ a, ¬ free a) ∨ s.recordRoom σ.c (n * recSpace (σ.c.typeSize ed.rtype)) = false →
      (o.wait = true → exec (.oalloc o) s = .next (s.parkAt (.wave g k) (.oalloc o w.t.pc)).wait) ∧
      (o.wait = false → ∃ t w', exec (.oalloc o) s = .next t ∧ s.Leaves t g k w w' ∧
        WaveStep w w' (w.t.past (.oalloc o)) w.v w.p w.t.s (fun m => if m = o.f.val then false else w.t.f m) 0))) ∧
  (∀ (s : State) (σ : Site) (g k : Nat) (w : Wave) (i : Instr) (a b : SReg) (e : Fin 8) (os : List OutSlot) (ed : Edge) (deeper : Bool),
    (∃ rel, i = .emit ⟨a, b, rel, e⟩ ∧ deeper = ed.recursive) ∨ (∃ d rel la, i = .spawn ⟨d, a, b, rel, e, la⟩ ∧ deeper = true) →
    PlainWave i s σ g k w →
    ((w.t.s b).toNat = 0 → ∃ t, exec i s = .next t ∧ PlainStep i s t σ) ∧
    ((w.t.s b).toNat = os.length → os ≠ [] → os.length ≤ Config.outputSlots →
      (∀ j, j < os.length → σ.g.slotOf ((w.t.s a).toNat + j) = os[j]? ∧ ∀ x, os[j]? = some x → x.wave = k ∧ x.edge = e) →
      σ.c.edge? (σ.n.edgeIdx e) = some ed → ed.bind = .here →
      let depth := if deeper = true then σ.g.depth + 1 else σ.g.depth
      depth ≤ 16 → (∀ m, σ.c.node? ed.target = some m → m.depth ≠ 0 → depth ≤ m.depth) →
      ∃ t w' h c, exec i s = .next t ∧ t.waveOf g k = some w' ∧ t.wg? g = some h ∧ t.ctx? σ.c.id = some c ∧ w'.t.pc = w.t.past i ∧
        w'.vregs = w.vregs ∧ w'.preds = w.preds ∧ (∀ m, w'.t.f m = w.t.f m) ∧ (∀ x, t.byte x = s.byte x) ∧
        h.slots = σ.g.slots.filter (fun x => !os.any fun y => y.idx == x.idx) ∧
        (∀ x ∈ os, ∃ r : Rec, r.bytes = x.bytes ∧ r.depth = depth ∧ r.time = s.time ∧
          r.parent = (match i with | .spawn _ => some g | _ => none) ∧
          ((∃ q ∈ c.slices, q.node = ed.target ∧ q.die = σ.g.die ∧ r ∈ q.recs) ∨ ∃ f ∈ c.formed, f.node = ed.target ∧ r ∈ f.recs)) ∧
        (match i with
         | .spawn o => h.join = (σ.g.join + os.length) % 2 ^ 32 ∧
             ∀ m, m < 64 → w'.t.s m = if m = o.d.val then BitVec.ofNat 64 ((σ.g.join + os.length) % 2 ^ 32) else w.t.s m
         | _ => h.join = σ.g.join ∧ ∀ m, m < 64 → w'.t.s m = w.t.s m)) ∧
    (∀ rel, i = .emit ⟨a, b, rel, e⟩ → (w.t.s b).toNat = os.length → os ≠ [] → os.length ≤ Config.outputSlots →
      (∀ j, j < os.length → σ.g.slotOf ((w.t.s a).toNat + j) = os[j]? ∧ ∀ x, os[j]? = some x → x.wave = k ∧ x.edge = e) →
      σ.c.edge? (σ.n.edgeIdx e) = some ed → ed.bind ≠ .here → s.edgeOpen ed = true →
      let depth := if ed.recursive = true then σ.g.depth + 1 else σ.g.depth
      depth ≤ 16 →
      ∃ t w' h, exec i s = .next t ∧ t.waveOf g k = some w' ∧ t.wg? g = some h ∧ w'.t.pc = w.t.past i ∧
        (∀ m, m < 64 → w'.t.s m = w.t.s m) ∧ (∀ x, t.byte x = s.byte x) ∧
        h.slots = σ.g.slots.filter (fun x => !os.any fun y => y.idx == x.idx) ∧
        ∀ dev cx nd, ed.bind = .remote dev cx nd →
          ∃ r ∈ t.peers.reqs, r.recs = some (σ.n.edgeIdx e, depth, os.map (·.bytes)) ∧ r.write = true ∧ r.addr = deviceAddr dev ∧ r.ctx = σ.c.id))

/-- QDEPTH completes with the number of the target's records that are not bound in bits [31:0] of its destination and whether that is above the threshold in bit 32. DONE completes and
gives up the input records, once. PHASE and JOIN of a phased node, with no reservation and nothing of the wave outstanding, complete with the wave waiting at the boundary, where another
wave is not there yet; with the last wave there and record space for them, the workgroup is a phase record: its scratchpad is gone, every wave keeps its v registers named by the
node's carry mask and no other, its s registers, flags and predicates. No byte of memory changes. -/
def Obligations.PhasesAndDone : Prop :=
  (∀ (s : State) (σ : Site) (d : SReg) (e : Fin 8) (ed : Edge), Plain (.qdepth d e) s σ → e.val < σ.n.nout → σ.c.edge? (σ.n.edgeIdx e) = some ed →
    ∃ t, exec (.qdepth d e) s = .next t ∧
      UniformStep s t σ (σ.t.past (.qdepth d e))
        (fun n => if n = d.val then
            BitVec.ofNat 64 (min (σ.c.depth ed.target) (2 ^ 32 - 1) + if s.above σ.c ed.target then 2 ^ 32 else 0) else σ.t.s n) σ.t.f 0) ∧
  (∀ (s : State) (σ : Site), Plain .done s σ →
    (σ.g.doneTaken = true → ∃ t, exec .done s = .next t ∧ PlainStep .done s t σ) ∧
    ∃ t u h, exec .done s = .next t ∧ t.threadOf σ.p = some u ∧ t.wg? σ.g.id = some h ∧ h.doneTaken = true ∧ u.pc = σ.t.past .done ∧
      (∀ n, u.s n = σ.t.s n) ∧ (∀ n, u.f n = σ.t.f n) ∧ ∀ a, t.byte a = s.byte a) ∧
  ∀ (s : State) (σ : Site) (g k : Nat) (w : Wave) (i : Instr) (j : Bool), i = .phase ∧ j = false ∨ i = .join ∧ j = true →
    PlainWave i s σ g k w → σ.n.phased = true → σ.g.resv = none → (∀ x, σ.g.boundaryKind = some x → x = j) → w.t.quiet = true →
    w.t.deferredOn .gst = none → s.released σ .dev = true →
    ((∃ x ∈ σ.g.waves, x.waveid ≠ k ∧ x.ended = false ∧ ∀ y, x.t.park ≠ some (.boundary y)) →
      ∃ t, exec i s = .next t ∧ IssueStep s t σ { σ.t with park := some (.boundary j) } (σ.t.past i) σ.t.s σ.t.f) ∧
    ((∀ x ∈ σ.g.waves, x.waveid = k ∧ x.ended = false ∨ x.ended = true ∨ ∃ y, x.t.park = some (.boundary y)) →
      s.recordRoom σ.c (σ.g.phaseSpace σ.c) = true →
      ∃ t h, exec i s = .next t ∧ t.wg? g = some h ∧ h.inPhase = true ∧ h.scratchSize = 0 ∧ h.scratch = [] ∧ (∀ a, t.byte a = s.byte a) ∧
        ∀ x ∈ σ.g.waves, x.ended = false → ∃ y ∈ h.waves, y.waveid = x.waveid ∧ (∀ n, y.t.s n = x.t.s n) ∧ (∀ n, y.t.f n = x.t.f n) ∧
          y.preds = x.preds ∧ y.e = x.e ∧ y.stack = x.stack ∧ y.nevst = x.nevst ∧ y.t.park = none ∧
          ∀ r l, r < 96 → l < 256 → y.v r l = if σ.n.carry.getLsbD r = true then x.v r l else 0)

/-- ISSUE of a pipe with waves that may issue on it, now that those are out which wait at issue, chooses one of the highest class and, in it, of the oldest stamp; a wave of the core that
goes on with a passing over comes before them; of a sequencer thread that may issue it chooses it. PROMOTION raises a wave
passed over 256 times. A slice whose oldest record has waited the node's timer forms a workgroup of its records. SCHEDULER_DECISION of a device with one context that may launch and one formed workgroup that fits places it, on the cores that
R373 chooses unless adapter tables prefetched meanwhile change the choice: its waves stand at the node's entry with all registers zero and the lanes of its records on. -/
def Obligations.Scheduling : Prop :=
  (∀ (s : State) (core : Nat) (k : Pipe), s.cur = none →
    let u := s.sweep.tried core k
    (∀ p, s.sweep.passer core = some p → exec (.issue (.pipe core k)) s = .next { s.sweep with cur := some p, tick := s.tick + 1 }) ∧
    (s.sweep.passer core = none → u.ready core k ≠ [] →
      ∃ t e, exec (.issue (.pipe core k)) s = .next t ∧ e ∈ u.ready core k ∧ t.cur = some (.wave e.1.id e.2.waveid) ∧
        ∀ x ∈ u.ready core k, u.issueClass x.1 x.2 < u.issueClass e.1 e.2 ∨
          u.issueClass x.1 x.2 = u.issueClass e.1 e.2 ∧ e.2.stamp ≤ x.2.stamp)) ∧
  (∀ (s : State) (p : Party) (σ : Site), s.cur = none → p.executor ≠ .core → s.sweep.siteOf p = some σ → σ.runnable = true → σ.t.windowShut = false →
    s.sweep.blocked.contains p = false → exec (.issue (.thread p)) s = .next { s.sweep with cur := some p, tick := s.tick + 1 }) ∧
  (∀ (s : State) (g k : Nat) (w : Wave), s.waveOf g k = some w → 256 ≤ w.passed →
    ∃ t, exec (.promotion (.wave g k)) s = .next t ∧ t.waveOf g k = some { w with promoted := w.promoted + 1, passed := 0 } ∧
      t = { s.idle with wgs := t.wgs }) ∧
  (∀ (s : State) (ctx node die : Nat) (c : Context) (n : Node) (q : Slice) (r : Rec), s.ctx? ctx = some c → c.node? node = some n →
    c.slices.find? (fun q => q.node == node && q.die == die) = some q → q.recs.head? = some r → n.kind = 0 → n.cores = 0 →
    s.mayForm c node = true → r.time + n.timer * 250 ≤ s.time → (∀ x ∈ q.recs, x.depth = r.depth) → q.recs.length < 256 →
    ∃ t k, exec (.gatherTimer ctx node die) s = .next t ∧ t = { s.idle with ctxs := t.ctxs } ∧ t.ctx? ctx = some k ∧
      k.formed = c.formed ++ [⟨node, die, q.recs, r.time, none⟩] ∧
      k.slices.find? (fun q => q.node == node && q.die == die) = some { q with recs := [] }) ∧
  ∀ (s : State) (c : Context) (f : Formed) (n : Node) (cores : List Nat) (base : Nat), s.wgs = [] → s.ctxs = [c] → c.slices = [] → c.formed = [f] →
    s.service.active = false → c.run = .running → c.ladder = .none → c.weight ≠ 0 → c.funded = true → c.overdrawn = false → c.holding = none →
    c.trapWait = [] → c.node? f.node = some n → n.cores = 0 → f.die < 8 → f.member = none →
    s.place c n (n.need f.recs) = some (cores, base) →
    ∃ t g k, exec .schedulerDecision s = .next t ∧ t.wgs = [g] ∧ t.ctx? c.id = some k ∧ k.formed = [] ∧
      g.id = s.nextWg ∧ g.ctx = c.id ∧ g.node = n.nodeid ∧ g.status = .resident ∧ g.records = f.recs ∧ (n.akv = false → g.cores = cores ∧ g.scratchBase = base) ∧
      g.scratchSize = n.scratchK * 1024 ∧ g.waves.map (·.waveid) = List.range (n.wavesM1 + 1) ∧ (∀ b, t.byte b = s.byte b) ∧
      ∀ w ∈ g.waves, w.t.pc = n.entry % 2 ^ 57 ∧ (∀ m, w.t.s m = 0) ∧ (∀ m, m ≠ 0 → w.t.f m = false) ∧ (∀ r l, w.v r l = 0) ∧ (∀ m l, m ≠ 0 → w.p m l = false) ∧ w.stack = [] ∧ w.ended = false ∧
        w.nregs = 8 * n.regs8 ∧ ∀ l, l < 256 → w.e.getLsbD l = if n.kind = 0 then decide (l < f.recs.length) else true

/-- An ending workgroup whose work is over is gone, and its records' parents have one child less. At a period boundary every limited level is its debt plus one refill, after a rewritten descriptor has taken effect, and a context whose level had come down to its
overdraft limit is in the ladder. A context that a drain deadline finds
with work is halted to be wintered, or, without a Wintering store, reset. A slice that is over starts the ladder of its context, and the next entry begins once its resources are free. A settled stopped workgroup whose frame fits is saved with its
registers and what is left of its instructions. A rewrite by firmware takes the RW fields, bits [439:364], alone; one with
OVR above 8, and any while firmware is reloaded, has no effect, the former by the model's reading (log 90). -/
def Obligations.EndsAndPeriods : Prop :=
  (∀ (s : State) (g : Workgroup) (c : Context) (n : Node), s.wg? g.id = some g → s.ctx? g.ctx = some c → c.node? g.node = some n → n.cores = 0 →
    g.status = .ending → c.run = .running → s.mayEnd g = true → c.trapWait = [] → (∀ h ∈ s.wgs, ∀ w ∈ h.waves, w.t.park = none) →
    ∃ t, exec (.workgroupEnd g.id) s = .next t ∧ t.wg? g.id = none ∧ (∀ b, t.byte b = s.byte b) ∧
      (∀ k h, k ≠ g.id → s.wg? k = some h → ∃ h', t.wg? k = some h' ∧ h'.waves = h.waves ∧ h'.scratch = h.scratch ∧
        ((∀ r ∈ g.records, r.parent ≠ some k) → h'.join = h.join) ∧
        (∀ r, g.records = [r] → r.parent = some k → 0 < h.join → h.join < 2 ^ 32 → h'.join = h.join - 1 ∧
          (h.join = 1 → h.status = .phase false → h'.status = .phase true)))) ∧
  (∀ s : State, (s.time < s.period + 20000 → exec .periodBoundary s = .next s.idle) ∧
    (s.period + 20000 ≤ s.time → ∃ t, exec .periodBoundary s = .next t ∧ t.period = s.period + 20000 ∧ (∀ g ∈ t.gatherers, g.used = []) ∧
      (∀ b, t.byte b = s.byte b) ∧ (∀ p, t.threadOf p = s.threadOf p) ∧
      ∀ k c, s.ctx? k = some c → ∃ c', t.ctx? k = some c' ∧ c'.newDesc = none ∧ c'.used = 0 ∧
        c'.desc = (match c.newDesc with | some d => d | none => c.desc) ∧
        (s.service.active = false → c.run = .running → c.ladder = .none → c.overdrawn = true → c'.ladder = .drain (s.time + c.drainUs * 1000) none) ∧
        c'.bktCore = (if c'.coreTok = 0xFFFF then c.bktCore else min c.bktCore 0 + (c'.coreTok * 32000 : Nat)) ∧
        c'.bktRead = (if c'.readTok = 0xFFFF then c.bktRead else min c.bktRead 0 + (c'.readTok * 65536 : Nat)) ∧
        c'.bktWrite = (if c'.wrTok = 0xFFFF then c.bktWrite else min c.bktWrite 0 + (c'.wrTok * 4096 : Nat)) ∧
        c'.bktEnergy = (if c'.enTok = 0xFFFF then c.bktEnergy else min c.bktEnergy 0 + (c'.enTok : Nat)))) ∧
  (∀ (s : State) (ctx d : Nat) (c : Context), s.ctx? ctx = some c → c.ladder = .drain d none → d ≤ s.time → s.drained ctx = false →
    (c.wok = true → (∃ g ∈ s.wgs, g.ctx = ctx ∧ g.onCore = true ∧ s.settled g false = false) →
      ∃ t k, exec (.drainDeadline ctx) s = .next t ∧ t.ctx? ctx = some k ∧ k.run = .halted false ∧ k.ladder = .winter ∧ t.home = s.home ∧
        (∀ q u, s.threadOf q = some u → ∃ fl, t.threadOf q = some { u with flights := fl }) ∧
        ∀ g k w, s.waveOf g k = some w → ∃ u fp, t.waveOf g k = some { w with t := u, fpst := fp }) ∧
    (c.wok = false → ∃ t k, exec (.drainDeadline ctx) s = .next t ∧ t.ctx? ctx = some k ∧ k.run = .running ∧ k.ladder = .none ∧ k.slices = [] ∧ k.formed = [] ∧
      k.desc = c.desc ∧ k.graph = c.graph ∧ t.wgs = s.wgs.filter (fun g => g.ctx != ctx) ∧ t.home = s.home)) ∧
  (∀ (s : State) (e : DWord) (c : Context), s.service.active = true → s.service.entry = some e → s.ctx? (serviceCtx e) = some c →
    (s.service.ending = false → s.service.sliceFrom + serviceSlice e ≤ s.time → c.run = .running → s.drained (serviceCtx e) = false → c.ladder = .none →
      ∃ t k, exec .sliceEnd s = .next t ∧ t.service = { s.service with ending := true } ∧ t.ctx? (serviceCtx e) = some k ∧
        k.ladder = .drain (s.time + servicePlim e) none ∧ t = { s.idle with service := t.service, ctxs := t.ctxs }) ∧
    (s.service.ending = true → s.drained (serviceCtx e) = true → exec .sliceEnd s = .next { s.idle with service :=
      { s.service with ending := false, pos := (s.service.pos + 1) % max 1 s.service.list.length, sliceFrom := s.time } })) ∧
  (∀ (s : State) (g : Workgroup) (c : Context) (n : Node), s.wg? g.id = some g → s.ctx? g.ctx = some c → c.node? g.node = some n → n.cores = 0 →
    g.status = .stopped → s.settled g (c.run == .running) = true → s.copiesDone g.id = true → s.framesFit c [g] = true → c.trapWait = [] →
    (∀ h ∈ s.wgs, ∀ w ∈ h.waves, w.t.park = none) →
    ∃ t h, exec (.save g.id) s = .next t ∧ t.wg? g.id = some h ∧ h.status = .saved ∧ h.why = g.why ∧ h.records = g.records ∧ h.scratch = g.scratch ∧
      (∀ b, t.byte b = s.byte b) ∧ (∀ k, k ≠ g.id → t.wg? k = s.wg? k) ∧ h.waves.map (·.waveid) = g.waves.map (·.waveid) ∧
      ∀ w ∈ g.waves, ∃ w' ∈ h.waves, w'.waveid = w.waveid ∧ w'.vregs = w.vregs ∧ w'.preds = w.preds ∧ w'.e = w.e ∧ w'.stack = w.stack ∧
        w'.t.pc = w.t.pc ∧ w'.t.sregs = w.t.sregs ∧ w'.t.fregs = w.t.fregs ∧ ∀ f ∈ w.t.flights, f.done = false → ∃ f' ∈ w'.t.flights, f'.id = f.id ∧ f'.i = f.i ∧
          f'.accs.map (fun a => (a.lane, a.va, a.pa, a.v, a.done)) = f.accs.map (fun a => (a.lane, a.va, a.pa, a.v, a.done))) ∧
  ∀ (s : State) (ctx : Nat) (d : BitVec 512) (c : Context), s.ctx? ctx = some c →
    (8 < (d.extractLsb' 364 4).toNat ∨ s.host.fw = .reloading → exec (.descriptorRewrite ctx d) s = .next s.idle) ∧
    ((d.extractLsb' 364 4).toNat ≤ 8 → s.host.fw ≠ .reloading → ∃ t k x, exec (.descriptorRewrite ctx d) s = .next t ∧ t = { s.idle with ctxs := t.ctxs } ∧ t.ctx? ctx = some k ∧
      k = { c with newDesc := some x } ∧ ∀ i, i < 512 → x.getLsbD i = if 364 ≤ i ∧ i < 440 then d.getLsbD i else c.desc.getLsbD i)

/-! ## Reservations and the matrix engine -/

/-- MRSV completes: with enough free quadrants in the cluster the workgroup holds the lowest of them, with zeroed tiles and accumulators, and the flag is 1; else the flag is 0. MREL of the highest
quadrants with nothing of theirs in use shrinks the reservation. FORK of an idle pair starts its threads at their entries with s0 the operand. RDV that completes no round waits. MSYNC and CSYNC with nothing of the
thread outstanding go on; so does EXIT, with the thread no longer running. Registers but those named, and memory, are as before. -/
def Obligations.Reservations : Prop :=
  (∀ (s : State) (σ : Site) (g k : Nat) (w : Wave) (f : FReg) (n : Fin 4), PlainWave (.mrsv f n) s σ g k w → f ≠ 0 → σ.g.resv = none →
    let free := (List.range 4).filter fun q => (s.ownerOfQuad σ.g.cluster q).isNone
    (n.val + 1 ≤ free.length → ∃ t w', exec (.mrsv f n) s = .next t ∧
      (s.updWg g fun h => { h with resv := some (Reservation.grant (free.take (n.val + 1))) }).Leaves t g k w w' ∧
      WaveStep w w' (w.t.past (.mrsv f n)) w.v w.p w.t.s (fun m => if m = f.val then true else w.t.f m) 0) ∧
    (free.length < n.val + 1 → ∃ t w', exec (.mrsv f n) s = .next t ∧ s.Leaves t g k w w' ∧
      WaveStep w w' (w.t.past (.mrsv f n)) w.v w.p w.t.s (fun m => if m = f.val then false else w.t.f m) 0)) ∧
  (∀ (s : State) (σ : Site) (m : BitVec 4) (r : Reservation) (n : Nat), Plain (.mrel m) s σ → σ.g.resv = some r →
    0 < n → n ≤ r.size → m.toNat = 2 ^ r.size - 2 ^ (r.size - n) →
    (∀ x ∈ r.threads, (x.running = true → x.idx < r.size - n) ∧ x.uses (r.size - n) = false ∧
      ∀ e ∈ x.regs, e.win + 2048 * e.frames ≤ (r.size - n) * 2 ^ 19) →
    ∃ t, exec (.mrel m) s = .next t ∧
      IssueStep (s.updWg σ.g.id fun h => { h with resv := h.resv.bind fun r' => r'.shrink (r.size - n) }) t σ σ.t (σ.t.past (.mrel m)) σ.t.s σ.t.f) ∧
  (∀ (s : State) (σ : Site) (g k : Nat) (w : Wave) (o : ForkF) (r : Reservation), PlainWave (.fork o) s σ g k w → σ.g.resv = some r →
    o.t.val < r.size → entryBad σ.n.msec σ.n.mlen o.me.toNat = false → entryBad σ.n.cseq σ.n.clen o.ce.toNat = false →
    (∀ x ∈ r.threads, x.idx = o.t.val → x.running = false) →
    ∃ t h r', exec (.fork o) s = .next t ∧ t.wg? g = some h ∧ h.resv = some r' ∧ r'.tiles = r.tiles ∧ r'.accs = r.accs ∧ (∀ a, t.byte a = s.byte a) ∧
      ∀ x ∈ r'.threads, if x.idx = o.t.val ∧ (if x.matrix then σ.n.msec else σ.n.cseq) ≠ 0 then
          x.running = true ∧ x.t.s 0 = w.t.s o.a ∧
            x.t.pc = ((if x.matrix then σ.n.msec + 4 * o.me.toNat else σ.n.cseq + 4 * o.ce.toNat) % 2 ^ 57)
        else x ∈ r.threads) ∧
  (∀ (s : State) (σ : Site) (pt : Fin 16) (r : Reservation), Plain (.rdv pt) s σ → σ.g.resv = some r →
    (σ.w ≠ none → 8 ≤ pt.val ∧ σ.t.drained = true) → (σ.w = none → s.threadIdle σ = true ∧ σ.t.deferred = []) →
    (∀ e ∈ (r.arrive σ.p pt).1.rdv, (r.arrive σ.p pt).1.complete σ.g.id e.1 e.2.2 = false) →
    ∃ t, exec (.rdv pt) s = .next t ∧
      IssueStep (s.updWg σ.g.id fun h => { h with resv := h.resv.map fun _ => (r.arrive σ.p pt).1 }) t σ
        { σ.t with park := some (.rdv pt (r.arrive σ.p pt).2) } (σ.t.past (.rdv pt)) σ.t.s σ.t.f) ∧
  (∀ (s : State) (σ : Site) (i : Instr), i = .msync ∨ i = .csync → Plain i s σ → s.threadIdle σ = true → σ.t.deferred = [] →
    ∃ t, exec i s = .next t ∧ PlainStep i s t σ) ∧
  ∀ (s : State) (σ : Site), Plain .exit s σ → σ.w = none → s.threadIdle σ = true → σ.t.deferred = [] →
    ∃ t h x, exec .exit s = .next t ∧ t.wg? σ.g.id = some h ∧ h.seqOf σ.p = some x ∧ x.running = false ∧ (∀ n, x.t.s n = σ.t.s n) ∧
      ∀ a, t.byte a = s.byte a

/-- MLD, MFT, MMA, MST and MSTA whose checks pass complete their issue: their work, with its operands, joins the thread's, and no tile, accumulator, register or byte of memory changes then:
a drain to memory keeps translations that its tile translator walks ahead to, and MMA.ADP moves its adapter's cursor on. MZERO zeroes its accumulator; MTAG and MUNPIN write their tile register; MQBIND gives a queue its capacity and empties it;
MADP binds the adapter of a readable descriptor. -/
def Obligations.MatrixIssue : Prop :=
  ∀ (s : State) (σ : Site) (r : Reservation) (q : SeqThread), σ.g.resv = some r → σ.g.seqOf σ.p = some q →
    let joins (w : MatWork) (s1 : State) : State := s1.updSeq σ.p fun x => { x with ops := x.ops ++ [⟨σ.t.nextId, w, none, false⟩] }
    let coord (b : SReg) : Nat := (σ.t.s (b.val + 1)).toNat
    (∀ (o : MldF) (i : Instr) (pin : Bool), i = .mld o ∧ pin = false ∨ i = .mft o ∧ pin = true → Plain i s σ → o.d.val < 8 * r.size →
      ∃ t, exec i s = .next t ∧
        IssueStep (joins (.fill o.d o.tag.code pin (σ.t.s o.a).toNat (σ.t.s o.b).toNat []) s) t σ σ.t (σ.t.past i) σ.t.s σ.t.f) ∧
    (∀ o : MmaF, Plain (.mma o) s σ → mmaCheck o r q s.tick (Party.pair σ.p) = none →
      let m : Mul := { a := q.seeTile r s.tick o.a, b := q.seeTile r s.tick o.b, k := 0, allBad := false,
                       sp := if o.sp then some (q.seeTile r s.tick (o.b.val + 1), o.q.val) else none, adp := if o.adp then q.adp else none }
      let s1 : State := if o.adp then s.updSeq σ.p fun x => { x with adp := x.adp.map fun d => { d with cursor := d.cursor + 32 * m.blocks } } else s
      ∃ t, exec (.mma o) s = .next t ∧ IssueStep (joins (.mul o.d m) s1) t σ σ.t (σ.t.past (.mma o)) σ.t.s σ.t.f) ∧
    (∀ (o : MstF) (s1 : State) (x : Tensor), Plain (.mst o) s σ → o.a.val < 4 * r.size →
      drainRecord σ s o.tag (σ.t.s o.b).toNat (coord o.b) = (s1, .ok x) →
      ∃ t, exec (.mst o) s = .next t ∧ s1.Charged t ∧
        IssueStep (joins (.drain o.a o.tag o.rm (.mem x (coord o.b) false none)) { s1 with ctxs := t.ctxs }) t σ σ.t (σ.t.past (.mst o)) σ.t.s σ.t.f) ∧
    (∀ (o : MstaF) (idx : Option (List Nat)), Plain (.msta o) s σ → o.a.val < 4 * r.size → indexWords σ s.tick o.ix = .ok idx →
      (o.sp = .g → ∀ (s1 : State) (x : Tensor), drainRecord σ s o.tag (σ.t.s o.b).toNat (coord o.b) = (s1, .ok x) →
        ∃ t, exec (.msta o) s = .next t ∧ s1.Charged t ∧
          IssueStep (joins (.drain o.a o.tag o.rm (.mem x (coord o.b) true idx)) { s1 with ctxs := t.ctxs }) t σ σ.t (σ.t.past (.msta o)) σ.t.s σ.t.f) ∧
      (o.sp = .s → ∀ off stride rows cols : Nat, off = (σ.t.s o.b).toNat % 2 ^ 32 → stride = coord o.b % 2 ^ 32 →
        rows = coord o.b / 2 ^ 32 % 256 + 1 → cols = coord o.b / 2 ^ 40 % 256 + 1 → coord o.b / 2 ^ 48 = 0 →
        off % drainBytes o.tag = 0 → stride % drainBytes o.tag = 0 → cols ≤ 128 → (rows ≤ 128 ∨ idx ≠ none) →
        ∃ t, exec (.msta o) s = .next t ∧
          IssueStep (joins (.drain o.a o.tag o.rm (.pad off stride rows cols idx)) s) t σ σ.t (σ.t.past (.msta o)) σ.t.s σ.t.f)) ∧
    (∀ d : AReg, Plain (.mzero d) s σ → d.val < 4 * r.size → q.pendingOn d σ.t.nextId = false →
      ∃ t, exec (.mzero d) s = .next t ∧
        IssueStep (s.updResv σ.g.id fun r => { r with accs := setAt r.accs d fun _ => ⟨[], []⟩ }) t σ σ.t (σ.t.past (.mzero d)) σ.t.s σ.t.f) ∧
    (∀ (d : XReg) (i : Instr) (new : Tile),
      let old := r.tiles.getD d Tile.zero
      (∃ tag : Fmt, i = .mtag d tag ∧ new = { old with tag := if old.tag = 15 then 15 else tag.code, pinned := false }) ∨
        (i = .munpin d ∧ new = if old.pinned then Tile.zero else old) →
      Plain i s σ → d.val < 8 * r.size → q.oldTiles = [] → σ.t.flights = [] →
      ∃ t u r', exec i s = .next t ∧ t.threadOf σ.p = some u ∧ u.pc = σ.t.past i ∧ (∀ n, u.s n = σ.t.s n) ∧ (∀ n, u.f n = σ.t.f n) ∧
        (t.wg? σ.g.id).bind (·.resv) = some r' ∧ r'.accs = r.accs ∧ r'.tiles.length = r.tiles.length ∧
        (∀ x, r'.tiles.getD x Tile.zero = if x = d.val ∧ x < r.tiles.length then new else r.tiles.getD x Tile.zero) ∧ ∀ a, t.byte a = s.byte a) ∧
    (∀ (n : Fin 4) (a : SReg), Plain (.mqbind n a) s σ → (σ.t.s a).toNat < 32 →
      ∃ t, exec (.mqbind n a) s = .next t ∧
        IssueStep (s.updResv σ.g.id fun r => r.setQueue (Party.pair σ.p) n ⟨(σ.t.s a).toNat + 1, []⟩) t σ σ.t (σ.t.past (.mqbind n a)) σ.t.s σ.t.f) ∧
    (∀ (o : MadpF) (s1 : State) (bs : List Byte) (bad : Bool), Plain (.madp o) s σ → (σ.t.s o.a).toNat % 64 = 0 →
      σ.t.acqBars σ.t.nextId = false → s.ownQueued σ.p σ.t.nextId = false →
      s.engRead (.flight σ.p σ.t.nextId) σ.c.id σ.g.cluster (σ.t.s o.a).toNat 64 (va64 σ.t.pc) = (s1, .got bs bad) →
      let d : Adapter := ⟨BitVec.ofNat 512 (fromBytes bs), [], (σ.t.s o.b).toNat % 2 ^ 32, o.r.toNat, 0⟩
      let row := d.fld 384 32
      adapterBad d = none → d.fld 0 288 = 0 → o.r ≠ 0 → o.r.toNat ≤ 64 → d.nh ≠ 0 →
      row + 512 ≤ σ.g.scratchSize → σ.g.scratchMarked row 512 = false →
      let hs := (List.range 128).map fun k => σ.g.scratchRead (row + 4 * k) 4
      ∃ t, exec (.madp o) s = .next t ∧
        IssueStep (s1.updSeq σ.p fun x => { x with adp := some { d with handles := hs } }) t σ σ.t (σ.t.past (.madp o)) σ.t.s σ.t.f)

/-- TILE_FILL of an oldest fill without scales, whose record fits the tag and whose bytes are read, writes the register with them and finishes the instruction. K_BLOCK_BOUNDARY of a dense product
adds to each of the 128 × 128 elements of its accumulator the block's exact sum of products, scaled and rounded once, rounding the addition once more, and goes on to the next block; no tile
register, no s register and no byte of memory changes. -/
def Obligations.MatrixSteps : Prop :=
  (∀ (s : State) (p : Party) (σ : Site) (r : Reservation) (q : SeqThread) (f : Flight) (x tag va coord : Nat) (pin : Bool) (s1 s2 : State) (rec_ : Tensor)
      (xs : List SectorBytes), s.siteOf p = some σ → σ.w = none → σ.g.resv = some r → σ.g.seqOf p = some q →
    q.ops = [⟨f.id, .fill x tag pin va coord [], none, false⟩] → σ.t.flights = [f] → q.oldTiles = [] → f.clob = [] → σ.engineLive = true →
    σ.t.acqBars f.id = false → s.ownQueued p f.id = false → tagMx tag = false → x < r.tiles.length →
    s.readTensor (.flight p f.id) σ.c.id σ.g.cluster va (va64 f.pc) = (s1, .ok rec_) → fillGeometry tag rec_ coord = true →
    (s1.keepRecord p f.id (some rec_)).gather (.flight p f.id) σ.c.id σ.g.cluster (va64 f.pc) (rec_.rowRuns coord ++ []) = (s2, .ok xs) →
    ∃ t r' q' h, exec (.tileFill p f.id) s = .next t ∧ t.wg? σ.g.id = some h ∧ h.resv = some r' ∧ h.seqOf p = some q' ∧ q'.ops = [] ∧
      r'.accs = r.accs ∧ (∀ n, q'.t.s n = q.t.s n) ∧ q'.t.pc = q.t.pc ∧
      ∀ y, r'.tiles.getD y Tile.zero = if y = x then filledTile tag pin rec_ none xs coord else r.tiles.getD y Tile.zero) ∧
  ∀ (s : State) (p : Party) (σ : Site) (r : Reservation) (q : SeqThread) (f : Flight) (d : Nat) (m : Mul) (a : Acc), s.siteOf p = some σ → σ.w = none →
    σ.g.resv = some r → σ.g.seqOf p = some q → q.ops = [⟨f.id, .mul d m, none, false⟩] → σ.t.flights = [f] → σ.engineLive = true →
    m.sp = none → m.adp = none → m.k < m.blocks → m.a.marks = [] → m.b.marks = [] → m.allBad = false → r.accs[d]? = some a →
    ∃ t r' q' h a', exec (.kBlockBoundary p f.id) s = .next t ∧ t.wg? σ.g.id = some h ∧ h.resv = some r' ∧ h.seqOf p = some q' ∧
      r'.tiles = r.tiles ∧ r'.accs[d]? = some a' ∧ a'.marks = a.marks ∧ (∀ n, q'.t.s n = q.t.s n) ∧ (∀ b, t.byte b = s.byte b) ∧
      (∀ e, e ≠ d → r'.accs[e]? = r.accs[e]?) ∧
      q'.ops = (if m.k + 1 = m.blocks then [] else [⟨f.id, .mul d { m with k := m.k + 1 }, none, false⟩]) ∧
      ∀ i n, i < 128 → n < 128 →
        Sparse.get (0 : Word) a'.vals (128 * i + n) =
          BitVec.ofNat 32 (accAdd (Sparse.get (0 : Word) a.vals (128 * i + n)).toNat
            (blockS (m.aRow i m.k []) (m.bRow n m.k) (m.aScale i m.k) (m.bScale n m.k)))

/-! ## Selection and network evaluation -/

/-- CSELK of an aligned, unmarked descriptor in bounds that passes its checks, with no scratchpad access and no CSELK of the party outstanding, completes its issue and is in flight with the descriptor it read. CSELK_COMPLETION performs it from that descriptor: in every
column the outputs name the rows in falling order of their scores, equal ones in row order and NaNs last, with the scores where they are asked for, a NaN's in its canonical form; no other byte of the scratchpad, no register and
no byte of memory changes. That the selection is performed in one step, and whole from the descriptor that CSELK read as it issued, is the model's choice (log 112). -/
def Obligations.Selections : Prop :=
  (∀ (s : State) (σ : Site) (a : SReg) (la : Fin 16), Plain (.cselk a la) s σ →
    let off := (σ.t.s a).toNat % 2 ^ 32
    let d := σ.g.selAt off
    off % 32 = 0 → off + 32 ≤ σ.g.scratchSize → (∀ f ∈ σ.t.flights, f.pads = false) → σ.g.scratchMarked off 32 = false →
    (selOf d).check (selReserved d) σ.g.scratchSize = none →
    ∃ t u, exec (.cselk a la) s = .next t ∧ PlainStep (.cselk a la) s t σ ∧ t.threadOf σ.p = some u ∧
      ∃ f ∈ u.flights, f.id = σ.t.nextId ∧ f.i = .cselk a la ∧ f.arg = off + 2 ^ 32 * d ∧ f.done = false) ∧
  ∀ (s : State) (σ : Site) (f : Flight) (a : SReg) (la : Fin 16), s.siteOf σ.p = some σ → σ.c.run = .running → σ.g.status = .resident →
    σ.t.flights.find? (fun f => !f.done && (match f.i with | .cselk _ _ => true | _ => false)) = some f → f.i = .cselk a la →
    σ.t.acqBars f.id = false →
    let d := f.arg / 2 ^ 32
    let x := selOf d
    let score (c j : Nat) : Nat := σ.g.scratchRead (x.scores + j * x.stride + 4 * c) 4
    let rank (c j : Nat) : Nat := ((List.range x.nrows).filter fun i =>
      if i < j then scoreFirst (score c i) (score c j) else decide (j < i) && !scoreFirst (score c j) (score c i)).length
    x.check (selReserved d) σ.g.scratchSize = none →
    (∀ j, j < x.nrows → σ.g.scratchMarked (x.scores + j * x.stride) (4 * x.ncols) = false) →
    ∃ t h u, exec (.cselkCompletion σ.p) s = .next t ∧ t.wg? σ.g.id = some h ∧ t.threadOf σ.p = some u ∧ u.pc = σ.t.pc ∧
      (∀ n, u.s n = σ.t.s n) ∧ (∀ n, u.f n = σ.t.f n) ∧ (∀ g ∈ u.flights, g.id = f.id → g.done = true) ∧ (∀ b, t.byte b = s.byte b) ∧
      (∀ c j, c < x.ncols → j < x.nrows → rank c j < x.k →
        h.scratchRead (x.idxout + 2 * (c * x.k + rank c j)) 2 = j ∧
        (x.outval = true → h.scratchRead (x.valout + 4 * (c * x.k + rank c j)) 4 =
          if (fF32.value (score c j)).isNaN = true then 0x7FC00000 else score c j)) ∧
      ∀ b, (b < x.idxout ∨ x.idxout + 2 * (x.ncols * x.k) ≤ b) → (x.outval = true → b < x.valout ∨ x.valout + 4 * (x.ncols * x.k) ≤ b) →
        h.scratchByte b = σ.g.scratchByte b

/-- NPIN of a readable descriptor that passes its checks completes with the lowest free handle, which takes the descriptor, or with −1. NUNPIN stops its handle's acceptance. NEVAL whose lanes name pinned networks of its
widths completes when the bins have room: each lane has one row with its inputs. With no lane that names one, and no evaluation outstanding, each lane has canonical NaNs, its status and %nevst at once. A bin of a running partition whose oldest row
has waited long enough becomes a tile; a tile runs on a free quadrant, and an evaluation that it completes has its outputs in its registers, all written in one step. NPIN, where no counted line is at its last read and no acknowledgement of a write to the descriptor's line is on its way, and NEVAL leave memory as it was. -/
def Obligations.NetworkEvaluation : Prop :=
  (∀ (s : State) (σ : Site) (o : DA) (a : Access) (bs : List Byte) (c : Context), Plain (.npin o) s σ → σ.t.storesDone = true → σ.c.smpK = 0 →
    s.check σ .g 128 .read 0 (σ.t.s o.a).toNat = .ok a → s.readBarred σ (a.pa.getD 0) = false → a.host = false → inMemory (a.pa.getD 0) = true →
    s.peekRun a.key (a.pa.getD 0) 128 = ⟨bs, false⟩ → netCheck (fromBytes bs) = none → s.ctx? σ.c.id = some c →
    (∀ x ∈ s.home.counts, 1 < x.left) → s.ackDue σ.cluster (lineOf (a.pa.getD 0)) = false →
    ∃ t u k, exec (.npin o) s = .next t ∧ t.threadOf σ.p = some u ∧ t.ctx? σ.c.id = some k ∧ u.pc = σ.t.past (.npin o) ∧
      (∀ n, n < 64 → u.s n = if n = o.d.val then (match s.freeHandle c with | some h => BitVec.ofNat 64 h | none => -1) else σ.t.s n) ∧
      (∀ n, u.f n = σ.t.f n) ∧ (∀ b, t.byte b = s.byte b) ∧
      ∀ h, k.handle? h = if s.freeHandle c = some h then some ⟨h, BitVec.ofNat 1024 (fromBytes bs), true⟩ else c.handle? h) ∧
  (∀ (s : State) (σ : Site) (a : SReg), Plain (.nunpin a) s σ →
    ∃ t, exec (.nunpin a) s = .next t ∧
      IssueStep (s.updCtx σ.c.id fun c => { c with handles := c.handles.map fun e =>
        if e.h = (σ.t.s a).toNat then { e with accepting := false } else e }) t σ σ.t (σ.t.past (.nunpin a)) σ.t.s σ.t.f) ∧
  (∀ (s : State) (σ : Site) (g k : Nat) (w : Wave) (o : NevalF), PlainWave (.neval o) s σ g k w →
    let lanes := w.lanes (.neval o)
    let handle (l : Nat) : Nat := (w.a32 l o.b).toNat
    let gt := s.gatherer σ.cluster
    (lanes ≠ [] → (∀ l ∈ lanes, σ.c.resolve (handle l) (o.nM1.val + 1) (o.mM1.val + 1) = none) → gt.rows.length + lanes.length ≤ 16384 →
      (nubNat ((gt.rows.map fun r => 256 * r.ctx + r.h) ++ lanes.map fun l => 256 * σ.c.id + handle l)).length ≤ 256 →
      ∃ t u, exec (.neval o) s = .next t ∧ t.threadOf σ.p = some u ∧ u.pc = σ.t.past (.neval o) ∧ (∀ n, u.s n = σ.t.s n) ∧
        (∀ n, u.f n = σ.t.f n) ∧ (∀ b, t.byte b = s.byte b) ∧ (∃ f ∈ u.flights, f.id = σ.t.nextId ∧ f.i = .neval o ∧ f.done = false) ∧
        ∀ l ∈ lanes, ∃ r : Row, r.ctx = σ.c.id ∧ r.h = handle l ∧ r.wg = g ∧ r.wave = k ∧ r.flight = σ.t.nextId ∧ r.lane = l ∧
          r.inputs = (List.range (o.nM1.val + 1)).map (fun j => (w.v (o.a.val + j) l).toNat) ∧
          (r ∈ (t.gatherer σ.cluster).rows ∨ ∃ x ∈ (t.gatherer σ.cluster).tiles, r ∈ x.rows)) ∧
    ∀ bits : Nat → Nat, (∀ l ∈ lanes, σ.c.resolve (handle l) (o.nM1.val + 1) (o.mM1.val + 1) = some (bits l)) →
      (∀ f ∈ σ.t.flights, (∃ o', f.i = .neval o') → f.done = true) → gt.rows.length ≤ 16384 →
      (nubNat (gt.rows.map fun r => 256 * r.ctx + r.h)).length ≤ 256 →
      ∃ t w', exec (.neval o) s = .next t ∧ s.Leaves t g k w w' ∧
        WaveStep { w with nevst := lanes.foldl (fun x l => x ||| BitVec.ofNat 32 (bits l)) w.nevst } w' (w.t.past (.neval o))
          (fun r l => if lanes.contains l = true ∧ o.d.val ≤ r ∧ r ≤ o.d.val + o.mM1.val then 0x7FC00000 else w.v r l)
          (fun p l => if lanes.contains l = true ∧ p = o.c.val then true else w.p p l) w.t.s w.t.f 0) ∧
  (∀ (s : State) (cl ctx h : Nat) (c : Context) (r : Row), s.ctx? ctx = some c →
    let gt := s.gatherer cl
    let mine := gt.rows.filter fun x => x.ctx == ctx && x.h == h
    c.run = .running → mine.head? = some r → r.time + c.nevNs ≤ s.time →
    ∃ t, exec (.nevalGatherTimer cl ctx h) s = .next t ∧ t = { s.idle with gatherers := t.gatherers } ∧
      (t.gatherer cl).rows = gt.rows.filter (fun x => !(x.ctx == ctx && x.h == h)) ∧
      (t.gatherer cl).tiles = gt.tiles ++ [⟨ctx, h, mine, true, gt.formed⟩] ∧ ∀ k, k ≠ cl → t.gatherer k = s.gatherer k) ∧
  ∀ (s s1 : State) (cl g k : Nat) (w : Wave) (f : Flight) (o : NevalF) (x : NTile) (rest : List NTile) (c : Context) (e : NetHandle)
    (xs : List SectorBytes),
    let net := netOf e.desc.toNat
    (s.gatherer cl).tiles = x :: rest → s.ctx? x.ctx = some c → c.run = .running → s.freeQuads cl ≠ [] → c.handle? x.h = some e →
    s.gather (.tile cl x.n) x.ctx cl 0 net.runs = (s1, .ok xs) → s1.wgs = s.wgs → s1.gatherers = s.gatherers →
    (∀ r ∈ net.runs, (fromSectors xs r.1 r.2).2 = false) → s.waveOf g k = some w → w.t.Quiet → w.ended = false →
    f ∈ w.t.flights → f.i = .neval o → f.done = false → f.clob = [] →
    (∀ f' ∈ w.t.flights, f'.id = f.id → f' = f) → (∀ f' ∈ w.t.flights, (∃ o', f'.i = .neval o') → f'.done = true ∨ f' = f) →
    (f.accs.map (·.lane)).Nodup → (∀ a ∈ f.accs, a.lane < 256 ∧ a.old = none ∧ a.cmp = 0 ∧ a.bad = false ∧ ∃ r ∈ x.rows, r.lane = a.lane) →
    (x.rows.map (·.lane)).Nodup → x.rows ≠ [] → (∀ r ∈ x.rows, r.wg = g ∧ r.wave = k ∧ r.flight = f.id ∧ ∃ a ∈ f.accs, a.lane = r.lane) →
    let out (r : Row) : List Nat := net.row (fun va n => fromBytes (fromSectors xs (va % 2 ^ 64) n).1) r.inputs
    ∃ t w', exec (.tileOperation cl) s = .next t ∧ t.waveOf g k = some w' ∧ (t.gatherer cl).tiles = rest ∧ (t.gatherer cl).rows = (s.gatherer cl).rows ∧
      w'.t.pc = w.t.pc ∧ (∀ n, w'.t.s n = w.t.s n) ∧ (∀ n, w'.t.f n = w.t.f n) ∧
      (∀ r ∈ x.rows, ∀ j, j ≤ o.mM1.val → w'.v (o.d.val + j) r.lane = BitVec.ofNat 32 ((out r).getD j 0)) ∧
      (∀ v l, (∀ r ∈ x.rows, r.lane ≠ l) ∨ v < o.d.val ∨ o.d.val + o.mM1.val < v → l < 256 → w'.v v l = w.v v l) ∧
      (∀ p l, l < 256 → w'.p p l = if p = o.c.val ∧ p ≠ 0 ∧ (∃ r ∈ x.rows, r.lane = l) then false else w.p p l) ∧
      w'.nevst = w.nevst ||| (if x.timer = true then 16 else 0)

/-! ## The Solstice ring -/

/-- RBOARD of an aligned window that overlaps none, for a layer not registered, completes with a registration: REFUSED where the plan does not let the context board or the window is shorter than a segment, ARMED
where the layer's first frame has not passed, else FETCHING where the fallback may be used, else ARMED with NEXT. MLDR joins its claim to the registration, a DONE one
becoming ARMED with NEXT; on a REFUSED one, or for a segment at or above NSEG, it is served at once with an empty tile and BAD.
RWAIT answers 2 without a registration; else it waits for its claims, removes it and answers its status. RSTAT answers states, lap and time. -/
def Obligations.RingForms : Prop :=
  (∀ (s : State) (σ : Site) (o : RboardF) (r : Reservation) (q : SeqThread), Plain (.rboard o) s σ → σ.g.resv = some r → σ.g.seqOf σ.p = some q →
    let layer := (σ.t.s o.a).toNat
    let win := (σ.t.s o.b).toNat
    let frames := o.nM1.toNat + 1
    layer < 0xFFFF → win < 2 ^ 32 → win % 2048 = 0 → win + 2048 * frames ≤ r.size * 2 ^ 19 →
    (∀ x ∈ r.threads, ∀ e ∈ x.regs, win + 2048 * frames ≤ e.win ∨ e.win + 2048 * e.frames ≤ win) →
    (∀ e ∈ q.regs, e.layer ≠ layer) → q.regs.length < 4 →
    ∃ t st nx, exec (.rboard o) s = .next t ∧
      IssueStep (s.updSeq σ.p fun x => { x with regs := x.regs ++
        [⟨layer, win, frames, st, nx, false, false, false, false, none, 0, [], s.ring.plan.bind (·.find layer), []⟩] }) t σ σ.t
        (σ.t.past (.rboard o)) σ.t.s σ.t.f ∧
      match s.boardable σ.c.id layer with
      | none => st = .refused ∧ nx = false
      | some (p, l) =>
        if frames < l.g then st = .refused ∧ nx = false
        else if s.ring.seenAt l.ring σ.g.cluster ≤ p.startOf l then st = .armed ∧ nx = false
        else if l.fbok = true ∧ σ.n.bfirst ≤ layer ∧ layer ≤ σ.n.blast ∧ s.readsLeft σ.c = true then st = .fetching ∧ nx = false
        else st = .armed ∧ nx = true) ∧
  (∀ (s : State) (σ : Site) (o : MldF) (r : Reservation) (q : SeqThread) (e : Registration), Plain (.mldr o) s σ → σ.g.resv = some r →
    σ.g.seqOf σ.p = some q → o.d.val < 8 * r.size → (σ.t.s o.a).toNat < 2 ^ 16 → (σ.t.s o.b).toNat < 2 ^ 16 →
    q.reg? (σ.t.s o.a).toNat = some e → q.claims.length < 64 → (∀ c ∈ q.claims, c.complete = false) →
    (∀ y ∈ q.regs, y.layer = e.layer → y = e) →
    let seg := (σ.t.s o.b).toNat
    (∀ l, (e.state = .armed ∨ e.state = .capturing ∨ e.state = .done) ∧ s.ring.plan.bind (·.find e.layer) = some l ∨ e.state = .fetching ∧ e.image = some l →
      seg < l.nseg →
      ∃ t, exec (.mldr o) s = .next t ∧
        IssueStep (s.updSeq σ.p fun x => { x with regs := x.regs.map fun y => if y.layer = e.layer then
          { y with state := if e.state = .done then .armed else e.state, next := if e.state = .done then true else y.next
                   claims := y.claims ++ [⟨σ.t.nextId, o.d, o.tag.code, seg, 0, false, emptyTile, false, [], 0⟩] } else y }) t σ σ.t
          (σ.t.past (.mldr o)) σ.t.s σ.t.f) ∧
    ((e.state = .refused ∨ ∃ l, l.nseg ≤ seg ∧
        ((e.state = .armed ∨ e.state = .capturing ∨ e.state = .done) ∧ s.ring.plan.bind (·.find e.layer) = some l ∨ e.state = .fetching ∧ e.image = some l)) →
      q.claims = [] → q.oldTiles = [] → σ.t.flights = [] →
      ∃ t h r' q', exec (.mldr o) s = .next t ∧ t.wg? σ.g.id = some h ∧ h.resv = some r' ∧ h.seqOf σ.p = some q' ∧ q'.t.pc = σ.t.past (.mldr o) ∧
        (∀ n, q'.t.s n = σ.t.s n) ∧ (∀ n, q'.t.f n = σ.t.f n) ∧ q'.claims = [] ∧ (∀ b, t.byte b = s.byte b) ∧
        (∀ y ∈ q'.regs, y.layer = e.layer → y.bad = true ∧ y.state = e.state ∧ y.next = e.next) ∧ r'.accs = r.accs ∧
        ∀ x, r'.tiles.getD x Tile.zero = if x = o.d.val ∧ x < r.tiles.length then emptyTile else r.tiles.getD x Tile.zero)) ∧
  (∀ (s : State) (σ : Site) (o : DA) (q : SeqThread), Plain (.rwait o) s σ → σ.g.seqOf σ.p = some q → (σ.t.s o.a).toNat < 2 ^ 16 →
    let layer := (σ.t.s o.a).toNat
    (q.reg? layer = none → ∃ t, exec (.rwait o) s = .next t ∧
      IssueStep s t σ σ.t (σ.t.past (.rwait o)) (fun n => if n = o.d.val then 2 else σ.t.s n) σ.t.f) ∧
    ∀ e, q.reg? layer = some e →
      (e.claims ≠ [] → exec (.rwait o) s = .next s.wait) ∧
      (e.claims = [] → ∃ t, exec (.rwait o) s = .next t ∧
        IssueStep (s.updSeq σ.p fun x => { x with regs := x.regs.filter fun y => y.layer != layer }) t σ σ.t (σ.t.past (.rwait o))
          (fun n => if n = o.d.val then
              BitVec.ofNat 64 ((e.lap.getD 0) % 2 ^ 32 * 2 ^ 32 + 128 * e.stall.toNat + 64 * e.bad.toNat + 32 * e.next.toNat + 16 * e.fb.toNat +
                8 * e.pois.toNat + (if e.state = .refused then 1 else 0)) else σ.t.s n) σ.t.f)) ∧
  ∀ (s : State) (σ : Site) (o : DA), Plain (.rstat o) s σ → (σ.t.s o.a).toNat < 2 ^ 16 →
    let st := s.ringState σ.c.id (σ.t.s o.a).toNat σ.cluster
    ∃ t x, exec (.rstat o) s = .next t ∧
      IssueStep s t σ σ.t (σ.t.past (.rstat o)) (fun n => if n = o.d.val then BitVec.ofNat 64 x else σ.t.s n) σ.t.f ∧ x < 2 ^ 64 ∧
      x % 2 ^ 8 = st ∧ x / 2 ^ 16 % 2 ^ 16 = s.ring.lap % 2 ^ 16 ∧
      x / 2 ^ 8 % 2 ^ 8 = (match (σ.g.seqOf σ.p).bind fun q => q.reg? (σ.t.s o.a).toNat with | some e => e.state.code | none => 0) ∧
      (st = 4 → x / 2 ^ 32 = 0) ∧ (st < 2 → x / 2 ^ 32 = 2 ^ 32 - 1)

/-- INJECTION reads the next sector of the frame's place in the layer's image; with the last of the 64, once the frame is due, it puts the frame on the ring, with the header of R333, a CRC that fits, and a payload that the
layer's key opens to what was read. FRAME_ARRIVAL at a port where no registration captures counts the frame, and counts it corrupt where its CRC fails; at
one capturing, a claim that wants the frame takes it, which it does where a slot of the window is free; else the frame may pass, and the stall is noted. LAP_BOUNDARY, every frame home, begins the next lap under an accepted plan, else under the present one. A
deferred node's window that opens forms the workgroups of a met trigger. FALLBACK reads one sector of the image for the oldest claim, and serves it with the last. INJECTION, FRAME_ARRIVAL at a port and FALLBACK, where no line is counted, leave memory as it was. A layer whose key slot is cleared raises PROTECTION, at
the loader in the name of the plan's owner, whose frame is then poisoned, and at a fallback: that the loader's is the owner's is the model's choice (log 143). -/
def Obligations.RingSteps : Prop :=
  (∀ (s : State) (ring seg frm : Nat) (last bad : Bool) (p : LapPlan) (l : PlanLayer) (bs : List Byte), s.ring.plan = some p →
    let k := s.ring.injected.getD ring 0
    frameIn (p.onRing ring) k = some (l, seg, frm, last) → s.ring.loaded ring = (bs, bad) →
    let x := s.peek l.key (l.maddr + 2048 * (l.g * seg + frm) + bs.length) 32
    (s.keyOf l.key = 0 → bs.length + 32 < 2048 → ∃ t, exec (.injection ring) s = .next t ∧ (t.ring.loaded ring).2 = true ∧
      ∀ c, s.ctx? p.ctx = some c → c.run = .running →
        ∃ k r, t.ctx? p.ctx = some k ∧ k.run = .halted false ∧ r ∈ k.stops ∧ r.prim = true ∧ r.cause = some .protection ∧ r.faddr = l.maddr) ∧
    (s.keyOf l.key ≠ 0 → bs.length + 32 < 2048 →
      ∃ t, exec (.injection ring) s = .next t ∧ t.ring = { s.ring with loading := t.ring.loading } ∧
        t.ring.loaded ring = (bs ++ x.bytes, bad || x.bad) ∧ (∀ r, r ≠ ring → t.ring.loaded r = s.ring.loaded r) ∧
        t = { s.idle with ring := t.ring, home := t.home } ∧ ∀ b, t.byte b = s.byte b) ∧
    (s.keyOf l.key ≠ 0 → bs.length = 2016 → s.ring.start + (16 * k / p.tempo + s.ring.stalls.getD ring 0) * 1000 / s.power.mhz ≤ s.time →
      ∃ t f, exec (.injection ring) s = .next t ∧
        t.ring = { s.ring with injected := setAt s.ring.injected ring (· + 1), flying := s.ring.flying ++ [f], loading := t.ring.loading } ∧
        t.ring.loaded ring = ([], false) ∧ (∀ r, r ≠ ring → t.ring.loaded r = s.ring.loaded r) ∧ f.ring = ring ∧ f.idx = k ∧
        field f.head.toNat 96 32 = s.ring.lap % 2 ^ 32 ∧ field f.head.toNat 80 16 = l.layer % 2 ^ 16 ∧ field f.head.toNat 64 16 = seg % 2 ^ 16 ∧
        field f.head.toNat 59 5 = frm % 2 ^ 5 ∧ field f.head.toNat 58 1 = last.toNat ∧ field f.head.toNat 50 8 = l.key % 2 ^ 8 ∧
        f.pois = (bad || x.bad) ∧ field f.head.toNat 32 17 = 0 ∧ f.sound = true ∧
        ((bad || x.bad) = false → s.crypt l seg frm f.bytes = bs ++ x.bytes) ∧
        t = { s.idle with ring := t.ring, home := t.home } ∧ ∀ b, t.byte b = s.byte b)) ∧
  (∀ (s : State) (ring cl seg frm : Nat) (last ok : Bool) (p : LapPlan) (l : PlanLayer) (f : RingFrame), s.ring.plan = some p → cl < 32 →
    let k := s.ring.seenAt ring cl
    s.ring.flying.find? (fun f => f.ring == ring && f.idx == k) = some f → frameIn (p.onRing ring) k = some (l, seg, frm, last) →
    s.ring.reached l f (cl / 4) = true → f.ring = ring → ring < 2 →
    (s.ports cl l = [] → ∃ t, exec (.frameArrival ring cl ok) s = .next t ∧ t = { s.idle with ring := t.ring } ∧ t.ring.plan = s.ring.plan ∧
      t.ring.seenAt ring cl = k + 1 ∧ (∀ c, c ≠ cl → c < 32 → t.ring.seenAt ring c = s.ring.seenAt ring c) ∧
      Sparse.get 0 t.ring.corrupt (32 * ring + cl) =
        Sparse.get 0 s.ring.corrupt (32 * ring + cl) + (if ok = true ∧ f.sound = true ∧ f.pois = false then 0 else 1)) ∧
    ∀ (q : Party) (σ : Site) (x : SeqThread) (e : Registration) (c : Claim), s.ports cl l = [(q, e)] → s.siteOf q = some σ →
      σ.g.seqOf q = some x → x.regs = [e] → e.layer = l.layer → e.state = .capturing → e.claims = [c] → c.complete = false → c.seg = seg →
      frm = 0 ∨ c.got = frm ∧ c.lap = s.ring.lap → frm + 1 < c.need l → last = false →
      ∃ t h x' e' c', exec (.frameArrival ring cl ok) s = .next t ∧ t.wg? σ.g.id = some h ∧ h.seqOf q = some x' ∧ x'.regs = [e'] ∧
        e'.claims = [c'] ∧ e'.state = .capturing ∧ c'.seg = seg ∧ x'.t = x.t ∧ t.ring.seenAt ring cl = k + 1 ∧ (∀ b, t.byte b = s.byte b) ∧
        (c' = c ∧ e'.stall = true ∧ e.frames ≤ (e.busy.filter fun b => s.cycles < b).length ∨
          c'.got = frm + 1 ∧ c'.lap = s.ring.lap ∧ c'.complete = false ∧ c'.corrupt = (frm ≠ 0 && c.corrupt || !(ok && f.sound && !f.pois)) ∧ e'.stall = e.stall)) ∧
  (∀ (s : State) (p : LapPlan), s.ring.plan = some p → s.ring.flying = [] → s.ring.injected.getD 0 0 = p.frames 0 →
    s.ring.injected.getD 1 0 = p.frames 1 → (∀ g ∈ s.wgs, ∀ r, g.resv = some r → ∀ x ∈ r.threads, x.regs = []) →
    ∃ t, exec .lapBoundary s = .next t ∧ t.ring.lap = s.ring.lap + 1 ∧ t.ring.start = s.time ∧ t.ring.injected = [0, 0] ∧ t.ring.newPlan = none ∧
      t.ring.plan = (match s.ring.newPlan with | some q => some q | none => if s.ring.ends = true then none else some p) ∧
      ((∀ q, s.ring.newPlan = some q → q.tags = []) → t = { s.idle with ring := t.ring, wgs := t.wgs }) ∧ ∀ q, t.threadOf q = s.threadOf q) ∧
  (∀ (s : State) (ctx node : Nat) (c : Context) (n : Node) (q : Slice) (p : LapPlan × PlanLayer), s.ctx? ctx = some c → c.node? node = some n →
    s.deferral c n = some p → s.mayForm c node = true → c.slices = [q] → q.node = node →
    (∀ r ∈ q.recs, s.time < r.time + n.timer * 250) → n.quota ≠ 0 → n.quota ≤ q.recs.length → q.recs.length < 2 * n.quota →
    (∀ x ∈ q.recs, ∀ y ∈ q.recs, x.depth = y.depth) →
    ∃ t k, exec (.boardingWindowOpen ctx node) s = .next t ∧ t.ctx? ctx = some k ∧ t = { s.idle with ctxs := t.ctxs } ∧
      k.slices = [{ q with recs := q.recs.drop n.quota }] ∧ ∃ f : Formed, k.formed = c.formed ++ [f] ∧ f.node = node ∧ f.die = q.die ∧ f.recs = q.recs.take n.quota) ∧
  ∀ (s : State) (p : Party) (σ : Site) (r : Reservation) (q : SeqThread) (e : Registration) (c : Claim) (l : PlanLayer),
    s.siteOf p = some σ → σ.g.resv = some r → σ.g.seqOf p = some q → q.regs = [e] → e.claims = [c] → c.complete = false → e.image = some l →
    e.state = .fetching → σ.engineLive = true → s.readsLeft σ.c = true → q.oldTiles = [] → (∀ f ∈ q.t.flights, f.clob = []) → q.ops = [] → c.x < r.tiles.length →
    s.home.counts = [] →
    (s.keyOf l.key = 0 → ∃ t k d, exec (.fallback p e.layer) s = .next t ∧ t.ctx? σ.c.id = some k ∧ k.run = .halted false ∧ d ∈ k.stops ∧
      d.prim = true ∧ d.cause = some .protection ∧ d.faddr = l.maddr + 2048 * (l.g * c.seg) + c.image.length) ∧
    (s.keyOf l.key ≠ 0 →
    let x := s.peek l.key (l.maddr + 2048 * (l.g * c.seg) + c.image.length) 32
    let bs := c.image ++ x.bytes
    ∃ t h r' q', exec (.fallback p e.layer) s = .next t ∧ t.wg? σ.g.id = some h ∧ h.resv = some r' ∧ h.seqOf p = some q' ∧
      q'.t.pc = q.t.pc ∧ (∀ n, q'.t.s n = q.t.s n) ∧ (∀ n, q'.t.f n = q.t.f n) ∧ (∀ b, t.byte b = s.byte b) ∧ r'.accs = r.accs ∧
      (c.image.length + 32 < 2048 * c.need l →
        q'.regs = [{ e with claims := [{ c with image := bs, corrupt := c.corrupt || x.bad }] }] ∧ r'.tiles = r.tiles) ∧
      (c.image.length + 32 = 2048 * c.need l → c.corrupt = false → x.bad = false →
        q'.regs = [{ e with fb := true, claims := [] }] ∧
        ∀ y, r'.tiles.getD y Tile.zero = if y = c.x then c.fromImage l bs else r.tiles.getD y Tile.zero))

/-! ## Remote memory access -/

/-- QPOST of a checked work request for the context's own queue pair with room completes: the request joins its queue, last. QSTAT answers state and counts. A READ or atomic that may start takes the next packet numbers,
and its packets leave; its answer, come whole, goes on to the local writes; a SEND with its signals given is gone and counted. A lapsed timeout or an RNR NAK sends again, or fails the pair with 3 or 4; a NAK fails it with 1 or 2.
A chain on a pair in ERROR fails its request with 8. That what is sent again is the packets of the oldest request (log 52), and which code an invalid request's NAK gives (log 47), are the model's choices. -/
def Obligations.RdmaRequester : Prop :=
  (∀ (s : State) (σ : Site) (o : SSL) (a : Access) (bs : List Byte) (bad : Bool) (q : QPair), Plain (.qpost o) s σ → (σ.t.s o.a).toNat < 2 ^ 16 →
    s.qp? (σ.t.s o.a).toNat = some q → q.ctx = σ.c.id → σ.c.smpK = 0 → s.check σ .g 64 .read 0 (σ.t.s o.b).toNat = .ok a → σ.t.storesDone = true →
    s.readBarred σ (a.pa.getD 0) = false → a.host = false → inMemory (a.pa.getD 0) = true → s.peekRun a.key (a.pa.getD 0) 64 = ⟨bs, bad⟩ →
    (∀ x ∈ s.home.counts, 1 < x.left) →
    let w := σ.workReq s a.va bs
    q.full w = false → s.wrBad σ.c.id w = none → q.state ≠ .error →
    ∃ t u, exec (.qpost o) s = .next t ∧ t.threadOf σ.p = some u ∧ u.pc = σ.t.past (.qpost o) ∧ (∀ n, u.s n = σ.t.s n) ∧ (∀ n, u.f n = σ.t.f n) ∧
      (∀ b, t.byte b = s.byte b) ∧ t.nextWr = s.nextWr + 1 ∧ (∀ n, n ≠ (σ.t.s o.a).toNat → t.qp? n = s.qp? n) ∧
      t.qp? (σ.t.s o.a).toNat = some (if w.op = 5 then { q with recvs := q.recvs ++ [w] } else { q with sends := q.sends ++ [w] })) ∧
  (∀ (s : State) (σ : Site) (o : DA), Plain (.qstat o) s σ → (σ.t.s o.a).toNat < 2 ^ 18 →
    let n := (σ.t.s o.a).toNat
    ∃ t x, exec (.qstat o) s = .next t ∧ IssueStep s t σ σ.t (σ.t.past (.qstat o)) (fun m => if m = o.d.val then BitVec.ofNat 64 x else σ.t.s m) σ.t.f ∧
      ((∀ q, s.qp? (n % 2 ^ 16) = some q → q.ctx ≠ σ.c.id) → x = 0) ∧
      ∀ q, s.qp? (n % 2 ^ 16) = some q → q.ctx = σ.c.id →
        (n / 2 ^ 16 = 0 → x = q.status) ∧ (n / 2 ^ 16 = 1 → x = q.scc) ∧ (n / 2 ^ 16 = 2 → x = q.rcc) ∧ (n / 2 ^ 16 = 3 → x = q.flc)) ∧
  (∀ (s : State) (qn : Nat) (q : QPair) (c : Context) (w : WorkReq), s.qp? qn = some q → s.ctx? q.ctx = some c →
    q.sends.find? (fun w => match w.stage with | .waiting => true | _ => false) = some w → q.state = .rts → c.run = .running → q.cached = true →
    s.paused.contains (q.port, q.par 17 1) = false → s.wrAcquired w = true → (w.fence = true → ∀ v ∈ q.sends, v.n < w.n → v.reads = false) →
    w.waitv = false → w.reads = true →
    let w' : WorkReq := { w with psn := q.nextPsn, data := [], stage := .started s.time }
    ∃ t, exec (.workRequestStart qn) s = .next t ∧ t = { s.idle with qps := t.qps, wire := t.wire } ∧
      t.wire = ⟨qn, w'.request.1, q.nextPsn, w'.request.2, s.time⟩ :: s.wire ∧
      t.qp? qn = some ({ q with nextPsn := psnAdd q.nextPsn (q.packets (if w.op = 2 then w.len else 0)) }.withWr w.n fun _ => w')) ∧
  (∀ (s : State) (qn : Nat) (q : QPair) (c : Context) (w : WorkReq), s.qp? qn = some q → s.ctx? q.ctx = some c → q.waiter = some w → q.state ≠ .error →
    s.chain w = some false → (∀ p ∈ s.qps, p.n ≠ qn → ∀ v ∈ p.sends, v.waitv = false) →
    ∃ t, exec (.workRequestStart qn) s = .next t ∧ t = { s.idle with qps := t.qps } ∧ t.qp? qn = some (q.fail w.n 8)) ∧
  (∀ (s : State) (qn : Nat) (q : QPair) (w : WorkReq) (bs : List Byte), s.qp? qn = some q → q.sends.head? = some w →
    (∀ tm, w.stage = .started tm → bs.length = w.back → q.state = .rts → q.cached = true → q.refused = none → (∀ k ∈ s.inbox, k.qp ≠ qn) →
      ∃ t, exec (.rdmaAcknowledgement qn bs) s = .next t ∧ t = { s.idle with qps := t.qps, notified := t.notified } ∧
        t.qp? qn = some ({ q with retries := 0, rnr := 0, sends := q.sends.map (WorkReq.restart s.time) }.withWr w.n fun v => { v with stage := .landing 0 bs })) ∧
    ∀ c u, w.stage = .release → s.ctx? q.ctx = some c → w.owedAcks = 0 → s.wrReleased w = true → w.cnta = 0 → w.op ≠ 5 → q.recvs = [] →
      s.threadOf w.party = some u →
      ∃ t u', exec (.rdmaAcknowledgement qn bs) s = .next t ∧ t.threadOf w.party = some u' ∧ (∀ f ∈ u'.flights, f.id = w.flight → f.done = true) ∧
        u'.pc = u.pc ∧ (∀ n, u'.s n = u.s n) ∧ (∀ b, t.byte b = s.byte b) ∧
        t.qp? qn = some { q with sends := q.sends.filter (fun v => v.n != w.n), scc := (q.scc + 1) % 2 ^ 64 }) ∧
  ∀ (s : State) (qn : Nat) (q : QPair) (w : WorkReq) (tm : Nat), s.qp? qn = some q → q.oldest = some (w, tm) → s.pausedPair q = false →
    (∀ p ∈ s.qps, ∀ v ∈ p.sends, v.waitv = false) →
    let again (t : State) (q' : QPair) : Prop := t = { s.idle with qps := t.qps, wire := t.wire, notified := t.notified } ∧
      t.wire = ⟨qn, w.request.1, w.psn, w.request.2, s.time⟩ :: s.wire ∧ t.qp? qn = some (q'.withWr w.n fun v => { v with stage := .started s.time })
    let failed (t : State) (code : Nat) : Prop := t = { s.idle with qps := t.qps, notified := t.notified } ∧ t.qp? qn = some (q.fail w.n code)
    (tm + q.timeout ≤ s.time → ∃ t, exec (.acknowledgementTimeout qn) s = .next t ∧
      if q.par 10 1 ≤ q.retries then failed t 3 else again t { q with retries := q.retries + 1 }) ∧
    (q.state = .rts → q.cached = true → q.refused = none → (∀ k ∈ s.inbox, k.qp ≠ qn) →
    (∃ t, exec (.rnrNak qn) s = .next t ∧ if q.par 11 1 ≠ 7 ∧ q.par 11 1 ≤ q.rnr then failed t 4 else again t { q with rnr := q.rnr + 1 }) ∧
    ∀ k, ∃ t code, exec (.nak qn k) s = .next t ∧ failed t code ∧ (k = .remoteAccess → code = 1) ∧ (k = .remoteOp → code = 2) ∧ (code = 1 ∨ code = 2))

/-- With no other packet of the pair waiting, an expected SEND without a RECV is answered with an RNR NAK, one that does not fit with a NAK and code 6, any other is acknowledged and lands in the oldest RECV. An expected WRITE to a page of memory that its region admits
puts its bytes there, and no others, before it is acknowledged. An expected READ is answered with the bytes there, an atomic with the old value, once performed. A refused access is answered with a NAK and puts the pair in ERROR.
An answer leaves at once, or once the writes answered before it are seen by every reader; one of a paused class waits until that is resumed. That a SEND is acknowledged as its message is taken is
the model's choice (log 52).
CONTEXT_FETCH, CNP, UNRELIABLE_PACKET and PRIORITY_FLOW_CONTROL change the pair's place, its rate, the port's count, the paused classes. -/
def Obligations.RdmaResponder : Prop :=
  (∀ (s : State) (qn psn : Nat) (q : QPair) (bs : List Byte), s.Expects qn psn q → q.sends = [] →
    (q.recvs = [] → ∃ t, exec (.inboundSend qn psn bs) s = .next t ∧ t = { s.idle with qps := t.qps, wire := t.wire, notified := t.notified } ∧ t.wire = s.sent qn q .rnrNak psn [] ∧
      t.qp? qn = some q ∧ ∀ n, n ≠ qn → t.qp? n = s.qp? n) ∧
    ∀ w, q.recvs.head? = some w → w.stage = .waiting →
      ∃ t q', exec (.inboundSend qn psn bs) s = .next t ∧ t.qp? qn = some q' ∧ (∀ b, t.byte b = s.byte b) ∧ (∀ p, t.threadOf p = s.threadOf p) ∧
        (w.len < bs.length → t.wire = s.sent qn q .nakInvalid psn [] ∧ q'.state = .error ∧ q'.firstErr = 6) ∧
        (bs.length ≤ w.len → t.wire = s.sent qn q .ack psn [] ∧ q'.expPsn = psnAdd q.expPsn (q.packets bs.length) ∧
          ∃ w', q'.recvs.head? = some w' ∧ w'.n = w.n ∧ w'.stage ≠ .waiting)) ∧
  (∀ (s : State) (qn psn : Nat) (q : QPair) (c : Context) (rkey : Word) (va : DWord) (bs : List Byte) (pa key lease : Nat),
    let sec := va.toNat / 32
    s.Expects qn psn q → s.ctx? q.ctx = some c → s.regionOk q rkey.toNat va.toNat bs.length 2 = true → bs ≠ [] →
    va.toNat % 32 + bs.length ≤ 32 → s.translate c (32 * sec) .write = .ok pa key lease false → inMemory pa = true → pa % 32 = 0 → s.covers c 32 = true →
    s.home.live.contains (regionOf pa) = true → s.home.frozen.contains (regionOf pa) = false →
    ∃ t tm q', exec (.inboundRdmaWrite qn psn rkey va bs) s = .next t ∧ t.wire = ⟨qn, .ack, psn, [], tm⟩ :: s.wire ∧ max s.time q.ackFrom ≤ tm ∧
      (let ts := (s.completion (lineOf pa) Config.clusters none).2.2; ts ≠ 0 → ts + 20 ≤ tm) ∧
      t.qp? qn = some q' ∧ q'.expPsn = psnAdd q.expPsn 1 ∧ (∀ p, t.threadOf p = s.threadOf p) ∧
      ∀ b, t.byte b = ((located (pa + va.toNat % 32) bs).lookup b).getD (s.byte b)) ∧
  (∀ (s : State) (qn psn : Nat) (q : QPair) (c : Context) (rkey : Word) (va : DWord) (bs : List Byte) (len pa key lease : Nat),
    let sec := va.toNat / 32
    s.Expects qn psn q → s.ctx? q.ctx = some c → s.regionOk q rkey.toNat va.toNat len 1 = true → 0 < len →
    va.toNat % 32 + len ≤ 32 → s.translate c (32 * sec) .read = .ok pa key lease false → inMemory pa = true → s.peek key pa 32 = ⟨bs, false⟩ →
    s.home.counts = [] → s.fillWaits Config.clusters none (sectorOf pa) = false →
    ∃ t q', exec (.inboundRdmaRead qn psn rkey va len) s = .next t ∧
      t.wire = s.sent qn q .response psn ((bs.drop (va.toNat % 32)).take len) ∧ t.qp? qn = some q' ∧ q'.expPsn = psnAdd q.expPsn (q.packets len) ∧
      (∀ p, t.threadOf p = s.threadOf p) ∧ ∀ b, t.byte b = s.byte b) ∧
  (∀ (s s1 : State) (qn psn : Nat) (q : QPair) (c : Context) (rkey : Word) (va v cmp : DWord) (i : Instr) (op : AOp) (pa key lease old : Nat),
    i = .inboundFetchAdd qn psn rkey va v ∧ op = .add ∧ cmp = 0 ∨ i = .inboundCmpSwap qn psn rkey va cmp v ∧ op = .cas →
    s.Expects qn psn q → s.ctx? q.ctx = some c → va.toNat % 8 = 0 → s.regionOk q rkey.toNat va.toNat 8 3 = true →
    s.translate c va.toNat .both = .ok pa key lease false → inMemory pa = true → s.isLive pa = true → s.home.frozen.contains (regionOf pa) = false →
    s.covers c 32 = true → (s.ordinary [lineOf pa]).applyAtomic op 8 key pa v.toNat cmp.toNat = (s1, old, false) →
    ∃ t q', exec i s = .next t ∧ t.wire = s.sent qn q .response psn (leBytes 8 old) ∧ t.qp? qn = some q' ∧ q'.expPsn = psnAdd q.expPsn 1 ∧
      q'.replay = ((psn, BitVec.ofNat 64 old) :: q.replay).take 16 ∧ (∀ b, t.byte b = s1.byte b) ∧ ∀ p, t.threadOf p = s.threadOf p) ∧
  (∀ (s : State) (qn psn : Nat) (q : QPair) (c : Context) (rkey : Word) (va : DWord) (bs : List Byte), s.Expects qn psn q →
    s.ctx? q.ctx = some c → s.regionOk q rkey.toNat va.toNat bs.length 2 = false →
    ∃ t q', exec (.inboundRdmaWrite qn psn rkey va bs) s = .next t ∧ t.wire = s.sent qn q .nakAccess psn [] ∧ t.qp? qn = some q' ∧
      q'.state = .error ∧ ∀ b, t.byte b = s.byte b) ∧
  ∀ (s : State) (qn port prio : Nat) (q : QPair),
    (s.qp? qn = some q → q.cached = false → (∀ k ∈ s.inbox, k.qp ≠ qn) → (s.qps.filter (·.cached)).length < 4096 →
      exec (.contextFetch qn) s = .next { s.idle with qps := s.qps.map fun x => if x.n = qn then { x with cached := true } else x }) ∧
    (∃ rate, exec (.cnp qn) s = .next { s.idle with qps := s.qps.map fun x => if x.n = qn then { x with rate := rate } else x }) ∧
    (∃ t, exec (.unreliablePacket port .transport) s = .next t ∧ t = { s.idle with dropped := t.dropped } ∧
      ∀ k, Sparse.get 0 t.dropped k = if k = port then Sparse.get 0 s.dropped port + 1 else Sparse.get 0 s.dropped k) ∧
    (∀ psn, s.qp? qn = some q → q.state = .rts → q.cached = true → q.refused = none → (∀ k ∈ s.inbox, k.qp ≠ qn) → q.replies = [] →
      ∃ t, exec (.unreliablePacket port (.immediate qn psn)) s = .next t ∧
        t = { s.idle with qps := t.qps, wire := t.wire, wireHeld := t.wireHeld, notified := t.notified } ∧
        (s.pausedPair q = false → t.wire = s.sent qn q .nakInvalid psn [] ∧ t.wireHeld = s.wireHeld) ∧
        (s.pausedPair q = true → t.wire = s.wire ∧ t.wireHeld = s.wireHeld ++ [⟨qn, .nakInvalid, psn, [], max s.time q.ackFrom⟩]) ∧ ∀ n, t.qp? n = s.qp? n) ∧
    ∀ pause, ∃ t, exec (.priorityFlowControl port prio pause) s = .next t ∧ t = { s.idle with paused := t.paused, wire := t.wire, wireHeld := t.wireHeld } ∧
      (∀ x, x ≠ (port, prio) → t.paused.contains x = s.paused.contains x) ∧
      (t.paused.contains (port, prio) = true ↔ pause = true ∧ port < 4 ∧ prio < 8) ∧ (s.wireHeld = [] → t.wire = s.wire ∧ t.wireHeld = []) ∧
      ∀ w, s.wireHeld = [w] → s.qp? w.qp = some q →
        (t.pausedPair q = true → t.wire = s.wire ∧ t.wireHeld = [w]) ∧
        (t.pausedPair q = false → t.wire = { w with time := max s.time w.time } :: s.wire ∧ t.wireHeld = [])

/-! ## Debugging and the memory system's own steps -/

/-- DBGRD of a debug node, with no debug write of the wave queued, completes with the dword of the target's window: 0 where no wave of the context is there, else its registers, its program counter, its stack depth.
DBGWR completes, its entry last in the queue. On any other node both raise PRIVILEGED. HALTREQ halts a wave with nothing outstanding, with reason 0; RESUME lets a halted wave with lanes issue again; WP_WRITE binds a valid watchpoint to
the target's workgroup and drops an enabled one that is not valid. The registers, masks and program counter of the target, and memory, are as before.
That a DBGRD is performed at its issue (log 57), and that a watchpoint is cleared whoever enabled it (log 58), are the model's choices. -/
def Obligations.Debugging : Prop :=
  (∀ (s : State) (σ : Site) (o : DbgrdF), Plain (.dbgrd o) s σ →
    let tgt := (σ.t.s o.a).toNat
    let off := o.off.toNat
    tgt < 2 ^ 15 → tgt % 256 < 192 → off % 8 = 0 →
    (σ.n.dbg = false → exec (.dbgrd o) s = .next (s.raise σ.p (σ.detail .privileged))) ∧
    (σ.n.dbg = true → s.debugPending σ.p = false → ∃ t x, exec (.dbgrd o) s = .next t ∧
      IssueStep s t σ σ.t (σ.t.past (.dbgrd o)) (fun n => if n = o.d.val then BitVec.ofNat 64 x else σ.t.s n) σ.t.f ∧
      (s.target σ.c.id (tgt % 256) (tgt / 256) = none → off < 0xF800000 → x = 0) ∧
      ∀ g w, s.target σ.c.id (tgt % 256) (tgt / 256) = some (g, w) → w.t.Quiet →
        (∀ r l, r < w.nregs → r < 96 → l < 256 → l % 2 = 0 → off = 1024 * r + 4 * l → x = (w.v r l).toNat + 2 ^ 32 * (w.v r (l + 1)).toNat) ∧
        (∀ n, n < 64 → off = 0x20000 + 8 * n → x = (w.t.s n).toNat) ∧ (off = 0x20308 → x = va64 w.t.pc) ∧
        (off = 0x20340 → x = w.stack.length))) ∧
  (∀ (s : State) (σ : Site) (o : DbgwrF), Plain (.dbgwr o) s σ →
    let tgt := (σ.t.s o.a).toNat
    tgt < 2 ^ 15 → tgt % 256 < 192 → o.off.toNat % 8 = 0 →
    (σ.n.dbg = false → exec (.dbgwr o) s = .next (s.raise σ.p (σ.detail .privileged))) ∧
    (σ.n.dbg = true → s.queued σ.cluster σ.core < Config.storeQueueEntries → ∃ t e, exec (.dbgwr o) s = .next t ∧
      IssueStep { s with queue := s.queue ++ [e], nextQ := s.nextQ + 1 } t σ σ.t (σ.t.past (.dbgwr o)) σ.t.s σ.t.f ∧
      e.n = s.nextQ ∧ e.owner = .flight σ.p σ.t.nextId ∧ e.kind = .debug tgt o.off.toNat (σ.t.s o.b))) ∧
  ∀ (s : State) (n tgt off : Nat) (v : DWord) (e : QEntry) (g : Workgroup) (w : Wave), s.queue.find? (fun x => x.n == n) = some e →
    e.kind = .debug tgt off v → s.mayApply e = true → s.target e.ctx (tgt % 256) (tgt / 256 % 128) = some (g, w) → s.wg? g.id = some g →
    g.wave? w.waveid = some w →
    let same (t : State) (w' : Wave) : Prop := t.waveOf g.id w.waveid = some w' ∧ w'.vregs = w.vregs ∧ w'.preds = w.preds ∧ w'.e = w.e ∧
      w'.stack = w.stack ∧ w'.t.pc = w.t.pc ∧ w'.t.sregs = w.t.sregs ∧ w'.t.fregs = w.t.fregs ∧ t.queue = s.queue.filter (fun x => x.n != n) ∧
      ∀ b, t.byte b = s.byte b
    (off = 0x21000 → v.getLsbD 2 = true → w.dbg.halted = false → w.t.settled = true → w.passing = false →
      ∃ t w', exec (.haltreq n) s = .next t ∧ same t w' ∧ w'.dbg.halted = true ∧ w'.dbg.reason = 0 ∧ w'.dbg.step = v.getLsbD 3) ∧
    (off = 0x21000 → v.getLsbD 2 = false → v.getLsbD 1 = true → w.dbg.halted = true → s.recordWaits w = false → w.e ≠ 0 →
      ∃ t w', exec (.resume n) s = .next t ∧ same t w' ∧ w'.dbg.halted = false ∧ w'.dbg.step = v.getLsbD 3 ∧ w'.dbg.skipbp = v.getLsbD 4) ∧
    ∀ k, k < 4 → off = 0xF000000 + 8 * k →
      let x := v.toNat
      let len := 2 ^ (x / 2 ^ 34 % 16)
      let at_ := x / 2 ^ 12 % 2 ^ 22
      let valid : Prop := 2 ≤ x / 2 ^ 34 % 16 ∧ x / 2 ^ 34 % 16 ≤ 12 ∧ at_ % len = 0 ∧ at_ + len ≤ g.scratchSize ∧
        ∀ u j h, s.wpAt w.core k = some (u, j) → u.getLsbD 0 = true → s.wg? j = some h → h.ctx = g.ctx
      ∃ t w', exec (.wpWrite n) s = .next t ∧ same t w' ∧
        (v.getLsbD 0 = true → ¬ valid → t.wps = s.wps) ∧
        (v.getLsbD 0 = false ∨ valid → t.wpAt w.core k = some (v &&& 0x3FFFFFF00D, g.id) ∧
          ∀ c j, (c ≠ w.core ∨ j ≠ k) → t.wpAt c j = s.wpAt c j)

/-- An EVICTION drops a copy, or writes a line back with its counter advanced; at the counter's end it freezes the region. At a tree node's end its regions freeze. A REVIVAL sets the region's liveness. REKEY thaws a region under a fresh slot, its counters cleared, and reports one that it
cannot. The host's answers give a context a translation, or deny it one, so that the access page-faults; its invalidations take translations away. A page move of a frame that one page names sets TRANS in its leaf, or in all the like entries of a 64 KiB page; its end moves the monitors. A held store issues again; one that has waited too long halts its context. While firmware reloads,
neither a region is re-keyed nor a page moved. The levels of a tree and the regions under a node are the model's reading (log 18), as are the slots and counters that a re-keyed region keeps (log 19). -/
def Obligations.MemorySteps : Prop :=
  (∀ (s : State) (core cl sector : Nat),
    (exec (.eviction (.l1 core sector)) s = .next { s.idle with home := { s.home with
      copies := s.home.copies.filter fun c => !(c.core == some core && c.sector == sector) } }) ∧
    exec (.eviction (.clus cl sector)) s = .next { s.idle with home := { s.home with
      copies := s.home.copies.filter fun c => !(c.cluster == cl && c.core == none && c.sector == sector) } }) ∧
  (∀ (s : State) (n : Nat), s.home.dirty.contains n = true →
    ∃ t, exec (.eviction (.line n)) s = .next t ∧ t = { s.idle with home := t.home } ∧ (∀ b, t.byte b = s.byte b) ∧
      let k := Sparse.get 0 s.home.wctr n
      if 2 ^ 56 - 1 ≤ k then t.home.dirty.contains n = true ∧ t.home.frozen.contains (regionOf (128 * n)) = true ∧ t.home.wctr = s.home.wctr ∧
        (s.home.frozen.contains (regionOf (128 * n)) = false → t.home.exhausted = s.home.exhausted ++ [[regionOf (128 * n)]])
      else t.home.dirty.contains n = false ∧ Sparse.get 0 t.home.wctr n = k + 1 ∧ t.home.frozen = s.home.frozen ∧ ∀ c ∈ t.home.counts, c.line ≠ n) ∧
  (∀ (s : State) (stack level n : Nat), stack < 16 → level < rootLevel stack →
    s.home.wctr.any (fun e => (treePlace e.1).1 == stack && (treePlace e.1).2 / nodeLines level == n) = true →
    let k := s.home.nodeCtr stack level n
    ∃ t, exec (.eviction (.node stack level n)) s = .next t ∧
      if (if level = 0 then 2 ^ 32 else 2 ^ 56) - 1 ≤ k then
        t = { s.idle with home := { s.home with frozen := t.home.frozen, exhausted := t.home.exhausted } } ∧ (∀ r, s.home.frozen.contains r = true → t.home.frozen.contains r = true) ∧
          (∀ r ∈ regionsUnder stack level n, t.home.frozen.contains r = true) ∧
          ∀ r ∈ regionsUnder stack level n, s.home.frozen.contains r = false → t.home.exhausted = s.home.exhausted ++ [regionsUnder stack level n]
      else t = { s.idle with home := { s.home with tree := t.home.tree } } ∧ t.home.nodeCtr stack level n = k + 1) ∧
  (∀ (s : State) (region : Nat), (∀ e ∈ s.queue, e.held = false) → s.home.held = [] →
    (s.home.reviving.contains region = true → ∃ t, exec (.revival region) s = .next t ∧ t = { s.idle with home := t.home } ∧
      t.home.live.contains region = true ∧ t.home.reviving.contains region = false ∧ ∀ b, t.byte b = s.byte b) ∧
    ∀ slot : Byte, s.home.frozen.contains region = true →
      let key := s.keyOf slot.toNat
      (s.host.fw = .reloading → exec (.rekey region slot) s = .next s.idle) ∧ (s.host.fw ≠ .reloading →
      (slot = 0 ∨ key = 0 ∨ (∃ e ∈ s.home.lineKey, e.2 = key) → exec (.rekey region slot) s =
        .next { (s.dealt (· == region)).event none 0x0A (leBytes 8 0 ++ leBytes 8 (region * 2 ^ 21)) with tick := s.tick + 1 }) ∧
      (slot ≠ 0 → key ≠ 0 → (∀ e ∈ s.home.lineKey, e.2 ≠ key) → ∃ t, exec (.rekey region slot) s = .next t ∧
        t.home.frozen.contains region = false ∧
        ∀ l, region * 16384 ≤ l → l < (region + 1) * 16384 → Sparse.get 0 t.home.wctr l = 0 ∧
          (Sparse.get 0 t.home.lineKey l = 0 ∨ Sparse.get 0 t.home.lineKey l = 1 ∨ Sparse.get 0 t.home.lineKey l = key)))) ∧
  (∀ (s : State) (ctx va : Nat) (c : Context), s.ctx? ctx = some c →
    (s.walk c va = .wait → ∀ a len, 0 < len → len ≤ 2 ^ 30 → a % len = 0 →
      exec (.atsReply ctx va (some (a, len))) s = .next (s.idle.updCtx ctx fun c => { c with ats := (va - va % len, a, len) :: c.ats })) ∧
    (s.walk c va = .wait → ∃ t k, exec (.atsReply ctx va none) s = .next t ∧ t = { s.idle with ctxs := t.ctxs } ∧ t.ctx? ctx = some k ∧
      k = { c with denied := k.denied } ∧ k.denied.contains (va / 4096) = true ∧ t.walk k va = .cause .pageFault) ∧
    (c.pri.contains (va / 4096) = true → c.denied = [] → ∃ t k, exec (.pageRequestGroupResponse ctx va true) s = .next t ∧ t.ctx? ctx = some k ∧
      k.pri.contains (va / 4096) = false ∧ k.run = c.run ∧ ∀ g ∈ t.wgs, g.ctx = ctx → ∀ v, .fault v ∈ g.why → v / 4096 ≠ va / 4096) ∧
    (∀ g x, c.pri.contains (va / 4096) = true → c.denied = [] → c.run = .running →
      s.wgs.find? (fun h => h.ctx == ctx && h.why.any fun w => match w with | .fault v => v / 4096 == va / 4096 | _ => false) = some g →
      g.faultAt.find? (fun r => r.faddr / 4096 == va / 4096) = some x →
      ∃ t k r, exec (.pageRequestGroupResponse ctx va false) s = .next t ∧ t.ctx? ctx = some k ∧ k.run = .halted false ∧ r ∈ k.stops ∧
        r = { x with cause := some .protection, time := s.time, prim := true }) ∧
    ∀ len, (s.canInvalidate c va len = false → exec (.atsInvalidationRequest ctx va len) s = .next s.idle) ∧
      (s.canInvalidate c va len = true → ∃ t k, exec (.atsInvalidationRequest ctx va len) s = .next t ∧ t.ctx? ctx = some k ∧
        k.tlb = c.tlb.filter (fun e => !meets e.va (2 ^ e.bits) va len) ∧ k.ats = c.ats.filter fun e => !meets e.1 e.2.2 va len)) ∧
  (∀ (s : State) (ctx va at_ level e : Nat) (c : Context), s.ctx? ctx = some c → s.leafOf c va = some (at_, level, e) → e / 2 ^ 52 % 2 = 0 →
    let n := 2 ^ leafBits level e
    let base := e / 2 ^ 12 % 2 ^ 40 * 4096
    inMemory base = true → s.canInvalidate c (va - va % n) n = true → e < 2 ^ 64 →
    let entries := s.entriesOfPage at_ level e
    (s.host.fw = .reloading → ∀ frame finish, exec (.pageMove ctx va frame finish) s = .next s.idle) ∧
    (s.host.fw ≠ .reloading → s.sharers base n ≠ [] → (∀ l ∈ s.sharers base n, l.1 = c ∧ l.2.1 = va - va % n ∧ l.2.2.2 = (level, e) ∧
      s.entriesOfPage l.2.2.1 level e = entries) →
    (e / 2 ^ 53 % 2 = 0 → at_ % 8 = 0 → (s.writeEntries entries (e + 2 ^ 53)).KeepsFrames ctx (va - va % n) n → ∀ frame, ∃ t, exec (.pageMove ctx va frame false) s = .next t ∧
      (∀ p, t.threadOf p = s.threadOf p) ∧ ∀ b, t.byte b = ((entries.flatMap fun a => located a (leBytes 8 (e + 2 ^ 53))).lookup b).getD (s.byte b)) ∧
    ∀ frame, e / 2 ^ 53 % 2 = 1 → frame % n = 0 → pageIn frame n = true → inMemory frame = true → s.inUse frame n = false → s.frameBusy base n = false →
      ∃ t, exec (.pageMove ctx va frame true) s = .next t ∧ ∀ p u, s.threadOf p = some u → ∃ u', t.threadOf p = some u' ∧ u'.pc = u.pc ∧
        u'.sregs = u.sregs ∧ u'.fregs = u.fregs ∧ u'.flights = u.flights ∧
        ∀ o a pa k x d, u.park = some (.mwait o a pa k x d) → base ≤ pa → pa < base + n →
          u'.park = some (.mwait o a (frame + (pa - base)) k x d))) ∧
  ∀ (s : State) (σ : Site) (tm : Nat), s.siteOf σ.p = some σ → σ.runnable = true → σ.t.stallFrom = some tm → (∀ f ∈ σ.t.flights, f.outstanding = false) →
    (s.cur = none → exec (.rewalk σ.p) s = .next { s.idle with cur := some σ.p }) ∧
    (tm + σ.c.stallNs < s.time → ∃ t c r, exec (.storeStarved σ.p) s = .next t ∧ t.ctx? σ.c.id = some c ∧ c.run = .halted false ∧ r ∈ c.stops ∧
      r.prim = true ∧ r.cause = some .storeStarved ∧ r.iaddr = va64 σ.t.pc ∧ ∀ b, t.byte b = s.byte b)

/-! ## The copy engine -/

/-- TBINIT, TBARV and TBEXP of an aligned object in bounds and unmarked, with an operand that the object admits, complete: the object takes the update and is evaluated once; with one
it does not admit they raise ILLEGAL_OPERAND. TBWAIT goes on and acquires once PHASE differs from its operand, and waits till then. SLOTSET writes its slot's two bits; SLOTWAIT goes on once they
hold its tag, and waits till then. No register, no other byte of the scratchpad and no byte of memory changes. -/
def Obligations.BarriersAndTags : Prop :=
  (∀ (i : Instr) (o : SS) (s : State) (σ : Site), tbOperands i = some o → Plain i s σ →
    let off := (σ.t.s o.a).toNat % 2 ^ 32
    let n := (σ.t.s o.b).toNat
    let x := σ.g.scratchRead off 16
    off % 16 = 0 → off + 16 ≤ σ.g.scratchSize → σ.g.scratchMarked off 16 = false → ((∃ o, i = .tbarv o) → σ.t.drained = true) →
    ((∃ o, i = .tbwait o) →
      (x / 2 ^ 96 % 2 ^ 32 = n % 2 ^ 32 → exec i s = .next s.wait) ∧
      (x / 2 ^ 96 % 2 ^ 32 ≠ n % 2 ^ 32 → ∃ t, exec i s = .next t ∧ IssueStep s t σ (σ.t.acquire σ.t.nextId) (σ.t.past i) σ.t.s σ.t.f)) ∧
    ((∀ o, i ≠ .tbwait o) →
      match tbUpdate x n i with
      | none => exec i s = .next (s.raise σ.p (σ.detail .illegalOperand))
      | some y => ∃ t, exec i s = .next t ∧
          IssueStep (s.updWg σ.g.id fun h => h.scratchWrite off 16 (tbAfter y)) t σ σ.t (σ.t.past i) σ.t.s σ.t.f)) ∧
  ∀ (o : SlotF) (s : State) (σ : Site),
    let arr := (σ.t.s o.a).toNat % 2 ^ 32
    let slot := (σ.t.s o.b).toNat
    let b := σ.g.scratchRead (arr + slot / 4) 1
    slot < 2 ^ 16 → arr + slot / 4 < σ.g.scratchSize → σ.g.scratchMarked (arr + slot / 4) 1 = false →
    (Plain (.slotset o) s σ → ∃ t, exec (.slotset o) s = .next t ∧
      IssueStep (s.updWg σ.g.id fun h => h.scratchWrite (arr + slot / 4) 1 (tagByte (h.scratchRead (arr + slot / 4) 1) slot (tagCode o.tag))) t σ σ.t
        (σ.t.past (.slotset o)) σ.t.s σ.t.f) ∧
    (Plain (.slotwait o) s σ →
      (b / 2 ^ (2 * (slot % 4)) % 4 = tagCode o.tag →
        ∃ t, exec (.slotwait o) s = .next t ∧ IssueStep s t σ (σ.t.acquire σ.t.nextId) (σ.t.past (.slotwait o)) σ.t.s σ.t.f) ∧
      (b / 2 ^ (2 * (slot % 4)) % 4 ≠ tagCode o.tag → exec (.slotwait o) s = .next s.wait))

/-- ACP whose lanes pass their checks, TCP, CQ and CQMETA with aligned operands complete: one command joins the engine's, with the operands as they were, numbered and charged to its issuer;
ACP's has one piece for each active lane, between the lane's address and its offset; where a higher lane has the same destination the lane's bytes go nowhere. No register, no byte of the scratchpad and no byte of memory changes. -/
def Obligations.CopyIssue : Prop :=
  (∀ (o : AcpF) (s : State) (σ : Site) (g k : Nat) (w : Wave) (acc : Nat → Access), PlainWave (.acp o) s σ g k w → σ.c.smpK = 0 → σ.tbFits o.tb →
    let size := sizeBytes o.size
    (∀ l ∈ w.lanes (.acp o), (w.v o.d l).toNat % size = 0 ∧ (o.toG = true → (w.v o.d l).toNat + size ≤ σ.g.scratchSize) ∧
      s.check σ .g size (if o.toG then .write else .read) l (w.place l .g o.mem.a o.mem.ix o.mem.off) = .ok (acc l)) →
    let same (l l' : Nat) : Prop :=
      if o.toG then (acc l).va = (acc l').va ∨ ∃ pa, (acc l).pa = some pa ∧ (acc l').pa = some pa else (w.v o.d l).toNat = (w.v o.d l').toNat
    let beaten (l : Nat) : Prop := ∃ l' ∈ w.lanes (.acp o), l < l' ∧ same l l'
    ∃ t c, exec (.acp o) s = .next t ∧ Commanded (.acp o) s t σ c ∧ c.req = .acp ∧ c.stage = .running ∧ c.tb = σ.tbOffset o.tb ∧
      c.total = size * (w.lanes (.acp o)).length ∧
      ∀ x : Piece, (∃ op ∈ c.ops, x ∈ op) ↔ ∃ l ∈ w.lanes (.acp o),
        let m : Loc := .mem (acc l).va ((acc l).pa.map fun pa => (pa, (acc l).key, (acc l).lease, (acc l).host))
        let p : Loc := .pad (w.v o.d l).toNat
        (beaten l → x = ⟨if o.toG then p else m, .made [], size, l⟩) ∧ (¬ beaten l → x = if o.toG then ⟨p, m, size, l⟩ else ⟨m, p, size, l⟩)) ∧
  (∀ (o : TcpF) (s : State) (σ : Site), Plain (.tcp o) s σ → σ.tbFits o.tb → (σ.t.s o.b).toNat % 16 = 0 →
    (∀ d, o.mc = some d → (σ.t.s d).toNat ≠ 0 ∧ (σ.t.s d).toNat < 64) →
    ∃ t c, exec (.tcp o) s = .next t ∧ Commanded (.tcp o) s t σ c ∧
      c.req = .tile (σ.t.s o.a).toNat (σ.t.s (o.a.val + 1)).toNat ((σ.t.s o.b).toNat % 2 ^ 32)
        (match o.layout with | .none => 0 | .t => 1 | .b16 => 2 | .tb16 => 3) ∧
      c.stage = .new ∧ c.tb = σ.tbOffset o.tb ∧
      c.targets = (match o.mc with | some d => s.multicast σ.c.id σ.g.launch σ.cluster (σ.t.s d).toNat | none => [σ.g.id])) ∧
  (∀ (a : SReg) (la : Fin 16) (s : State) (σ : Site), Plain (.cq a la) s σ → (σ.t.s a).toNat % 64 = 0 →
    ∃ t c, exec (.cq a la) s = .next t ∧ Commanded (.cq a la) s t σ c ∧ c.req = .cq (σ.t.s a).toNat ∧ c.stage = .new ∧ c.acquire = false) ∧
  ∀ (o : CqmetaF) (s : State) (σ : Site) (r : Reservation) (m : MetaQ), Plain (.cqmeta o) s σ → σ.g.resv = some r →
    r.queue? (Party.pair σ.p) o.q = some m → (σ.t.s o.a).toNat % 8 = 0 →
    ∃ t c, exec (.cqmeta o) s = .next t ∧ Commanded (.cqmeta o) s t σ c ∧ c.req = .cqmeta o.q (σ.t.s o.a).toNat o.n.toNat ∧ c.stage = .new

/-- LINE_OPERATION of a running command with one operation left, of bytes made by the engine or read from an unmarked run of the workgroup's scratchpad, writes them at the destination's offset, and
no other byte of the scratchpad or of memory; with none left the command comes to its signals. SIGNALS of a released command without barrier, tag and counter ends it: it
is gone, and its instruction is done. TAG_RETEST of a command that is not held does nothing; one that is held is accepted anew: a CQ whose checks pass goes on waiting while its
slot is not EMPTY, and else sets it to FILLING and, where it copies no tile, runs with the line operations that its descriptor gives. -/
def Obligations.CopySteps : Prop :=
  (∀ (s : State) (c : Command) (k : Context) (h : Workgroup) (x : Piece) (off : Nat) (bs : List Byte), s.cmd? c.n = some c → s.cmdLive c = true →
    c.faulted = false → c.stage = .running → c.late = [] → c.ops = [[x]] → (∀ q va n, c.req ≠ .cqmeta q va n) → c.staged = false → c.tb = none →
    c.targets = [c.wg] → s.wg? c.wg = some h → h.status = .resident → s.ctx? c.ctx = some k → s.covers k 0 = true → s.mayRead c = true → x.dst = .pad off →
    off + x.n ≤ h.scratchSize → bs.length = x.n →
    ((∃ ys, x.src = .made ys ∧ bs = ys.take x.n) ∨
      ∃ a, x.src = .pad a ∧ a + x.n ≤ h.scratchSize ∧ h.scratchMarked a x.n = false ∧ bs = (List.range x.n).map fun j => h.scratchByte (a + j)) →
    ∃ t h' c', exec (.lineOperation c.n) s = .next t ∧ t.wg? c.wg = some h' ∧ t.cmd? c.n = some c' ∧ c'.ops = [] ∧ c'.counted = c.counted + x.n ∧
      (∀ a, h'.scratchByte a = if off ≤ a ∧ a < off + x.n then bs.getD (a - off) 0 else h.scratchByte a) ∧ (∀ a, t.byte a = s.byte a) ∧
      ∀ p, t.threadOf p = s.threadOf p) ∧
  (∀ (s : State) (c : Command), s.cmd? c.n = some c → s.cmdLive c = true → c.faulted = false → c.stage = .running → c.late = [] → c.ops = [] →
    exec (.lineOperation c.n) s = .next (s.idle.updCmd c.n fun d => { d with stage := .signals 0 })) ∧
  (∀ (s : State) (c : Command) (u : Thread), s.cmd? c.n = some c → s.cmdLive c = true → c.stage = .signals 0 → s.cmdReleased c = true → c.tb = none →
    c.tag = none → c.counter = none → c.overrun = false → s.threadOf c.party = some u →
    ∃ t u', exec (.signals c.n) s = .next t ∧ t.cmd? c.n = none ∧ t.cmds = s.cmds.filter (fun d => d.n != c.n) ∧ t.threadOf c.party = some u' ∧
      (∀ f ∈ u'.flights, f.id = c.flight → f.done = true) ∧ u'.pc = u.pc ∧ (∀ n, u'.s n = u.s n) ∧ (∀ n, u'.f n = u.f n) ∧
      ∀ a, t.byte a = s.byte a) ∧
  (∀ (s : State) (n : Nat), (∀ c, s.cmd? n = some c → c.stage ≠ .tagHeld) → exec (.tagRetest n) s = .next s.idle) ∧
  ∀ (s : State) (c : Command), s.cmd? c.n = some c → s.cmdLive c = true → c.stage = .tagHeld → c.faulted = false →
    exec (.tagRetest c.n) s = exec (.lineOperation c.n) (s.updCmd c.n fun d => { d with stage := .new }) ∧
    ∀ (d : BitVec 512) (g : Workgroup) (u : Thread) (c' : Command) (ps : List Piece) (tile : Option (Nat × Nat × Nat)) (arr slot : Nat),
      c.req = .desc d → c.filling = false → s.wg? c.wg = some g → s.threadOf c.party = some u → u.acqBars c.flight = false →
      (c.acquire = true ∨ c'.acquire = true → acquired u c.flight = true) → (∀ e ∈ s.cmds, e.party = c.party → e.n < c.n → e.stage ≠ .tagHeld) →
      ({ c with stage := .new } : Command).acceptCq g d.toNat = .ok (c', ps, tile) → c'.tag = some (arr, slot) →
      (g.tagAt arr slot ≠ 0 → ∃ t, exec (.tagRetest c.n) s = .next t ∧ t = { s.idle with cmds := t.cmds } ∧ ∀ m, t.cmd? m = s.cmd? m) ∧
      (g.tagAt arr slot = 0 → tile = none → ∃ t, exec (.tagRetest c.n) s = .next t ∧ t = { s.idle with cmds := t.cmds, wgs := t.wgs } ∧
        t.wg? c.wg = some (g.setTag arr slot 1) ∧ (∀ m, m ≠ c.n → t.cmd? m = s.cmd? m) ∧ (∀ k, k ≠ c.wg → t.wg? k = s.wg? k) ∧
        t.cmd? c.n = some { c' with
          filling := true, stage := .running, ops := ps.map fun p => [p]
          targets := if d.toNat.testBit 121 then s.multicast c.ctx c.launch c.cluster (field d.toNat 122 6) else [c.wg] })

/-! ## Firmware commands and the host link -/

/-- A command alone on ring 0 whose payload is in its limits is executed, passed and answered. CTX_CREATE makes the lowest free context with the descriptor and a full bucket. CTX_DESTROY of a context with work starts its ladder, unanswered. CTX_RESET takes a
context's workgroups, queues and handles away. GRAPH_INSTALL installs a checked image. INVALIDATE drops translations. PLAN_SUBMIT leaves a plan for the lap boundary. DEBUG_SET sets the trap node or the mailbox. SERVICE_LIST waits for the
period boundary, and PLAN_SUBMIT is answered at the lap boundary, or at once on idle rings. CTX_RESET of a context that is not there is refused. That ring 0 goes on behind an unanswered
CTX_DESTROY (log 79), and that plans and service lists are read under slot 0, as the command is executed, and answered in this way (log 80), are the model's choices. -/
def Obligations.ContextCommands : Prop :=
  (∀ (s : State) (h : HeadRec) (k : Nat), s.Asks 0x01 0 h → s.freeCtx = some k →
    let d := BitVec.ofNat 512 (arg h.payload 4 64)
    descOk d = true → s.storesFit (newContext k d) = true →
    ∃ c, exec .ctxCreate s = .next (({ s with ctxs := s.ctxs ++ [c] } : State).trimSlices.answered h 0x01 0 k) ∧ c.id = k ∧ c.desc = d ∧ c.run = .running ∧
      c.ladder = .none ∧ c.graph = none ∧ c.keys = [] ∧ c.slices = [] ∧ c.trapNode = none ∧ c.mailbox = none ∧
      (c.coreTok ≠ 0xFFFF → c.bktCore = (c.coreTok * 32000 : Nat)) ∧ (c.readTok ≠ 0xFFFF → c.bktRead = (c.readTok * 65536 : Nat)) ∧
      (c.wrTok ≠ 0xFFFF → c.bktWrite = (c.wrTok * 4096 : Nat))) ∧
  (∀ (s : State) (h : HeadRec) (c : Context), s.Asks 0x02 0 h → arg h.payload 5 3 = 0 → s.ctx? (arg h.payload 4 1) = some c → c.ladder = .none →
    (∀ d ∈ s.ctxs, d.id ≠ c.id → d.ladder = .none) → s.drained c.id = false →
    exec .ctxDestroy s = .next ((s.startLadder c.id (s.time + c.drainUs * 1000) (some (arg h.payload 0 4))).taken h)) ∧
  (∀ (s : State) (h : HeadRec), s.Asks 0x10 0 h → arg h.payload 5 3 = 0 →
    (s.ctx? (arg h.payload 4 1) = none → exec .ctxReset s = .next (s.answered h 0x10 1 0)) ∧
    ∀ c, s.ctx? (arg h.payload 4 1) = some c → c.ladder = .none →
      ∃ t k, exec .ctxReset s = .next t ∧ t.ctx? c.id = some k ∧ k.run = .running ∧ k.slices = [] ∧ k.formed = [] ∧ k.handles = [] ∧ k.desc = c.desc ∧
        k.graph = c.graph ∧ k.trapNode = c.trapNode ∧ k.bps = c.bps ∧ t.wgs = s.wgs.filter (fun g => g.ctx != c.id) ∧ t.home = s.home) ∧
  (∀ (s s1 : State) (h : HeadRec) (c : Context) (g : Graph) (x : ImageHeader), s.Asks 0x03 0 h → arg h.payload 5 3 = 0 →
    s.ctx? (arg h.payload 4 1) = some c →
    let va := arg h.payload 8 8
    let len := arg h.payload 16 8
    va % 4096 = 0 → va + len ≤ 2 ^ 64 → canonical va = true → canonical (va + len - 1) = true → c.graph = none → s.readGraph c va len = some (g, x) →
    (∀ k, k < (len + 4095) / 4096 → ∀ q, s.imagePage c (va + 4096 * k) = some q → q.moving = false) →
    s.landBytes (s.imagePlaces c (imageWrites va x g)) = (s1, true) →
    exec .graphInstall s = .next ((s1.updCtx c.id fun d => { d with graph := some g }).answered h 0x03 0 0)) ∧
  (∀ (s : State) (h : HeadRec) (c : Context), s.Asks 0x04 0 h → arg h.payload 5 3 = 0 → arg h.payload 8 8 % 4096 = 0 → arg h.payload 16 8 % 4096 = 0 →
    s.ctx? (arg h.payload 4 1) = some c →
    (s.canInvalidate c (arg h.payload 8 8) (arg h.payload 16 8) = true → ∃ t k, exec .invalidate s = .next t ∧ t.ctx? c.id = some k ∧
      k.tlb = c.tlb.filter (fun e => !meets e.va (2 ^ e.bits) (arg h.payload 8 8) (arg h.payload 16 8)) ∧ t.wgs = s.wgs) ∧
    (s.canInvalidate c (arg h.payload 8 8) (arg h.payload 16 8) = false → exec .invalidate s = .next s.idle)) ∧
  (∀ (s : State) (h : HeadRec) (c : Context) (q : LapPlan), s.Asks 0x05 0 h → arg h.payload 5 3 = 0 → arg h.payload 8 8 % 64 = 0 →
    inTier (arg h.payload 8 8) 64 = true → s.ctx? (arg h.payload 4 1) = some c → s.readPlan c.id (arg h.payload 8 8) = some q →
    let tags := (match s.ring.newPlan with | some p => p.tags | none => []) ++ [arg h.payload 0 4]
    let t : State := { s with ring := { s.ring with newPlan := some { q with tags := tags } } }
    (s.ring.plan ≠ none → exec .planSubmit s = .next (t.taken h)) ∧ (s.ring.plan = none → exec .planSubmit s = .next (t.lapBoundary.taken h))) ∧
  (∀ (s : State) (h : HeadRec) (c : Context), s.ctx? (arg h.payload 4 1) = some c → arg h.payload 10 2 = 0 →
    (∀ n, s.Asks 0x06 0 h → arg h.payload 5 1 = 1 → c.node? (arg h.payload 6 2) = some n → c.typeSize n.intype = 64 → arg h.payload 6 2 ≠ 0xFFFF →
      exec .debugSetTrapNode s = .next ((s.updCtx c.id fun d => { d with trapNode := some (arg h.payload 6 2) }).answered h 0x06 0 0)) ∧
    (∀ r, s.Asks 0x06 1 h → arg h.payload 5 1 = 2 → s.outRing? (arg h.payload 8 2) = some r → r.kind = 1 → r.ctx = some c.id → arg h.payload 8 2 ≠ 0xFFFF →
      exec .debugSetMailbox s = .next ((s.updCtx c.id fun d => { d with mailbox := some (arg h.payload 8 2) }).answered h 0x06 0 0))) ∧
  ∀ (s : State) (h : HeadRec), arg h.payload 5 3 = 0 →
    (s.Asks 0x07 1 h → arg h.payload 8 8 % 8 = 0 → inTier (arg h.payload 8 8) 512 = true →
      let es := (List.range 64).map fun k => s.fwRead (arg h.payload 8 8 + 8 * k) 8
      (∀ e ∈ es, serviceOk e = true) → (es.filter fun e => e / 2 ^ 25 % 2 == 1) ≠ [] →
      exec .serviceListEnter s = .next (({ s with service := { s.service with
        enter := some ((es.filter fun e => e / 2 ^ 25 % 2 == 1).map (BitVec.ofNat 64)), leave := false, tags := s.service.tags ++ [arg h.payload 0 4] } } : State).taken h)) ∧
    (s.Asks 0x07 0 h → exec .serviceListLeave s = .next (({ s with service := { s.service with
      enter := none, leave := true, tags := s.service.tags ++ [arg h.payload 0 4] } } : State).taken h))

/-- A command alone on ring 0 whose payload is in its limits is executed, passed and answered: QP_SET makes, moves, destroys or approves a queue pair; MR_WRITE and EXPORT_WRITE replace an entry; EDGE_BIND binds or unbinds an edge; KEY_SET gives an empty slot a fresh key,
clears it, grants or revokes it, and slot 0 is refused; RING_CREATE makes an empty ring; STOP_READ writes the oldest stop records to the host; POWER_CAP sets the cap; DMA_WINDOW adds or removes a window; MEM_WRITE puts bytes or zeros into memory, and no
other byte changes, unless the place is firmware's own and it is refused; IMAGE_UPDATE takes a verified pair and refuses any other.
QP_SET outside its limits is refused. That a slot never created is granted (log 26), that a new mailbox ring runs at once (log 84), which bytes of QP_SET's payload are not looked at (log 92), and that a window number in
use is taken anew (log 94), are the model's choices; which lines are firmware's own is open. -/
def Obligations.DeviceCommands : Prop :=
  (∀ (s : State) (h : HeadRec) (c : Context), s.Asks 0x08 0 h → s.qp? (arg h.payload 4 2) = none → qpParamsOk h.payload = true →
    s.ctx? (arg h.payload 6 1) = some c →
    ∃ q : QPair, exec .qpSetCreate s = .next (({ s with qps := s.qps ++ [q] } : State).answered h 0x08 0 0) ∧ q.n = arg h.payload 4 2 ∧ q.ctx = c.id ∧
      q.state = .init ∧ q.sends = [] ∧ q.recvs = [] ∧ q.scc = 0 ∧ q.nextPsn = arg h.payload 24 3 ∧ q.expPsn = arg h.payload 28 3 ∧ q.approved = false) ∧
  (∀ (s : State) (h : HeadRec) (q : QPair), s.qp? (arg h.payload 4 2) = some q → qpParamsOk h.payload = true →
    (s.Asks 0x08 1 h → q.state = .init →
      exec .qpSetToRts s = .next ((s.updQp q.n fun p => { p with state := .rts }).answered h 0x08 0 0)) ∧
    (s.Asks 0x08 2 h → q.state = .error → q.sends = [] → q.recvs = [] →
      exec .qpSetFromError s = .next ((s.updQp q.n fun p => { p with state := .rts, firstErr := 0, retries := 0, rnr := 0 }).answered h 0x08 0 0)) ∧
    (s.Asks 0x08 3 h → q.sends = [] → q.recvs = [] →
      exec .qpSetDestroy s = .next (({ s with qps := s.qps.filter fun p => p.n != q.n } : State).answered h 0x08 0 0)) ∧
    (s.Asks 0x08 4 h → exec .qpSetApprove s = .next ((s.updQp q.n fun p => { p with approved := true }).answered h 0x08 0 0)) ∧
    (s.Asks 0x08 5 h → exec .qpSetWithdraw s = .next ((s.updQp q.n fun p => { p with approved := false }).answered h 0x08 0 0))) ∧
  (∀ (s : State) (h : HeadRec), qpParamsOk h.payload = false →
    (s.Asks 0x08 0 h → exec .qpSetCreate s = .next (s.answered h 0x08 1 0)) ∧ (s.Asks 0x08 1 h → exec .qpSetToRts s = .next (s.answered h 0x08 1 0)) ∧
    (s.Asks 0x08 2 h → exec .qpSetFromError s = .next (s.answered h 0x08 1 0)) ∧ (s.Asks 0x08 3 h → exec .qpSetDestroy s = .next (s.answered h 0x08 1 0)) ∧
    (s.Asks 0x08 4 h → exec .qpSetApprove s = .next (s.answered h 0x08 1 0)) ∧ (s.Asks 0x08 5 h → exec .qpSetWithdraw s = .next (s.answered h 0x08 1 0))) ∧
  (∀ (s : State) (h : HeadRec), s.Asks 0x09 0 h → arg h.payload 4 2 < 4096 → arg h.payload 6 2 = 0 → s.regionEntryOk (arg h.payload 8 16) = true →
    exec .mrWrite s = .next (({ s with regions := ⟨arg h.payload 4 2, BitVec.ofNat 128 (arg h.payload 8 16)⟩ :: (s.regions.filter fun r => r.n != arg h.payload 4 2) } : State).answered h 0x09 0 0)) ∧
  (∀ (s : State) (h : HeadRec), s.Asks 0x0A 0 h → arg h.payload 5 3 = 0 → exportOk (arg h.payload 8 8) = true →
    exec .exportWrite s = .next (({ s with peers := { s.peers with exports := (arg h.payload 4 1, BitVec.ofNat 64 (arg h.payload 8 8)) :: (s.peers.exports.filter fun x => x.1 != arg h.payload 4 1) } } : State).answered h 0x0A 0 0)) ∧
  (∀ (s : State) (h : HeadRec) (c : Context) (e : Edge), s.ctx? (arg h.payload 4 1) = some c → c.edge? (arg h.payload 8 4) = some e →
    arg h.payload 6 2 = 0 → arg h.payload 15 1 = 0 → arg h.payload 20 4 = 0 →
    let bound (i : Instr) (b : EdgeBind) : Prop := exec i s = .next ((s.bindEdge c.id (arg h.payload 8 4) b).answered h 0x0B 0 0)
    (s.Asks 0x0B 0 h → e.recursive = false → arg h.payload 12 2 < 1024 →
      bound .edgeBindRemote (.remote (arg h.payload 12 2) (arg h.payload 14 1) (arg h.payload 16 2))) ∧
    (∀ r, s.Asks 0x0B 1 h → s.outRing? (arg h.payload 18 2) = some r → r.kind = 2 → r.ctx = some c.id →
      bound .edgeBindOutRing (.outRing (arg h.payload 18 2))) ∧
    (s.Asks 0x0B 2 h → bound .edgeUnbind .here)) ∧
  (∀ (s : State) (h : HeadRec), arg h.payload 7 1 = 0 →
    let n := arg h.payload 5 1
    (s.Asks 0x0C 0 h → (n = 0 ∨ s.keyOf n ≠ 0) → exec .keySetCreate s = .next (s.answered h 0x0C 1 0)) ∧
    (s.Asks 0x0C 0 h → n ≠ 0 → s.keyOf n = 0 → exec .keySetCreate s = .next
      (({ s with keys := (n, s.nextKey) :: s.keys.filter (fun k => k.1 != n), nextKey := s.nextKey + 1 } : State).answered h 0x0C 0 0)) ∧
    (s.Asks 0x0C 1 h → n ≠ 0 → exec .keySetClear s = .next (({ s with keys := s.keys.filter fun k => k.1 != n } : State).answered h 0x0C 0 0)) ∧
    ∀ c, n ≠ 0 → s.ctx? (arg h.payload 6 1) = some c →
      (s.Asks 0x0C 2 h → exec .keySetGrant s = .next ((s.updCtx c.id fun d => { d with keys := nubNat (n :: d.keys) }).answered h 0x0C 0 0)) ∧
      (s.Asks 0x0C 3 h → exec .keySetRevoke s = .next ((s.updCtx c.id fun d => { d with keys := d.keys.filter (· != n) }).answered h 0x0C 0 0))) ∧
  (∀ (s : State) (h : HeadRec) (c : Context),
    let n := arg h.payload 4 2
    1 ≤ n → n ≤ 1023 → arg h.payload 9 1 ≤ 12 → arg h.payload 28 4 = 0 → s.ctx? (arg h.payload 8 1) = some c →
    (s.Asks 0x0D 0 h → 1 ≤ arg h.payload 10 1 → arg h.payload 10 1 ≤ 15 →
      exec .ringCreateMailbox s = .next (({ s with host := { s.host with mailboxes :=
        ⟨n, c.id, 2 ^ (12 + arg h.payload 9 1), arg h.payload 10 1, .running, 0, 0, 0, [], []⟩ :: (s.host.mailboxes.filter fun x => x.n != n), tails := Sparse.set 0 s.host.tails n 0 } } : State).answered h 0x0D 0 0)) ∧
    (s.Asks 0x0D 1 h → arg h.payload 7 1 ≤ 2 → arg h.payload 12 8 % 4096 = 0 → s.inWindow (arg h.payload 12 8) (2 ^ (12 + arg h.payload 9 1)) = true →
      arg h.payload 20 8 % 8 = 0 → s.inWindow (arg h.payload 20 8) 8 = true → s.outRing? n = none →
      ∃ t r, exec .ringCreateOut s = .next t ∧ t.outRing? n = some r ∧ r.ctx = some c.id ∧ r.kind = arg h.payload 7 1 ∧ r.base = arg h.payload 12 8 ∧
        r.size = 2 ^ (12 + arg h.payload 9 1) ∧ r.shadow = arg h.payload 20 8 ∧ r.state = .running ∧ r.recs = [] ∧ t.wgs = s.wgs ∧ t.home = s.home)) ∧
  (∀ (s : State) (h : HeadRec) (c : Context), s.Asks 0x0E 0 h → arg h.payload 5 3 = 0 → s.ctx? (arg h.payload 4 1) = some c →
    let a := arg h.payload 8 8
    let rs := c.stops.take (arg h.payload 16 4)
    s.inWindow a (64 * rs.length) = true →
    exec .stopRead s = .next (((rs.zip (List.range rs.length)).foldl (fun s e => s.writeHost (a + 64 * e.2) e.1.bytes) s).answered h 0x0E 0 rs.length)) ∧
  (∀ (s : State) (h : HeadRec), s.Asks 0x0F 0 h →
    let w := arg h.payload 4 2
    (1000 ≤ w → w ≤ 4400 → w % 50 = 0 → arg h.payload 6 2 = 0 →
      exec .powerCap s = .next (({ s with power := { s.power with capW := w } } : State).answered h 0x0F 0 0)) ∧
    (w < 1000 ∨ 4400 < w → exec .powerCap s = .next (s.answered h 0x0F 1 0))) ∧
  (∀ (s : State) (h : HeadRec), arg h.payload 5 1 < 64 → arg h.payload 6 2 = 0 →
    (s.Asks 0x11 0 h → arg h.payload 8 8 % 4096 = 0 → arg h.payload 16 8 % 4096 = 0 → (∀ r ∈ s.host.outs, r.recs = [] ∧ r.lost = 0) →
      exec .dmaWindowAdd s = .next (({ s with host := { s.host with windows := (arg h.payload 5 1, arg h.payload 8 8, arg h.payload 16 8) :: (s.host.windows.filter fun w => w.1 != arg h.payload 5 1) } } : State).answered h 0x11 0 0)) ∧
    (s.Asks 0x11 1 h → arg h.payload 8 8 % 4096 = 0 → arg h.payload 16 8 % 4096 = 0 → (∃ w ∈ s.host.windows, w.1 = arg h.payload 5 1) →
      exec .dmaWindowRemove s = .next (({ s with host := { s.host with windows := (s.host.windows.filter fun w => w.1 != arg h.payload 5 1) } } : State).answered h 0x11 0 0))) ∧
  (∀ (s : State) (h : HeadRec) (bs : List Byte),
    let pa := arg h.payload 16 8
    let n := arg h.payload 24 4
    arg h.payload 4 4 = 0 → pa % 4 = 0 → n % 4 = 0 → 4 ≤ n → n ≤ 2 ^ 24 → inTier pa n = true → arg h.payload 29 1 < 2 → arg h.payload 30 2 = 0 →
    s.keyOf (arg h.payload 28 1) ≠ 0 →
    (∀ k, k < n → s.home.live.contains (regionOf (pa + k)) = true ∧ s.home.frozen.contains (regionOf (pa + k)) = false) →
    let reserved (t : State) : Prop := t = s.answered h 0x12 1 0 ∧ ∃ l, lineOf pa ≤ l ∧ l ≤ lineOf (pa + n - 1) ∧ Config.firmwareReserved l = true
    (s.Asks 0x12 0 h → bs.length = n → s.inWindow (arg h.payload 8 8) n = true → ∃ t, exec (.memWrite bs) s = .next t ∧ t.wgs = s.wgs ∧
      (reserved t ∨ ∀ a, t.byte a = ((located pa bs).lookup a).getD (s.byte a))) ∧
    (s.Asks 0x12 1 h → ∃ t, exec .memWriteZeroFill s = .next t ∧ t.wgs = s.wgs ∧
      (reserved t ∨ ∀ a, t.byte a = if pa ≤ a ∧ a < pa + n then 0 else s.byte a))) ∧
  ∀ (s : State) (h : HeadRec), s.Asks 0x13 0 h → exec (.imageUpdate false) s = .next (s.answered h 0x13 1 0) ∧
    (arg h.payload 4 4 = 0 → s.inWindow (arg h.payload 8 8) (arg h.payload 16 8) = true → exec (.imageUpdate true) s =
      .next (({ s with host := { s.host with flash := some (arg h.payload 8 8, arg h.payload 16 8), images := s.host.images + 1 } } : State).answered h 0x13 0 0))

/-- A host write to live memory under a key puts its bytes there and no others; one to no memory stops the run. A TAIL write puts its records on a ring; MERGE commits the record at HEAD to its entry node, and waits for its time and, for a skip record too, for room. OHEAD frees space; a value that is unaligned, outside the ring or past TAIL is dropped and counted. A due vector fires, a pending one once it is
unmasked. A write of EVCFG that brings no ring into being leaves VEC and SIZE as written (and EN set, where it is written 1: log 121). EVCFG_EN makes out ring 0 with READY in it; its registers then ignore writes. RESTART empties ring 0 (and reads 0 after: log 122). DEVICE_RESET leaves no context, graph, key or byte, and bring-up in step 1; its steps follow one another as time passes, the last with READY and the flags
of the pair that runs. A host read of BAR0 finds the registers, and before READY nothing but those of bring-up. WATCHDOG acts once firmware has given no signal for 100 ms; GOLDEN_RELOAD_END, POWER_GOVERNOR, BOUND, MCTP and the seven requests of SPDM answer as they should.
Choices of the model: a host write under an empty key slot has no effect (log 87); reset is one step, keeps time and flash, and the steps of bring-up end at free times (log 85); SPDM's requests have no order (log 89); when firmware
signals the watchdog (log 144); a reload without a golden pair (log 145); what an attempt within its bound carries (log 146). -/
def Obligations.HostLinkSteps : Prop :=
  (∀ (s : State) (pa : Nat) (key : Byte) (bs : List Byte), bs ≠ [] →
    (inTier pa bs.length = false → exec (.hostWrite pa key bs) s = .fault .noSuchAddress) ∧
    (inTier pa bs.length = true → s.keyOf key.toNat = 0 → exec (.hostWrite pa key bs) s = .next s.idle) ∧
    (inTier pa bs.length = true → s.keyOf key.toNat ≠ 0 →
      (∀ k, k < bs.length → s.home.live.contains (regionOf (pa + k)) = true ∧ s.home.frozen.contains (regionOf (pa + k)) = false) →
      ∃ t, exec (.hostWrite pa key bs) s = .next t ∧ t.wgs = s.wgs ∧
        t.ctxs.map (fun c => { c with named := [] }) = s.ctxs.map (fun c => { c with named := [] }) ∧
        ∀ a, t.byte a = ((located pa bs).lookup a).getD (s.byte a))) ∧
  (∀ (s : State) (n : Nat) (bs : List Byte) (v : Word) (r : Mailbox), s.mailbox? n = some r →
    (s.isReady = false → exec (.tail n bs v) s = .next s.idle) ∧
    (s.isReady = true → n ≠ 0 → bs.length ≤ r.size → ∃ t r', exec (.tail n bs v) s = .next t ∧
      t = { s.idle with host := t.host, home := { s.home with seq := s.home.seq + 1 } } ∧ t.mailbox? n = some r' ∧
      r'.tail = v.toNat ∧ r'.head = r.head ∧ r'.size = r.size ∧
      ∀ k, k < bs.length → Sparse.get 0 r'.bytes ((r.tail + k) % r.size) = bs.getD k 0)) ∧
  (∀ (s : State) (n : Nat) (bs : List Byte) (v : Word), s.mailbox? n = none → s.isReady = true → n ≠ 0 → n < 1024 →
    exec (.tail n bs v) s = .next { s.idle with
      host := { s.host with tails := Sparse.set 0 s.host.tails n v.toNat }, home := { s.home with seq := s.home.seq + 1 } }) ∧
  (∀ (s : State) (ctx i : Nat) (c : Context) (r : Mailbox) (h : HeadRec) (n : Node), s.mergeTurns ctx = [i] → s.ctx? ctx = some c → s.mailbox? i = some r →
    r.ctx = ctx → r.state = .running → r.head? = some h → c.headErrs h = [] → c.merging = [] →
    (h.skip = true → s.recordRoom c (recSpace 4) = false → exec (.merge ctx) s = .next s.idle) ∧
    (h.skip = false → s.recordRoom c (recSpace h.len) = false → exec (.merge ctx) s = .next s.idle) ∧
    (h.skip = false → s.recordRoom c (recSpace h.len) = true →
    (c.graph.bind fun g => g.entries[h.entry]?) = some n.nodeid → c.node? n.nodeid = some n →
    (s.mayTake r = false → exec (.merge ctx) s = .next s.idle) ∧
    (s.mayTake r = true → ∃ t c' x, exec (.merge ctx) s = .next t ∧ t.mailbox? i = some (r.advance h.size) ∧ t.ctx? ctx = some c' ∧
      x = (⟨h.payload, 0, none, s.time⟩ : Rec) ∧
      ((∃ q ∈ c'.slices, q.node = n.nodeid ∧ x ∈ q.recs) ∨ ∃ f ∈ c'.formed, f.node = n.nodeid ∧ x ∈ f.recs)))) ∧
  (∀ (s : State) (n : Nat) (v : Word) (r : OutRing), s.outRing? n = some r →
    (v.toNat % 4 ≠ 0 ∨ r.size ≤ v.toNat ∨ (r.tail + r.size - r.ohead) % r.size < (v.toNat + r.size - r.ohead) % r.size → exec (.ohead n v) s = .next { s.idle with host := { s.host with headDrops := s.host.headDrops + 1 } }) ∧
    (v.toNat % 4 = 0 → v.toNat < r.size → (v.toNat + r.size - r.ohead) % r.size ≤ (r.tail + r.size - r.ohead) % r.size → r.recs = [] → r.lost = 0 →
      exec (.ohead n v) s = .next (s.idle.updOut n fun r => { r with ohead := v.toNat }))) ∧
  (∀ (s : State) (n : Nat),
    let x := s.vector n
    (x.due s.time = false → exec (.holdoff n) s = .next s.idle) ∧
    (x.due s.time = true → x.masked = false →
      exec (.holdoff n) s = .next (s.idle.setVector { x with pending := false, unreported := 0, oldest := none, fired := x.fired + 1 })) ∧
    (x.due s.time = true → x.masked = true → exec (.holdoff n) s = .next (s.idle.setVector { x with pending := true })) ∧
    (n < 256 → x.pending = true → exec (.unmask n) s =
      .next (s.idle.setVector { x with masked := false, pending := false, unreported := 0, oldest := none, fired := x.fired + 1 })) ∧
    (∀ v : DWord, n < 256 → v.getLsbD 0 = true → exec (.registerWrite (.vmask n) v) s = .next (s.idle.setVector { x with masked := true }))) ∧
  (∀ (s : State) (v : DWord),
    (s.outRing? 0 = none → exec (.registerWrite .evbase v) s = .next { s.idle with host := { s.host with evbase := BitVec.ofNat 64 (v.toNat / 4096 * 4096) } }) ∧
    ((∃ r, s.outRing? 0 = some r) → exec (.registerWrite .evbase v) s = .next s.idle ∧ exec (.registerWrite .evshadow v) s = .next s.idle ∧
      exec (.registerWrite .evcfg v) s = .next s.idle ∧ exec (.evcfgEn v) s = .next s.idle) ∧
    (s.outRing? 0 = none → (s.isReady = false ∨ v.getLsbD 31 = false ∨ 12 < v.toNat % 16) →
      let en := s.host.evcfg.getLsbD 31 || v.getLsbD 31
      exec (.registerWrite .evcfg v) s = .next { s.idle with host := { s.host with
        evcfg := BitVec.ofNat 64 (en.toNat * 2 ^ 31 + v.toNat / 2 ^ 8 % 2 ^ 8 * 2 ^ 8 + v.toNat % 16) } }) ∧
    (s.isReady = true → s.outRing? 0 = none → v.getLsbD 31 = true → v.toNat % 16 ≤ 12 → s.host.fw = .running → s.host.heldEvents = [] →
      s.host.heldLost = 0 → (∀ r ∈ s.host.outs, r.recs = [] ∧ r.lost = 0) → s.host.ring0.head? = none → ∃ t r, exec (.evcfgEn v) s = .next t ∧ t.outRing? 0 = some r ∧ r.base = s.host.evbase.toNat ∧
        r.size = 2 ^ (12 + v.toNat % 16) ∧ r.vec = v.toNat / 2 ^ 8 % 2 ^ 8 ∧ r.shadow = s.host.evshadow.toNat ∧ r.tail = 12 ∧ r.ohead = 0 ∧ r.recs = [] ∧
        t.host.hostWrites = (r.shadow, leBytes 8 12) :: (r.base, (outRecord 0x02 (leBytes 8 (s.isGolden.toNat + 2 * s.isRecov.toNat))).take 4) ::
          (r.base + 4, leBytes 8 (s.isGolden.toNat + 2 * s.isRecov.toNat)) :: s.host.hostWrites ∧ t.wgs = s.wgs ∧ t.home = s.home)) ∧
  (∀ s : State, s.isReady = true → ∃ t, exec .restart s = .next t ∧ t.host.ring0 = { s.host.ring0 with state := .running, err := 0, head := 0, tail := 0, due := [] } ∧
    t.host.cmdctl = 0 ∧ t = { s.idle with host := { s.host with ring0 := t.host.ring0, cmdctl := 0 } }) ∧
  (∀ (s : State) (primaryOk goldenOk : Bool), ∃ t, exec (.deviceReset primaryOk goldenOk) s = .next t ∧ t.wgs = [] ∧ t.ctxs = [] ∧ t.keys = [] ∧ t.queue = [] ∧
    t.host.outs = [] ∧ t.host.mailboxes = [] ∧ (∀ a, t.byte a = 0) ∧ (∀ a, t.isLive a = false) ∧ t.isReady = false ∧ t.host.devstat = 0x1000000 ∧
    t.host.pairs = (primaryOk, goldenOk) ∧ t.host.loaded = (if primaryOk = true then s.host.images else s.host.loaded) ∧ t.time = s.time ∧
    t.host.flash = s.host.flash) ∧
  (∀ (s : State) (k : Nat), s.host.devstat.toNat / 2 ^ 24 % 2 ^ 8 = k → s.isReady = false → 1 ≤ k → k ≤ 4 →
    let t := s.bootNext
    (s.time < s.host.bootAt → t = s) ∧
    (s.host.bootAt ≤ s.time → k < 4 → t = { s with host := { s.host with devstat := t.host.devstat, bootAt := t.host.bootAt } } ∧
      t.host.devstat = BitVec.ofNat 64 ((k + 1) * 2 ^ 24 + 2 * (!s.host.pairs.1 && s.host.pairs.2).toNat) ∧ s.host.bootAt ≤ t.host.bootAt) ∧
    (s.host.bootAt ≤ s.time → k = 4 → t.isReady = true ∧ t.isGolden = (!s.host.pairs.1 && s.host.pairs.2) ∧
      t.isRecov = (!s.host.pairs.1 && !s.host.pairs.2) ∧ t.host.fw = .running ∧ t.host.ring0.size = 65536 ∧ t.host.ring0.head = 0 ∧
      t.host.ring0.tail = 0 ∧ t.host.ring0.state = .running ∧ t.wgs = s.wgs ∧ t.home = s.home)) ∧
  (∀ s : State,
    (s.isReady = false → ∀ off, off ≠ 0 → off ≠ 0x10 → off ≠ 0x18 → off ≠ 0x20 → off ≠ 0x28 → s.barRead off = 0) ∧
    s.barRead 0 = s.host.devstat ∧ s.barRead 0x10 = s.host.evbase ∧ s.barRead 0x18 = s.host.evcfg ∧ s.barRead 0x20 = s.host.evshadow ∧
    s.barRead 0x28 = s.host.cmdctl ∧
    (s.isReady = true →
      (∀ i r, i ≠ 0 → i < 1024 → s.mailbox? i = some r → r.size ≤ 2 ^ 24 → r.head < r.size → r.tail < 2 ^ 32 → r.err < 2 ^ 8 →
        (s.barRead (0x100000 + 16 * i)).toNat = r.tail ∧
        let x := (s.barRead (0x100000 + 16 * i + 8)).toNat
        x % 2 ^ 32 = r.head ∧ (r.state = .running → x / 2 ^ 48 = 2 ^ 8) ∧ (r.state = .stopped → x / 2 ^ 48 = 2 ^ 9 + r.err)) ∧
      (∀ j r c, j < 1024 → s.outRing? j = some r → c ≤ 12 → r.size = 2 ^ (12 + c) → r.tail < r.size → r.ohead < r.size → r.vec < 2 ^ 8 → r.kind < 2 ^ 8 →
        r.state = .running →
        (s.barRead (0x200000 + 16 * j)).toNat = r.ohead ∧
        (s.barRead (0x200000 + 16 * j + 8)).toNat = 2 ^ 56 + r.kind * 2 ^ 48 + r.vec * 2 ^ 40 + c * 2 ^ 36 + r.tail) ∧
      ∀ v, v < 256 → s.barRead (0x300000 + 8 * v) = (s.vector v).cfg)) ∧
  (∀ s : State,
    (s.host.fw = .running → s.isRecov = false → s.host.signal + 100000000 ≤ s.time →
      exec .watchdog s = .next { s.idle with host := { s.host with fw := .reloading } }) ∧
    (s.time < s.host.signal + 100000000 → exec .watchdog s = .next s.idle) ∧
    (s.host.fw = .reloading → s.outRing? 0 = none → ∃ t, exec .goldenReloadEnd s = .next t ∧ t.host.fw = .running ∧
      (s.host.pairs.2 = true → t.isGolden = true) ∧ (s.host.pairs.2 = false → t.isRecov = true) ∧ t.host.signal = s.time ∧ t.isReady = s.isReady ∧ t.wgs = s.wgs ∧ t.home = s.home) ∧
    (∀ watts, ∃ t, exec (.powerGovernor watts) s = .next t ∧ t = { s.idle with power := { s.power with mhz := t.power.mhz } } ∧
      t.power.mhz = (if s.power.capW < watts then max 1000 (s.power.mhz - 100)
        else if 100 * watts ≤ 95 * s.power.capW then min 2500 (s.power.mhz + 100) else s.power.mhz)) ∧
    (∀ row what,
      let reported : Prop := ∃ t, exec (.bound ⟨row, what⟩) s = .next t ∧ Sparse.get 0 t.host.bounds row = Sparse.get 0 s.host.bounds row + 1 ∧
        t.wgs = s.wgs ∧ t.ctxs = s.ctxs ∧ t.home = s.home
      (4 ≤ row → row ≤ 6 → reported) ∧
      (row = 1 → (s.inWindow what 1 = true → exec (.bound ⟨row, what⟩) s = .next s.idle) ∧ (s.inWindow what 1 = false → reported)) ∧
      (row = 3 → ((∃ q, s.qp? what = some q ∧ q.approved = true) → exec (.bound ⟨row, what⟩) s = .next s.idle) ∧
        ((∀ q, s.qp? what = some q → q.approved = false) → reported)) ∧
      (row = 2 → (256 ≤ what → reported) ∧ (∀ tm, s.host.fwMsi.lookup what = some tm → s.time < tm + 10000 → reported) ∧
        (what < 256 → (∀ tm, s.host.fwMsi.lookup what = some tm → tm + 10000 ≤ s.time) → (s.vector what).masked = false →
          ∃ t, exec (.bound ⟨row, what⟩) s = .next t ∧ t = { s.idle with host := t.host } ∧ t.host.fwMsi.lookup what = some s.time ∧
            t.vector what = { s.vector what with fired := (s.vector what).fired + 1 }))) ∧
    ∃ reply, exec .mctpRequest s = .next { s.idle with host := { s.host with mctpReplies := s.host.mctpReplies ++ [reply] } }) ∧
  ∀ (s : State) (nonce : List Byte),
    let replies (i : Instr) (r : SpdmReply) : Prop := exec i s = .next (if s.isReady = true then
      { s.idle with host := { s.host with spdmReplies := s.host.spdmReplies ++ [r] } } else s.idle)
    replies .getVersion (.version 1 3) ∧ replies .getCapabilities .capabilities ∧ replies .negotiateAlgorithms (.algorithms .ecdsaP384 .sha384) ∧ replies .getDigests (.digests Config.digests) ∧
      replies .getCertificate (.certificate Config.certificate) ∧ replies (.challenge nonce) (.challenge nonce (Config.signature nonce)) ∧
      ∃ ms, replies .getMeasurements (.measurements ms) ∧ ms.length = 5 ∧ ms.getLast? = some (leBytes 1 s.isGolden.toNat)

/-! ## The pod and the package -/

/-- A peer's read that its export admits is answered with the bytes there; its write puts its bytes there and no others; its atomic is performed and answered; a refused access is answered with an error. A response frees its request and goes to what asked, if that is still there; a failed store is deferred to its thread's next wait, with REMOTE_FAULT,
or REMOTE_TIMEOUT once its time is up; an answer after that does nothing. The records of one EMIT are committed together where they fit, wait while there is no room, and are refused where they are none of the node's, and that is answered. A device that joins steps forward; later corrections
slow or hasten time by at most 100 ppm, but the time master's is not corrected (that its own exchanges count as confirmed, and that a device which never exchanged time is never unsynchronised, are the model's choices: log 77); a device unconfirmed for 1 ms drops its peers' copies. A lane is remapped at most twice; a failed link halts every context; a station's training is noted. -/
def Obligations.PodSteps : Prop :=
  (∀ (s : State) (src off len pa key lease : Nat) (bs : List Byte), inboundSize len = true → off % 128 + len ≤ 128 →
    s.exportMap src off true false = .ok (pa, key, lease) → s.peekRun key pa len = ⟨bs, false⟩ → s.home.counts = [] →
    ∃ t, exec (.inboundRead src off len) s = .next t ∧ t.peers = { s.peers with answers := (src, some (bs, [], 0)) :: s.peers.answers } ∧
      t.wgs = s.wgs ∧ t.ctxs = s.ctxs ∧ ∀ a, t.byte a = s.byte a) ∧
  (∀ (s : State) (src off k : Nat) (bs : List Byte), inboundSize bs.length = true → off % 128 + bs.length ≤ 128 →
    (s.exportMap src off false true = .error k → ∃ t, exec (.inboundWrite src off bs) s = .next t ∧
      t.peers = { s.peers with answers := (src, none) :: s.peers.answers } ∧ t.home = s.home ∧ t.wgs = s.wgs) ∧
    ∀ pa key lease, s.exportMap src off false true = .ok (pa, key, lease) →
      (∀ j, j < bs.length → s.home.live.contains (regionOf (pa + j)) = true ∧ s.home.frozen.contains (regionOf (pa + j)) = false) →
      ∃ t ts, exec (.inboundWrite src off bs) s = .next t ∧ t.peers = { s.peers with answers := (src, some ([], [], ts)) :: s.peers.answers } ∧
        t.wgs = s.wgs ∧ ∀ a, t.byte a = ((located pa bs).lookup a).getD (s.byte a)) ∧
  (∀ (s s1 : State) (src off pa key lease old : Nat) (op : AOp) (size : Size) (v cmp : DWord) (bad : Bool), size = .b32 ∨ size = .b64 →
    off % sizeBytes size = 0 → s.exportMap src off true true = .ok (pa, key, lease) → s.home.frozen.contains (regionOf pa) = false → s.isLive pa = true → s.home.held = [] →
    (s.ordinary [lineOf pa]).applyAtomic op (sizeBytes size) key pa v.toNat cmp.toNat = (s1, old, bad) →
    ∃ t ts, exec (.inboundAtomic src off op size v cmp) s = .next t ∧ t.wgs = s.wgs ∧ (∀ a, t.byte a = s1.byte a) ∧
      t.peers = { s.peers with answers := (src, some (leBytes (sizeBytes size) old, (if bad = true then [off / 32] else []), ts)) :: s.peers.answers }) ∧
  (∀ (s : State) (n : Nat) (r : RemoteReq) (bs : List Byte) (bad : Bool), s.peers.reqs.find? (fun r => r.n == n) = some r → r.recs = none →
    let gone := s.peers.reqs.filter fun r => r.n != n
    let answered : Prop := s.lapsed r = false ∧ s.answerDue r = true ∧ ownWindow r.addr = false
    (s.lapsed r = true → exec (.remoteResponse n bs bad) s = .next s.idle) ∧
    (∀ m, answered → r.write = false → r.owner = .cmd m → bs.length = r.len →
      (∀ c, s.cmd? m = some c → exec (.remoteResponse n bs bad) s =
        .next { s.idle with peers := { s.peers with reqs := gone, returned := s.peers.returned ++ [(r.owner, r.addr, bs, bad)] } }) ∧
      (s.cmd? m = none → exec (.remoteResponse n bs bad) s = .next { s.idle with peers := { s.peers with reqs := gone } })) ∧
    ∀ (e : QEntry) (rc id : Nat) (p : Party) (u : Thread), r.write = true → s.entryOf r = some e → r.part = none → e.accs = [] → e.kind = .store rc → e.owner = .flight p id →
      s.threadOf p = some u →
      (answered → ∃ t u' ts, exec (.remoteResponse n bs bad) s = .next t ∧ t.peers.reqs = gone ∧ t.threadOf p = some u' ∧ u'.pc = u.pc ∧ u'.sregs = u.sregs ∧
        u'.deferred = u.deferred ∧ (t.queue.find? fun x => x.n == e.n) = some { e with times := some (0, 0, ts), held := false, seq := s.home.seq } ∧
        ∀ c ∈ s.home.copies, c.sector / 4 = e.line → c.expiry ≤ ts) ∧
      ∀ (i : Instr) (k : Cause) (σ : Site), i = .errorCompletion n ∧ k = .remoteFault ∧ answered ∨ i = .remoteTimeout n ∧ k = .remoteTimeout ∧ r.issued + s.peers.timeoutNs ≤ s.time →
        r.n = n → s.siteOf p = some σ → (∀ w, σ.w = some w → w.ended = false) →
        ∃ t u' d, exec i s = .next t ∧ t.peers.reqs = gone ∧ t.threadOf p = some u' ∧ u'.pc = u.pc ∧ u'.sregs = u.sregs ∧
          u'.deferred = u.deferred ++ [d] ∧ d.path = ((u.flight? id).bind (·.i.path)).getD .gst ∧ d.cause = k ∧ d.faddr = r.va ∧
          (t.queue.find? fun x => x.n == e.n) = some { e with times := some (0, 0, 0), held := false, seq := s.home.seq }) ∧
  (∀ (s : State) (r : RemoteRec) (c : Context) (n : Node), s.ctx? r.ctx = some c →
    let told (t : State) (x : Option (List Byte × List Nat × Nat)) : State := { t with peers := { s.peers with answers := (r.src, x) :: s.peers.answers } }
    (c.node? r.node = none → exec (.remoteRecord r) s = .next (told s.idle none)) ∧
    (c.node? r.node = some n → (∃ b ∈ r.recs, b.length ≠ c.typeSize n.intype) → exec (.remoteRecord r) s = .next (told s.idle none)) ∧
    (c.node? r.node = some n → (∀ b ∈ r.recs, b.length = c.typeSize n.intype) →
      let room := s.recordRoom c (sumBy (fun b : List Byte => recSpace b.length) r.recs)
      (room = false → exec (.remoteRecord r) s = .next s.idle) ∧
      (room = true → ∃ t c', exec (.remoteRecord r) s = .next t ∧ t.ctx? r.ctx = some c' ∧
        t = told { s.idle with ctxs := t.ctxs } (some ([], [], 0)) ∧
        ∀ b ∈ r.recs, let x : Rec := ⟨b, r.depth, none, s.time⟩
          (∃ q ∈ c'.slices, q.node = r.node ∧ x ∈ q.recs) ∨ ∃ f ∈ c'.formed, f.node = r.node ∧ x ∈ f.recs))) ∧
  (∀ (s : State) (master : Bool) (step : Int), s.peers.synced = true →
    (s.peers.lastSync = none → exec (.timeBaseExchange ⟨master, step⟩ true) s =
      let now := if master = true then s.time else s.time + step.toNat
      .next { s.idle with time := now, peers := { s.peers with master := master, lastSync := some now } }) ∧
    ∀ tm, s.peers.lastSync = some tm → exec (.timeBaseExchange ⟨master, step⟩ true) s =
      .next { s.idle with peers := { s.peers with master := master, adjust := if master = true then 0 else step, lastSync := some s.time } }) ∧
  (∀ (s : State) (dt : Nat), dt ≠ 0 →
    let t := (s.pass dt).time
    let k := min ((s.peers.pace + dt) / 10000) s.peers.adjust.natAbs
    s.time ≤ t ∧ s.time + dt ≤ t + k ∧ t ≤ s.time + dt + k ∧ (s.peers.adjust = 0 → t = s.time + dt)) ∧
  (∀ (s : State) (tm : Nat), s.peers.lastSync = some tm →
    (s.peers.master = true → exec .unsynchronised s = .next s.idle) ∧
    (s.peers.synced = true → s.peers.master = false → tm + 1000000 ≤ s.time → ∃ t, exec .unsynchronised s = .next t ∧ t.peers.synced = false ∧
      t.home = { s.home with copies := s.home.copies.filter fun c => !inPeer (32 * c.sector) } ∧ t.wgs = s.wgs) ∧
    (s.time < tm + 1000000 → exec .unsynchronised s = .next s.idle)) ∧
  (∀ (s : State) (link : Nat),
    let n := (s.peers.remaps.lookup link).getD 0
    (2 ≤ n → exec (.laneRemap link) s = .next s.idle) ∧
    (n < 2 → ∃ t, exec (.laneRemap link) s = .next t ∧ t = { s.idle with peers := { s.peers with remaps := t.peers.remaps } } ∧ t.peers.remaps.lookup link = some (n + 1))) ∧
  (∀ (s : State) (die : Nat), ∃ t, exec (.linkFailure die) s = .next t ∧ t.peers.failedDies.contains die = true ∧ t.home = s.home ∧
    (∀ p u, s.threadOf p = some u → ∃ u', t.threadOf p = some u' ∧ u'.pc = u.pc ∧ u'.sregs = u.sregs ∧ u'.fregs = u.fregs) ∧
    ∀ k c, t.ctx? k = some c → c.run ≠ .running ∧ c.run ≠ .winteredOut) ∧
  ∀ (s : State) (station lanes : Nat), ∃ t, exec (.stationTraining station lanes) s = .next t ∧ t.peers.stations.lookup station = some lanes ∧
    t.wgs = s.wgs ∧ t.ctxs = s.ctxs ∧ t.home = s.home
end

