-- ==== Sys2Proof/Laws/Sparse.lean ====
section
/-! SUPPORT. Finite maps: a read after a write, and the canonical form that every operation keeps. -/
namespace Sys2Proof.Sparse

section
variable {α : Type} {d : α}

@[simp] theorem get_nil (j : Nat) : get d ([] : Sparse α) j = d := rfl

theorem get_place (i : Nat) (x : α) (j : Nat) : ∀ m : Sparse α, (∀ e ∈ m, e.1 ≠ i) →
    get d (place i x m) j = if j = i then x else get d m j
  | [], _ => rfl
  | (k, v) :: m, h => by
    have hk : k ≠ i := h _ List.mem_cons_self
    simp only [place]
    split
    · rfl
    · simp only [get, get_place i x j m fun e he => h e (List.mem_cons_of_mem _ he)]
      by_cases hj : j = k
      · have : ¬ j = i := fun h => hk (by omega)
        simp only [if_pos hj, if_neg this]
      · simp only [if_neg hj]

theorem get_filter_ne (i j : Nat) : ∀ m : Sparse α, get d (m.filter fun e => e.1 != i) j = if j = i then d else get d m j
  | [] => by simp
  | (k, v) :: m => by
    have ih := get_filter_ne i j m
    by_cases hk : k = i
    · subst hk
      simp only [List.filter_cons, bne_self_eq_false, Bool.false_eq_true, if_false, ih, get]
      split <;> rfl
    · have hb : (k != i) = true := by simpa using hk
      simp only [List.filter_cons, hb, if_true, get, ih]
      by_cases hj : j = k
      · have : ¬ j = i := fun h => hk (by omega)
        simp only [if_pos hj, if_neg this]
      · simp only [if_neg hj]

theorem get_keep (p : Nat → Bool) (j : Nat) : ∀ m : Sparse α, get d (keep p m) j = if p j then get d m j else d
  | [] => by simp [keep]
  | (k, v) :: m => by
    have ih := get_keep p j m
    unfold keep at ih ⊢
    simp only [List.filter_cons]
    by_cases hk : p k = true
    · simp only [if_pos hk, get, ih]
      by_cases hj : j = k
      · subst hj; simp [hk]
      · simp only [if_neg hj]
    · simp only [if_neg hk, get, ih]
      by_cases hj : j = k
      · subst hj; simp [hk]
      · simp only [if_neg hj]

end

variable {α : Type} [DecidableEq α] {d : α}

/-- A read after a write gives the value written; every other key reads as before. -/
theorem get_set (m : Sparse α) (i : Nat) (x : α) (j : Nat) : get d (set d m i x) j = if j = i then x else get d m j := by
  unfold set
  dsimp only
  split
  · rename_i hx; subst hx; exact get_filter_ne i j m
  · rw [get_place i x j _ (by intro e he; simpa using (List.mem_filter.mp he).2), get_filter_ne]
    split <;> rfl

@[simp] theorem get_set_self (m : Sparse α) (i : Nat) (x : α) : get d (set d m i x) i = x := by rw [get_set, if_pos rfl]
theorem get_set_ne (m : Sparse α) {i j : Nat} (x : α) (h : j ≠ i) : get d (set d m i x) j = get d m j := by
  rw [get_set, if_neg h]

/-! ## The canonical form -/

theorem wfFrom_mono {m : Sparse α} {a b : Nat} (hab : a ≤ b) (h : wfFrom d m b = true) : wfFrom d m a = true := by
  cases m with
  | nil => rfl
  | cons e m =>
    simp only [wfFrom, Bool.and_eq_true, decide_eq_true_eq] at h ⊢
    exact ⟨⟨by omega, h.1.2⟩, h.2⟩

theorem get_below : ∀ {m : Sparse α} {lo i : Nat}, wfFrom d m lo = true → i < lo → get d m i = d
  | [], _, _, _, _ => rfl
  | (k, v) :: m, lo, i, h, hi => by
    simp only [wfFrom, Bool.and_eq_true, decide_eq_true_eq] at h
    have hk : ¬ i = k := by omega
    simp only [get, if_neg hk]
    exact get_below h.2 (by omega)

theorem wfFrom_place (i : Nat) (x : α) (hx : x ≠ d) : ∀ {m : Sparse α} {lo : Nat}, wfFrom d m lo = true → lo ≤ i →
    (∀ e ∈ m, e.1 ≠ i) → wfFrom d (place i x m) lo = true
  | [], lo, _, hi, _ => by simp [place, wfFrom, hi, hx]
  | (k, v) :: m, lo, h, hi, hn => by
    simp only [wfFrom, Bool.and_eq_true, decide_eq_true_eq] at h
    have hk : k ≠ i := hn _ List.mem_cons_self
    simp only [place]
    split
    · simp only [wfFrom, Bool.and_eq_true, decide_eq_true_eq]
      exact ⟨⟨hi, by simpa using hx⟩, ⟨⟨by omega, h.1.2⟩, h.2⟩⟩
    · simp only [wfFrom, Bool.and_eq_true, decide_eq_true_eq]
      exact ⟨h.1, wfFrom_place i x hx h.2 (by omega) fun e he => hn e (List.mem_cons_of_mem _ he)⟩

theorem wfFrom_filter (p : Nat × α → Bool) :
    ∀ {m : Sparse α} {lo : Nat}, wfFrom d m lo = true → wfFrom d (m.filter p) lo = true
  | [], _, _ => rfl
  | (k, v) :: m, lo, h => by
    simp only [wfFrom, Bool.and_eq_true, decide_eq_true_eq] at h
    have ih := wfFrom_filter p h.2
    simp only [List.filter_cons]
    split
    · simp only [wfFrom, Bool.and_eq_true, decide_eq_true_eq]; exact ⟨h.1, ih⟩
    · exact wfFrom_mono (by omega) ih

theorem wf_set {m : Sparse α} (i : Nat) (x : α) (h : wf d m = true) : wf d (set d m i x) = true := by
  unfold set
  dsimp only
  split
  · exact wfFrom_filter _ h
  · exact wfFrom_place i x ‹_› (wfFrom_filter _ h) (Nat.zero_le _) (by intro e he; simpa using (List.mem_filter.mp he).2)

theorem wf_keep {m : Sparse α} (p : Nat → Bool) (h : wf d m = true) : wf d (keep p m) = true := wfFrom_filter _ h

theorem wf_nil : wf d ([] : Sparse α) = true := rfl

theorem wf_foldl_set (bs : List (Nat × α)) :
    ∀ {m : Sparse α}, wf d m = true → wf d (bs.foldl (fun m e => set d m e.1 e.2) m) = true := by
  induction bs with
  | nil => exact fun h => h
  | cons b bs ih => exact fun h => ih (wf_set _ _ h)

/-- Two maps in canonical form with the same contents are the same data. -/
theorem ext_of_get : ∀ {m n : Sparse α} {a : Nat}, wfFrom d m a = true → wfFrom d n a = true →
    (∀ i, get d m i = get d n i) → m = n
  | [], [], _, _, _, _ => rfl
  | [], (k, v) :: n, a, _, hn, h => by
    simp only [wfFrom, Bool.and_eq_true, Bool.not_eq_true', decide_eq_false_iff_not] at hn
    have := h k; simp [get] at this; exact absurd this.symm hn.1.2
  | (k, v) :: m, [], a, hm, _, h => by
    simp only [wfFrom, Bool.and_eq_true, Bool.not_eq_true', decide_eq_false_iff_not] at hm
    have := h k; simp [get] at this; exact absurd this hm.1.2
  | (k, v) :: m, (l, u) :: n, a, hm, hn, h => by
    simp only [wfFrom, Bool.and_eq_true, Bool.not_eq_true', decide_eq_false_iff_not, decide_eq_true_eq] at hm hn
    have hkl : k = l := by
      rcases Nat.lt_trichotomy k l with hlt | he | hgt
      · have := h k
        rw [get_below (lo := k + 1) (m := (l, u) :: n) (d := d)] at this
        · simp [get] at this; exact absurd this hm.1.2
        · simp [wfFrom, hn.2, hn.1.2]; omega
        · omega
      · exact he
      · have := h l
        rw [get_below (lo := l + 1) (m := (k, v) :: m) (d := d)] at this
        · simp [get] at this; exact absurd this.symm hn.1.2
        · simp [wfFrom, hm.2, hm.1.2]; omega
        · omega
    subst hkl
    have hv : v = u := by have := h k; simpa [get] using this
    subst hv
    have := ext_of_get hm.2 hn.2 (fun i => by
      by_cases hi : i = k
      · subst hi; rw [get_below hm.2 (by omega), get_below hn.2 (by omega)]
      · have := h i; simpa [get, hi] using this)
    rw [this]

end Sys2Proof.Sparse
end

