-- ==== Sys2Proof/Laws/State.lean ====
section
/-! SUPPORT. What each named update of the state leaves alone, one lemma a field, and looking up after an update. -/
namespace Sys2Proof.Machine

variable (s : State)

/-! ## updWg -/
@[simp] theorem State.updWg_cur (k : Nat) (f : Workgroup → Workgroup) : (s.updWg k f).cur = s.cur := rfl
@[simp] theorem State.updWg_blocked (k : Nat) (f : Workgroup → Workgroup) : (s.updWg k f).blocked = s.blocked := rfl
@[simp] theorem State.updWg_agenda (k : Nat) (f : Workgroup → Workgroup) : (s.updWg k f).agenda = s.agenda := rfl
@[simp] theorem State.updWg_tick (k : Nat) (f : Workgroup → Workgroup) : (s.updWg k f).tick = s.tick := rfl
@[simp] theorem State.updWg_time (k : Nat) (f : Workgroup → Workgroup) : (s.updWg k f).time = s.time := rfl
@[simp] theorem State.updWg_cycles (k : Nat) (f : Workgroup → Workgroup) : (s.updWg k f).cycles = s.cycles := rfl
@[simp] theorem State.updWg_ctxs (k : Nat) (f : Workgroup → Workgroup) : (s.updWg k f).ctxs = s.ctxs := rfl
@[simp] theorem State.updWg_nextWg (k : Nat) (f : Workgroup → Workgroup) : (s.updWg k f).nextWg = s.nextWg := rfl
@[simp] theorem State.updWg_nextLaunch (k : Nat) (f : Workgroup → Workgroup) : (s.updWg k f).nextLaunch = s.nextLaunch := rfl
@[simp] theorem State.updWg_home (k : Nat) (f : Workgroup → Workgroup) : (s.updWg k f).home = s.home := rfl
@[simp] theorem State.updWg_queue (k : Nat) (f : Workgroup → Workgroup) : (s.updWg k f).queue = s.queue := rfl
@[simp] theorem State.updWg_nextQ (k : Nat) (f : Workgroup → Workgroup) : (s.updWg k f).nextQ = s.nextQ := rfl
@[simp] theorem State.updWg_keys (k : Nat) (f : Workgroup → Workgroup) : (s.updWg k f).keys = s.keys := rfl
@[simp] theorem State.updWg_nextKey (k : Nat) (f : Workgroup → Workgroup) : (s.updWg k f).nextKey = s.nextKey := rfl
@[simp] theorem State.updWg_wps (k : Nat) (f : Workgroup → Workgroup) : (s.updWg k f).wps = s.wps := rfl
@[simp] theorem State.updWg_gen (k : Nat) (f : Workgroup → Workgroup) : (s.updWg k f).gen = s.gen := rfl
@[simp] theorem State.updWg_cmds (k : Nat) (f : Workgroup → Workgroup) : (s.updWg k f).cmds = s.cmds := rfl
@[simp] theorem State.updWg_nextCmd (k : Nat) (f : Workgroup → Workgroup) : (s.updWg k f).nextCmd = s.nextCmd := rfl
@[simp] theorem State.updWg_gatherers (k : Nat) (f : Workgroup → Workgroup) : (s.updWg k f).gatherers = s.gatherers := rfl
@[simp] theorem State.updWg_ring (k : Nat) (f : Workgroup → Workgroup) : (s.updWg k f).ring = s.ring := rfl
@[simp] theorem State.updWg_qps (k : Nat) (f : Workgroup → Workgroup) : (s.updWg k f).qps = s.qps := rfl
@[simp] theorem State.updWg_regions (k : Nat) (f : Workgroup → Workgroup) : (s.updWg k f).regions = s.regions := rfl
@[simp] theorem State.updWg_nextWr (k : Nat) (f : Workgroup → Workgroup) : (s.updWg k f).nextWr = s.nextWr := rfl
@[simp] theorem State.updWg_wire (k : Nat) (f : Workgroup → Workgroup) : (s.updWg k f).wire = s.wire := rfl
@[simp] theorem State.updWg_paused (k : Nat) (f : Workgroup → Workgroup) : (s.updWg k f).paused = s.paused := rfl
@[simp] theorem State.updWg_dropped (k : Nat) (f : Workgroup → Workgroup) : (s.updWg k f).dropped = s.dropped := rfl
@[simp] theorem State.updWg_peers (k : Nat) (f : Workgroup → Workgroup) : (s.updWg k f).peers = s.peers := rfl
@[simp] theorem State.updWg_host (k : Nat) (f : Workgroup → Workgroup) : (s.updWg k f).host = s.host := rfl
@[simp] theorem State.updWg_power (k : Nat) (f : Workgroup → Workgroup) : (s.updWg k f).power = s.power := rfl
@[simp] theorem State.updWg_service (k : Nat) (f : Workgroup → Workgroup) : (s.updWg k f).service = s.service := rfl
@[simp] theorem State.updWg_period (k : Nat) (f : Workgroup → Workgroup) : (s.updWg k f).period = s.period := rfl
@[simp] theorem State.updWg_inbox (k : Nat) (f : Workgroup → Workgroup) : (s.updWg k f).inbox = s.inbox := rfl
@[simp] theorem State.updWg_corrected (k : Nat) (f : Workgroup → Workgroup) : (s.updWg k f).corrected = s.corrected := rfl
@[simp] theorem State.updWg_filled (k : Nat) (f : Workgroup → Workgroup) : (s.updWg k f).filled = s.filled := rfl
@[simp] theorem State.updWg_nextStamp (k : Nat) (f : Workgroup → Workgroup) : (s.updWg k f).nextStamp = s.nextStamp := rfl
@[simp] theorem State.updWg_wireHeld (k : Nat) (f : Workgroup → Workgroup) : (s.updWg k f).wireHeld = s.wireHeld := rfl
@[simp] theorem State.updWg_notified (k : Nat) (f : Workgroup → Workgroup) : (s.updWg k f).notified = s.notified := rfl

/-! ## updCtx -/
@[simp] theorem State.updCtx_cur (k : Nat) (f : Context → Context) : (s.updCtx k f).cur = s.cur := rfl
@[simp] theorem State.updCtx_blocked (k : Nat) (f : Context → Context) : (s.updCtx k f).blocked = s.blocked := rfl
@[simp] theorem State.updCtx_agenda (k : Nat) (f : Context → Context) : (s.updCtx k f).agenda = s.agenda := rfl
@[simp] theorem State.updCtx_tick (k : Nat) (f : Context → Context) : (s.updCtx k f).tick = s.tick := rfl
@[simp] theorem State.updCtx_time (k : Nat) (f : Context → Context) : (s.updCtx k f).time = s.time := rfl
@[simp] theorem State.updCtx_cycles (k : Nat) (f : Context → Context) : (s.updCtx k f).cycles = s.cycles := rfl
@[simp] theorem State.updCtx_wgs (k : Nat) (f : Context → Context) : (s.updCtx k f).wgs = s.wgs := rfl
@[simp] theorem State.updCtx_nextWg (k : Nat) (f : Context → Context) : (s.updCtx k f).nextWg = s.nextWg := rfl
@[simp] theorem State.updCtx_nextLaunch (k : Nat) (f : Context → Context) : (s.updCtx k f).nextLaunch = s.nextLaunch := rfl
@[simp] theorem State.updCtx_home (k : Nat) (f : Context → Context) : (s.updCtx k f).home = s.home := rfl
@[simp] theorem State.updCtx_queue (k : Nat) (f : Context → Context) : (s.updCtx k f).queue = s.queue := rfl
@[simp] theorem State.updCtx_nextQ (k : Nat) (f : Context → Context) : (s.updCtx k f).nextQ = s.nextQ := rfl
@[simp] theorem State.updCtx_keys (k : Nat) (f : Context → Context) : (s.updCtx k f).keys = s.keys := rfl
@[simp] theorem State.updCtx_nextKey (k : Nat) (f : Context → Context) : (s.updCtx k f).nextKey = s.nextKey := rfl
@[simp] theorem State.updCtx_wps (k : Nat) (f : Context → Context) : (s.updCtx k f).wps = s.wps := rfl
@[simp] theorem State.updCtx_gen (k : Nat) (f : Context → Context) : (s.updCtx k f).gen = s.gen := rfl
@[simp] theorem State.updCtx_cmds (k : Nat) (f : Context → Context) : (s.updCtx k f).cmds = s.cmds := rfl
@[simp] theorem State.updCtx_nextCmd (k : Nat) (f : Context → Context) : (s.updCtx k f).nextCmd = s.nextCmd := rfl
@[simp] theorem State.updCtx_gatherers (k : Nat) (f : Context → Context) : (s.updCtx k f).gatherers = s.gatherers := rfl
@[simp] theorem State.updCtx_ring (k : Nat) (f : Context → Context) : (s.updCtx k f).ring = s.ring := rfl
@[simp] theorem State.updCtx_qps (k : Nat) (f : Context → Context) : (s.updCtx k f).qps = s.qps := rfl
@[simp] theorem State.updCtx_regions (k : Nat) (f : Context → Context) : (s.updCtx k f).regions = s.regions := rfl
@[simp] theorem State.updCtx_nextWr (k : Nat) (f : Context → Context) : (s.updCtx k f).nextWr = s.nextWr := rfl
@[simp] theorem State.updCtx_wire (k : Nat) (f : Context → Context) : (s.updCtx k f).wire = s.wire := rfl
@[simp] theorem State.updCtx_paused (k : Nat) (f : Context → Context) : (s.updCtx k f).paused = s.paused := rfl
@[simp] theorem State.updCtx_dropped (k : Nat) (f : Context → Context) : (s.updCtx k f).dropped = s.dropped := rfl
@[simp] theorem State.updCtx_peers (k : Nat) (f : Context → Context) : (s.updCtx k f).peers = s.peers := rfl
@[simp] theorem State.updCtx_host (k : Nat) (f : Context → Context) : (s.updCtx k f).host = s.host := rfl
@[simp] theorem State.updCtx_power (k : Nat) (f : Context → Context) : (s.updCtx k f).power = s.power := rfl
@[simp] theorem State.updCtx_service (k : Nat) (f : Context → Context) : (s.updCtx k f).service = s.service := rfl
@[simp] theorem State.updCtx_period (k : Nat) (f : Context → Context) : (s.updCtx k f).period = s.period := rfl
@[simp] theorem State.updCtx_inbox (k : Nat) (f : Context → Context) : (s.updCtx k f).inbox = s.inbox := rfl
@[simp] theorem State.updCtx_corrected (k : Nat) (f : Context → Context) : (s.updCtx k f).corrected = s.corrected := rfl
@[simp] theorem State.updCtx_filled (k : Nat) (f : Context → Context) : (s.updCtx k f).filled = s.filled := rfl
@[simp] theorem State.updCtx_nextStamp (k : Nat) (f : Context → Context) : (s.updCtx k f).nextStamp = s.nextStamp := rfl
@[simp] theorem State.updCtx_wireHeld (k : Nat) (f : Context → Context) : (s.updCtx k f).wireHeld = s.wireHeld := rfl
@[simp] theorem State.updCtx_notified (k : Nat) (f : Context → Context) : (s.updCtx k f).notified = s.notified := rfl

/-! ## setCtx -/
@[simp] theorem State.setCtx_cur (c : Context) : (s.setCtx c).cur = s.cur := rfl
@[simp] theorem State.setCtx_blocked (c : Context) : (s.setCtx c).blocked = s.blocked := rfl
@[simp] theorem State.setCtx_agenda (c : Context) : (s.setCtx c).agenda = s.agenda := rfl
@[simp] theorem State.setCtx_tick (c : Context) : (s.setCtx c).tick = s.tick := rfl
@[simp] theorem State.setCtx_time (c : Context) : (s.setCtx c).time = s.time := rfl
@[simp] theorem State.setCtx_cycles (c : Context) : (s.setCtx c).cycles = s.cycles := rfl
@[simp] theorem State.setCtx_wgs (c : Context) : (s.setCtx c).wgs = s.wgs := rfl
@[simp] theorem State.setCtx_nextWg (c : Context) : (s.setCtx c).nextWg = s.nextWg := rfl
@[simp] theorem State.setCtx_nextLaunch (c : Context) : (s.setCtx c).nextLaunch = s.nextLaunch := rfl
@[simp] theorem State.setCtx_home (c : Context) : (s.setCtx c).home = s.home := rfl
@[simp] theorem State.setCtx_queue (c : Context) : (s.setCtx c).queue = s.queue := rfl
@[simp] theorem State.setCtx_nextQ (c : Context) : (s.setCtx c).nextQ = s.nextQ := rfl
@[simp] theorem State.setCtx_keys (c : Context) : (s.setCtx c).keys = s.keys := rfl
@[simp] theorem State.setCtx_nextKey (c : Context) : (s.setCtx c).nextKey = s.nextKey := rfl
@[simp] theorem State.setCtx_wps (c : Context) : (s.setCtx c).wps = s.wps := rfl
@[simp] theorem State.setCtx_gen (c : Context) : (s.setCtx c).gen = s.gen := rfl
@[simp] theorem State.setCtx_cmds (c : Context) : (s.setCtx c).cmds = s.cmds := rfl
@[simp] theorem State.setCtx_nextCmd (c : Context) : (s.setCtx c).nextCmd = s.nextCmd := rfl
@[simp] theorem State.setCtx_gatherers (c : Context) : (s.setCtx c).gatherers = s.gatherers := rfl
@[simp] theorem State.setCtx_ring (c : Context) : (s.setCtx c).ring = s.ring := rfl
@[simp] theorem State.setCtx_qps (c : Context) : (s.setCtx c).qps = s.qps := rfl
@[simp] theorem State.setCtx_regions (c : Context) : (s.setCtx c).regions = s.regions := rfl
@[simp] theorem State.setCtx_nextWr (c : Context) : (s.setCtx c).nextWr = s.nextWr := rfl
@[simp] theorem State.setCtx_wire (c : Context) : (s.setCtx c).wire = s.wire := rfl
@[simp] theorem State.setCtx_paused (c : Context) : (s.setCtx c).paused = s.paused := rfl
@[simp] theorem State.setCtx_dropped (c : Context) : (s.setCtx c).dropped = s.dropped := rfl
@[simp] theorem State.setCtx_peers (c : Context) : (s.setCtx c).peers = s.peers := rfl
@[simp] theorem State.setCtx_host (c : Context) : (s.setCtx c).host = s.host := rfl
@[simp] theorem State.setCtx_power (c : Context) : (s.setCtx c).power = s.power := rfl
@[simp] theorem State.setCtx_service (c : Context) : (s.setCtx c).service = s.service := rfl
@[simp] theorem State.setCtx_period (c : Context) : (s.setCtx c).period = s.period := rfl
@[simp] theorem State.setCtx_inbox (c : Context) : (s.setCtx c).inbox = s.inbox := rfl
@[simp] theorem State.setCtx_corrected (c : Context) : (s.setCtx c).corrected = s.corrected := rfl
@[simp] theorem State.setCtx_filled (c : Context) : (s.setCtx c).filled = s.filled := rfl
@[simp] theorem State.setCtx_nextStamp (c : Context) : (s.setCtx c).nextStamp = s.nextStamp := rfl
@[simp] theorem State.setCtx_wireHeld (c : Context) : (s.setCtx c).wireHeld = s.wireHeld := rfl
@[simp] theorem State.setCtx_notified (c : Context) : (s.setCtx c).notified = s.notified := rfl

/-! ## updWave -/
@[simp] theorem State.updWave_cur (g k : Nat) (f : Wave → Wave) : (s.updWave g k f).cur = s.cur := rfl
@[simp] theorem State.updWave_blocked (g k : Nat) (f : Wave → Wave) : (s.updWave g k f).blocked = s.blocked := rfl
@[simp] theorem State.updWave_agenda (g k : Nat) (f : Wave → Wave) : (s.updWave g k f).agenda = s.agenda := rfl
@[simp] theorem State.updWave_tick (g k : Nat) (f : Wave → Wave) : (s.updWave g k f).tick = s.tick := rfl
@[simp] theorem State.updWave_time (g k : Nat) (f : Wave → Wave) : (s.updWave g k f).time = s.time := rfl
@[simp] theorem State.updWave_cycles (g k : Nat) (f : Wave → Wave) : (s.updWave g k f).cycles = s.cycles := rfl
@[simp] theorem State.updWave_ctxs (g k : Nat) (f : Wave → Wave) : (s.updWave g k f).ctxs = s.ctxs := rfl
@[simp] theorem State.updWave_nextWg (g k : Nat) (f : Wave → Wave) : (s.updWave g k f).nextWg = s.nextWg := rfl
@[simp] theorem State.updWave_nextLaunch (g k : Nat) (f : Wave → Wave) : (s.updWave g k f).nextLaunch = s.nextLaunch := rfl
@[simp] theorem State.updWave_home (g k : Nat) (f : Wave → Wave) : (s.updWave g k f).home = s.home := rfl
@[simp] theorem State.updWave_queue (g k : Nat) (f : Wave → Wave) : (s.updWave g k f).queue = s.queue := rfl
@[simp] theorem State.updWave_nextQ (g k : Nat) (f : Wave → Wave) : (s.updWave g k f).nextQ = s.nextQ := rfl
@[simp] theorem State.updWave_keys (g k : Nat) (f : Wave → Wave) : (s.updWave g k f).keys = s.keys := rfl
@[simp] theorem State.updWave_nextKey (g k : Nat) (f : Wave → Wave) : (s.updWave g k f).nextKey = s.nextKey := rfl
@[simp] theorem State.updWave_wps (g k : Nat) (f : Wave → Wave) : (s.updWave g k f).wps = s.wps := rfl
@[simp] theorem State.updWave_gen (g k : Nat) (f : Wave → Wave) : (s.updWave g k f).gen = s.gen := rfl
@[simp] theorem State.updWave_cmds (g k : Nat) (f : Wave → Wave) : (s.updWave g k f).cmds = s.cmds := rfl
@[simp] theorem State.updWave_nextCmd (g k : Nat) (f : Wave → Wave) : (s.updWave g k f).nextCmd = s.nextCmd := rfl
@[simp] theorem State.updWave_gatherers (g k : Nat) (f : Wave → Wave) : (s.updWave g k f).gatherers = s.gatherers := rfl
@[simp] theorem State.updWave_ring (g k : Nat) (f : Wave → Wave) : (s.updWave g k f).ring = s.ring := rfl
@[simp] theorem State.updWave_qps (g k : Nat) (f : Wave → Wave) : (s.updWave g k f).qps = s.qps := rfl
@[simp] theorem State.updWave_regions (g k : Nat) (f : Wave → Wave) : (s.updWave g k f).regions = s.regions := rfl
@[simp] theorem State.updWave_nextWr (g k : Nat) (f : Wave → Wave) : (s.updWave g k f).nextWr = s.nextWr := rfl
@[simp] theorem State.updWave_wire (g k : Nat) (f : Wave → Wave) : (s.updWave g k f).wire = s.wire := rfl
@[simp] theorem State.updWave_paused (g k : Nat) (f : Wave → Wave) : (s.updWave g k f).paused = s.paused := rfl
@[simp] theorem State.updWave_dropped (g k : Nat) (f : Wave → Wave) : (s.updWave g k f).dropped = s.dropped := rfl
@[simp] theorem State.updWave_peers (g k : Nat) (f : Wave → Wave) : (s.updWave g k f).peers = s.peers := rfl
@[simp] theorem State.updWave_host (g k : Nat) (f : Wave → Wave) : (s.updWave g k f).host = s.host := rfl
@[simp] theorem State.updWave_power (g k : Nat) (f : Wave → Wave) : (s.updWave g k f).power = s.power := rfl
@[simp] theorem State.updWave_service (g k : Nat) (f : Wave → Wave) : (s.updWave g k f).service = s.service := rfl
@[simp] theorem State.updWave_period (g k : Nat) (f : Wave → Wave) : (s.updWave g k f).period = s.period := rfl
@[simp] theorem State.updWave_inbox (g k : Nat) (f : Wave → Wave) : (s.updWave g k f).inbox = s.inbox := rfl
@[simp] theorem State.updWave_corrected (g k : Nat) (f : Wave → Wave) : (s.updWave g k f).corrected = s.corrected := rfl
@[simp] theorem State.updWave_filled (g k : Nat) (f : Wave → Wave) : (s.updWave g k f).filled = s.filled := rfl
@[simp] theorem State.updWave_nextStamp (g k : Nat) (f : Wave → Wave) : (s.updWave g k f).nextStamp = s.nextStamp := rfl
@[simp] theorem State.updWave_wireHeld (g k : Nat) (f : Wave → Wave) : (s.updWave g k f).wireHeld = s.wireHeld := rfl
@[simp] theorem State.updWave_notified (g k : Nat) (f : Wave → Wave) : (s.updWave g k f).notified = s.notified := rfl

/-! ## updThread -/
@[simp] theorem State.updThread_cur (p : Party) (f : Thread → Thread) : (s.updThread p f).cur = s.cur := rfl
@[simp] theorem State.updThread_blocked (p : Party) (f : Thread → Thread) : (s.updThread p f).blocked = s.blocked := rfl
@[simp] theorem State.updThread_agenda (p : Party) (f : Thread → Thread) : (s.updThread p f).agenda = s.agenda := rfl
@[simp] theorem State.updThread_tick (p : Party) (f : Thread → Thread) : (s.updThread p f).tick = s.tick := rfl
@[simp] theorem State.updThread_time (p : Party) (f : Thread → Thread) : (s.updThread p f).time = s.time := rfl
@[simp] theorem State.updThread_cycles (p : Party) (f : Thread → Thread) : (s.updThread p f).cycles = s.cycles := rfl
@[simp] theorem State.updThread_ctxs (p : Party) (f : Thread → Thread) : (s.updThread p f).ctxs = s.ctxs := rfl
@[simp] theorem State.updThread_nextWg (p : Party) (f : Thread → Thread) : (s.updThread p f).nextWg = s.nextWg := rfl
@[simp] theorem State.updThread_nextLaunch (p : Party) (f : Thread → Thread) : (s.updThread p f).nextLaunch = s.nextLaunch := rfl
@[simp] theorem State.updThread_home (p : Party) (f : Thread → Thread) : (s.updThread p f).home = s.home := rfl
@[simp] theorem State.updThread_queue (p : Party) (f : Thread → Thread) : (s.updThread p f).queue = s.queue := rfl
@[simp] theorem State.updThread_nextQ (p : Party) (f : Thread → Thread) : (s.updThread p f).nextQ = s.nextQ := rfl
@[simp] theorem State.updThread_keys (p : Party) (f : Thread → Thread) : (s.updThread p f).keys = s.keys := rfl
@[simp] theorem State.updThread_nextKey (p : Party) (f : Thread → Thread) : (s.updThread p f).nextKey = s.nextKey := rfl
@[simp] theorem State.updThread_wps (p : Party) (f : Thread → Thread) : (s.updThread p f).wps = s.wps := rfl
@[simp] theorem State.updThread_gen (p : Party) (f : Thread → Thread) : (s.updThread p f).gen = s.gen := rfl
@[simp] theorem State.updThread_cmds (p : Party) (f : Thread → Thread) : (s.updThread p f).cmds = s.cmds := rfl
@[simp] theorem State.updThread_nextCmd (p : Party) (f : Thread → Thread) : (s.updThread p f).nextCmd = s.nextCmd := rfl
@[simp] theorem State.updThread_gatherers (p : Party) (f : Thread → Thread) : (s.updThread p f).gatherers = s.gatherers := rfl
@[simp] theorem State.updThread_ring (p : Party) (f : Thread → Thread) : (s.updThread p f).ring = s.ring := rfl
@[simp] theorem State.updThread_qps (p : Party) (f : Thread → Thread) : (s.updThread p f).qps = s.qps := rfl
@[simp] theorem State.updThread_regions (p : Party) (f : Thread → Thread) : (s.updThread p f).regions = s.regions := rfl
@[simp] theorem State.updThread_nextWr (p : Party) (f : Thread → Thread) : (s.updThread p f).nextWr = s.nextWr := rfl
@[simp] theorem State.updThread_wire (p : Party) (f : Thread → Thread) : (s.updThread p f).wire = s.wire := rfl
@[simp] theorem State.updThread_paused (p : Party) (f : Thread → Thread) : (s.updThread p f).paused = s.paused := rfl
@[simp] theorem State.updThread_dropped (p : Party) (f : Thread → Thread) : (s.updThread p f).dropped = s.dropped := rfl
@[simp] theorem State.updThread_peers (p : Party) (f : Thread → Thread) : (s.updThread p f).peers = s.peers := rfl
@[simp] theorem State.updThread_host (p : Party) (f : Thread → Thread) : (s.updThread p f).host = s.host := rfl
@[simp] theorem State.updThread_power (p : Party) (f : Thread → Thread) : (s.updThread p f).power = s.power := rfl
@[simp] theorem State.updThread_service (p : Party) (f : Thread → Thread) : (s.updThread p f).service = s.service := rfl
@[simp] theorem State.updThread_period (p : Party) (f : Thread → Thread) : (s.updThread p f).period = s.period := rfl
@[simp] theorem State.updThread_inbox (p : Party) (f : Thread → Thread) : (s.updThread p f).inbox = s.inbox := rfl
@[simp] theorem State.updThread_corrected (p : Party) (f : Thread → Thread) : (s.updThread p f).corrected = s.corrected := rfl
@[simp] theorem State.updThread_filled (p : Party) (f : Thread → Thread) : (s.updThread p f).filled = s.filled := rfl
@[simp] theorem State.updThread_nextStamp (p : Party) (f : Thread → Thread) : (s.updThread p f).nextStamp = s.nextStamp := rfl
@[simp] theorem State.updThread_wireHeld (p : Party) (f : Thread → Thread) : (s.updThread p f).wireHeld = s.wireHeld := rfl
@[simp] theorem State.updThread_notified (p : Party) (f : Thread → Thread) : (s.updThread p f).notified = s.notified := rfl

/-! ## writeHost -/
@[simp] theorem State.writeHost_cur (a : Nat) (bs : List Byte) : (s.writeHost a bs).cur = s.cur := rfl
@[simp] theorem State.writeHost_blocked (a : Nat) (bs : List Byte) : (s.writeHost a bs).blocked = s.blocked := rfl
@[simp] theorem State.writeHost_agenda (a : Nat) (bs : List Byte) : (s.writeHost a bs).agenda = s.agenda := rfl
@[simp] theorem State.writeHost_tick (a : Nat) (bs : List Byte) : (s.writeHost a bs).tick = s.tick := rfl
@[simp] theorem State.writeHost_time (a : Nat) (bs : List Byte) : (s.writeHost a bs).time = s.time := rfl
@[simp] theorem State.writeHost_cycles (a : Nat) (bs : List Byte) : (s.writeHost a bs).cycles = s.cycles := rfl
@[simp] theorem State.writeHost_wgs (a : Nat) (bs : List Byte) : (s.writeHost a bs).wgs = s.wgs := rfl
@[simp] theorem State.writeHost_ctxs (a : Nat) (bs : List Byte) : (s.writeHost a bs).ctxs = s.ctxs := rfl
@[simp] theorem State.writeHost_nextWg (a : Nat) (bs : List Byte) : (s.writeHost a bs).nextWg = s.nextWg := rfl
@[simp] theorem State.writeHost_nextLaunch (a : Nat) (bs : List Byte) : (s.writeHost a bs).nextLaunch = s.nextLaunch := rfl
@[simp] theorem State.writeHost_home (a : Nat) (bs : List Byte) : (s.writeHost a bs).home = s.home := rfl
@[simp] theorem State.writeHost_queue (a : Nat) (bs : List Byte) : (s.writeHost a bs).queue = s.queue := rfl
@[simp] theorem State.writeHost_nextQ (a : Nat) (bs : List Byte) : (s.writeHost a bs).nextQ = s.nextQ := rfl
@[simp] theorem State.writeHost_keys (a : Nat) (bs : List Byte) : (s.writeHost a bs).keys = s.keys := rfl
@[simp] theorem State.writeHost_nextKey (a : Nat) (bs : List Byte) : (s.writeHost a bs).nextKey = s.nextKey := rfl
@[simp] theorem State.writeHost_wps (a : Nat) (bs : List Byte) : (s.writeHost a bs).wps = s.wps := rfl
@[simp] theorem State.writeHost_gen (a : Nat) (bs : List Byte) : (s.writeHost a bs).gen = s.gen := rfl
@[simp] theorem State.writeHost_cmds (a : Nat) (bs : List Byte) : (s.writeHost a bs).cmds = s.cmds := rfl
@[simp] theorem State.writeHost_nextCmd (a : Nat) (bs : List Byte) : (s.writeHost a bs).nextCmd = s.nextCmd := rfl
@[simp] theorem State.writeHost_gatherers (a : Nat) (bs : List Byte) : (s.writeHost a bs).gatherers = s.gatherers := rfl
@[simp] theorem State.writeHost_ring (a : Nat) (bs : List Byte) : (s.writeHost a bs).ring = s.ring := rfl
@[simp] theorem State.writeHost_qps (a : Nat) (bs : List Byte) : (s.writeHost a bs).qps = s.qps := rfl
@[simp] theorem State.writeHost_regions (a : Nat) (bs : List Byte) : (s.writeHost a bs).regions = s.regions := rfl
@[simp] theorem State.writeHost_nextWr (a : Nat) (bs : List Byte) : (s.writeHost a bs).nextWr = s.nextWr := rfl
@[simp] theorem State.writeHost_wire (a : Nat) (bs : List Byte) : (s.writeHost a bs).wire = s.wire := rfl
@[simp] theorem State.writeHost_paused (a : Nat) (bs : List Byte) : (s.writeHost a bs).paused = s.paused := rfl
@[simp] theorem State.writeHost_dropped (a : Nat) (bs : List Byte) : (s.writeHost a bs).dropped = s.dropped := rfl
@[simp] theorem State.writeHost_peers (a : Nat) (bs : List Byte) : (s.writeHost a bs).peers = s.peers := rfl
@[simp] theorem State.writeHost_power (a : Nat) (bs : List Byte) : (s.writeHost a bs).power = s.power := rfl
@[simp] theorem State.writeHost_service (a : Nat) (bs : List Byte) : (s.writeHost a bs).service = s.service := rfl
@[simp] theorem State.writeHost_period (a : Nat) (bs : List Byte) : (s.writeHost a bs).period = s.period := rfl
@[simp] theorem State.writeHost_inbox (a : Nat) (bs : List Byte) : (s.writeHost a bs).inbox = s.inbox := rfl
@[simp] theorem State.writeHost_corrected (a : Nat) (bs : List Byte) : (s.writeHost a bs).corrected = s.corrected := rfl
@[simp] theorem State.writeHost_filled (a : Nat) (bs : List Byte) : (s.writeHost a bs).filled = s.filled := rfl
@[simp] theorem State.writeHost_nextStamp (a : Nat) (bs : List Byte) : (s.writeHost a bs).nextStamp = s.nextStamp := rfl
@[simp] theorem State.writeHost_wireHeld (a : Nat) (bs : List Byte) : (s.writeHost a bs).wireHeld = s.wireHeld := rfl
@[simp] theorem State.writeHost_notified (a : Nat) (bs : List Byte) : (s.writeHost a bs).notified = s.notified := rfl

/-! ## updOut -/
@[simp] theorem State.updOut_cur (n : Nat) (f : OutRing → OutRing) : (s.updOut n f).cur = s.cur := rfl
@[simp] theorem State.updOut_blocked (n : Nat) (f : OutRing → OutRing) : (s.updOut n f).blocked = s.blocked := rfl
@[simp] theorem State.updOut_agenda (n : Nat) (f : OutRing → OutRing) : (s.updOut n f).agenda = s.agenda := rfl
@[simp] theorem State.updOut_tick (n : Nat) (f : OutRing → OutRing) : (s.updOut n f).tick = s.tick := rfl
@[simp] theorem State.updOut_time (n : Nat) (f : OutRing → OutRing) : (s.updOut n f).time = s.time := rfl
@[simp] theorem State.updOut_cycles (n : Nat) (f : OutRing → OutRing) : (s.updOut n f).cycles = s.cycles := rfl
@[simp] theorem State.updOut_wgs (n : Nat) (f : OutRing → OutRing) : (s.updOut n f).wgs = s.wgs := rfl
@[simp] theorem State.updOut_ctxs (n : Nat) (f : OutRing → OutRing) : (s.updOut n f).ctxs = s.ctxs := rfl
@[simp] theorem State.updOut_nextWg (n : Nat) (f : OutRing → OutRing) : (s.updOut n f).nextWg = s.nextWg := rfl
@[simp] theorem State.updOut_nextLaunch (n : Nat) (f : OutRing → OutRing) : (s.updOut n f).nextLaunch = s.nextLaunch := rfl
@[simp] theorem State.updOut_home (n : Nat) (f : OutRing → OutRing) : (s.updOut n f).home = s.home := rfl
@[simp] theorem State.updOut_queue (n : Nat) (f : OutRing → OutRing) : (s.updOut n f).queue = s.queue := rfl
@[simp] theorem State.updOut_nextQ (n : Nat) (f : OutRing → OutRing) : (s.updOut n f).nextQ = s.nextQ := rfl
@[simp] theorem State.updOut_keys (n : Nat) (f : OutRing → OutRing) : (s.updOut n f).keys = s.keys := rfl
@[simp] theorem State.updOut_nextKey (n : Nat) (f : OutRing → OutRing) : (s.updOut n f).nextKey = s.nextKey := rfl
@[simp] theorem State.updOut_wps (n : Nat) (f : OutRing → OutRing) : (s.updOut n f).wps = s.wps := rfl
@[simp] theorem State.updOut_gen (n : Nat) (f : OutRing → OutRing) : (s.updOut n f).gen = s.gen := rfl
@[simp] theorem State.updOut_cmds (n : Nat) (f : OutRing → OutRing) : (s.updOut n f).cmds = s.cmds := rfl
@[simp] theorem State.updOut_nextCmd (n : Nat) (f : OutRing → OutRing) : (s.updOut n f).nextCmd = s.nextCmd := rfl
@[simp] theorem State.updOut_gatherers (n : Nat) (f : OutRing → OutRing) : (s.updOut n f).gatherers = s.gatherers := rfl
@[simp] theorem State.updOut_ring (n : Nat) (f : OutRing → OutRing) : (s.updOut n f).ring = s.ring := rfl
@[simp] theorem State.updOut_qps (n : Nat) (f : OutRing → OutRing) : (s.updOut n f).qps = s.qps := rfl
@[simp] theorem State.updOut_regions (n : Nat) (f : OutRing → OutRing) : (s.updOut n f).regions = s.regions := rfl
@[simp] theorem State.updOut_nextWr (n : Nat) (f : OutRing → OutRing) : (s.updOut n f).nextWr = s.nextWr := rfl
@[simp] theorem State.updOut_wire (n : Nat) (f : OutRing → OutRing) : (s.updOut n f).wire = s.wire := rfl
@[simp] theorem State.updOut_paused (n : Nat) (f : OutRing → OutRing) : (s.updOut n f).paused = s.paused := rfl
@[simp] theorem State.updOut_dropped (n : Nat) (f : OutRing → OutRing) : (s.updOut n f).dropped = s.dropped := rfl
@[simp] theorem State.updOut_peers (n : Nat) (f : OutRing → OutRing) : (s.updOut n f).peers = s.peers := rfl
@[simp] theorem State.updOut_power (n : Nat) (f : OutRing → OutRing) : (s.updOut n f).power = s.power := rfl
@[simp] theorem State.updOut_service (n : Nat) (f : OutRing → OutRing) : (s.updOut n f).service = s.service := rfl
@[simp] theorem State.updOut_period (n : Nat) (f : OutRing → OutRing) : (s.updOut n f).period = s.period := rfl
@[simp] theorem State.updOut_inbox (n : Nat) (f : OutRing → OutRing) : (s.updOut n f).inbox = s.inbox := rfl
@[simp] theorem State.updOut_corrected (n : Nat) (f : OutRing → OutRing) : (s.updOut n f).corrected = s.corrected := rfl
@[simp] theorem State.updOut_filled (n : Nat) (f : OutRing → OutRing) : (s.updOut n f).filled = s.filled := rfl
@[simp] theorem State.updOut_nextStamp (n : Nat) (f : OutRing → OutRing) : (s.updOut n f).nextStamp = s.nextStamp := rfl
@[simp] theorem State.updOut_wireHeld (n : Nat) (f : OutRing → OutRing) : (s.updOut n f).wireHeld = s.wireHeld := rfl
@[simp] theorem State.updOut_notified (n : Nat) (f : OutRing → OutRing) : (s.updOut n f).notified = s.notified := rfl

/-! ## setVector -/
@[simp] theorem State.setVector_cur (v : Vector) : (s.setVector v).cur = s.cur := rfl
@[simp] theorem State.setVector_blocked (v : Vector) : (s.setVector v).blocked = s.blocked := rfl
@[simp] theorem State.setVector_agenda (v : Vector) : (s.setVector v).agenda = s.agenda := rfl
@[simp] theorem State.setVector_tick (v : Vector) : (s.setVector v).tick = s.tick := rfl
@[simp] theorem State.setVector_time (v : Vector) : (s.setVector v).time = s.time := rfl
@[simp] theorem State.setVector_cycles (v : Vector) : (s.setVector v).cycles = s.cycles := rfl
@[simp] theorem State.setVector_wgs (v : Vector) : (s.setVector v).wgs = s.wgs := rfl
@[simp] theorem State.setVector_ctxs (v : Vector) : (s.setVector v).ctxs = s.ctxs := rfl
@[simp] theorem State.setVector_nextWg (v : Vector) : (s.setVector v).nextWg = s.nextWg := rfl
@[simp] theorem State.setVector_nextLaunch (v : Vector) : (s.setVector v).nextLaunch = s.nextLaunch := rfl
@[simp] theorem State.setVector_home (v : Vector) : (s.setVector v).home = s.home := rfl
@[simp] theorem State.setVector_queue (v : Vector) : (s.setVector v).queue = s.queue := rfl
@[simp] theorem State.setVector_nextQ (v : Vector) : (s.setVector v).nextQ = s.nextQ := rfl
@[simp] theorem State.setVector_keys (v : Vector) : (s.setVector v).keys = s.keys := rfl
@[simp] theorem State.setVector_nextKey (v : Vector) : (s.setVector v).nextKey = s.nextKey := rfl
@[simp] theorem State.setVector_wps (v : Vector) : (s.setVector v).wps = s.wps := rfl
@[simp] theorem State.setVector_gen (v : Vector) : (s.setVector v).gen = s.gen := rfl
@[simp] theorem State.setVector_cmds (v : Vector) : (s.setVector v).cmds = s.cmds := rfl
@[simp] theorem State.setVector_nextCmd (v : Vector) : (s.setVector v).nextCmd = s.nextCmd := rfl
@[simp] theorem State.setVector_gatherers (v : Vector) : (s.setVector v).gatherers = s.gatherers := rfl
@[simp] theorem State.setVector_ring (v : Vector) : (s.setVector v).ring = s.ring := rfl
@[simp] theorem State.setVector_qps (v : Vector) : (s.setVector v).qps = s.qps := rfl
@[simp] theorem State.setVector_regions (v : Vector) : (s.setVector v).regions = s.regions := rfl
@[simp] theorem State.setVector_nextWr (v : Vector) : (s.setVector v).nextWr = s.nextWr := rfl
@[simp] theorem State.setVector_wire (v : Vector) : (s.setVector v).wire = s.wire := rfl
@[simp] theorem State.setVector_paused (v : Vector) : (s.setVector v).paused = s.paused := rfl
@[simp] theorem State.setVector_dropped (v : Vector) : (s.setVector v).dropped = s.dropped := rfl
@[simp] theorem State.setVector_peers (v : Vector) : (s.setVector v).peers = s.peers := rfl
@[simp] theorem State.setVector_power (v : Vector) : (s.setVector v).power = s.power := rfl
@[simp] theorem State.setVector_service (v : Vector) : (s.setVector v).service = s.service := rfl
@[simp] theorem State.setVector_period (v : Vector) : (s.setVector v).period = s.period := rfl
@[simp] theorem State.setVector_inbox (v : Vector) : (s.setVector v).inbox = s.inbox := rfl
@[simp] theorem State.setVector_corrected (v : Vector) : (s.setVector v).corrected = s.corrected := rfl
@[simp] theorem State.setVector_filled (v : Vector) : (s.setVector v).filled = s.filled := rfl
@[simp] theorem State.setVector_nextStamp (v : Vector) : (s.setVector v).nextStamp = s.nextStamp := rfl
@[simp] theorem State.setVector_wireHeld (v : Vector) : (s.setVector v).wireHeld = s.wireHeld := rfl
@[simp] theorem State.setVector_notified (v : Vector) : (s.setVector v).notified = s.notified := rfl

/-! ## updMailbox -/
@[simp] theorem State.updMailbox_cur (n : Nat) (f : Mailbox → Mailbox) : (s.updMailbox n f).cur = s.cur := rfl
@[simp] theorem State.updMailbox_blocked (n : Nat) (f : Mailbox → Mailbox) : (s.updMailbox n f).blocked = s.blocked := rfl
@[simp] theorem State.updMailbox_agenda (n : Nat) (f : Mailbox → Mailbox) : (s.updMailbox n f).agenda = s.agenda := rfl
@[simp] theorem State.updMailbox_tick (n : Nat) (f : Mailbox → Mailbox) : (s.updMailbox n f).tick = s.tick := rfl
@[simp] theorem State.updMailbox_time (n : Nat) (f : Mailbox → Mailbox) : (s.updMailbox n f).time = s.time := rfl
@[simp] theorem State.updMailbox_cycles (n : Nat) (f : Mailbox → Mailbox) : (s.updMailbox n f).cycles = s.cycles := rfl
@[simp] theorem State.updMailbox_wgs (n : Nat) (f : Mailbox → Mailbox) : (s.updMailbox n f).wgs = s.wgs := rfl
@[simp] theorem State.updMailbox_ctxs (n : Nat) (f : Mailbox → Mailbox) : (s.updMailbox n f).ctxs = s.ctxs := rfl
@[simp] theorem State.updMailbox_nextWg (n : Nat) (f : Mailbox → Mailbox) : (s.updMailbox n f).nextWg = s.nextWg := rfl
@[simp] theorem State.updMailbox_nextLaunch (n : Nat) (f : Mailbox → Mailbox) : (s.updMailbox n f).nextLaunch = s.nextLaunch := rfl
@[simp] theorem State.updMailbox_home (n : Nat) (f : Mailbox → Mailbox) : (s.updMailbox n f).home = s.home := rfl
@[simp] theorem State.updMailbox_queue (n : Nat) (f : Mailbox → Mailbox) : (s.updMailbox n f).queue = s.queue := rfl
@[simp] theorem State.updMailbox_nextQ (n : Nat) (f : Mailbox → Mailbox) : (s.updMailbox n f).nextQ = s.nextQ := rfl
@[simp] theorem State.updMailbox_keys (n : Nat) (f : Mailbox → Mailbox) : (s.updMailbox n f).keys = s.keys := rfl
@[simp] theorem State.updMailbox_nextKey (n : Nat) (f : Mailbox → Mailbox) : (s.updMailbox n f).nextKey = s.nextKey := rfl
@[simp] theorem State.updMailbox_wps (n : Nat) (f : Mailbox → Mailbox) : (s.updMailbox n f).wps = s.wps := rfl
@[simp] theorem State.updMailbox_gen (n : Nat) (f : Mailbox → Mailbox) : (s.updMailbox n f).gen = s.gen := rfl
@[simp] theorem State.updMailbox_cmds (n : Nat) (f : Mailbox → Mailbox) : (s.updMailbox n f).cmds = s.cmds := rfl
@[simp] theorem State.updMailbox_nextCmd (n : Nat) (f : Mailbox → Mailbox) : (s.updMailbox n f).nextCmd = s.nextCmd := rfl
@[simp] theorem State.updMailbox_gatherers (n : Nat) (f : Mailbox → Mailbox) : (s.updMailbox n f).gatherers = s.gatherers := rfl
@[simp] theorem State.updMailbox_ring (n : Nat) (f : Mailbox → Mailbox) : (s.updMailbox n f).ring = s.ring := rfl
@[simp] theorem State.updMailbox_qps (n : Nat) (f : Mailbox → Mailbox) : (s.updMailbox n f).qps = s.qps := rfl
@[simp] theorem State.updMailbox_regions (n : Nat) (f : Mailbox → Mailbox) : (s.updMailbox n f).regions = s.regions := rfl
@[simp] theorem State.updMailbox_nextWr (n : Nat) (f : Mailbox → Mailbox) : (s.updMailbox n f).nextWr = s.nextWr := rfl
@[simp] theorem State.updMailbox_wire (n : Nat) (f : Mailbox → Mailbox) : (s.updMailbox n f).wire = s.wire := rfl
@[simp] theorem State.updMailbox_paused (n : Nat) (f : Mailbox → Mailbox) : (s.updMailbox n f).paused = s.paused := rfl
@[simp] theorem State.updMailbox_dropped (n : Nat) (f : Mailbox → Mailbox) : (s.updMailbox n f).dropped = s.dropped := rfl
@[simp] theorem State.updMailbox_peers (n : Nat) (f : Mailbox → Mailbox) : (s.updMailbox n f).peers = s.peers := rfl
@[simp] theorem State.updMailbox_power (n : Nat) (f : Mailbox → Mailbox) : (s.updMailbox n f).power = s.power := rfl
@[simp] theorem State.updMailbox_service (n : Nat) (f : Mailbox → Mailbox) : (s.updMailbox n f).service = s.service := rfl
@[simp] theorem State.updMailbox_period (n : Nat) (f : Mailbox → Mailbox) : (s.updMailbox n f).period = s.period := rfl
@[simp] theorem State.updMailbox_inbox (n : Nat) (f : Mailbox → Mailbox) : (s.updMailbox n f).inbox = s.inbox := rfl
@[simp] theorem State.updMailbox_corrected (n : Nat) (f : Mailbox → Mailbox) : (s.updMailbox n f).corrected = s.corrected := rfl
@[simp] theorem State.updMailbox_filled (n : Nat) (f : Mailbox → Mailbox) : (s.updMailbox n f).filled = s.filled := rfl
@[simp] theorem State.updMailbox_nextStamp (n : Nat) (f : Mailbox → Mailbox) : (s.updMailbox n f).nextStamp = s.nextStamp := rfl
@[simp] theorem State.updMailbox_wireHeld (n : Nat) (f : Mailbox → Mailbox) : (s.updMailbox n f).wireHeld = s.wireHeld := rfl
@[simp] theorem State.updMailbox_notified (n : Nat) (f : Mailbox → Mailbox) : (s.updMailbox n f).notified = s.notified := rfl

/-! ## updRing0 -/
@[simp] theorem State.updRing0_cur (f : Mailbox → Mailbox) : (s.updRing0 f).cur = s.cur := rfl
@[simp] theorem State.updRing0_blocked (f : Mailbox → Mailbox) : (s.updRing0 f).blocked = s.blocked := rfl
@[simp] theorem State.updRing0_agenda (f : Mailbox → Mailbox) : (s.updRing0 f).agenda = s.agenda := rfl
@[simp] theorem State.updRing0_tick (f : Mailbox → Mailbox) : (s.updRing0 f).tick = s.tick := rfl
@[simp] theorem State.updRing0_time (f : Mailbox → Mailbox) : (s.updRing0 f).time = s.time := rfl
@[simp] theorem State.updRing0_cycles (f : Mailbox → Mailbox) : (s.updRing0 f).cycles = s.cycles := rfl
@[simp] theorem State.updRing0_wgs (f : Mailbox → Mailbox) : (s.updRing0 f).wgs = s.wgs := rfl
@[simp] theorem State.updRing0_ctxs (f : Mailbox → Mailbox) : (s.updRing0 f).ctxs = s.ctxs := rfl
@[simp] theorem State.updRing0_nextWg (f : Mailbox → Mailbox) : (s.updRing0 f).nextWg = s.nextWg := rfl
@[simp] theorem State.updRing0_nextLaunch (f : Mailbox → Mailbox) : (s.updRing0 f).nextLaunch = s.nextLaunch := rfl
@[simp] theorem State.updRing0_home (f : Mailbox → Mailbox) : (s.updRing0 f).home = s.home := rfl
@[simp] theorem State.updRing0_queue (f : Mailbox → Mailbox) : (s.updRing0 f).queue = s.queue := rfl
@[simp] theorem State.updRing0_nextQ (f : Mailbox → Mailbox) : (s.updRing0 f).nextQ = s.nextQ := rfl
@[simp] theorem State.updRing0_keys (f : Mailbox → Mailbox) : (s.updRing0 f).keys = s.keys := rfl
@[simp] theorem State.updRing0_nextKey (f : Mailbox → Mailbox) : (s.updRing0 f).nextKey = s.nextKey := rfl
@[simp] theorem State.updRing0_wps (f : Mailbox → Mailbox) : (s.updRing0 f).wps = s.wps := rfl
@[simp] theorem State.updRing0_gen (f : Mailbox → Mailbox) : (s.updRing0 f).gen = s.gen := rfl
@[simp] theorem State.updRing0_cmds (f : Mailbox → Mailbox) : (s.updRing0 f).cmds = s.cmds := rfl
@[simp] theorem State.updRing0_nextCmd (f : Mailbox → Mailbox) : (s.updRing0 f).nextCmd = s.nextCmd := rfl
@[simp] theorem State.updRing0_gatherers (f : Mailbox → Mailbox) : (s.updRing0 f).gatherers = s.gatherers := rfl
@[simp] theorem State.updRing0_ring (f : Mailbox → Mailbox) : (s.updRing0 f).ring = s.ring := rfl
@[simp] theorem State.updRing0_qps (f : Mailbox → Mailbox) : (s.updRing0 f).qps = s.qps := rfl
@[simp] theorem State.updRing0_regions (f : Mailbox → Mailbox) : (s.updRing0 f).regions = s.regions := rfl
@[simp] theorem State.updRing0_nextWr (f : Mailbox → Mailbox) : (s.updRing0 f).nextWr = s.nextWr := rfl
@[simp] theorem State.updRing0_wire (f : Mailbox → Mailbox) : (s.updRing0 f).wire = s.wire := rfl
@[simp] theorem State.updRing0_paused (f : Mailbox → Mailbox) : (s.updRing0 f).paused = s.paused := rfl
@[simp] theorem State.updRing0_dropped (f : Mailbox → Mailbox) : (s.updRing0 f).dropped = s.dropped := rfl
@[simp] theorem State.updRing0_peers (f : Mailbox → Mailbox) : (s.updRing0 f).peers = s.peers := rfl
@[simp] theorem State.updRing0_power (f : Mailbox → Mailbox) : (s.updRing0 f).power = s.power := rfl
@[simp] theorem State.updRing0_service (f : Mailbox → Mailbox) : (s.updRing0 f).service = s.service := rfl
@[simp] theorem State.updRing0_period (f : Mailbox → Mailbox) : (s.updRing0 f).period = s.period := rfl
@[simp] theorem State.updRing0_inbox (f : Mailbox → Mailbox) : (s.updRing0 f).inbox = s.inbox := rfl
@[simp] theorem State.updRing0_corrected (f : Mailbox → Mailbox) : (s.updRing0 f).corrected = s.corrected := rfl
@[simp] theorem State.updRing0_filled (f : Mailbox → Mailbox) : (s.updRing0 f).filled = s.filled := rfl
@[simp] theorem State.updRing0_nextStamp (f : Mailbox → Mailbox) : (s.updRing0 f).nextStamp = s.nextStamp := rfl
@[simp] theorem State.updRing0_wireHeld (f : Mailbox → Mailbox) : (s.updRing0 f).wireHeld = s.wireHeld := rfl
@[simp] theorem State.updRing0_notified (f : Mailbox → Mailbox) : (s.updRing0 f).notified = s.notified := rfl

/-! ## updQp -/
@[simp] theorem State.updQp_cur (n : Nat) (f : QPair → QPair) : (s.updQp n f).cur = s.cur := rfl
@[simp] theorem State.updQp_blocked (n : Nat) (f : QPair → QPair) : (s.updQp n f).blocked = s.blocked := rfl
@[simp] theorem State.updQp_agenda (n : Nat) (f : QPair → QPair) : (s.updQp n f).agenda = s.agenda := rfl
@[simp] theorem State.updQp_tick (n : Nat) (f : QPair → QPair) : (s.updQp n f).tick = s.tick := rfl
@[simp] theorem State.updQp_time (n : Nat) (f : QPair → QPair) : (s.updQp n f).time = s.time := rfl
@[simp] theorem State.updQp_cycles (n : Nat) (f : QPair → QPair) : (s.updQp n f).cycles = s.cycles := rfl
@[simp] theorem State.updQp_wgs (n : Nat) (f : QPair → QPair) : (s.updQp n f).wgs = s.wgs := rfl
@[simp] theorem State.updQp_ctxs (n : Nat) (f : QPair → QPair) : (s.updQp n f).ctxs = s.ctxs := rfl
@[simp] theorem State.updQp_nextWg (n : Nat) (f : QPair → QPair) : (s.updQp n f).nextWg = s.nextWg := rfl
@[simp] theorem State.updQp_nextLaunch (n : Nat) (f : QPair → QPair) : (s.updQp n f).nextLaunch = s.nextLaunch := rfl
@[simp] theorem State.updQp_home (n : Nat) (f : QPair → QPair) : (s.updQp n f).home = s.home := rfl
@[simp] theorem State.updQp_queue (n : Nat) (f : QPair → QPair) : (s.updQp n f).queue = s.queue := rfl
@[simp] theorem State.updQp_nextQ (n : Nat) (f : QPair → QPair) : (s.updQp n f).nextQ = s.nextQ := rfl
@[simp] theorem State.updQp_keys (n : Nat) (f : QPair → QPair) : (s.updQp n f).keys = s.keys := rfl
@[simp] theorem State.updQp_nextKey (n : Nat) (f : QPair → QPair) : (s.updQp n f).nextKey = s.nextKey := rfl
@[simp] theorem State.updQp_wps (n : Nat) (f : QPair → QPair) : (s.updQp n f).wps = s.wps := rfl
@[simp] theorem State.updQp_gen (n : Nat) (f : QPair → QPair) : (s.updQp n f).gen = s.gen := rfl
@[simp] theorem State.updQp_cmds (n : Nat) (f : QPair → QPair) : (s.updQp n f).cmds = s.cmds := rfl
@[simp] theorem State.updQp_nextCmd (n : Nat) (f : QPair → QPair) : (s.updQp n f).nextCmd = s.nextCmd := rfl
@[simp] theorem State.updQp_gatherers (n : Nat) (f : QPair → QPair) : (s.updQp n f).gatherers = s.gatherers := rfl
@[simp] theorem State.updQp_ring (n : Nat) (f : QPair → QPair) : (s.updQp n f).ring = s.ring := rfl
@[simp] theorem State.updQp_regions (n : Nat) (f : QPair → QPair) : (s.updQp n f).regions = s.regions := rfl
@[simp] theorem State.updQp_nextWr (n : Nat) (f : QPair → QPair) : (s.updQp n f).nextWr = s.nextWr := rfl
@[simp] theorem State.updQp_wire (n : Nat) (f : QPair → QPair) : (s.updQp n f).wire = s.wire := rfl
@[simp] theorem State.updQp_paused (n : Nat) (f : QPair → QPair) : (s.updQp n f).paused = s.paused := rfl
@[simp] theorem State.updQp_dropped (n : Nat) (f : QPair → QPair) : (s.updQp n f).dropped = s.dropped := rfl
@[simp] theorem State.updQp_peers (n : Nat) (f : QPair → QPair) : (s.updQp n f).peers = s.peers := rfl
@[simp] theorem State.updQp_host (n : Nat) (f : QPair → QPair) : (s.updQp n f).host = s.host := rfl
@[simp] theorem State.updQp_power (n : Nat) (f : QPair → QPair) : (s.updQp n f).power = s.power := rfl
@[simp] theorem State.updQp_service (n : Nat) (f : QPair → QPair) : (s.updQp n f).service = s.service := rfl
@[simp] theorem State.updQp_period (n : Nat) (f : QPair → QPair) : (s.updQp n f).period = s.period := rfl
@[simp] theorem State.updQp_inbox (n : Nat) (f : QPair → QPair) : (s.updQp n f).inbox = s.inbox := rfl
@[simp] theorem State.updQp_corrected (n : Nat) (f : QPair → QPair) : (s.updQp n f).corrected = s.corrected := rfl
@[simp] theorem State.updQp_filled (n : Nat) (f : QPair → QPair) : (s.updQp n f).filled = s.filled := rfl
@[simp] theorem State.updQp_nextStamp (n : Nat) (f : QPair → QPair) : (s.updQp n f).nextStamp = s.nextStamp := rfl
@[simp] theorem State.updQp_wireHeld (n : Nat) (f : QPair → QPair) : (s.updQp n f).wireHeld = s.wireHeld := rfl
@[simp] theorem State.updQp_notified (n : Nat) (f : QPair → QPair) : (s.updQp n f).notified = s.notified := rfl
/-! ## Looking up after an update -/

theorem find_map_upd {α : Type} (id : α → Nat) (f : α → α) (hf : ∀ a, id (f a) = id a) (k j : Nat) :
    ∀ xs : List α, (xs.map fun a => if id a = k then f a else a).find? (fun a => id a == j) =
      if j = k then (xs.find? fun a => id a == j).map f else xs.find? fun a => id a == j
  | [] => by simp
  | a :: xs => by
    have ih := find_map_upd id f hf k j xs
    simp only [List.map_cons, List.find?_cons]
    by_cases hk : id a = k <;> by_cases hj : id a = j
    · have : j = k := by omega
      subst this; simp [hk, hf]
    · have hjk : ¬ j = k := fun h => hj (by omega)
      have hne : (id (f a) == j) = false := by rw [hf]; simpa using hj
      have hne' : (id a == j) = false := by simpa using hj
      simp only [if_pos hk, hne, hne', ih]
    · have hjk : ¬ j = k := fun h => hk (by omega)
      simp [hj, hjk]
    · have hne : (id a == j) = false := by simpa using hj
      simp only [if_neg hk, hne, ih]

theorem State.wg?_updWg (k j : Nat) (f : Workgroup → Workgroup) (hf : ∀ g, (f g).id = g.id) :
    (s.updWg k f).wg? j = if j = k then (s.wg? j).map f else s.wg? j :=
  find_map_upd Workgroup.id f hf k j s.wgs

theorem State.ctx?_updCtx (k j : Nat) (f : Context → Context) (hf : ∀ c, (f c).id = c.id) :
    (s.updCtx k f).ctx? j = if j = k then (s.ctx? j).map f else s.ctx? j :=
  find_map_upd Context.id f hf k j s.ctxs

@[simp] theorem State.ctx?_updWg (k j : Nat) (f : Workgroup → Workgroup) : (s.updWg k f).ctx? j = s.ctx? j := rfl
@[simp] theorem State.wg?_updCtx (k j : Nat) (f : Context → Context) : (s.updCtx k f).wg? j = s.wg? j := rfl
@[simp] theorem State.ctx?_updWave (g k j : Nat) (f : Wave → Wave) : (s.updWave g k f).ctx? j = s.ctx? j := rfl
@[simp] theorem State.ctx?_updThread (p : Party) (j : Nat) (f : Thread → Thread) : (s.updThread p f).ctx? j = s.ctx? j := rfl

@[simp] theorem Workgroup.updWave_id (g : Workgroup) (k : Nat) (f : Wave → Wave) : (g.updWave k f).id = g.id := rfl
@[simp] theorem Workgroup.updSeq_id (g : Workgroup) (m : Bool) (k : Nat) (f : SeqThread → SeqThread) : (g.updSeq m k f).id = g.id := rfl
@[simp] theorem Workgroup.updThread_id (g : Workgroup) (p : Party) (f : Thread → Thread) : (g.updThread p f).id = g.id := by
  cases p <;> rfl

theorem Workgroup.wave?_updWave (g : Workgroup) (k j : Nat) (f : Wave → Wave) (hf : ∀ w, (f w).waveid = w.waveid) :
    (g.updWave k f).wave? j = if j = k then (g.wave? j).map f else g.wave? j :=
  find_map_upd Wave.waveid f hf k j g.waves

theorem State.waveOf_updWave (g k j h : Nat) (f : Wave → Wave) (hf : ∀ w, (f w).waveid = w.waveid) :
    (s.updWave g k f).waveOf h j = if h = g ∧ j = k then (s.waveOf h j).map f else s.waveOf h j := by
  unfold State.waveOf State.updWave
  rw [State.wg?_updWg s g h _ (fun g => by simp)]
  by_cases hg : h = g
  · subst hg
    cases hw : s.wg? h with
    | none => simp
    | some x => simp [Workgroup.wave?_updWave _ _ _ _ hf]
  · simp [hg]

end Sys2Proof.Machine
end

