-- ==== Sys2Proof/Laws/Issue.lean ====
section
/-! SUPPORT. What the issue of an instruction does, once for all of them: the checks passed, an instruction has its own meaning, and
what `retire` leaves of the party. -/
namespace Sys2Proof.Machine

/-! ## The checks -/

theorem Issues.holds {i : Instr} {s : State} {σ : Site} (h : Issues i s σ) : σ.holds i = false := by
  simp [Site.holds, h.runnable, h.window, h.room]

theorem Issues.gate {i : Instr} {s : State} {σ : Site} (h : Issues i s σ) : σ.gate i s.tick = none := by
  have h2 : (decide (i.la = 15) && σ.p.executor == Executor.core && i.path.isNone) = false := by
    cases hp : i.path with
    | some _ => simp
    | none =>
      by_cases h3 : i.la = 15
      · by_cases h4 : σ.p.executor = .core
        · exact absurd hp (h.detached h3 h4)
        · simp [h4]
      · simp [h3]
  have h3 : (σ.p.executor != Executor.core && scratchForm i) = false := by
    rcases h.pad with h | h <;> simp [h]
  have h5 := h.marks
  have h6 := h.regs
  have h7 := h.ord
  unfold Site.gate
  simp only [h.runs, h.wf, Bool.not_true, Bool.false_or, Bool.false_eq_true, if_false, h2, h3]
  cases hw : σ.w with
  | none =>
    rw [hw] at h5
    cases ho : σ.t.ord with
    | none => simp [h5]
    | some x => simp [h5, h7 x.1 x.2 ho]
  | some w =>
    rw [hw] at h5
    have h8 : ¬ w.nregs < vTop i := by have := h6 w hw; omega
    cases ho : σ.t.ord with
    | none => simp [h5, h8]
    | some x => simp [h5, h8, h7 x.1 x.2 ho]

theorem none_of_ite {c : Prop} [Decidable c] {x : Cause} {y : Option Cause} (h : (if c then some x else y) = none) :
    ¬ c ∧ y = none := by
  split at h
  · simp at h
  · exact ⟨‹_›, h⟩

theorem Issues.of_check {i : Instr} {s : State} {σ : Site} (h : issuesB i s σ = true) : Issues i s σ := by
  unfold issuesB at h
  simp only [Bool.and_eq_true, beq_iff_eq, Bool.not_eq_true', Option.isNone_iff_eq_none] at h
  obtain ⟨⟨⟨⟨h1, h2⟩, h3⟩, he⟩, h4⟩ := h
  simp only [Site.holds, Bool.or_eq_false_iff, Bool.not_eq_false'] at h2
  unfold Site.gate at h3
  obtain ⟨g1, h3⟩ := none_of_ite h3
  obtain ⟨g2, h3⟩ := none_of_ite h3
  obtain ⟨g3, h3⟩ := none_of_ite h3
  obtain ⟨g4, h3⟩ := none_of_ite h3
  obtain ⟨g5, h3⟩ := none_of_ite h3
  obtain ⟨g6, -⟩ := none_of_ite h3
  simp only [Bool.or_eq_true, not_or, Bool.not_eq_true', Bool.not_eq_false] at g2
  refine ⟨h1, h2.1.1, h2.1.2, h2.2, by simpa using g1, g2.1, ?_, ?_, ?_, ?_, (Bool.not_eq_true _).mp g6, he, ?_⟩
  · intro w hw; have := g2.2; rw [hw] at this; simpa using this
  · intro a b c
    simp only [Bool.and_eq_true, decide_eq_true_eq, beq_iff_eq, Option.isNone_iff_eq_none, not_and] at g3
    exact g3 ⟨a, b⟩ c
  · by_cases hx : σ.p.executor = .core
    · exact .inl hx
    · right; simpa [hx] using g4
  · intro o sc ho; rw [ho] at g5; simpa using g5
  · intro sc hr
    rw [hr] at h4
    simp only [Bool.and_eq_true, Bool.or_eq_true, bne_iff_ne, ne_eq, Option.isNone_iff_eq_none] at h4
    exact ⟨h4.1, fun hc => h4.2.resolve_left (fun hn => hn hc)⟩

/-- An instruction that may issue has its own meaning. -/
theorem issueOp_of_issues {i : Instr} {s : State} {σ : Site} (h : Issues i s σ) (body : Site → State → Body) :
    issueOp i s body = issueOp.finish i σ (body σ s) := by
  unfold issueOp
  simp only [h.site, h.holds, h.gate, h.early, Bool.false_eq_true, if_false]
  cases hr : σ.releaseOf i with
  | none => rfl
  | some sc =>
    obtain ⟨h1, h2⟩ := h.release sc hr
    by_cases hx : σ.p.executor = .core
    · simp only [hx, beq_self_eq_true, if_true, h2 hx, h1]
    · have : (σ.p.executor == Executor.core) = false := by simpa using hx
      simp only [this, Bool.false_eq_true, if_false, h1, if_true]

/-- With no party chosen, an instruction of a program changes nothing. -/
theorem issueOp_idle {i : Instr} {s : State} (h : s.site = none) (body : Site → State → Body) : issueOp i s body = .next s := by
  unfold issueOp; rw [h]

/-- An instruction that waits at issue leaves the machine as it is, but for who may issue. -/
theorem issueOp_holds {i : Instr} {s : State} {σ : Site} (h : s.site = some σ) (hh : σ.holds i = true)
    (body : Site → State → Body) : issueOp i s body = .next s.wait := by
  unfold issueOp; simp [h, hh]

/-- A cause that the checks at issue find: nothing of the instruction's own effect happens. -/
theorem issueOp_cause {i : Instr} {s : State} {σ : Site} {c : Cause} (h : s.site = some σ) (hh : σ.holds i = false)
    (hg : σ.gate i s.tick = some c) (body : Site → State → Body) :
    issueOp i s body = .next (s.raise σ.p ⟨c, va64 σ.t.pc, 0, σ.gateLane i s.tick c, false, 0⟩) := by
  unfold issueOp; simp [h, hh, hg]

/-! ## Where the site comes from -/

theorem Issues.cur {i : Instr} {s : State} {σ : Site} (h : Issues i s σ) : s.cur = some σ.p ∧ s.siteOf σ.p = some σ := by
  have h1 := h.site
  unfold State.site at h1
  cases hc : s.cur with
  | none => rw [hc] at h1; simp at h1
  | some p =>
    rw [hc] at h1
    simp only [Option.bind_some] at h1
    have hp : σ.p = p := by
      unfold State.siteOf at h1
      split at h1; · simp at h1
      split at h1
      · split at h1
        · simp only [Option.some.injEq] at h1; rw [← h1]
        · simp at h1
      · simp at h1
    exact ⟨by rw [hp], by rw [hp]; exact h1⟩

/-- What a site says of the machine. -/
theorem State.siteOf_some {s : State} {p : Party} {σ : Site} (h : s.siteOf p = some σ) :
    σ.p = p ∧ s.wg? p.wg = some σ.g ∧ s.ctx? σ.g.ctx = some σ.c ∧ σ.g.thread? p = some σ.t ∧ σ.c.node? σ.g.node = some σ.n ∧
      (∀ g k, p = .wave g k → σ.w = σ.g.wave? k) := by
  unfold State.siteOf at h
  split at h
  · simp at h
  · rename_i g hg
    split at h
    · rename_i c t hc ht
      split at h
      · rename_i n hn
        simp only [Option.some.injEq] at h
        subst h
        exact ⟨rfl, hg, hc, ht, hn, fun g k hp => by subst hp; rfl⟩
      · simp at h
    · simp at h

/-! ## Quiet registers -/

theorem Thread.Quiet.view {t : Thread} (h : t.Quiet) (tick : Nat) (k : RegKey) (x : Nat) : t.view tick k x = x := by
  unfold Thread.view; rw [h k]

theorem Thread.Quiet.settle {t : Thread} (h : t.Quiet) (tick : Nat) (k : RegKey) (cur new : Nat) :
    t.settle tick k cur new = new := by
  unfold Thread.settle; rw [h k]; rfl

theorem Thread.Quiet.rs {t : Thread} (h : t.Quiet) (tick n : Nat) : t.rs tick n = t.s n := by
  unfold Thread.rs; rw [h.view]; exact BitVec.ofNat_toNat .. |>.trans (by simp [Thread.s])

theorem Thread.Quiet.rf {t : Thread} (h : t.Quiet) (tick n : Nat) : t.rf tick n = t.f n := by
  unfold Thread.rf Thread.f; rw [h.view]; cases t.fregs.getLsbD n <;> rfl

theorem Thread.Quiet.ropnd {t : Thread} (h : t.Quiet) (tick : Nat) (b : SOpnd) : t.ropnd tick b = t.opnd b := by
  cases b with
  | r n => exact h.rs tick n
  | imm n => rfl

theorem Wave.quiet_rv {w : Wave} (h : w.t.Quiet) (tick r l : Nat) : w.rv tick r l = w.v r l := by
  unfold Wave.rv; rw [h.view]; exact BitVec.ofNat_toNat .. |>.trans (by simp [Wave.v])

theorem Wave.quiet_rp {w : Wave} (h : w.t.Quiet) (tick k l : Nat) : w.rp tick k l = w.p k l := by
  unfold Wave.rp Wave.p; rw [h.view]; cases (Sparse.get (0 : Mask) w.preds k).getLsbD l <;> rfl

theorem Wave.quiet_src32 {w : Wave} (h : w.t.Quiet) (tick l : Nat) (a : Src) : w.src32 tick l a = w.a32 l a := by
  cases a with
  | v r => exact Wave.quiet_rv h tick r l
  | s n => exact congrArg (BitVec.setWidth 32) (h.rs tick n)

theorem Wave.quiet_src64 {w : Wave} (h : w.t.Quiet) (tick l : Nat) (a : Src) : w.src64 tick l a = w.a64 l a := by
  cases a with
  | v r => simp only [Wave.src64, Wave.a64, Wave.quiet_rv h]
  | s n => exact h.rs tick n

theorem Wave.quiet_active {w : Wave} (h : w.t.Quiet) (tick : Nat) (i : Instr) :
    w.active tick i = (List.range 256).filter (w.on i) := by
  unfold Wave.active lanesOf Wave.on
  simp only [List.filter_filter]
  congr 1
  funext l
  rw [Wave.quiet_rp h, Bool.and_comm]

theorem Wave.mem_active {w : Wave} (h : w.t.Quiet) (tick : Nat) (i : Instr) (l : Nat) :
    l ∈ w.active tick i ↔ l < 256 ∧ w.on i l = true := by
  rw [Wave.quiet_active h]; simp

end Sys2Proof.Machine
end

