-- ==== Sys2Proof/Laws/Registers.lean ====
section
/-! SUPPORT. Writing registers, where no window is open over one: a register holds the last value written to it, and nothing else
changes (R9, R11, R24, R84). -/
namespace Sys2Proof.Machine

/-! ## Windows stay closed -/

theorem Thread.early_of_flights {t u : Thread} (h : u.flights = t.flights) (k : RegKey) : u.early k = t.early k := by
  unfold Thread.early; rw [h]

theorem Thread.early_nil {t : Thread} {k : RegKey} :
    t.early k = [] ↔ ∀ f ∈ t.flights, f.isOpen = true → ∀ e ∈ f.olds, e.1 ≠ k := by
  unfold Thread.early
  simp only [List.flatMap_eq_nil_iff, List.mem_filter, List.filterMap_eq_nil_iff, and_imp]
  constructor
  · intro h f hf ho e he hk; have := h f hf ho e he; simp [hk] at this
  · intro h f hf ho e he; simp [h f hf ho e he]

theorem Thread.Quiet.clobber {t : Thread} (h : t.Quiet) (k : RegKey) (x : Nat) : (t.clobber k x).Quiet := by
  intro j
  rw [Thread.early_nil]
  intro f hf ho e he
  simp only [Thread.clobber, List.mem_map] at hf
  obtain ⟨f0, hf0, rfl⟩ := hf
  have h0 := Thread.early_nil.mp (h j) f0 hf0 (by simpa [Flight.isOpen] using ho)
  simp only [List.mem_map] at he
  obtain ⟨e0, he0, rfl⟩ := he
  have h1 := h0 e0 he0
  split
  · rename_i hk; rw [← hk]; exact h1
  · exact h1

theorem Thread.Quiet.of_flights {t u : Thread} (h : t.Quiet) (hf : u.flights = t.flights) : u.Quiet :=
  fun k => by rw [Thread.early_of_flights hf]; exact h k

theorem Thread.Quiet.putS {t : Thread} (h : t.Quiet) (tick n : Nat) (x : DWord) : (t.putS tick n x).Quiet :=
  (h.clobber (.s n) (Sparse.get (0 : DWord) t.sregs n).toNat).of_flights rfl

theorem Thread.Quiet.putF {t : Thread} (h : t.Quiet) (tick n : Nat) (b : Bool) : (t.putF tick n b).Quiet := by
  unfold Thread.putF
  split
  · exact h
  · exact (h.clobber (.f n) (t.fregs.getLsbD n).toNat).of_flights rfl

theorem Thread.Quiet.put {t : Thread} (h : t.Quiet) (tick : Nat) (e : Write) : (t.put tick e).Quiet := by
  unfold Thread.put
  split
  · exact h.putS _ _ _
  · exact h.putF _ _ _
  · exact h

theorem Wave.put_quiet {w : Wave} (h : w.t.Quiet) (tick : Nat) (e : Write) : (w.put tick e).t.Quiet := by
  unfold Wave.put
  split
  · exact h.clobber _ _
  · exact h.putS _ _ _
  · unfold Wave.putP; split
    · exact h
    · exact h.clobber _ _
  · exact h.putF _ _ _
  · exact h
  · exact h

/-! ## One write -/

/-- What a register of a kind keeps of a value. -/
def RegKey.fit : RegKey → Nat → Nat
  | .v _ _, y => y % 2 ^ 32
  | .s _, y => y % 2 ^ 64
  | .p _ _, y => (y == 1).toNat
  | .f _, y => (y == 1).toNat
  | .nevst, y => y % 2 ^ 32
  | _, _ => 0

/-- A register that a write replaces: a lane's own place, and neither p0 nor f0; the bits of %nevst are sticky (R329). -/
def RegKey.real : RegKey → Prop
  | .v _ l => l < 256
  | .s n => n < 64
  | .p k l => k ≠ 0 ∧ l < 256
  | .f n => n ≠ 0 ∧ n < 8
  | .nevst => False
  | .x _ => False

/-- A register that an instruction may name as its destination: p0 and f0 as well, whose writes have no effect. -/
def RegKey.ok : RegKey → Prop
  | .v _ l => l < 256
  | .s n => n < 64
  | .p _ l => l < 256
  | .f n => n < 8
  | .nevst => True
  | .x _ => False

theorem Sparse.get_put (m : Sparse Word) (r l r' l' : Nat) (x : Word) (h : l < 256) (h' : l' < 256) :
    Sparse.get (0 : Word) (Sparse.set 0 m (256 * r + l) x) (256 * r' + l') =
      if r = r' ∧ l = l' then x else Sparse.get 0 m (256 * r' + l') := by
  rw [Sparse.get_set]
  by_cases hc : r = r' ∧ l = l'
  · rw [if_pos hc, if_pos (by omega)]
  · rw [if_neg hc, if_neg (by omega)]

theorem bit_update {w : Nat} (m : BitVec w) (i j : Nat) (b : Bool) (hi : i < w) :
    (if b then m ||| BitVec.twoPow w i else m &&& ~~~(BitVec.twoPow w i)).getLsbD j = if i = j then b else m.getLsbD j := by
  by_cases h : i = j
  · subst h; cases b <;> simp [hi]
  · have h' : ¬ j = i := fun e => h e.symm
    by_cases hj : j < w
    · cases b <;> simp [h, h', hj]
    · cases b <;> simp [h, BitVec.getLsbD_of_ge _ _ (Nat.not_lt.mp hj)]

theorem Wave.put_now {w : Wave} (h : w.t.Quiet) (tick : Nat) (e : Write) (k : RegKey) (he : e.k.ok) (hk : k.real) :
    (w.put tick e).now k = if e.k = k then k.fit e.x else w.now k := by
  obtain ⟨ek, ex⟩ := e
  cases ek with
  | x n => exact he.elim
  | v r l =>
    simp only [RegKey.ok] at he
    cases k with
    | v r' l' =>
      simp only [RegKey.real] at hk
      simp only [Wave.put, Wave.putV, Wave.now, h.settle, Sparse.get_put _ _ _ _ _ _ he hk, RegKey.v.injEq, RegKey.fit]
      split <;> simp
    | _ => simp [Wave.put, Wave.putV, Wave.now, Thread.clobber]
  | s n =>
    cases k with
    | s n' =>
      simp only [Wave.put, Thread.putS, Wave.now, h.settle, Sparse.get_set, RegKey.s.injEq, RegKey.fit, eq_comm (a := n')]
      split <;> simp
    | _ => simp [Wave.put, Thread.putS, Wave.now, Thread.clobber]
  | p q l =>
    simp only [RegKey.ok] at he
    by_cases hq0 : q = 0
    · subst hq0
      rw [if_neg (by intro hc; rw [← hc] at hk; exact hk.1 rfl)]
      simp [Wave.put, Wave.putP]
    replace he : q ≠ 0 ∧ l < 256 := ⟨hq0, he⟩
    cases k with
    | p q' l' =>
      simp only [RegKey.real] at hk
      simp only [Wave.put, Wave.putP, he.1, if_false, Wave.now, h.settle, Sparse.get_set, RegKey.p.injEq, RegKey.fit]
      by_cases hq : q' = q
      · subst hq
        have hb : ((ex == 1).toNat == 1) = (ex == 1) := by cases (ex == 1) <;> rfl
        simp only [if_true, hb, bit_update _ _ _ _ he.2, true_and]
        split <;> rfl
      · have hq' : ¬ q = q' := fun h => hq h.symm
        simp only [if_neg hq, hq', false_and, if_false]
    | _ => simp [Wave.put, Wave.putP, he.1, Wave.now, Thread.clobber]
  | f n =>
    simp only [RegKey.ok] at he
    by_cases hq0 : n = 0
    · subst hq0
      rw [if_neg (by intro hc; rw [← hc] at hk; exact hk.1 rfl)]
      simp [Wave.put, Thread.putF]
    replace he : n ≠ 0 ∧ n < 8 := ⟨hq0, he⟩
    cases k with
    | f n' =>
      simp only [Wave.put, Thread.putF, he.1, if_false, Wave.now, h.settle, RegKey.f.injEq, RegKey.fit]
      have hb : ((ex == 1).toNat == 1) = (ex == 1) := by cases (ex == 1) <;> rfl
      simp only [hb, bit_update _ _ _ _ he.2]
      split <;> rfl
    | _ => simp [Wave.put, Thread.putF, he.1, Wave.now, Thread.clobber]
  | nevst =>
    cases k with
    | nevst => exact hk.elim
    | _ => simp [Wave.put, Wave.now]

theorem Thread.put_now {t : Thread} (h : t.Quiet) (tick : Nat) (e : Write) (k : RegKey) (he : e.k.ok) (hk : k.real)
    (hs : (∃ n, k = .s n) ∨ ∃ n, k = .f n) : (t.put tick e).now k = if e.k = k then k.fit e.x else t.now k := by
  obtain ⟨ek, ex⟩ := e
  have hb : ((ex == 1).toNat == 1) = (ex == 1) := by cases (ex == 1) <;> rfl
  by_cases hf0 : ek = .f 0
  · subst hf0
    rw [if_neg (by intro hc; rw [← hc] at hk; exact hk.1 rfl)]
    simp [Thread.put, Thread.putF]
  rcases hs with ⟨n', rfl⟩ | ⟨n', rfl⟩
  · cases ek with
    | s n =>
      simp only [Thread.put, Thread.putS, Thread.now, h.settle, Sparse.get_set, RegKey.s.injEq, RegKey.fit, eq_comm (a := n')]
      split <;> simp
    | f n =>
      simp only [RegKey.ok] at he
      replace he : n ≠ 0 ∧ n < 8 := ⟨fun h => hf0 (by rw [h]), he⟩
      simp [Thread.put, Thread.putF, he.1, Thread.now, Thread.clobber]
    | _ => simp [Thread.put, Thread.now]
  · cases ek with
    | s n => simp [Thread.put, Thread.putS, Thread.now, Thread.clobber]
    | f n =>
      simp only [RegKey.ok] at he
      replace he : n ≠ 0 ∧ n < 8 := ⟨fun h => hf0 (by rw [h]), he⟩
      simp only [Thread.put, Thread.putF, he.1, if_false, Thread.now, h.settle, RegKey.f.injEq, RegKey.fit]
      simp only [hb, bit_update _ _ _ _ he.2]
      split <;> rfl
    | _ => simp [Thread.put, Thread.now]

/-! ## Many writes -/

/-- The value a register has after writes in order. -/
def lastWrite (es : List Write) (k : RegKey) (x : Nat) : Nat := es.foldl (fun a e => if e.k = k then k.fit e.x else a) x

theorem Wave.putAll_quiet {w : Wave} (h : w.t.Quiet) (tick : Nat) (es : List Write) : (w.putAll tick es).t.Quiet := by
  induction es generalizing w with
  | nil => exact h
  | cons e es ih => exact ih (Wave.put_quiet h tick e)

theorem Wave.putAll_now {w : Wave} (h : w.t.Quiet) (tick : Nat) (es : List Write) (k : RegKey)
    (he : ∀ e ∈ es, e.k.ok) (hk : k.real) : (w.putAll tick es).now k = lastWrite es k (w.now k) := by
  induction es generalizing w with
  | nil => rfl
  | cons e es ih =>
    show ((w.put tick e).putAll tick es).now k = _
    rw [ih (Wave.put_quiet h tick e) (fun x hx => he x (List.mem_cons_of_mem _ hx)),
      Wave.put_now h tick e k (he e List.mem_cons_self) hk]
    rfl

theorem Thread.putAll_now {t : Thread} (h : t.Quiet) (tick : Nat) (es : List Write) (k : RegKey)
    (he : ∀ e ∈ es, e.k.ok) (hk : k.real) (hs : (∃ n, k = .s n) ∨ ∃ n, k = .f n) :
    (t.putAll tick es).now k = lastWrite es k (t.now k) := by
  induction es generalizing t with
  | nil => rfl
  | cons e es ih =>
    show ((t.put tick e).putAll tick es).now k = _
    rw [ih (h.put tick e) (fun x hx => he x (List.mem_cons_of_mem _ hx)),
      Thread.put_now h tick e k (he e List.mem_cons_self) hk hs]
    rfl

theorem lastWrite_of_none {es : List Write} {k : RegKey} (h : ∀ e ∈ es, e.k ≠ k) (x : Nat) : lastWrite es k x = x := by
  induction es generalizing x with
  | nil => rfl
  | cons e es ih =>
    show lastWrite es k (if e.k = k then k.fit e.x else x) = x
    rw [if_neg (h e List.mem_cons_self)]
    exact ih (fun y hy => h y (List.mem_cons_of_mem _ hy)) x

theorem lastWrite_append (es fs : List Write) (k : RegKey) (x : Nat) :
    lastWrite (es ++ fs) k x = lastWrite fs k (lastWrite es k x) := by
  unfold lastWrite; rw [List.foldl_append]

/-- Writes of several lanes, where only one of them writes the register. -/
theorem lastWrite_lanes {act : List Nat} {g : Nat → List Write} {k : RegKey} {l : Nat} (hn : act.Nodup)
    (h : ∀ j ∈ act, j ≠ l → ∀ e ∈ g j, e.k ≠ k) (x : Nat) :
    lastWrite (act.flatMap g) k x = if l ∈ act then lastWrite (g l) k x else x := by
  induction act generalizing x with
  | nil => rfl
  | cons j act ih =>
    rw [List.flatMap_cons, lastWrite_append]
    have hn' := List.nodup_cons.mp hn
    have ih' := fun x => ih hn'.2 (fun i hi => h i (List.mem_cons_of_mem _ hi)) x
    by_cases hj : j = l
    · subst hj
      rw [ih', if_neg hn'.1, if_pos List.mem_cons_self]
    · rw [ih', lastWrite_of_none (h j List.mem_cons_self hj)]
      have : (l ∈ j :: act) ↔ l ∈ act := by simp [show ¬ l = j from fun h => hj h.symm]
      simp only [this]

/-! ## What the writes leave alone -/

theorem Thread.putS_rest (t : Thread) (tick n : Nat) (x : DWord) : ∃ sr sm fl, t.putS tick n x =
    { t with sregs := sr, smark := sm, flights := fl } := ⟨_, _, _, rfl⟩

theorem Thread.put_rest (t : Thread) (tick : Nat) (e : Write) : ∃ sr fr sm fl, t.put tick e =
    { t with sregs := sr, fregs := fr, smark := sm, flights := fl } := by
  unfold Thread.put
  split
  · exact ⟨_, _, _, _, rfl⟩
  · unfold Thread.putF; split
    · exact ⟨t.sregs, t.fregs, t.smark, t.flights, rfl⟩
    · exact ⟨_, _, _, _, rfl⟩
  · exact ⟨t.sregs, t.fregs, t.smark, t.flights, rfl⟩

theorem Thread.putAll_rest (t : Thread) (tick : Nat) (es : List Write) : ∃ sr fr sm fl, t.putAll tick es =
    { t with sregs := sr, fregs := fr, smark := sm, flights := fl } := by
  induction es generalizing t with
  | nil => exact ⟨t.sregs, t.fregs, t.smark, t.flights, rfl⟩
  | cons e es ih =>
    obtain ⟨a, b, c, d, h⟩ := Thread.put_rest t tick e
    obtain ⟨a', b', c', d', h'⟩ := ih (t.put tick e)
    exact ⟨a', b', c', d', by show (t.put tick e).putAll tick es = _; rw [h', h]⟩

theorem Wave.put_rest (w : Wave) (tick : Nat) (e : Write) (he : e.k ≠ .nevst) : ∃ vr vm pr sr fr sm fl, w.put tick e =
    { w with vregs := vr, vmark := vm, preds := pr, t := { w.t with sregs := sr, fregs := fr, smark := sm, flights := fl } } := by
  unfold Wave.put
  split
  · exact ⟨_, _, w.preds, w.t.sregs, w.t.fregs, w.t.smark, _, rfl⟩
  · exact ⟨w.vregs, w.vmark, w.preds, _, w.t.fregs, _, _, rfl⟩
  · unfold Wave.putP; split
    · exact ⟨w.vregs, w.vmark, w.preds, w.t.sregs, w.t.fregs, w.t.smark, w.t.flights, rfl⟩
    · exact ⟨w.vregs, w.vmark, _, w.t.sregs, w.t.fregs, w.t.smark, _, rfl⟩
  · unfold Thread.putF; split
    · exact ⟨w.vregs, w.vmark, w.preds, w.t.sregs, w.t.fregs, w.t.smark, w.t.flights, rfl⟩
    · exact ⟨w.vregs, w.vmark, w.preds, w.t.sregs, _, w.t.smark, _, rfl⟩
  · exact absurd ‹_› he
  · exact ⟨w.vregs, w.vmark, w.preds, w.t.sregs, w.t.fregs, w.t.smark, w.t.flights, rfl⟩

theorem Wave.putAll_rest (w : Wave) (tick : Nat) (es : List Write) (he : ∀ e ∈ es, e.k ≠ .nevst) :
    ∃ vr vm pr sr fr sm fl, w.putAll tick es =
    { w with vregs := vr, vmark := vm, preds := pr, t := { w.t with sregs := sr, fregs := fr, smark := sm, flights := fl } } := by
  induction es generalizing w with
  | nil => exact ⟨w.vregs, w.vmark, w.preds, w.t.sregs, w.t.fregs, w.t.smark, w.t.flights, rfl⟩
  | cons e es ih =>
    obtain ⟨a, b, c, d, x, y, z, h⟩ := Wave.put_rest w tick e (he e List.mem_cons_self)
    obtain ⟨a', b', c', d', x', y', z', h'⟩ := ih (w.put tick e) fun f hf => he f (List.mem_cons_of_mem _ hf)
    exact ⟨a', b', c', d', x', y', z', by show (w.put tick e).putAll tick es = _; rw [h', h]⟩

end Sys2Proof.Machine
end

