-- ==== Sys2Proof/Laws/Retire.lean ====
section
/-! SUPPORT. What the issue of an instruction leaves of its party: for a wave that does not step, registers written, flags raised, the
program counter moved, and nothing else (R16, R22, R70, R138, R397). -/
namespace Sys2Proof.Machine

/-! ## Flags (R70) -/

theorem flagsOf_from (fs : List Flight) (a : FlagSet) : fs.foldl (fun a f => a ||| f.fl) a = a ||| flagsOf fs := by
  unfold flagsOf
  induction fs generalizing a with
  | nil => simp
  | cons f fs ih => simp only [List.foldl_cons]; rw [ih, ih (0 ||| f.fl)]; simp [BitVec.or_assoc]

theorem flagsOf_cons (f : Flight) (fs : List Flight) : flagsOf (f :: fs) = f.fl ||| flagsOf fs := by
  unfold flagsOf; simp only [List.foldl_cons]; rw [flagsOf_from]; simp [flagsOf]

@[simp] theorem flagsOf_nil : flagsOf [] = 0 := rfl

theorem flagsOf_append (fs gs : List Flight) : flagsOf (fs ++ gs) = flagsOf fs ||| flagsOf gs := by
  induction fs with
  | nil => simp
  | cons f fs ih => simp only [List.cons_append, flagsOf_cons, ih, BitVec.or_assoc]

theorem flagsOf_map (g : Flight → Flight) (hg : ∀ f, (g f).fl = f.fl) (fs : List Flight) : flagsOf (fs.map g) = flagsOf fs := by
  induction fs with
  | nil => rfl
  | cons f fs ih => simp only [List.map_cons, flagsOf_cons, ih, hg]

theorem or_shuffle (a b c : FlagSet) : a ||| (b ||| c) = b ||| (a ||| c) := by
  rw [← BitVec.or_assoc, BitVec.or_comm a b, BitVec.or_assoc]

theorem flagsOf_split (q : Flight → Bool) (fs : List Flight) :
    flagsOf (fs.filter q) ||| flagsOf (fs.filter fun f => !q f) = flagsOf fs := by
  induction fs with
  | nil => simp
  | cons f fs ih =>
    cases hq : q f <;> simp only [List.filter_cons, hq, Bool.not_false, Bool.not_true, if_true, Bool.false_eq_true, if_false,
      flagsOf_cons, ← ih]
    · exact or_shuffle _ _ _
    · exact BitVec.or_assoc _ _ _

theorem flagsOf_lowerPaths (ks : List Path) (fs : List Flight) : flagsOf (lowerPaths ks fs) = flagsOf fs := by
  induction fs generalizing ks with
  | nil => rfl
  | cons f fs ih =>
    simp only [lowerPaths]
    split
    · split
      · simp only [flagsOf_cons, ih]
      · split <;> simp only [flagsOf_cons, ih]
    · simp only [flagsOf_cons, ih]

/-! ## The wave -/

/-- Flags raised so far are neither lost nor gained by the ageing of instructions in flight. -/
theorem flags_retire (fs : List Flight) (fl : Option Flight) (a : FlagSet) :
    (a ||| flagsOf ((lowerPaths [] (fs.map Flight.age ++ fl.toList)).filter Flight.over)) |||
      flagsOf ((lowerPaths [] (fs.map Flight.age ++ fl.toList)).filter fun f => !f.over) =
    a ||| flagsOf fs ||| flagsOf fl.toList := by
  rw [BitVec.or_assoc, flagsOf_split, flagsOf_lowerPaths, flagsOf_append, flagsOf_map Flight.age (fun _ => rfl), BitVec.or_assoc]

/-- A wave that does not step, after its instruction: only its thread and what depends on instructions in flight changes. -/
theorem Wave.retire_plain {w : Wave} (h : w.dbg.step = false) (d : Bool) (pc next : Nat) (fl : Option Flight) :
    w.retire d pc next fl =
      { w with
        t := w.t.retire next fl
        fpst := w.fpst ||| flagsOf ((lowerPaths [] (w.t.flights.map Flight.age ++ fl.toList)).filter Flight.over)
        passed := 0, promoted := 0, dbg := { w.dbg with skipbp := false } } := by
  unfold Wave.retire
  simp [h]

theorem Wave.retire_flags {w : Wave} (h : w.dbg.step = false) (d : Bool) (pc next : Nat) (fl : Option Flight) :
    (w.retire d pc next fl).flags = w.flags ||| flagsOf fl.toList := by
  rw [Wave.retire_plain h]
  exact flags_retire w.t.flights fl w.fpst

theorem Wave.boundary_plain {w : Wave} (h : w.dbg.haltreq = false) : w.boundary = w := by
  unfold Wave.boundary; simp [h]

/-! ## The state -/

theorem map_upd_upd {α : Type} (id : α → Nat) (k : Nat) (f g : α → α) (hf : ∀ a, id a = k → id (f a) = k) (xs : List α) :
    (xs.map fun a => if id a = k then f a else a).map (fun a => if id a = k then g a else a) =
      xs.map fun a => if id a = k then g (f a) else a := by
  rw [List.map_map]
  congr 1
  funext a
  simp only [Function.comp]
  by_cases h : id a = k
  · rw [if_pos h, if_pos (hf a h), if_pos h]
  · rw [if_neg h, if_neg h, if_neg h]

theorem Workgroup.updWave_updWave (g : Workgroup) (k : Nat) (f h : Wave → Wave) (hf : ∀ w, w.waveid = k → (f w).waveid = k) :
    (g.updWave k f).updWave k h = g.updWave k fun w => h (f w) := by
  unfold Workgroup.updWave
  simp only
  rw [map_upd_upd Wave.waveid k f h hf]

theorem State.updWg_updWg (s : State) (k : Nat) (f h : Workgroup → Workgroup) (hf : ∀ g, g.id = k → (f g).id = k) :
    (s.updWg k f).updWg k h = s.updWg k fun g => h (f g) := by
  unfold State.updWg
  simp only
  rw [map_upd_upd Workgroup.id k f h hf]

theorem State.updWave_updWave (s : State) (g k : Nat) (f h : Wave → Wave) (hf : ∀ w, w.waveid = k → (f w).waveid = k) :
    (s.updWave g k f).updWave g k h = s.updWave g k fun w => h (f w) := by
  unfold State.updWave
  rw [State.updWg_updWg s g (fun x => x.updWave k f) (fun x => x.updWave k h) fun x hx => hx]
  simp only [Workgroup.updWave_updWave _ k f h hf]

theorem State.waveOf_of_site {s : State} {σ : Site} {g k : Nat} {w : Wave} (h : s.siteOf σ.p = some σ) (hp : σ.p = .wave g k)
    (hw : σ.w = some w) : s.wg? g = some σ.g ∧ σ.g.wave? k = some w ∧ σ.t = w.t ∧ s.waveOf g k = some w := by
  rw [hp] at h
  obtain ⟨-, h2, -, h4, -, h6⟩ := State.siteOf_some h
  have h6 := h6 g k rfl
  rw [hw] at h6
  have h4' : (σ.g.wave? k).map (·.t) = some σ.t := h4
  rw [← h6] at h4'
  simp only [Option.map_some, Option.some.injEq] at h4'
  exact ⟨h2, h6.symm, h4'.symm, by unfold State.waveOf; rw [show s.wg? g = some σ.g from h2]; exact h6.symm⟩

@[simp] theorem Wave.noteTrap_waveid (w : Wave) (c : Cause) (code fa : Nat) (l : Option Nat) (a : Nat) :
    (w.noteTrap c code fa l a).waveid = w.waveid := by
  unfold Wave.noteTrap; split <;> rfl

@[simp] theorem Wave.retire_waveid (w : Wave) (d : Bool) (pc next : Nat) (fl : Option Flight) :
    (w.retire d pc next fl).waveid = w.waveid := by
  unfold Wave.retire; simp only; split <;> simp

@[simp] theorem Wave.boundary_waveid (w : Wave) : w.boundary.waveid = w.waveid := by
  unfold Wave.boundary; split <;> rfl

/-- `retire` for a wave that neither steps nor is asked to halt, and has no cause pending, after a body that kept that. -/
theorem State.retire_wave {s : State} {σ : Site} {g k : Nat} (i : Instr) (next : Option Nat) (fl : Option Flight)
    (hp : σ.p = .wave g k) (hi : ∀ o sc, i ≠ .ord o sc)
    (h : ∀ gg w, s.wg? g = some gg → gg.wave? k = some w →
      w.dbg.step = false ∧ w.dbg.haltreq = false ∧ w.dbg.pending = none) :
    s.retire σ i next fl =
      s.issued.updWave g k fun w => (w.retire σ.n.dbg σ.t.pc (next.getD (σ.t.past i)) fl).boundary := by
  unfold State.retire
  have hroute : ∀ t : State, (∀ gg w, t.wg? g = some gg → gg.wave? k = some w → w.dbg.pending = none) →
      t.routeTrap (.wave g k) = t := by
    intro t ht
    unfold State.routeTrap
    simp only
    cases hg : t.wg? g with
    | none => rfl
    | some gg =>
      cases hw : gg.wave? k with
      | none => simp [hw]
      | some w => simp [hw, ht gg w hg hw]
  simp only [hp]
  rw [hroute]
  · cases i with
    | ord o sc => exact absurd rfl (hi o sc)
    | _ => rfl
  · intro gg w hg hw
    have e1 := State.wg?_updWg { s with cur := none, blocked := [], tick := s.tick + 1 } g g
      (fun x => x.updWave k fun w => (w.retire σ.n.dbg σ.t.pc (next.getD ((σ.t.pc + 4 * i.words) % 2 ^ 57)) fl).boundary)
      (fun x => rfl)
    rw [if_pos rfl] at e1
    rw [show (State.updWave _ g k _).wg? g = _ from e1] at hg
    cases hg0 : s.wg? g with
    | none => rw [show State.wg? { s with cur := none, blocked := [], tick := s.tick + 1 } g = none from hg0] at hg; simp at hg
    | some g0 =>
      rw [show State.wg? { s with cur := none, blocked := [], tick := s.tick + 1 } g = some g0 from hg0] at hg
      simp only [Option.map_some, Option.some.injEq] at hg
      subst hg
      rw [Workgroup.wave?_updWave _ _ _ _ (fun w => by simp), if_pos rfl] at hw
      cases hw0 : g0.wave? k with
      | none => rw [hw0] at hw; simp at hw
      | some w0 =>
        rw [hw0] at hw
        simp only [Option.map_some, Option.some.injEq] at hw
        subst hw
        obtain ⟨h1, h2, h3⟩ := h g0 w0 hg0 hw0
        rw [Wave.retire_plain h1]
        rw [Wave.boundary_plain]
        · exact h3
        · exact h2

/-- The same, as the wave it leaves. -/
theorem State.retire_wave_eq {w : Wave} (h1 : w.dbg.step = false) (h2 : w.dbg.haltreq = false) (d : Bool) (pc next : Nat)
    (fl : Option Flight) : (w.retire d pc next fl).boundary = w.retire d pc next fl := by
  rw [Wave.retire_plain h1]; exact Wave.boundary_plain h2

theorem Thread.retire_rest (t : Thread) (next : Nat) (fl : Option Flight) : ∃ fs n, t.retire next fl =
    { t with pc := next, flights := fs, nextId := n, ord := none, stallFrom := none } := ⟨_, _, rfl⟩

/-- A wave that keeps all but what one of its instructions may write, retired: the frame of `WaveStep`. -/
theorem Wave.retire_step {w : Wave} {v : Nat → Nat → Word} {p : Nat → Nat → Bool} {sr : Nat → DWord} {fr : Nat → Bool}
    {vr : Sparse Word} {vm : List Nat} {pr : Sparse Mask} {ss : Sparse DWord} {ff : BitVec 8} {sm : BitVec 64} {fls : List Flight}
    {st : FlagSet} (h1 : w.dbg.step = false) (d : Bool) (pc next : Nat) (fl : Option Flight)
    (hv : ∀ r l, l < 256 → Sparse.get (0 : Word) vr (256 * r + l) = v r l)
    (hp : ∀ k l, l < 256 → (decide (k = 0) || (Sparse.get (0 : Mask) pr k).getLsbD l) = p k l)
    (hs : ∀ n, n < 64 → Sparse.get (0 : DWord) ss n = sr n) (hf : ∀ n, n < 8 → (decide (n = 0) || ff.getLsbD n) = fr n)
    {raised : FlagSet} (hr : st ||| flagsOf fls ||| flagsOf fl.toList = w.flags ||| raised) :
    WaveStep w
      (Wave.retire { w with vregs := vr, vmark := vm, preds := pr, fpst := st,
                            t := { w.t with sregs := ss, fregs := ff, smark := sm, flights := fls } } d pc next fl)
      next v p sr fr raised := by
  have hfl : ∀ w1 : Wave, w1.dbg.step = false → (w1.retire d pc next fl).flags = w1.flags ||| flagsOf fl.toList :=
    fun _ h => Wave.retire_flags h d pc next fl
  constructor
  · rw [Wave.retire_plain (by exact h1)]; exact hv
  · rw [Wave.retire_plain (by exact h1)]; exact hp
  · rw [Wave.retire_plain (by exact h1)]; exact { sregs := hs, flags := hf, rest := rfl }
  · rw [hfl]
    · exact hr
    · exact h1
  · rw [Wave.retire_plain (by exact h1)]

end Sys2Proof.Machine
end

