-- ==== Sys2Proof/Laws/Lanes.lean ====
section
/-! SUPPORT. The forms that only write registers, once for all of them: what `laneOp`, `uniOp` and `flowOp` leave (R9, R22, R24, R70, R84). -/
namespace Sys2Proof.Machine

theorem PlainWave.step {i : Instr} {s : State} {σ : Site} {g k : Nat} {w : Wave} (h : PlainWave i s σ g k w) : w.dbg.step = false :=
  (h.plain.still w h.wave).1

theorem PlainWave.at_ {i : Instr} {s : State} {σ : Site} {g k : Nat} {w : Wave} (h : PlainWave i s σ g k w) :
    s.wg? g = some σ.g ∧ σ.g.wave? k = some w ∧ σ.t = w.t ∧ s.waveOf g k = some w :=
  State.waveOf_of_site h.plain.issues.cur.2 h.party h.wave

theorem PlainWave.quiet {i : Instr} {s : State} {σ : Site} {g k : Nat} {w : Wave} (h : PlainWave i s σ g k w) : w.t.Quiet := by
  rw [← h.at_.2.2.1]; exact h.plain.quiet

theorem Workgroup.wave?_id {g : Workgroup} {k : Nat} {w : Wave} (h : g.wave? k = some w) : w.waveid = k := by
  have := List.find?_some h; simpa using this

theorem State.wg?_id {s : State} {k : Nat} {g : Workgroup} (h : s.wg? k = some g) : g.id = k := by
  have := List.find?_some h; simpa using this

/-- What an update of the chosen wave leaves to look up. -/
theorem State.lookup_updWave {s : State} {g k : Nat} {gg : Workgroup} {w : Wave} (f : Wave → Wave) (hg : s.wg? g = some gg)
    (hw : gg.wave? k = some w) (hf : ∀ x, x.waveid = k → (f x).waveid = k) :
    ∃ g1, (s.updWave g k f).wg? g = some g1 ∧ g1.wave? k = some (f w) := by
  refine ⟨gg.updWave k f, ?_, ?_⟩
  · have := State.wg?_updWg s g g (fun x => x.updWave k f) (fun x => rfl)
    rw [if_pos rfl, hg] at this
    exact this
  · unfold Workgroup.wave? Workgroup.updWave at *
    simp only
    generalize gg.waves = ws at hw
    induction ws with
    | nil => simp at hw
    | cons x xs ih =>
      simp only [List.find?_cons] at hw
      by_cases hx : x.waveid = k
      · simp only [hx, beq_self_eq_true, Option.some.injEq] at hw
        subst hw
        simp [hx, hf x hx]
      · have hx' : (x.waveid == k) = false := by simpa using hx
        rw [hx'] at hw
        simp only [List.map_cons, List.find?_cons, if_neg hx, hx']
        exact ih hw

/-! ## Flags that writes of registers leave alone -/

theorem Thread.clobber_flags (t : Thread) (k : RegKey) (x : Nat) : flagsOf (t.clobber k x).flights = flagsOf t.flights :=
  by unfold Thread.clobber; exact flagsOf_map _ (fun f => by rfl) t.flights

theorem Thread.put_flags (t : Thread) (tick : Nat) (e : Write) : flagsOf (t.put tick e).flights = flagsOf t.flights := by
  unfold Thread.put
  split
  · exact Thread.clobber_flags ..
  · unfold Thread.putF; split
    · rfl
    · exact Thread.clobber_flags ..
  · rfl

theorem Wave.put_flags (w : Wave) (tick : Nat) (e : Write) : flagsOf (w.put tick e).t.flights = flagsOf w.t.flights := by
  unfold Wave.put
  split
  · exact Thread.clobber_flags ..
  · exact Thread.clobber_flags ..
  · unfold Wave.putP; split
    · rfl
    · exact Thread.clobber_flags ..
  · unfold Thread.putF; split
    · rfl
    · exact Thread.clobber_flags ..
  · rfl
  · rfl

theorem Wave.putAll_flags (w : Wave) (tick : Nat) (es : List Write) :
    flagsOf (w.putAll tick es).t.flights = flagsOf w.t.flights := by
  induction es generalizing w with
  | nil => rfl
  | cons e es ih => exact (ih (w.put tick e)).trans (Wave.put_flags w tick e)

theorem Thread.putAll_flags (t : Thread) (tick : Nat) (es : List Write) :
    flagsOf (t.putAll tick es).flights = flagsOf t.flights := by
  induction es generalizing t with
  | nil => rfl
  | cons e es ih => exact (ih (t.put tick e)).trans (Thread.put_flags t tick e)

theorem window_flags (σ : Site) (i : Instr) (olds : List (RegKey × Nat)) (fl : FlagSet) :
    flagsOf (σ.window i olds fl).toList = if i.la = 0 then 0 else fl := by
  unfold Site.window
  split
  · rfl
  · simp [flagsOf_cons]

theorem toNat_bit (b : Bool) : (b.toNat == 1) = b := by cases b <;> rfl

/-- Registers of a wave after writes, as a claim reads them. -/
theorem Wave.putAll_v {w : Wave} (hq : w.t.Quiet) (tick : Nat) (ws : List Write) (he : ∀ e ∈ ws, e.k.ok) (r l : Nat)
    (hl : l < 256) : (w.putAll tick ws).v r l = BitVec.ofNat 32 (lastWrite ws (.v r l) (w.v r l).toNat) := by
  have h := Wave.putAll_now hq tick ws (.v r l) he hl
  exact BitVec.eq_of_toNat_eq (by
    show (w.putAll tick ws).now (.v r l) = _
    rw [h]
    show lastWrite ws (.v r l) (w.v r l).toNat = _
    rw [BitVec.toNat_ofNat, Nat.mod_eq_of_lt]
    rw [show lastWrite ws (.v r l) (w.v r l).toNat = ((w.putAll tick ws).v r l).toNat from h.symm]
    exact BitVec.isLt _)

theorem Wave.putAll_s {w : Wave} (hq : w.t.Quiet) (tick : Nat) (ws : List Write) (he : ∀ e ∈ ws, e.k.ok) (n : Nat)
    (hn : n < 64) : (w.putAll tick ws).t.s n = BitVec.ofNat 64 (lastWrite ws (.s n) (w.t.s n).toNat) := by
  have h := Wave.putAll_now hq tick ws (.s n) he hn
  exact BitVec.eq_of_toNat_eq (by
    show (w.putAll tick ws).now (.s n) = _
    rw [h]
    show lastWrite ws (.s n) (w.t.s n).toNat = _
    rw [BitVec.toNat_ofNat, Nat.mod_eq_of_lt]
    rw [show lastWrite ws (.s n) (w.t.s n).toNat = ((w.putAll tick ws).t.s n).toNat from h.symm]
    exact BitVec.isLt _)

theorem Wave.putAll_p {w : Wave} (hq : w.t.Quiet) (tick : Nat) (ws : List Write) (he : ∀ e ∈ ws, e.k.ok) (k l : Nat)
    (hl : l < 256) : (w.putAll tick ws).p k l = (decide (k = 0) || lastWrite ws (.p k l) (w.p k l).toNat == 1) := by
  by_cases hk : k = 0
  · simp [Wave.p, hk]
  · have h := Wave.putAll_now hq tick ws (.p k l) he ⟨hk, hl⟩
    have h1 : (w.p k l).toNat = w.now (.p k l) := by simp [Wave.p, hk, Wave.now]
    rw [h1, ← h]
    simp [Wave.p, hk, Wave.now, toNat_bit]

theorem Wave.putAll_f {w : Wave} (hq : w.t.Quiet) (tick : Nat) (ws : List Write) (he : ∀ e ∈ ws, e.k.ok) (n : Nat)
    (hn : n < 8) : (w.putAll tick ws).t.f n = (decide (n = 0) || lastWrite ws (.f n) (w.t.f n).toNat == 1) := by
  by_cases hk : n = 0
  · simp [Thread.f, hk]
  · have h := Wave.putAll_now hq tick ws (.f n) he ⟨hk, hn⟩
    have h1 : (w.t.f n).toNat = w.now (.f n) := by simp [Thread.f, hk, Wave.now]
    rw [h1, ← h]
    simp [Thread.f, hk, Wave.now, toNat_bit]

theorem Thread.putAll_s {t : Thread} (hq : t.Quiet) (tick : Nat) (ws : List Write) (he : ∀ e ∈ ws, e.k.ok) (n : Nat)
    (hn : n < 64) : (t.putAll tick ws).s n = BitVec.ofNat 64 (lastWrite ws (.s n) (t.s n).toNat) := by
  have h := Thread.putAll_now hq tick ws (.s n) he hn (.inl ⟨n, rfl⟩)
  exact BitVec.eq_of_toNat_eq (by
    show (t.putAll tick ws).now (.s n) = _
    rw [h]
    show lastWrite ws (.s n) (t.s n).toNat = _
    rw [BitVec.toNat_ofNat, Nat.mod_eq_of_lt]
    rw [show lastWrite ws (.s n) (t.s n).toNat = ((t.putAll tick ws).s n).toNat from h.symm]
    exact BitVec.isLt _)

theorem Thread.putAll_f {t : Thread} (hq : t.Quiet) (tick : Nat) (ws : List Write) (he : ∀ e ∈ ws, e.k.ok) (n : Nat)
    (hn : n < 8) : (t.putAll tick ws).f n = (decide (n = 0) || lastWrite ws (.f n) (t.f n).toNat == 1) := by
  by_cases hk : n = 0
  · simp [Thread.f, hk]
  · have h := Thread.putAll_now hq tick ws (.f n) he ⟨hk, hn⟩ (.inr ⟨n, rfl⟩)
    have h1 : (t.f n).toNat = t.now (.f n) := by simp [Thread.f, hk, Thread.now]
    rw [h1, ← h]
    simp [Thread.f, hk, Thread.now, toNat_bit]

/-! ## Forms of a wave that write registers -/

/-- An update of the chosen wave, retired. -/
theorem State.retire_updWave {s : State} {σ : Site} {g k : Nat} {gg : Workgroup} {w : Wave} {i : Instr} (hi : ∀ o sc, i ≠ .ord o sc)
    (f : Wave → Wave) (next : Option Nat) (fl : Option Flight) (hp : σ.p = .wave g k) (hg : s.wg? g = some gg)
    (hw : gg.wave? k = some w) (hf : ∀ x, x.waveid = k → (f x).waveid = k)
    (hd : (f w).dbg.step = false ∧ (f w).dbg.haltreq = false ∧ (f w).dbg.pending = none) :
    (s.updWave g k f).retire σ i next fl =
      s.issued.updWave g k fun x => ((f x).retire σ.n.dbg σ.t.pc (next.getD (σ.t.past i)) fl).boundary := by
  obtain ⟨g1, hg1, hw1⟩ := State.lookup_updWave f hg hw hf
  rw [State.retire_wave i next fl hp hi]
  · exact State.updWave_updWave s.issued g k f _ hf
  · intro g2 w2 hg2 hw2
    rw [hg1] at hg2
    simp only [Option.some.injEq] at hg2
    subst hg2
    rw [hw1] at hw2
    simp only [Option.some.injEq] at hw2
    subst hw2
    exact hd

theorem laneOp_step {i : Instr} {s : State} {σ : Site} {g k : Nat} {w : Wave} (h : PlainWave i s σ g k w)
    (hi : ∀ o sc, i ≠ .ord o sc) (f : Wave → Nat → List Write × FlagSet)
    (he : ∀ e ∈ (f w s.tick).1, e.k.ok ∧ e.k ≠ .nevst) :
    ∃ t w', laneOp i s f = .next t ∧ s.Leaves t g k w w' ∧
      WaveStep w w' (w.t.past i)
        (fun r l => BitVec.ofNat 32 (lastWrite (f w s.tick).1 (.v r l) (w.v r l).toNat))
        (fun j l => decide (j = 0) || lastWrite (f w s.tick).1 (.p j l) (w.p j l).toNat == 1)
        (fun n => BitVec.ofNat 64 (lastWrite (f w s.tick).1 (.s n) (w.t.s n).toNat))
        (fun n => decide (n = 0) || lastWrite (f w s.tick).1 (.f n) (w.t.f n).toNat == 1)
        (f w s.tick).2 := by
  obtain ⟨hg, hwv, ht, hwo⟩ := h.at_
  obtain ⟨-, hreq, hpend⟩ := h.plain.still w h.wave
  have hq := h.quiet
  have hstep := h.step
  have hid : w.waveid = k := Workgroup.wave?_id hwv
  unfold laneOp
  rw [issueOp_of_issues h.plain.issues]
  simp only [h.party, h.wave, issueOp.finish]
  generalize f w s.tick = r at he ⊢
  obtain ⟨ws, raised⟩ := r
  simp only at he ⊢
  have hreal : ∀ e ∈ ws, e.k.ok := fun e x => (he e x).1
  have hfl := Wave.putAll_flags w s.tick ws
  have hv := Wave.putAll_v hq s.tick ws hreal
  have hp := Wave.putAll_p hq s.tick ws hreal
  have hs := Wave.putAll_s hq s.tick ws hreal
  have hf := Wave.putAll_f hq s.tick ws hreal
  obtain ⟨vr, vm, pr, sr, fr, sm, fls, hrest⟩ := Wave.putAll_rest w s.tick ws fun e x => (he e x).2
  rw [hrest] at hfl hv hp hs hf ⊢
  rw [State.retire_updWave hi _ _ _ h.party hg hwv (fun x hx => by exact hid) ⟨hstep, hreq, hpend⟩]
  refine ⟨_, _, rfl, ⟨_, rfl, rfl⟩, ?_⟩
  simp only
  rw [State.retire_wave_eq (by exact hstep) (by exact hreq), ht]
  refine Wave.retire_step hstep _ _ _ _ hv hp hs hf ?_
  rw [window_flags, hfl]
  unfold Wave.flags
  split
  · rw [show (0 : FlagSet) = 0#6 from rfl, BitVec.or_zero, BitVec.or_assoc, BitVec.or_assoc, BitVec.or_comm raised]
  · rfl

/-! ## Uniform forms -/

theorem State.updThread_wave (s : State) (g k : Nat) (f : Thread → Thread) :
    s.updThread (.wave g k) f = s.updWave g k fun w => { w with t := f w.t } := rfl

theorem Workgroup.updSeq_updSeq (g : Workgroup) (m : Bool) (k : Nat) (f h : SeqThread → SeqThread)
    (hf : ∀ t, (f t).matrix = t.matrix ∧ (f t).idx = t.idx) : (g.updSeq m k f).updSeq m k h = g.updSeq m k fun t => h (f t) := by
  unfold Workgroup.updSeq
  simp only [Option.map_map]
  congr 1
  refine congrArg (fun q => Option.map q g.resv) (funext fun r => ?_)
  simp only [Function.comp, List.map_map]
  congr 1
  apply List.map_congr_left
  intro t _
  simp only [Function.comp]
  by_cases hc : t.matrix = m ∧ t.idx = k
  · rw [if_pos hc, if_pos (by rw [(hf t).1, (hf t).2]; exact hc), if_pos hc]
  · rw [if_neg hc, if_neg hc, if_neg hc]

theorem State.updThread_updThread (s : State) (p : Party) (f h : Thread → Thread) :
    (s.updThread p f).updThread p h = s.updThread p fun t => h (f t) := by
  cases p with
  | wave g k =>
    simp only [State.updThread_wave]
    exact State.updWave_updWave s g k (fun w => { w with t := f w.t }) (fun w => { w with t := h w.t }) fun w hw => hw
  | mseq g k =>
    unfold State.updThread
    rw [State.updWg_updWg s _ (fun x => x.updThread (.mseq g k) f) (fun x => x.updThread (.mseq g k) h) fun x hx => hx]
    congr 1
    funext x
    exact Workgroup.updSeq_updSeq x true k _ _ fun t => ⟨rfl, rfl⟩
  | cseq g k =>
    unfold State.updThread
    rw [State.updWg_updWg s _ (fun x => x.updThread (.cseq g k) f) (fun x => x.updThread (.cseq g k) h) fun x hx => hx]
    congr 1
    funext x
    exact Workgroup.updSeq_updSeq x false k _ _ fun t => ⟨rfl, rfl⟩

/-- An update of a sequencer's thread, retired. -/
theorem State.retire_seq {s : State} {σ : Site} {i : Instr} (hi : ∀ o sc, i ≠ .ord o sc) (f : Thread → Thread)
    (next : Option Nat) (fl : Option Flight) (hp : ∀ g k, σ.p ≠ .wave g k) :
    (s.updThread σ.p f).retire σ i next fl = s.issued.updThread σ.p fun t => (f t).retire (next.getD (σ.t.past i)) fl := by
  have h : (s.updThread σ.p f).retire σ i next fl =
      (s.updThread σ.p f).issued.updThread σ.p fun t => t.retire (next.getD (σ.t.past i)) fl := by
    unfold State.retire
    cases hq : σ.p with
    | wave g k => exact absurd hq (hp g k)
    | _ =>
      cases i with
      | ord o sc => exact absurd rfl (hi o sc)
      | _ => rfl
  rw [h]
  exact State.updThread_updThread s.issued σ.p f _

theorem Thread.retire_step {t : Thread} {sr : Nat → DWord} {fr : Nat → Bool} {ss : Sparse DWord} {ff : BitVec 8}
    {sm : BitVec 64} {fls : List Flight} (pc : Nat) (fl : Option Flight)
    (hs : ∀ n, n < 64 → Sparse.get (0 : DWord) ss n = sr n) (hf : ∀ n, n < 8 → (decide (n = 0) || ff.getLsbD n) = fr n) :
    ThreadStep t (Thread.retire { t with sregs := ss, fregs := ff, smark := sm, flights := fls } pc fl) pc sr fr :=
  { sregs := hs, flags := hf, rest := rfl }

theorem Plain.cases {i : Instr} {s : State} {σ : Site} (h : Plain i s σ) :
    (∃ g k w, PlainWave i s σ g k w) ∨ (∀ g k, σ.p ≠ .wave g k) ∧ σ.w = none := by
  have hs := State.siteOf_some h.issues.cur.2
  cases hp : σ.p with
  | wave g k =>
    left
    have hr := h.issues.runnable
    unfold Site.runnable at hr
    cases hw : σ.w with
    | none => rw [hp, hw] at hr; simp at hr
    | some w => exact ⟨g, k, w, h, hp, hw⟩
  | mseq g k =>
    right
    refine ⟨fun _ _ => by simp, ?_⟩
    have h2 := h.issues.cur.2
    rw [hp] at h2
    unfold State.siteOf at h2
    split at h2; · simp at h2
    split at h2
    · split at h2
      · simp only [Option.some.injEq] at h2; rw [← h2]
      · simp at h2
    · simp at h2
  | cseq g k =>
    right
    refine ⟨fun _ _ => by simp, ?_⟩
    have h2 := h.issues.cur.2
    rw [hp] at h2
    unfold State.siteOf at h2
    split at h2; · simp at h2
    split at h2
    · split at h2
      · simp only [Option.some.injEq] at h2; rw [← h2]
      · simp at h2
    · simp at h2

/-- Forms that write s registers and flags, on a core or a sequencer. -/
theorem uniOp_step {i : Instr} {s : State} {σ : Site} (h : Plain i s σ) (hi : ∀ o sc, i ≠ .ord o sc)
    (f : Thread → Nat → List Write × FlagSet)
    (he : ∀ e ∈ (f σ.t s.tick).1, e.k.ok ∧ ((∃ n, e.k = .s n) ∨ ∃ n, e.k = .f n)) :
    ∃ t, uniOp i s f = .next t ∧
      UniformStep s t σ (σ.t.past i)
        (fun n => BitVec.ofNat 64 (lastWrite (f σ.t s.tick).1 (.s n) (σ.t.s n).toNat))
        (fun n => decide (n = 0) || lastWrite (f σ.t s.tick).1 (.f n) (σ.t.f n).toNat == 1)
        (f σ.t s.tick).2 := by
  have hq := h.quiet
  unfold uniOp
  rw [issueOp_of_issues h.issues]
  generalize f σ.t s.tick = r at he ⊢
  obtain ⟨ws, raised⟩ := r
  simp only at he ⊢
  have hreal : ∀ e ∈ ws, e.k.ok := fun e x => (he e x).1
  have hs := Thread.putAll_s hq s.tick ws hreal
  have hf := Thread.putAll_f hq s.tick ws hreal
  have hfl := Thread.putAll_flags σ.t s.tick ws
  obtain ⟨sr, fr, sm, fls, hrest⟩ := Thread.putAll_rest σ.t s.tick ws
  rw [hrest] at hs hf hfl
  rcases h.cases with ⟨g, k, w, hw⟩ | ⟨hp, hw⟩
  · obtain ⟨hg, hwv, ht, -⟩ := hw.at_
    obtain ⟨-, hreq, hpend⟩ := hw.plain.still w hw.wave
    have hstep := hw.step
    have hexec : (σ.p.executor == Executor.core) = true := by rw [hw.party]; rfl
    simp only [hw.party, issueOp.finish, UniformStep, hw.wave]
    rw [State.updThread_wave]
    rw [ht] at hrest hfl hs hf
    have hx : (Party.executor (.wave g k) == Executor.core) = true := rfl
    simp only [hx, if_true]
    by_cases hla : i.la = 0
    · refine ⟨_, congrArg Host.Outcome.next (a₂ := s.issued.updWave g k fun x => (({ x with
          t := x.t.putAll s.tick ws, fpst := x.fpst ||| raised } : Wave).retire σ.n.dbg σ.t.pc (σ.t.past i)
            (σ.window i (ws.map fun e => (e.k, σ.t.now e.k)) raised)).boundary) ?_, _, ⟨_, rfl, rfl⟩, ?_⟩
      · rw [if_pos hla, State.updWave_updWave s g k (fun w => { w with t := w.t.putAll s.tick ws })
          (fun w => { w with fpst := w.fpst ||| raised }) fun x hx => hx]
        exact State.retire_updWave hi (fun x => { x with t := x.t.putAll s.tick ws, fpst := x.fpst ||| raised }) none _ hw.party hg
          hwv (fun x hx => hx) ⟨hstep, hreq, hpend⟩
      · rw [State.retire_wave_eq (by exact hstep) (by exact hreq), ht, hrest]
        refine Wave.retire_step (vr := w.vregs) (vm := w.vmark) (pr := w.preds) hstep _ _ _ _ (fun _ _ _ => rfl)
          (fun _ _ _ => rfl) hs hf ?_
        rw [window_flags, if_pos hla, hfl]
        unfold Wave.flags
        rw [show (0 : FlagSet) = 0#6 from rfl, BitVec.or_zero, BitVec.or_assoc, BitVec.or_assoc, BitVec.or_comm raised]
    · refine ⟨_, congrArg Host.Outcome.next (a₂ := s.issued.updWave g k fun x => (({ x with
          t := x.t.putAll s.tick ws } : Wave).retire σ.n.dbg σ.t.pc (σ.t.past i)
            (σ.window i (ws.map fun e => (e.k, σ.t.now e.k)) raised)).boundary) ?_, _, ⟨_, rfl, rfl⟩, ?_⟩
      · rw [if_neg hla]
        exact State.retire_updWave hi (fun x => { x with t := x.t.putAll s.tick ws }) none _ hw.party hg
          hwv (fun x hx => hx) ⟨hstep, hreq, hpend⟩
      · rw [State.retire_wave_eq (by exact hstep) (by exact hreq), ht, hrest]
        refine Wave.retire_step (vr := w.vregs) (vm := w.vmark) (pr := w.preds) hstep _ _ _ _ (fun _ _ _ => rfl)
          (fun _ _ _ => rfl) hs hf ?_
        rw [window_flags, if_neg hla, hfl]
        rfl
  · have hU : ∀ t pc sr fr fl, UniformStep s t σ pc sr fr fl = ∃ t', s.LeavesThread t σ.p σ.t t' ∧ ThreadStep σ.t t' pc sr fr := by
      intro t pc sr fr fl
      unfold UniformStep
      rw [hw]
      cases hq : σ.p with
      | wave g k => exact absurd hq (hp g k)
      | _ => rfl
    simp only [hU, issueOp.finish]
    have hm : (match σ.p with
        | .wave g k => if i.la = 0 then (s.updThread σ.p fun t => t.putAll s.tick ws).updWave g k fun w => { w with fpst := w.fpst ||| raised }
          else s.updThread σ.p fun t => t.putAll s.tick ws
        | _ => s.updThread σ.p fun t => t.putAll s.tick ws) = s.updThread σ.p fun t => t.putAll s.tick ws := by
      cases hq : σ.p with
      | wave g k => exact absurd hq (hp g k)
      | _ => rfl
    refine ⟨_, rfl, _, ⟨fun t => (t.putAll s.tick ws).retire (σ.t.past i)
        (σ.window i (ws.map fun e => (e.k, σ.t.now e.k)) (if σ.p.executor == .core then raised else 0)), rfl, ?_⟩, ?_⟩
    · refine Eq.trans ?_ (State.retire_seq hi (fun t => t.putAll s.tick ws) none _ hp)
      congr 1
    · dsimp only; rw [hrest]; exact Thread.retire_step _ _ hs hf

end Sys2Proof.Machine
end

