-- ==== Sys2Proof/Laws/IntLane.lean ====
section
/-! SUPPORT. The shapes of per-lane results: one word, a pair, a predicate bit in each active lane (R9, R11, R18, R84). -/
namespace Sys2Proof.Machine

theorem Wave.active_nodup (w : Wave) (tick : Nat) (i : Instr) : (w.active tick i).Nodup := by
  unfold Wave.active lanesOf
  exact (List.nodup_range.filter _).filter _

theorem WaveStep.congr {w w' : Wave} {pc : Nat} {v v' : Nat → Nat → Word} {p p' : Nat → Nat → Bool} {sr sr' : Nat → DWord}
    {fr fr' : Nat → Bool} {x x' : FlagSet} (h : WaveStep w w' pc v p sr fr x) (hv : ∀ r l, l < 256 → v r l = v' r l)
    (hp : ∀ k l, l < 256 → p k l = p' k l) (hs : ∀ n, n < 64 → sr n = sr' n) (hf : ∀ n, n < 8 → fr n = fr' n) (hx : x = x') :
    WaveStep w w' pc v' p' sr' fr' x' :=
  { vregs := fun r l hl => (h.vregs r l hl).trans (hv r l hl)
    preds := fun k l hl => (h.preds k l hl).trans (hp k l hl)
    thread := { sregs := fun n hn => (h.thread.sregs n hn).trans (hs n hn)
                flags := fun n hn => (h.thread.flags n hn).trans (hf n hn)
                rest := h.thread.rest }
    flags := hx ▸ h.flags
    rest := h.rest }

theorem Wave.p_idem (w : Wave) (k l : Nat) : (decide (k = 0) || (w.p k l).toNat == 1) = w.p k l := by
  rw [toNat_bit]; unfold Wave.p; cases decide (k = 0) <;> simp

theorem Thread.f_idem (t : Thread) (n : Nat) : (decide (n = 0) || (t.f n).toNat == 1) = t.f n := by
  rw [toNat_bit]; unfold Thread.f; cases decide (n = 0) <;> simp

theorem map_eq_lanes {α β : Type} (f : α → β) (xs : List α) : xs.map f = xs.flatMap fun l => [f l] := by
  induction xs with
  | nil => rfl
  | cons x xs ih => simp [List.flatMap_cons, ih]

/-- Results of lanes: writes of v registers, each of its own lane. -/
theorem lanes_step {i : Instr} {s : State} {σ : Site} {g k : Nat} {w : Wave} (h : PlainWave i s σ g k w)
    (hi : ∀ o sc, i ≠ .ord o sc) (ws : Nat → List Write) (fl : FlagSet) (f : Wave → Nat → List Write × FlagSet)
    (hf : f w s.tick = ((w.active s.tick i).flatMap ws, fl))
    (hw : ∀ l, ∀ e ∈ ws l, ∃ r, e.k = .v r l) :
    ∃ t w', laneOp i s f = .next t ∧ s.Leaves t g k w w' ∧
      WaveStep w w' (w.t.past i)
        (fun r l => if w.on i l then BitVec.ofNat 32 (lastWrite (ws l) (.v r l) (w.v r l).toNat) else w.v r l)
        w.p w.t.s w.t.f fl := by
  have hmem := Wave.mem_active h.quiet s.tick i
  obtain ⟨t, w', h1, h2, h3⟩ := laneOp_step h hi f (by
    intro e he
    rw [hf] at he
    obtain ⟨l, hl, hel⟩ := List.mem_flatMap.mp he
    obtain ⟨r, hr⟩ := hw l e hel
    rw [hr]
    exact ⟨((hmem l).mp hl).1, by simp⟩)
  have hother : ∀ key : RegKey, (∀ r l, key ≠ .v r l) → ∀ x, lastWrite (f w s.tick).1 key x = x := by
    intro key hk x
    apply lastWrite_of_none
    intro e he
    rw [hf] at he
    obtain ⟨l, hl, hel⟩ := List.mem_flatMap.mp he
    obtain ⟨r, hr⟩ := hw l e hel
    rw [hr]; exact fun hc => hk r l hc.symm
  refine ⟨t, w', h1, h2, h3.congr ?_ ?_ ?_ ?_ (by rw [hf])⟩
  · intro r l hl
    rw [hf]
    simp only
    rw [lastWrite_lanes (l := l) (Wave.active_nodup w s.tick i)]
    · by_cases hon : w.on i l = true
      · rw [if_pos ((hmem l).mpr ⟨hl, hon⟩), if_pos hon]
      · rw [if_neg (fun hc => hon ((hmem l).mp hc).2), if_neg hon]; simp
    · intro j _ hjl e he
      obtain ⟨r', hr'⟩ := hw j e he
      rw [hr']; simp [hjl]
  · intro j l _; rw [hother _ (by simp)]; exact Wave.p_idem w j l
  · intro n _; rw [hother _ (by simp)]; simp
  · intro n _; rw [hother _ (by simp)]; exact Thread.f_idem w.t n

theorem aluV_step {i : Instr} {s : State} {σ : Site} {g k : Nat} {w : Wave} (h : PlainWave i s σ g k w)
    (hi : ∀ o sc, i ≠ .ord o sc) (d : Nat) (f : Wave → Nat → Nat → Word) :
    ∃ t w', aluV i d s f = .next t ∧ s.Leaves t g k w w' ∧
      WaveStep w w' (w.t.past i) (fun r l => if w.on i l = true ∧ r = d then f w s.tick l else w.v r l) w.p w.t.s w.t.f 0 := by
  obtain ⟨t, w', h1, h2, h3⟩ := lanes_step h hi (fun l => [⟨.v d l, (f w s.tick l).toNat⟩]) 0
    (fun w tick => ((w.active tick i).map fun l => ⟨.v d l, (f w tick l).toNat⟩, 0)) (by rw [map_eq_lanes])
    (by intro l e he; simp only [List.mem_singleton] at he; exact ⟨d, by rw [he]⟩)
  refine ⟨t, w', h1, h2, h3.congr ?_ (fun _ _ _ => rfl) (fun _ _ => rfl) (fun _ _ => rfl) rfl⟩
  intro r l _
  by_cases hon : w.on i l = true
  · by_cases hr : r = d
    · subst hr; simp [hon, lastWrite, RegKey.fit, -BitVec.ofNat_toNat]; apply BitVec.eq_of_toNat_eq; simpa using (f w s.tick l).isLt
    · have : ¬ d = r := fun h => hr h.symm
      simp [hon, hr, lastWrite, this]
  · simp [hon]

theorem aluV2_step {i : Instr} {s : State} {σ : Site} {g k : Nat} {w : Wave} (h : PlainWave i s σ g k w)
    (hi : ∀ o sc, i ≠ .ord o sc) (d : Nat) (f : Wave → Nat → Nat → DWord) :
    ∃ t w', aluV2 i d s f = .next t ∧ s.Leaves t g k w w' ∧
      WaveStep w w' (w.t.past i)
        (fun r l => if w.on i l = true ∧ r = d then (f w s.tick l).setWidth 32
          else if w.on i l = true ∧ r = d + 1 then ((f w s.tick l) >>> 32).setWidth 32 else w.v r l) w.p w.t.s w.t.f 0 := by
  obtain ⟨t, w', h1, h2, h3⟩ := lanes_step h hi (fun l => writesN d l 2 (f w s.tick l).toNat) 0
    (fun w tick => ((w.active tick i).flatMap fun l => writesN d l 2 (f w tick l).toNat, 0)) rfl
    (by intro l e he; unfold writesN at he; simp only [List.mem_map] at he; obtain ⟨j, -, rfl⟩ := he; exact ⟨d + j, rfl⟩)
  refine ⟨t, w', h1, h2, h3.congr ?_ (fun _ _ _ => rfl) (fun _ _ => rfl) (fun _ _ => rfl) rfl⟩
  intro r l _
  by_cases hon : w.on i l = true
  · simp only [hon, if_true, true_and]
    have hwr : writesN d l 2 (f w s.tick l).toNat =
        [⟨.v d l, (f w s.tick l).toNat % 2 ^ 32⟩, ⟨.v (d + 1) l, (f w s.tick l).toNat / 2 ^ 32 % 2 ^ 32⟩] := by
      simp [writesN, List.range_succ]
    rw [hwr]
    by_cases hr : r = d
    · subst hr
      simp [lastWrite, RegKey.fit]
      apply BitVec.eq_of_toNat_eq; simp
    · by_cases hr1 : r = d + 1
      · subst hr1
        simp [lastWrite, RegKey.fit]
        apply BitVec.eq_of_toNat_eq; simp [Nat.shiftRight_eq_div_pow]
      · have h1 : ¬ d = r := fun h => hr h.symm
        have h2 : ¬ d + 1 = r := fun h => hr1 h.symm
        simp [hr, hr1, lastWrite, h1, h2]
  · simp [hon]

theorem aluP_step {i : Instr} {s : State} {σ : Site} {g k : Nat} {w : Wave} (h : PlainWave i s σ g k w)
    (hi : ∀ o sc, i ≠ .ord o sc) (d : Nat) (f : Wave → Nat → Nat → Bool) :
    ∃ t w', aluP i d s f = .next t ∧ s.Leaves t g k w w' ∧
      WaveStep w w' (w.t.past i) w.v
        (fun j l => if j = 0 then true else if j = d ∧ w.on i l = true then f w s.tick l else w.p j l) w.t.s w.t.f 0 := by
  obtain ⟨t, w', h1, h2, h3⟩ := laneOp_step h hi
    (fun w tick => ((w.active tick i).map fun l => ⟨.p d l, (f w tick l).toNat⟩, 0)) (by
      intro e he
      obtain ⟨l, hl, rfl⟩ := List.mem_map.mp he
      exact ⟨((Wave.mem_active h.quiet s.tick i l).mp hl).1, by simp⟩)
  refine ⟨t, w', h1, h2, h3.congr ?_ ?_ ?_ ?_ rfl⟩
  · intro r l _; rw [lastWrite_of_none (by simp)]; simp
  · intro j l hl
    simp only
    rw [show ((w.active s.tick i).map fun l => (⟨.p d l, (f w s.tick l).toNat⟩ : Write)) =
      (w.active s.tick i).flatMap fun l => [⟨.p d l, (f w s.tick l).toNat⟩] from map_eq_lanes _ _]
    by_cases hj : j = 0
    · simp [hj]
    · rw [lastWrite_lanes (l := l) (Wave.active_nodup w s.tick i)]
      · by_cases hon : w.on i l = true
        · rw [if_pos ((Wave.mem_active h.quiet s.tick i l).mpr ⟨hl, hon⟩)]
          by_cases hd : j = d
          · subst hd; simp [hj, hon, lastWrite, RegKey.fit, toNat_bit]
          · have : ¬ d = j := fun h => hd h.symm
            simp [hj, hd, lastWrite, this, toNat_bit]
        · rw [if_neg (fun hc => hon ((Wave.mem_active h.quiet s.tick i l).mp hc).2)]
          simp [hj, hon, toNat_bit]
      · intro a _ hal e he
        simp only [List.mem_singleton] at he
        rw [he]; simp [hal]
  · intro n _; rw [lastWrite_of_none (by simp)]; simp
  · intro n _; rw [lastWrite_of_none (by simp)]; exact Thread.f_idem w.t n

end Sys2Proof.Machine
end

