-- ==== Sys2Proof/Laws/Memory.lean ====
section
/-! SUPPORT. Every operation that writes memory keeps its canonical form, and what a read finds after a write (R215, R227). -/
namespace Sys2Proof.Machine

theorem Memory.wf_set {m : Memory} (a : Nat) (b : Byte) (h : m.wf = true) : Memory.wf (Sparse.set 0 m a b) = true :=
  Sparse.wf_set a b h

theorem Memory.wf_writes {m : Memory} (bs : List (Nat × Byte)) (h : m.wf = true) :
    Memory.wf (bs.foldl (fun m e => Sparse.set 0 m e.1 e.2) m) = true :=
  Sparse.wf_foldl_set bs h

theorem State.reset_memOk : State.reset.MemOk := by
  unfold State.MemOk; decide

/-- What a fold keeps, when every step of it does. -/
theorem foldl_keeps {σ α : Type} (P : σ → Prop) (f : σ → α → σ) (hf : ∀ s a, P s → P (f s a)) (xs : List α) :
    ∀ s, P s → P (xs.foldl f s) := by
  induction xs with
  | nil => exact fun _ h => h
  | cons a xs ih => exact fun s h => ih _ (hf s a h)

/-! ## Homes -/

theorem Home.lower_wf (h : Home) (line : Nat) (hm : h.mem.wf = true) : (h.lower line).mem.wf = true := by
  unfold Home.lower
  split
  · exact hm
  · split
    · exact Memory.wf_writes _ hm
    · exact hm

theorem State.dropDown_mem (k : Nat) (core : Option Nat) (n : Nat) : ∀ s : State, (s.dropDown k core n).home.mem = s.home.mem := by
  induction n with
  | zero => exact fun _ => rfl
  | succ n ih => intro s; unfold State.dropDown; dsimp only; split; · rfl
                 · rw [ih]

@[simp] theorem State.trimCache_mem (s : State) (k : Nat) (core : Option Nat) : (s.trimCache k core).home.mem = s.home.mem :=
  State.dropDown_mem k core _ s

@[simp] theorem State.writeBack_mem (s : State) (n : Nat) : (s.writeBack n).home.mem = s.home.mem := by
  unfold State.writeBack; dsimp only; repeat' split
  all_goals rfl

@[simp] theorem State.evictLine_mem (s : State) (n : Nat) : (s.evictLine n).home.mem = s.home.mem := by
  unfold State.evictLine; dsimp only; split <;> simp

theorem State.evictDown_mem (slice n : Nat) : ∀ s : State, (s.evictDown slice n).home.mem = s.home.mem := by
  induction n with
  | zero => exact fun _ => rfl
  | succ n ih =>
    intro s; unfold State.evictDown; dsimp only; split
    · rfl
    · split
      · rfl
      · rw [ih, State.evictLine_mem]

@[simp] theorem State.trimSlice_mem (s : State) (slice : Nat) : (s.trimSlice slice).home.mem = s.home.mem :=
  State.evictDown_mem slice _ s

theorem State.trimEach_mem (ls : List Nat) : ∀ s : State, (ls.foldl State.trimSlice s).home.mem = s.home.mem := by
  induction ls with
  | nil => exact fun _ => rfl
  | cons l ls ih => intro s; simp only [List.foldl_cons]; rw [ih, State.trimSlice_mem]

@[simp] theorem State.trimSlices_mem (s : State) : s.trimSlices.home.mem = s.home.mem := by
  unfold State.trimSlices; rw [State.trimEach_mem]

@[simp] theorem Home.recount_mem (h : Home) (line rc : Nat) : (h.recount line rc).mem = h.mem := by
  unfold Home.recount; split <;> rfl

@[simp] theorem State.countElided_mem (s : State) (pa : Nat) : (s.countElided pa).home.mem = s.home.mem := by
  unfold State.countElided; split <;> rfl

@[simp] theorem State.revive_mem (s : State) (pa : Nat) : (s.revive pa).home.mem = s.home.mem := by
  unfold State.revive; split <;> rfl

@[simp] theorem State.poisonRange_mem (s : State) (pa n : Nat) : (s.poisonRange pa n).home.mem = s.home.mem := by
  unfold State.poisonRange; split <;> rfl

@[simp] theorem State.addCopy_mem (s : State) (c : Copy) : (s.addCopy c).home.mem = s.home.mem := State.trimCache_mem _ _ _

@[simp] theorem State.updateCopies_mem (s : State) (k : Nat) (core : Option Nat) (bs : List (Nat × Byte)) (bad : Bool) :
    (s.updateCopies k core bs bad).home.mem = s.home.mem := by
  unfold State.updateCopies; split <;> rfl

@[simp] theorem State.readSector_mem (s : State) (k : Nat) (core : Option Nat) (slot lease sec : Nat) :
    (s.readSector k core slot lease sec).1.home.mem = s.home.mem := by
  simp only [State.readSector]
  repeat' split
  all_goals simp

/-! ## The canonical form is kept -/

theorem State.lowerCounts_memOk (s : State) (lines : List Nat) (h : s.MemOk) : (s.lowerCounts lines).MemOk :=
  foldl_keeps (fun x : Home => x.mem.wf = true) Home.lower Home.lower_wf _ _ h

theorem State.revive_memOk (s : State) (pa : Nat) (h : s.MemOk) : (s.revive pa).MemOk := by
  unfold State.MemOk; rw [State.revive_mem]; exact h

theorem State.pokeSector_memOk (s : State) (slot sec : Nat) (bs : List (Nat × Byte)) (h : s.MemOk) :
    (s.pokeSector slot sec bs).MemOk := Memory.wf_writes bs h

theorem State.poke_memOk (s : State) (slot rc : Nat) (bs : List (Nat × Byte)) (h : s.MemOk) : (s.poke slot rc bs).MemOk := by
  unfold State.poke
  dsimp only
  unfold State.MemOk
  rw [State.trimEach_mem]
  apply foldl_keeps State.MemOk _ fun s a => State.pokeSector_memOk s slot a _
  have h1 := foldl_keeps State.MemOk (fun s (e : Nat × Byte) => s.revive e.1) (fun s a => State.revive_memOk s a.1) bs s h
  exact foldl_keeps (fun x : Home => x.mem.wf = true) _ (fun x l hx => by rw [Home.recount_mem]; exact hx) _ _ h1

theorem State.zeroWhere_memOk (s : State) (p : Nat → Bool) (h : s.MemOk) : (s.zeroWhere p).MemOk :=
  Sparse.wf_keep (d := (0 : Byte)) (fun a => !p a) h

theorem State.zeroRange_memOk (s : State) (pa n : Nat) (h : s.MemOk) : (s.zeroRange pa n).MemOk := State.zeroWhere_memOk s _ h

theorem State.clearLive_memOk (s : State) (region : Nat) (h : s.MemOk) : (s.clearLive region).MemOk :=
  State.zeroRange_memOk s _ _ h

theorem State.poisonRange_memOk (s : State) (pa n : Nat) (h : s.MemOk) : (s.poisonRange pa n).MemOk := by
  unfold State.MemOk; rw [State.poisonRange_mem]; exact h

theorem foldl_memOk {α : Type} (f : State → α → State) (xs : List α) (s : State) (h : s.MemOk)
    (hf : ∀ s a, State.MemOk s → State.MemOk (f s a)) : (xs.foldl f s).MemOk := foldl_keeps State.MemOk f hf xs s h

theorem State.reviveRange_memOk (s : State) (pa n : Nat) (h : s.MemOk) : (s.reviveRange pa n).MemOk :=
  foldl_memOk _ _ _ h fun _ _ h => State.revive_memOk _ _ h

theorem State.copyBytes_memOk (s : State) (f : Nat → Nat) (bs : List (Nat × Byte)) (h : s.MemOk) : (s.copyBytes f bs).MemOk :=
  foldl_keeps (fun m : Memory => m.wf = true) _ (fun _ _ hm => Memory.wf_set _ _ hm) bs _ h

theorem State.copyKeys_memOk (s : State) (f : Nat → Nat) (ls : List (Nat × Nat)) (h : s.MemOk) : (s.copyKeys f ls).MemOk := h
theorem State.copyMarks_memOk (s : State) (ps : List Nat) (cs : List CountLine) (h : s.MemOk) : (s.copyMarks ps cs).MemOk := h

theorem State.copyPage_memOk (s : State) (src dst n : Nat) (h : s.MemOk) : (s.copyPage src dst n).MemOk := by
  unfold State.copyPage
  dsimp only
  unfold State.MemOk
  rw [State.trimSlices_mem]
  exact State.copyMarks_memOk _ _ _ (State.copyKeys_memOk _ _ _ (State.copyBytes_memOk _ _ _
    (State.zeroRange_memOk _ dst n (State.reviveRange_memOk _ dst n h))))

/-! ## Reading after writing -/

theorem Home.byte_writes (bs : List (Nat × Byte)) (a : Nat) :
    ∀ m : Memory, a ∉ bs.map (·.1) →
      Sparse.get (0 : Byte) (bs.foldl (fun m e => Sparse.set 0 m e.1 e.2) m) a = Sparse.get 0 m a := by
  induction bs with
  | nil => exact fun _ _ => rfl
  | cons b bs ih =>
    intro m ha
    simp only [List.map_cons, List.mem_cons, not_or] at ha
    simp only [List.foldl_cons]
    rw [ih _ ha.2, Sparse.get_set, if_neg ha.1]

/-- A write to one sector leaves every byte that it does not name as it was. -/
theorem State.pokeSector_byte (s : State) (slot sec : Nat) (bs : List (Nat × Byte)) (a : Nat)
    (ha : a ∉ bs.map (·.1)) : (s.pokeSector slot sec bs).byte a = s.byte a :=
  Home.byte_writes bs a _ ha

theorem State.revives_mem (bs : List (Nat × Byte)) :
    ∀ s : State, (bs.foldl (fun s e => s.revive e.1) s).home.mem = s.home.mem := by
  induction bs with
  | nil => exact fun _ => rfl
  | cons b bs ih => intro s; simp only [List.foldl_cons]; rw [ih, State.revive_mem]

theorem Home.recounts_mem (rc : Nat) (ls : List Nat) :
    ∀ h : Home, (ls.foldl (fun h l => h.recount l rc) h).mem = h.mem := by
  induction ls with
  | nil => exact fun _ => rfl
  | cons l ls ih => intro h; simp only [List.foldl_cons]; rw [ih, Home.recount_mem]

theorem State.pokeSectors_byte (slot : Nat) (f : Nat → List (Nat × Byte)) (a : Nat) (secs : List Nat)
    (ha : ∀ sec ∈ secs, a ∉ (f sec).map (·.1)) :
    ∀ s : State, (secs.foldl (fun s sec => s.pokeSector slot sec (f sec)) s).byte a = s.byte a := by
  induction secs with
  | nil => exact fun _ => rfl
  | cons sec secs ih =>
    intro s
    simp only [List.foldl_cons]
    rw [ih (fun x hx => ha x (List.mem_cons_of_mem _ hx)), State.pokeSector_byte s slot sec _ a (ha sec List.mem_cons_self)]

/-- A write leaves every byte that it does not name as it was. -/
theorem State.poke_byte (s : State) (slot rc : Nat) (bs : List (Nat × Byte)) (a : Nat)
    (ha : a ∉ bs.map (·.1)) : (s.poke slot rc bs).byte a = s.byte a := by
  unfold State.poke
  have hm : ∀ t u : State, t.home.mem = u.home.mem → t.byte a = u.byte a := fun t u ht => by
    unfold State.byte Home.byte; rw [ht]
  dsimp only
  rw [hm _ _ (State.trimEach_mem _ _)]
  rw [State.pokeSectors_byte slot _ a _ ?_]
  · exact hm _ s (by rw [Home.recounts_mem]; exact State.revives_mem bs s)
  · intro sec _ hmem
    simp only [List.mem_map, List.mem_filter] at hmem ha
    obtain ⟨e, ⟨he, _⟩, hea⟩ := hmem
    exact ha ⟨e, he, hea⟩

end Sys2Proof.Machine
end

