-- ==== Sys2Proof/Tests/Base.lean ====
section
/-! SUPPORT. Small states for the tests: one context, one workgroup of one wave on core 0 with a quadrant and both sequencer threads, and changes to
it. -/
namespace Sys2Proof.Tests
-- One theorem at a time: each kernel evaluation waits for the ones before it, and a waiting thread costs memory.
set_option Elab.async false
open Sys2Proof Sys2Proof.Machine

/-- No guard and no lookahead. -/
def tl : Tail := ⟨0, false, 0⟩

/-- A wave is about to issue. -/
def base : State := State.reset.withFetchWord 32 0x80000000
/-- The matrix thread, and the copy thread, of the wave's workgroup is about to issue. -/
def baseM : State := { base with cur := some (.mseq 0 0) }
def baseC : State := { base with cur := some (.cseq 0 0) }
/-- Nobody is about to issue. -/
def still : State := { base with cur := none }

def wg0 : Workgroup := base.wgs.headD codeWorkgroup
def wave0 : Wave := (codeWorkgroup.waves.headD ⟨codeThread, [], [], [], 0, [], 0, 0, 0, 0, 0, 0, none, 0, 0, 0, ⟨false, false, false, false, 0, none, none⟩, false, []⟩)
def node0 : Node := (codeContext.node? 0).getD ⟨0, 0, 0, 0, 0, 0, 0, 0, 0, 0, 0, 0, 0, 0, 0, 0, false, false, false, false, 0, 0, false, 0, 0, 0, 0, 0⟩
/-- The site of a state whose party is the wave, or a sequencer thread. -/
def site0 : Site := ⟨.wave 0 0, codeWorkgroup, codeContext, node0, some wave0, codeThread⟩
def at_ (s : State) : Site := s.site.getD site0
def of_ (s : State) (p : Party) : Site := (s.siteOf p).getD site0
def waveAt (s : State) : Wave := (s.waveOf 0 0).getD wave0
def ctxAt (s : State) : Context := (s.ctx? 0).getD codeContext
def resvAt (s : State) : Reservation := ((s.wg? 0).bind (·.resv)).getD ⟨[], [], [], [], [], []⟩
def seqAt (s : State) (p : Party) : SeqThread := ((s.wg? 0).bind (·.seqOf p)).getD ⟨true, 0, codeThread, false, (0, 0), none, [], [], []⟩

/-- With the wave, its thread, the workgroup, the node or the context changed. -/
def onWave (s : State) (f : Wave → Wave) : State := s.updWave 0 0 f
def onThread (s : State) (f : Thread → Thread) : State := s.updThread (s.cur.getD (.wave 0 0)) f
def onWg (s : State) (f : Workgroup → Workgroup) : State := s.updWg 0 f
def onCtx (s : State) (f : Context → Context) : State := s.updCtx 0 f
def onNode (s : State) (f : Node → Node) : State :=
  onCtx s fun c => { c with graph := c.graph.map fun g => { g with nodes := g.nodes.map f } }
/-- s registers of the party that issues. -/
def regs (s : State) (xs : List (Nat × DWord)) : State := onThread s fun t => { t with sregs := xs }

theorem quiet_of_flights {t : Thread} (h : t.flights = []) : t.Quiet := by intro k; simp [Thread.early, h]

/-- The checks of an instruction's issue, as one test. -/
def plainB (i : Instr) (s : State) : Bool :=
  issuesB i s (at_ s) && (at_ s).t.flights.isEmpty && (match (at_ s).w with | some w => !w.dbg.step && !w.dbg.haltreq && w.dbg.pending.isNone | none => true)

theorem plain_of {i : Instr} {s : State} (h : plainB i s = true) : Plain i s (at_ s) := by
  simp only [plainB, Bool.and_eq_true, List.isEmpty_iff] at h
  refine ⟨Issues.of_check h.1.1, quiet_of_flights h.1.2, fun w hw => ?_⟩
  have h2 := h.2
  rw [hw] at h2
  simpa [Wave.Undebugged, and_assoc] using h2

theorem wave_of {i : Instr} {s : State} (h : plainB i s = true) (hp : (at_ s).p = .wave 0 0) (hw : (at_ s).w = some (waveAt s)) :
    PlainWave i s (at_ s) 0 0 (waveAt s) := ⟨plain_of h, hp, hw⟩

/-- The same as one test. -/
def waveB (i : Instr) (s : State) : Bool := plainB i s && (at_ s).p == .wave 0 0 && (at_ s).w == some (waveAt s)

theorem wave_ofB {i : Instr} {s : State} (h : waveB i s = true) : PlainWave i s (at_ s) 0 0 (waveAt s) := by
  simp only [waveB, Bool.and_eq_true, beq_iff_eq] at h
  exact wave_of h.1.1 h.1.2 h.2

/-- A page of data at virtual address 0x11000, readable and writable, at physical address 0x20000. -/
def paged (s : State) : State :=
  { s with home := { s.home with mem :=
    (located (0x5000 + 8 * 17) (leBytes 8 (2 ^ 56 + 0x20000 + 0x99))).foldl (fun m e => Sparse.set 0 m e.1 e.2) s.home.mem } }
/-- The same with some bytes at its start. -/
def filled (s : State) (bs : List Byte) : State :=
  { s with home := { s.home with mem := (located 0x20000 bs).foldl (fun m e => Sparse.set 0 m e.1 e.2) s.home.mem } }

/-- With every station trained and no request open, each station takes one. -/
theorem stationFree_of {s : State} (h1 : s.peers.stations = []) (h2 : s.peers.reqs = []) (pa : Nat) : s.stationFree pa = true := by
  cases h : ownWindow pa <;> simp [State.stationFree, State.stationsFree, h1, h2, h]

/-- An access that passes its checks, with its data. -/
def accOf (s : State) (σ : Site) (i : Instr) (l : Nat) : Access :=
  match σ.touch l i with
  | some x => (match s.check σ x.sp x.bytes x.need l x.addr with | .ok a => { a with v := x.v, cmp := x.cmp } | _ => Access.mk0 l 0)
  | none => Access.mk0 l 0
def touchesB (s : State) (σ : Site) (i : Instr) (sp : Space) : Bool :=
  touchSpace i == some sp && (σ.touchLanes i).all fun l => match σ.touch l i with
    | some x => (match s.check σ x.sp x.bytes x.need l x.addr with | .ok _ => true | _ => false)
    | none => false
theorem touches_of {s : State} {σ : Site} {i : Instr} {sp : Space} (h : touchesB s σ i sp = true) :
    Touches s σ i sp ((σ.touchLanes i).map (accOf s σ i)) := by
  simp only [touchesB, Bool.and_eq_true, beq_iff_eq, List.all_eq_true] at h
  refine ⟨h.1, accOf s σ i, fun l hl => ?_, rfl⟩
  have h2 := h.2 l hl
  unfold accOf
  cases hx : σ.touch l i with
  | none => rw [hx] at h2; simp at h2
  | some x =>
    rw [hx] at h2
    cases hc : s.check σ x.sp x.bytes x.need l x.addr with
    | ok a => exact ⟨x, rfl, a, hc, by simp [hc]⟩
    | absent a => simp [hc] at h2
    | bad a b c => simp [hc] at h2
    | wait m => simp [hc] at h2

end Sys2Proof.Tests
end

