-- ==== Sys2Proof/Tests/Slice0.lean ====
section
/-! SUPPORT. The model's own tests: words of the spec decode to the instruction they stand for, ill-formed terms are refused, the worked numbers of
the spec come out, and small states meet the hypotheses of the claims about decoding and stepping. -/
namespace Sys2Proof.Tests
-- One theorem at a time: each kernel evaluation waits for the ones before it, and a waiting thread costs memory.
set_option Elab.async false
open Sys2Proof Sys2Proof.Machine

theorem test_reset_memory : State.reset.MemOk := by unfold State.MemOk; decide

/-! ## Words that the spec writes out, or that its encodings of R30 to R46 give field by field -/

def decodesTo (w1 w2 : Nat) (i : Instr) : Bool := match decodeWords w1 w2 with | .ok j => j == i | .error _ => false
def wordsOk (xs : List (Nat × Nat × Instr)) : Bool := xs.all fun x => decodesTo x.1 x.2.1 x.2.2
def tg (g : PReg) (neg : Bool) (la : Fin 16) : Tail := ⟨g, neg, la⟩

theorem test_words_integer : wordsOk [
    (0x02040808, 0, .iaddI ⟨2, .v 2, 1, 0⟩), (0x02040BF8, 0, .iaddI ⟨2, .v 2, 127, 0⟩), (0x0E020428, 0, .shlI ⟨1, .v 1, 5, 0⟩),
    (0x230C0C00, 0, .mrank ⟨6, 3, 0⟩), (0x65020300, 0x00010000, .icmp ⟨.ne, 1, .v 0, .s 0, tl⟩),
    (0x65025F30, 0x00060000, .icmp ⟨.ltU, 1, .v 23, .s 6, tl⟩), (0x672A5400, 0x120, .bfx ⟨false, .imm 0 9, 21, .v 21, tl⟩),
    (0x7B080800, 0x00070001, .shfl ⟨.xor, .imm 1, 4, .v 2, tl⟩), (0x7D0E1800, 1, .wscan ⟨.iadd, true, 7, .v 6, tl⟩),
    (0x7F1A0000, 0, .sregPerLane ⟨0, 13, tl⟩)] = true := by decide +kernel

theorem test_words_float : wordsOk [
    (0x60140820, 0x0C250005, .ffma ⟨⟨.f16x2, .rz, false⟩, 10, .v 2, .v 4, .v 6, tg 0 false 1⟩),
    (0x60306008, 0x00020002, .fmul ⟨⟨.bf16x2, .rn, false⟩, 24, .v 24, .v 1, tl⟩),
    (0x6C060402, 0x00000048, .cvt ⟨.f32, .e4m3, .rn, true, false, 3, .v 1, tg 2 false 0⟩)] = true := by decide +kernel

theorem test_words_memory : wordsOk [
    (0x72100800, 0x90000040, .ld ⟨.s, .b128, 8, ⟨.v 2, none, 64⟩, tl⟩), (0x72182C00, 0x30000500, .ld ⟨.s, .b16, 12, ⟨.v 11, none, 0x500⟩, tl⟩),
    (0x73121002, 0x40008008, .stNb ⟨.g, .b32, 0, .v 9, ⟨.v 4, none, 8⟩, tg 2 false 0⟩),
    (0x740A0838, 0x40080000, .atom ⟨.incb, .g, .b32, 5, .v 2, 0, .v 7, tl⟩),
    (0x742E54D0, 0x50070000, .atom ⟨.cas, .s, .b32, 23, .v 21, 0, .v 26, tl⟩),
    (0x77119010, 0x61E17000, .acp ⟨false, .b64, 1, 8, ⟨.s 4, some (.v 2, 3), 0⟩, tg 0 false 15⟩),
    (0x78040000, 0x40000008, .recld ⟨.b32, 2, none, 8, tl⟩), (0x79041001, 0x40000008, .recst ⟨.b32, .v 2, .v 4, 8, tg 1 false 0⟩),
    (0x7A282028, 0x05E00083, .neval ⟨20, 8, .v 5, 2, 3, 2, tg 0 false 15⟩)] = true := by decide +kernel

theorem test_words_control : wordsOk [
    (0x80000000, 0, .nop), (0x8E000000, 0, .exit), (0x8300000C, 0, .call 12), (0x8403F000, 0, .ret 63), (0x8500000A, 5, .brf ⟨2, true, 5, 0⟩),
    (0x88000001, 3, .ifP ⟨1, false, 3, 0⟩), (0x89000002, 0, .elseP 2), (0x8A000000, 0, .endifP), (0x8B00000B, 0, .loopP 11),
    (0x8C000001, 0, .breakP 1 false), (0x8DFFFFF7, 0, .endloopP (-9)), (0xD4000005, 0, .trap 5), (0xD5000000, 0, .brk 0)] = true := by decide +kernel

theorem test_words_uniform : wordsOk [
    (0x9F0C0002, 1, .slitTop ⟨3, 1, 0⟩), (0x9F080000, 0x29, .slit ⟨2, 41, 0⟩), (0xA0080822, 0, .slea ⟨2, 0, .imm 32, 2⟩),
    (0x96289220, 0, .sand ⟨10, 9, .imm 8, false⟩), (0xA328A000, 0x1C8, .sbfx ⟨10, 10, 8, 7, false, 0⟩), (0xA9200003, 0, .ballot 8 3),
    (0xAA140003, 0, .mcount 5 3), (0xAB00A000, 0xF0000000, .cselk 10 15), (0xAC184000, 0x06000018, .sld ⟨.g, .b64, 6, 4, 24, 0⟩),
    (0xAE0C2140, 0x04000000, .satom ⟨.add, .g, .b32, 3, 2, 5, 0, 0⟩), (0xD6580001, 0, .sreg 22 1),
    (0xD9202000, 0x21000, .dbgrd ⟨8, 2, 0x21000, 0⟩), (0xDA002240, 0x21000, .dbgwr ⟨2, 9, 0x21000, 0⟩)] = true := by decide +kernel

theorem test_words_ordering : wordsOk [
    (0xB000000D, 0, .fence .acq .dev), (0xB000000E, 0, .fence .rel .dev), (0xB0000006, 0, .fence .rel .wg), (0xB0000013, 0, .fence .ar .sys),
    (0xB1008000, 0, .waitc .gld 8), (0xB2006000, 0, .bara 6), (0xB3006000, 0, .barw 6), (0xB4006000, 0, .baraw 6), (0xB8000000, 0, .yield),
    (0xB61447C3, 0x04000000, .mwait ⟨.ne, .g, .b32, .dev, 0, 5, 4, 31, 0⟩), (0xBA001080, 0, .tbinit ⟨1, 2⟩), (0xBB001080, 0, .tbarv ⟨1, 2⟩),
    (0xBC0010C0, 0, .tbexp ⟨1, 3⟩), (0xBD001140, 0, .tbwait ⟨1, 5⟩), (0xBE0061C0, 0, .cntadd ⟨6, 7⟩), (0xBF006200, 0, .cntwait ⟨6, 8, 0⟩),
    (0xC0009282, 0, .slotset ⟨.full, 9, 10⟩)] = true := by decide +kernel

theorem test_words_graph : wordsOk [
    (0xC2004000, 0xF0000000, .fork ⟨0, 0, 0, 4, 15⟩), (0xC3000009, 0, .rdv 9), (0xC4000001, 0, .mrsv 1 0), (0xC5000001, 0, .mrel 1),
    (0xC628B009, 0, .oalloc ⟨10, 11, 1, true, 0, 0⟩), (0xC700A2C0, 0, .emit ⟨10, 11, false, 0⟩), (0xC9000000, 0, .join), (0xCA000000, 0, .phase),
    (0xCC000000, 0, .done), (0xCD304000, 0, .npin ⟨12, 4⟩), (0xCF0020C0, 0x3F, .rboard ⟨2, 3, 63, 0⟩), (0xD1242000, 0, .rstat ⟨9, 2⟩),
    (0xD2004180, 0, .qpost ⟨4, 6, 0⟩), (0xD3204000, 0, .qstat ⟨8, 4⟩)] = true := by decide +kernel

theorem test_words_engines : wordsOk [
    (0xE0042040, 0x01000000, .mld ⟨.bf16, 1, 2, 1, 0⟩), (0xE2042140, 0x01000000, .mldr ⟨.bf16, 1, 2, 5, 0⟩),
    (0xE3000040, 0, .mma ⟨false, false, 0, 0, 0, 0, 1, 0⟩), (0xE4000000, 0, .mzero 0), (0xE5000180, 0x01000000, .mst ⟨.bf16, .rn, 0, 6, 0⟩),
    (0xE6280101, 0x0A000000, .msta ⟨some 10, .g, .fp32, .rn, 0, 4, 0⟩), (0xE9000000, 0, .msync),
    (0xF104E000, 0x40, .cqmeta ⟨1, 14, 64, 0⟩)] = true := by decide +kernel

/-- A refusal of two words. -/
def refusedAs (w1 w2 : Nat) (r : Reject) : Bool := match decodeWords w1 w2 with | .ok _ => false | .error e => e == r
def wordsRefused (xs : List (Nat × Nat)) (r : Reject) : Bool := xs.all fun x => refusedAs x.1 x.2 r

/-- Row 2 of R49: no opcode, or a reserved bit that is 1. -/
theorem test_refused_opcodes : wordsRefused [(0, 0), (0x8F000000, 0), (0x24000000, 0), (0xDB000000, 0), (0xEC000000, 0), (0xF3000000, 0),
    (0x80000001, 0), (0x0E020528, 0), (0x6C060402, 0x00000148), (0x8500001A, 5)] .illegalOpcode = true := by decide +kernel
/-- Row 3 of R49: a value the maps do not list. -/
theorem test_refused_operands : wordsRefused [(0x02C00808, 0), (0x65020300, 0x000A0000), (0x72100800, 0xB0000040), (0xB0000016, 0),
    (0x23042000, 0), (0xE700000B, 0)] .illegalOperand = true := by decide +kernel

/-! ## Ill-formed terms are refused, one for each check of `Instr.wf` -/

def illFormed (is : List Instr) : Bool := is.all fun i => !i.wf
def m64rn : FpMod := ⟨.f64, .rn, false⟩
def mem0 : MemOp := ⟨.v 2, none, 0⟩

theorem test_illformed_lanes : illFormed [
    .leaX1 ⟨3, .v 2, .v 1, 0⟩, .leaX2 ⟨2, .v 3, .v 1, 0⟩, .leaX4 ⟨3, .s 1, .v 1, 0⟩, .leaX8 ⟨2, .v 5, .v 1, 0⟩,
    .fadd ⟨m64rn, 3, .v 2, .v 4, tl⟩, .fsub ⟨m64rn, 2, .v 3, .v 4, tl⟩, .fmul ⟨m64rn, 2, .v 2, .v 5, tl⟩,
    .fmin ⟨⟨.f32, .rz, false⟩, 2, .v 2, .v 4, tl⟩, .fmax ⟨m64rn, 2, .v 3, .v 4, tl⟩, .ffma ⟨m64rn, 2, .v 2, .v 4, .v 7, tl⟩,
    .fcmp ⟨.eq, .f64, false, 1, .v 2, .v 3, tl⟩, .fclass ⟨.f64, 1, 1, .v 3, tl⟩, .frnd ⟨m64rn, 2, .v 3, tl⟩, .ffrac ⟨⟨.f32, .ru, false⟩, 2, .v 2, tl⟩,
    .fsqrt ⟨⟨.bf16x2, .rn, false⟩, 2, .v 2, tl⟩, .frcp ⟨m64rn, 2, .v 2, tl⟩, .frsq ⟨⟨.f32, .rz, false⟩, 2, .v 2, tl⟩, .fexp2 ⟨⟨.bf16x2, .rn, false⟩, 2, .v 2, tl⟩,
    .flog2 ⟨m64rn, 2, .v 2, tl⟩, .fsin ⟨m64rn, 2, .v 2, tl⟩, .fcos ⟨m64rn, 2, .v 2, tl⟩, .ftanh ⟨m64rn, 2, .v 2, tl⟩,
    .imadWide ⟨3, .v 2, .v 4, .v 6, tl⟩, .imadWide ⟨2, .v 2, .v 4, .v 7, tl⟩, .bfx ⟨false, .imm 24 8, 2, .v 2, tl⟩, .bfi ⟨.imm 31 1, 2, .v 2, tl⟩,
    .cvt ⟨.f32, .f32, .rn, false, false, 2, .v 2, tl⟩, .cvt ⟨.e4m3, .f64, .rn, false, false, 2, .v 2, tl⟩, .cvt ⟨.f64, .f32, .rn, false, false, 2, .v 3, tl⟩,
    .cvt ⟨.f32, .s64, .rn, false, false, 3, .v 2, tl⟩, .cvtsr ⟨.f64, .f16, .rn, false, false, 2, .v 2, .v 3, tl⟩,
    .cvtsr ⟨.f32, .s32, .rn, false, false, 2, .v 2, .v 3, tl⟩, .cvtsr ⟨.f32, .f16, .rz, false, false, 2, .v 2, .v 3, tl⟩,
    .pack ⟨.f16, 2, false, 2, .v 2, tl⟩, .unpk ⟨.e4m3, 4, 2, .v 2, tl⟩, .qblk ⟨.f16, .rn, 2, .v 2, 3, tl⟩, .qblk ⟨.e4m3, .rn, 2, .v 2, 2, tl⟩,
    .dqblk ⟨.f32, 2, .v 2, .v 3, tl⟩, .sregPerLane ⟨10, 2, tl⟩, .sregPerLane ⟨0x30, 3, tl⟩] = true := by decide +kernel

theorem test_illformed_memory : illFormed [
    .ld ⟨.g, .b64, 3, mem0, tl⟩, .ld ⟨.s, .b128, 6, mem0, tl⟩, .ld ⟨.g, .b32, 2, ⟨.v 3, none, 0⟩, tl⟩, .st ⟨.g, .b64, 0, .v 3, mem0, tl⟩,
    .st ⟨.s, .b128, 0, .s 4, mem0, tl⟩, .st ⟨.s, .b32, 1, .v 2, mem0, tl⟩, .stNb ⟨.s, .b32, 0, .v 2, mem0, tg 1 false 0⟩, .stNb ⟨.g, .b32, 0, .v 2, mem0, tl⟩,
    .stNb ⟨.g, .b32, 0, .v 2, ⟨.v 5, none, 0⟩, tg 1 false 0⟩, .stNb ⟨.g, .b64, 0, .v 3, mem0, tg 1 false 0⟩,
    .atom ⟨.add, .g, .b16, 2, .v 2, 0, .v 4, tl⟩, .atom ⟨.add, .g, .b64, 3, .v 2, 0, .v 4, tl⟩, .atom ⟨.add, .g, .b32, 2, .v 3, 0, .v 4, tl⟩,
    .atom ⟨.cas, .g, .b32, 2, .v 2, 0, .v 5, tl⟩, .atom ⟨.cas, .g, .b64, 2, .v 2, 0, .v 6, tl⟩, .atom ⟨.add, .g, .b64, 2, .v 2, 0, .v 5, tl⟩,
    .red ⟨.add, .g, .b8, .v 2, 0, .v 4, tl⟩, .red ⟨.add, .g, .b32, .v 3, 0, .v 4, tl⟩, .red ⟨.xchg, .g, .b32, .v 2, 0, .v 4, tl⟩,
    .red ⟨.cas, .g, .b32, .v 2, 0, .v 4, tl⟩, .red ⟨.incb, .g, .b32, .v 2, 0, .v 4, tl⟩, .red ⟨.add, .g, .b64, .v 2, 0, .v 5, tl⟩,
    .pf ⟨.core, ⟨.v 3, none, 0⟩, tl⟩, .acp ⟨false, .b16, 0, 2, mem0, tl⟩, .acp ⟨false, .b32, 0, 2, ⟨.v 3, none, 0⟩, tl⟩, .acp ⟨true, .b32, 1, 2, mem0, tl⟩,
    .recld ⟨.b64, 3, none, 0, tl⟩, .recst ⟨.b128, .v 6, .v 1, 0, tl⟩, .neval ⟨95, 2, .v 1, 0, 0, 1, tl⟩, .neval ⟨2, 40, .v 1, 0, 63, 1, tl⟩] = true := by decide +kernel

theorem test_illformed_others : illFormed [
    .sbfx ⟨1, 2, 60, 4, false, 0⟩, .scvt ⟨1, 2, .f32, .e4m3, .rn, false, false, 0⟩, .scvt ⟨1, 2, .f32, .f32, .rn, false, false, 0⟩, .ballot 6 1,
    .sld ⟨.g, .b128, 1, 2, 0, 0⟩, .sst ⟨.g, .b128, 0, 1, 2, 0, 0⟩, .sst ⟨.s, .b32, 1, 1, 2, 0, 0⟩, .satom ⟨.add, .g, .b16, 1, 2, 3, 0, 0⟩,
    .satom ⟨.cas, .g, .b32, 1, 2, 63, 0, 0⟩, .fence .rlx .dev, .mwait ⟨.eq, .g, .b8, .dev, 0, 1, 2, 3, 0⟩, .sleep 0, .sleep 2048, .tcp ⟨none, .none, 0, 3, 4, 0⟩,
    .trap 2048, .brk 2048, .sreg 1 0, .sreg 1 10, .sset 1 9, .mld ⟨.none, 1, 2, 3, 0⟩, .mft ⟨.none, 1, 2, 3, 0⟩, .mldr ⟨.none, 1, 2, 3, 0⟩,
    .mst ⟨.int8, .rn, 1, 2, 0⟩, .mst ⟨.bf16, .rn, 1, 3, 0⟩, .msta ⟨none, .g, .e4m3, .rn, 1, 2, 0⟩, .msta ⟨none, .g, .bf16, .rn, 1, 3, 0⟩,
    .cqmeta ⟨1, 2, 0, 0⟩] = true := by decide +kernel

/-! ## The worked numbers of spec/03_number_formats.md and spec/04_arithmetic_instructions.md -/

def cvtsTo (src dst : Ty) (sat ftz : Bool) (x r : Nat) (fl : FlagSet) : Bool := convert src dst .rn sat ftz x == ⟨r, fl⟩

/-- The table of conversion bit patterns after R77. -/
theorem test_conversions :
    cvtsTo .f32 .f16 false false 0x40490FDB 0x4248 flNX && cvtsTo .f32 .bf16 false false 0x40490FDB 0x4049 flNX &&
    cvtsTo .f32 .e4m3 false false 0x40490FDB 0x45 flNX && cvtsTo .f32 .e2m1 false false 0x40490FDB 5 flNX &&
    cvtsTo .f32 .e4m3 false false 0x43E60000 0x7E flNX && cvtsTo .f32 .e4m3 false false 0x43FA0000 0x7F (flOF ||| flNX) &&
    cvtsTo .f32 .e4m3 true false 0x43FA0000 0x7E (flOF ||| flSAT ||| flNX) && cvtsTo .f32 .e2m3 false false 0xC1200000 0x3F (flOF ||| flSAT ||| flNX) &&
    cvtsTo .f32 .e5m2 false false 0x7F800001 0x7E flIV && cvtsTo .f32 .f16 false false 0x35800000 0x10 0 &&
    cvtsTo .f32 .f16 false true 0x35800000 0 (flUF ||| flNX) && cvtsTo .f32 .e8m0 false false 0x35800000 0x6B 0 &&
    cvtsTo .f32 .s32 false false 0x40200000 2 flNX = true := by decide +kernel

/-- Stochastic rounding of 1 + 2⁻⁹ to BF16 (R78). -/
theorem test_stochastic : cvtsr .bf16 false false 0x1234 0x3F804000 = ⟨0x3F81, flNX⟩ ∧ cvtsr .bf16 false false 0x4000 0x3F804000 = ⟨0x3F80, flNX⟩ := by
  decide +kernel

def quantised : List Nat := [0x43960000, 0xBF800000, 0x3C23D70A, 0x43F00000] ++ List.replicate 28 0
/-- One block through QBLK and back through DQBLK (R79, R80); lane 2's element is tiny and inexact, which raises UF too (R68). -/
theorem test_block : (blockScale .e4m3 quantised).bits = 0x7F ∧
    (quantised.take 5).map (fun x => (blockElem .e4m3 .rn x (blockScale .e4m3 quantised)).bits) = [0x79, 0xB8, 5, 0x7E, 0] ∧
    (quantised.take 5).map (fun x => (blockElem .e4m3 .rn x (blockScale .e4m3 quantised)).fl) = [flNX, 0, flNX ||| flUF, flOF ||| flSAT ||| flNX, 0] ∧
    [0x79, 0xB8, 5, 0x7E].map (fun x => (dequant .e4m3 x 0x7F).bits) = [0x43900000, 0xBF800000, 0x3C200000, 0x43E00000] := by decide +kernel

def onesOf (n : Nat) : List FVal := List.replicate n (fBF16.value 0x3F80)
def block0 : List FVal := [0x4B80, 0x3F80, 0xCB80, 0x4B80].map fBF16.value
/-- The three blocks of the worked example after R83. -/
theorem test_exact_blocks :
    accAdd (accAdd (accAdd 0 (blockS block0 (onesOf 4) (some 0) (some 0))) (blockS (onesOf 1) (onesOf 1) (some 0) (some 0)))
      (blockS (onesOf 3) (onesOf 3) (some 0) (some 0)) = 0x4B800002 := by decide +kernel

/-! ## Witnesses of the statements about encoding and stepping -/

theorem wit_DecodeOfEncode : (Instr.ld ⟨.g, .b64, 2, ⟨.s 4, some (.v 7, 2), 16⟩, ⟨3, true, 2⟩⟩).wf = true ∧
    (Instr.ld ⟨.g, .b64, 2, ⟨.s 4, some (.v 7, 2), 16⟩, ⟨3, true, 2⟩⟩).isCode = true := by decide +kernel
theorem wit_EncodeOfDecode : decodesTo 0x02040808 0 (.iaddI ⟨2, .v 2, 1, 0⟩) = true ∧
    decodesTo 0x72100800 0x90000040 (.ld ⟨.s, .b128, 8, ⟨.v 2, none, 64⟩, tl⟩) = true := by decide +kernel
theorem wit_UnassignedOpcodes :
    (field 0 31 1 = 0 ∧ op7 0 = 0) ∧ (field 0x5F000000 31 1 = 0 ∧ op7 0x5F000000 = 0x5F) ∧
    ([0x8F000000, 0xDB000000, 0xEC000000, 0xF3000000].map fun w => (field w 31 1, op7 w)) = [(1, 0x0F), (1, 0x5B), (1, 0x6C), (1, 0x73)] := by decide +kernel

/-- A wave about to fetch a two-word ICMP. -/
def atBranch : State := State.reset.withFetchWord 64 (0x65020300 + 0x10000 * 2 ^ 32)
def wordAtB (s : State) (c : Context) (pc w : Nat) : Bool :=
  decide (w < 2 ^ 32) && (match s.translate c (va64 pc) .exec with
    | .ok pa key _ false => inMemory pa && s.peekRun key pa 4 == ⟨leBytes 4 w, false⟩
    | _ => false)
theorem wordAt_of {s : State} {c : Context} {pc w : Nat} (h : wordAtB s c pc w = true) : s.WordAt c pc w := by
  simp only [wordAtB, Bool.and_eq_true, decide_eq_true_eq] at h
  obtain ⟨h1, h2⟩ := h
  split at h2
  · rename_i pa key lease hx
    simp only [Bool.and_eq_true, beq_iff_eq] at h2
    exact ⟨h1, pa, key, lease, hx, h2.1, h2.2⟩
  · cases h2

theorem wit_StepRunsDecoded_words : atBranch.WordAt (at_ atBranch).c (at_ atBranch).t.pc 0x65020300 ∧
    atBranch.WordAt (at_ atBranch).c ((at_ atBranch).t.pc + 4) 0x10000 := ⟨wordAt_of (by decide +kernel), wordAt_of (by decide +kernel)⟩
theorem wit_StepRunsDecoded : atBranch.cur = some (.wave 0 0) ∧ atBranch.siteOf (.wave 0 0) = some (at_ atBranch) ∧ (at_ atBranch).runnable = true ∧
    (at_ atBranch).t.windowShut = false ∧ (at_ atBranch).breakAt = none ∧ twoWords 0x65020300 = true ∧
    decodesTo 0x65020300 0x10000 (.icmp ⟨.ne, 1, .v 0, .s 0, tl⟩) = true ∧ (Instr.icmp ⟨.ne, 1, .v 0, .s 0, tl⟩).runsOn (at_ atBranch).p.executor = true ∧
    permitted (at_ atBranch).p.executor 0x65020300 = true ∧ (at_ atBranch).w = some (waveAt atBranch) ∧ (waveAt atBranch).e ≠ 0 := by decide +kernel
/-- The same wave with no lane on; an ENDLOOP stands at the address of its stack's top entry. -/
def emptied : State := (State.reset.withFetchWord 64 0x8DFFFFFE80000000).updWave 0 0 fun w => { w with e := 0, stack := [⟨.loopK, 7, 0x10004⟩] }
theorem wit_StepRunsDecoded_passing : emptied.WordAt (at_ emptied).c 0x10004 0x8DFFFFFE ∧ emptied.cur = some (.wave 0 0) ∧
    emptied.siteOf (.wave 0 0) = some (at_ emptied) ∧ (at_ emptied).runnable = true ∧ (at_ emptied).t.windowShut = false ∧
    (at_ emptied).w = some (waveAt emptied) ∧ (waveAt emptied).e = 0 ∧ (waveAt emptied).stack.head? = some ⟨.loopK, 7, 0x10004⟩ ∧
    twoWords 0x8DFFFFFE = false ∧ decodesTo 0x8DFFFFFE 0 (.endloopP (-2)) = true ∧ isClosing (.endloopP (-2)) = true ∧
    structured 0x10004 (waveAt emptied) (.endloopP (-2)) = some (0x10008, 7, []) ∧ structTarget 0x10004 0 (.endloopP (-2)) = none ∧
    (waveAt emptied).dbg.haltreq = false ∧ (waveAt emptied).dbg.pending = none := by
  refine ⟨wordAt_of (by decide +kernel), ?_⟩
  decide +kernel
theorem wit_FetchFrame : still.siteOf (.wave 0 0) = some (of_ still (.wave 0 0)) ∧ (of_ still (.wave 0 0)).c.smpK = 0 := by decide +kernel
/-- The sampler takes each eighth sector; a two-word ICMP stands at the end of one sector, or within one. -/
def sampling (pc : Nat) : State :=
  onThread (onCtx { base with home := { base.home with mem := (located pc (leBytes 8 (0x65020300 + 0x10000 * 2 ^ 32))).foldl (fun m e => Sparse.set 0 m e.1 e.2) base.home.mem } }
    fun c => { c with desc := c.desc ||| BitVec.ofNat 512 (3 * 2 ^ 286) }) fun t => { t with pc := pc }
theorem wit_FetchFrame_sampling : ∀ pc ∈ [0x1001C, 0x10020], ((sampling pc).siteOf (.wave 0 0) == some (at_ (sampling pc)) && (at_ (sampling pc)).c.smpK == 3 &&
    decide ((at_ (sampling pc)).c.smpCount + 2 < 2 ^ 3) && (at_ (sampling pc)).t.pc == pc && twoWords 0x65020300 &&
    wordAtB (sampling pc) (at_ (sampling pc)).c pc 0x65020300 && wordAtB (sampling pc) (at_ (sampling pc)).c (pc + 4) 0x10000) = true :=
  List.all_eq_true.mp (by decide +kernel)

def nextB (o : Host.Outcome State Fault Refusal) : Bool := match o with | .next _ => true | _ => false
theorem wit_StepKeepsMemoryForm : base.MemOk ∧ nextB (step base) = true := by
  constructor
  · unfold State.MemOk; decide +kernel
  · decide +kernel

end Sys2Proof.Tests
end

