-- ==== Sys2Proof/Tests/WitnessA.lean ====
section
/-! SUPPORT. States that meet the hypotheses of the claims about per-lane forms, uniform forms, control and causes. -/
namespace Sys2Proof.Tests
-- One theorem at a time: each kernel evaluation waits for the ones before it, and a waiting thread costs memory.
set_option Elab.async false
open Sys2Proof Sys2Proof.Machine

/-- Every instruction of a list issues in a state and passes a further test. -/
theorem all_of {α : Type} {p : α → Bool} {xs : List α} (h : xs.all p = true) : ∀ x ∈ xs, p x = true := List.all_eq_true.mp h


def r3 : P1R := ⟨2, .v 1, .s 3, 0⟩
def r3w : P1R := ⟨2, .v 4, .s 3, 0⟩
def ri : P1I := ⟨2, .v 1, 5, 0⟩
def rs : P1S := ⟨2, .v 1, 5, 0⟩
def ru : P1U := ⟨2, .v 1, 0⟩

/-- One instruction of each constructor of IntegerLanes. -/
def integerForms : List Instr :=
  [.iadd r3, .isub r3, .imul r3, .imin r3, .iminU r3, .imax r3, .imaxU r3, .shl r3, .shr r3, .sar r3, .iand r3, .ior r3, .ixor r3, .iandn r3,
   .iaddI ri, .isubI ri, .imulI ri, .iandI ri, .iorI ri, .ixorI ri, .shlI rs, .shrI rs, .sarI rs, .iabs ru, .ineg ru, .inot ru, .popc ru, .clz ru,
   .brev ru, .mov ru] ++
  [.mrank ⟨2, 1, 0⟩, .imad ⟨2, .v 1, .v 3, .v 5, tl⟩, .imulh ⟨true, 2, .v 1, .v 3, tl⟩, .sel ⟨2, .v 1, .v 3, 1, tl⟩, .movi ⟨2, 7, tl⟩,
   .moviZ ⟨2, 7, tl⟩, .moviHi ⟨2, 7, tl⟩, .bfx ⟨false, .imm 0 31, 2, .v 1, tl⟩, .bfx ⟨true, .reg (.v 3), 2, .v 1, tl⟩, .bfi ⟨.imm 31 0, 2, .v 1, tl⟩,
   .idot4 ⟨true, true, true, 2, .v 1, .v 3, .v 5, tl⟩, .shfl ⟨.up, .imm 255, 2, .v 1, tl⟩, .shfl ⟨.xor, .reg (.v 3), 2, .v 1, tl⟩,
   .bcast ⟨.imm 255, 2, .v 1, tl⟩, .bcast ⟨.s 31, 2, .v 1, tl⟩]

theorem wit_IntegerLanes : ∀ i ∈ integerForms, (waveB i base && (laneWord (waveAt base) 0 i).isSome) = true :=
  all_of (by decide +kernel)
theorem wit_IntegerLanes_plain : ∀ i ∈ integerForms, PlainWave i base (at_ base) 0 0 (waveAt base) ∧ (laneWord (waveAt base) 0 i).isSome = true := by
  intro i hi
  have h := wit_IntegerLanes i hi
  simp only [Bool.and_eq_true] at h
  exact ⟨wave_ofB h.1, h.2⟩

def pairForms : List Instr := [.leaX1 r3w, .leaX2 r3w, .leaX4 r3w, .leaX8 r3w, .imadWide ⟨2, .v 1, .v 3, .v 4, tl⟩]
theorem wit_PairAndCompareLanes_pair : ∀ i ∈ pairForms, (waveB i base && (laneDword (waveAt base) 0 i).isSome) = true := all_of (by decide +kernel)
theorem wit_PairAndCompareLanes_icmp : ∀ d ∈ [0, 7], PlainWave (.icmp ⟨.ltU, d, .v 1, .v 3, tl⟩) base (at_ base) 0 0 (waveAt base) :=
  fun d hd => wave_ofB ((all_of (p := fun d => waveB (.icmp ⟨.ltU, d, .v 1, .v 3, tl⟩) base) (by decide +kernel)) d hd)

def m32 : FpMod := ⟨.f32, .rn, false⟩
def m64 : FpMod := ⟨.f64, .rz, true⟩
def floatForms : List Instr :=
  [.fadd ⟨m32, 2, .v 1, .v 3, tl⟩, .fsub ⟨m64, 2, .v 4, .v 6, tl⟩, .fmul ⟨m32, 2, .v 1, .v 3, tl⟩, .fmin ⟨m32, 2, .v 1, .v 3, tl⟩,
   .fmax ⟨m32, 2, .v 1, .v 3, tl⟩, .ffma ⟨m64, 2, .v 4, .v 6, .v 8, tl⟩, .frnd ⟨m32, 2, .v 1, tl⟩, .ffrac ⟨m32, 2, .v 1, tl⟩,
   .fsqrt ⟨m32, 2, .v 1, tl⟩, .frcp ⟨m32, 2, .v 1, tl⟩, .frsq ⟨m32, 2, .v 1, tl⟩, .fexp2 ⟨m32, 2, .v 1, tl⟩, .flog2 ⟨m32, 2, .v 1, tl⟩,
   .fsin ⟨m32, 2, .v 1, tl⟩, .fcos ⟨m32, 2, .v 1, tl⟩, .ftanh ⟨m32, 2, .v 1, tl⟩, .cvt ⟨.f32, .s32, .rz, true, false, 2, .v 1, tl⟩,
   .cvtsr ⟨.f32, .e4m3, .rn, true, false, 2, .v 1, .v 3, tl⟩, .pack ⟨.f16, 1, false, 2, .v 1, tl⟩, .unpk ⟨.f16, 1, 2, .v 1, tl⟩,
   .dqblk ⟨.e4m3, 2, .v 1, .v 3, tl⟩]
/-- The forms whose approximate results are free still issue: the test does not compute them. -/
theorem wit_FloatLanes : ∀ i ∈ floatForms, waveB i base = true := all_of (by decide +kernel)
theorem wit_FloatLanes_some : ∀ i ∈ floatForms, (laneFloat (waveAt base) 0 i).isSome = true := all_of rfl
theorem wit_FloatTruths : ∀ i ∈ [Instr.fcmp ⟨.lt, .f32, false, 0, .v 1, .v 3, tl⟩, .fcmp ⟨.uno, .f64, true, 7, .v 2, .v 4, tl⟩, .fclass ⟨.f32, 1, 2, .v 1, tl⟩],
    (waveB i base && (laneTruth (waveAt base) 0 i).isSome) = true := all_of (by decide +kernel)
theorem wit_BlocksAndScans : ∀ i ∈ [Instr.qblk ⟨.e4m3, .rn, 2, .v 1, 3, tl⟩, .wreduce ⟨.fadd, 2, .v 1, tl⟩, .wscan ⟨.iadd, false, 2, .v 1, tl⟩,
    .wscan ⟨.fmax, true, 2, .v 1, ⟨1, true, 3⟩⟩], waveB i base = true := all_of (by decide +kernel)
theorem wit_WideFormats_exact : ∀ f ∈ [fF64, fF32, fF16, fBF16], (1 < 2 ^ (f.mb + f.eb + 1) ∧ ∃ neg m e, f.value 1 = .fin neg m e) := by
  intro f hf
  simp only [List.mem_cons, List.not_mem_nil, or_false] at hf
  rcases hf with rfl | rfl | rfl | rfl <;> exact ⟨by decide, _, _, _, rfl⟩
theorem wit_WideFormats_nan : (fF32.read false 0x7F800001).isNaN = true ∧ (fF16.read false 0x7E00).isNaN = true := by decide +kernel

def u3 : U3 := ⟨2, 1, .r 3, false⟩
def u3w : U3 := ⟨63, 63, .imm 2047, true⟩
def uniformForms : List Instr :=
  [.sadd u3, .ssub u3w, .smul u3, .smad u3, .sand u3, .sor u3, .sxor u3, .sshl u3w, .sshr u3, .ssar u3, .smin ⟨2, 1, .r 3, false, true⟩,
   .smax ⟨2, 1, .imm 4, true, false⟩, .ssel ⟨2, 1, 3, 1, true⟩, .smov ⟨2, 1⟩, .slit ⟨2, 1, 0⟩, .slitMid ⟨2, 1, 0⟩, .slitTop ⟨2, 1, 0⟩,
   .slea ⟨2, 1, .r 3, 3⟩, .spopc ⟨2, 1, true⟩, .sclz ⟨2, 1, false⟩, .sbfx ⟨2, 1, 0, 63, true, 0⟩]
/-- On a core, on a matrix thread and on a copy thread. -/
theorem wit_UniformIntegers : ∀ i ∈ uniformForms,
    (plainB i base && plainB i baseM && plainB i baseC && (uniWord (at_ base).t i).isSome) = true := all_of (by decide +kernel)
theorem wit_UniformFloats : ∀ i ∈ [Instr.sfadd ⟨2, 1, 3, .f32, .rn, false⟩, .sfmul ⟨2, 1, 3, .f64, .rz, true⟩, .sffma ⟨2, 1, 3, .f16, .ru, false⟩,
    .scvt ⟨2, 1, .f64, .s32, .rn, true, false, 0⟩], (plainB i base && plainB i baseM && (uniFloat (at_ base).t i).isSome) = true := all_of (by decide +kernel)
theorem wit_UniformCompares : ∀ i ∈ [Instr.scmp ⟨0, 1, .r 3, false, .lt⟩, .scmp ⟨7, 1, .imm 3, true, .geU⟩, .sfcmp ⟨1, 1, 3, .lt, .f32⟩],
    (plainB i base && plainB i baseC && (uniTruth (at_ base).t i).isSome) = true := all_of (by decide +kernel)
theorem wit_Ballots : waveB (.ballot 60 0) base = true ∧ waveB (.mcount 5 3) base = true := by decide +kernel
theorem wit_SpecialRegisters_uniform : plainB (.sreg 2 0x05) base = true ∧ plainB (.sreg 2 0x30) baseM = true ∧
    (at_ baseM).g.waves.head? = some (waveAt baseM) ∧ plainB (.clk 2) baseC = true ∧ (at_ base).w = some (waveAt base) := by decide +kernel
theorem wit_SpecialRegisters_denied : plainB (.sreg 2 0x20) baseM = true ∧ (at_ baseM).w = none := by decide +kernel
theorem wit_SpecialRegisters_lanes : waveB (.sregPerLane ⟨0x00, 2, tl⟩) base = true ∧ waveB (.sregPerLane ⟨0x30, 2, tl⟩) base = true ∧
    waveB (.sset 2 0x20) base = true ∧ waveB (.sset 2 0x21) base = true ∧ (waveAt base).t.flights = [] := by decide +kernel

/-! ## Control -/

/-- s1 holds a reachable address, s2 a misaligned one, s3 one that is not canonical. -/
def jumps : State := regs base [(1, 0x20000), (2, 0x20002), (3, 0x100000000000000)]
def branchForms : List Instr :=
  [.nop, .bra (-3), .brx 1, .call 4, .ret 1, .brf ⟨0, false, 4, 0⟩, .brf ⟨0, true, 4, 0⟩, .bany ⟨0, false, 4, 0⟩, .ball ⟨1, false, 4, 0⟩, .brx 2, .brx 3]
theorem wit_Branches : ∀ i ∈ branchForms, (plainB i jumps && isBranch i) = true := all_of (by decide +kernel)
theorem wit_Branches_ends : branchOf (at_ jumps) .nop = none ∧ branchOf (at_ jumps) (.brx 1) = some 0x20000 ∧ canonical 0x20000 = true ∧
    branchOf (at_ jumps) (.brx 2) = some 0x20002 ∧ 0x20002 % 4 ≠ 0 ∧ branchOf (at_ jumps) (.brx 3) = some 0x100000000000000 ∧
    canonical 0x100000000000000 = false := by decide +kernel

/-- A wave inside an IF, inside a LOOP. -/
def inIf : State := onWave base fun w => { w with e := 3, stack := [⟨.ifK, 4, 0x10040⟩] }
def inLoop : State := onWave base fun w => { w with e := 3, stack := [⟨.loopK, 7, 0x10040⟩] }
theorem wit_Structured_issue : ∀ i ∈ [Instr.ifP ⟨0, false, 4, 0⟩, .elseP 4, .endifP, .loopP 4, .breakP 1 true, .endloopP (-2)],
    (waveB i base && waveB i inIf && waveB i inLoop && isStructured i) = true := all_of (by decide +kernel)
/-- A check that fails; one that passes and leaves lanes, with and without a target. -/
theorem wit_Structured_checks : structured (waveAt base).t.pc (waveAt base) .endifP = none ∧
    structured (waveAt inIf).t.pc (waveAt inIf) .endifP = some (0x10004, 7, []) ∧ structTarget (waveAt inIf).t.pc 3 .endifP = none ∧
    (∃ pc, structured (waveAt inIf).t.pc (waveAt inIf) (.elseP 4) = some (pc, 4, [⟨.elseK, 3, 0x10010⟩])) ∧
    structTarget (waveAt inIf).t.pc 3 (.elseP 4) = some 0x10010 ∧ (0x10010 % 4 = 0 ∧ canonical 0x10010 = true) :=
  ⟨by decide +kernel, by decide +kernel, by decide +kernel, ⟨0x10004, by decide +kernel⟩, by decide +kernel, by decide +kernel⟩
/-- A LOOP whose target lies past the top of the address space. -/
def atTop : State := onThread base fun t => { t with pc := 2 ^ 56 - 4 }
theorem wit_Structured_unreachable : structTarget (waveAt atTop).t.pc 1 (.loopP 4) = some (2 ^ 56 + 12) ∧ canonical (2 ^ 56 + 12) = false ∧
    waveB (.loopP 4) atTop = true := by decide +kernel

/-- BREAK of every lane; an ENDLOOP stands at the address of the stack's top entry. -/
def leaving : State := (fun s => onWave s fun w => { w with e := 3, stack := [⟨.loopK, 7, 0x10004⟩] }) (base.withFetchWord 64 0x8DFFFFFE80000000)
theorem wit_PassingOver_next : waveB (.breakP 0 false) leaving = true ∧
    structured (waveAt leaving).t.pc (waveAt leaving) (.breakP 0 false) = some (0x10004, 0, [⟨.loopK, 7, 0x10004⟩]) ∧
    decodeWords 0x8DFFFFFE 0 = .ok (.endloopP (-2)) ∧
    structured 0x10004 { waveAt leaving with e := 0, stack := [⟨.loopK, 7, 0x10004⟩] } (.endloopP (-2)) = some (0x10008, 7, []) ∧
    leaving.translate (at_ leaving).c 0x10004 .exec = .ok 0x10004 1 0 false ∧ leaving.peekRun 1 0x10004 4 = ⟨leBytes 4 0x8DFFFFFE, false⟩ := by
  refine ⟨?_, ?_, rfl, ?_, ?_, ?_⟩ <;> decide +kernel
theorem wit_PassingOver_end : structured (waveAt inIf).t.pc { waveAt inIf with e := 0, stack := [⟨.ifK, 0, 0⟩] } .endifP = some (0x10004, 0, []) := by
  decide +kernel
theorem wit_ExitOfWave : waveB .exit base = true ∧ (waveAt base).t.deferred = [] := by decide +kernel

def withTrapNode : State := onCtx base fun c => { c with trapNode := some 0 }
theorem wit_TrapsTaken_wave : waveB (.trap 5) base = true ∧ waveB (.brk 0xFF) base = true ∧ (waveAt base).e ≠ 0 ∧ (waveAt base).t.flights = [] ∧
    (at_ base).c.mailbox = none ∧ (at_ base).c.trapNode = none ∧ waveB (.trap 5) withTrapNode = true ∧ (at_ withTrapNode).c.trapNode.isSome = true := by
  decide +kernel
theorem wit_TrapsTaken_thread : plainB (.trap 5) baseM = true ∧ plainB (.brk 5) baseC = true ∧ (at_ baseM).w = none ∧ (at_ baseC).w = none := by
  decide +kernel

/-! ## Causes -/

def halted : State := onWave base fun w => { w with dbg := { w.dbg with halted := true } }
def marked : State := onWave base fun w => { w with vmark := [256 + 0] }
theorem wit_CausesTaken_issue : base.site = some (at_ base) ∧ Instr.isCode .nop = true ∧ halted.site = some (at_ halted) ∧ (at_ halted).holds .nop = true ∧
    (at_ base).holds .nop = false ∧ (Instr.mzero 0).runsOn .core = false ∧ (Instr.mzero 0).isCode = true ∧
    (Instr.ballot 61 0).wf = false ∧ (Instr.ballot 61 0).runsOn .core = true ∧
    marked.site = some (at_ marked) ∧ (waveAt marked).markedSrc marked.tick (.mov ru) = true := by decide +kernel
theorem wit_CausesTaken_classes : base.siteOf (.wave 0 0) = some (at_ base) ∧ (at_ base).c.run = .running ∧ Cause.protection.class_ = .halt ∧
    Cause.eccScratch.class_ = .kill ∧ (at_ base).g.status = .resident ∧ (at_ base).n.idemp = false := by decide +kernel
def stepping : State := onNode (onCtx (onWave base fun w => { w with dbg := { w.dbg with step := true } }) fun c => { c with trapNode := some 0 })
  fun n => { n with dbg := false }
theorem wit_CausesTaken_step : Issues .nop stepping (at_ stepping) ∧ (at_ stepping).p = .wave 0 0 ∧ (at_ stepping).w = some (waveAt stepping) ∧
    (waveAt stepping).dbg.step = true ∧ (at_ stepping).n.dbg = false ∧ (waveAt stepping).t.flights = [] ∧ (at_ stepping).c.trapNode.isSome = true ∧ (waveAt stepping).e ≠ 0 := by
  refine ⟨Issues.of_check (by decide +kernel), ?_⟩
  decide +kernel

end Sys2Proof.Tests
end

