-- ==== Sys2Proof/Tests/WitnessB.lean ====
section
/-! SUPPORT. States that meet the hypotheses of the claims about synchronisation and memory instructions. -/
namespace Sys2Proof.Tests
-- One theorem at a time: each kernel evaluation waits for the ones before it, and a waiting thread costs memory.
set_option Elab.async false
open Sys2Proof Sys2Proof.Machine

/-- Past every completion register. -/
def later (s : State) : State := { s with time := 100 }
/-- s4 is the address of the page of data, s5 is 3, s6 an offset in the scratchpad. -/
def dataRegs (s : State) : State := regs (paged (later s)) [(4, 0x11000), (5, 3), (6, 64)]
def data : State := dataRegs base
def dataM : State := dataRegs baseM

theorem wit_OrderAndCounters : plainB (.ord .ar .sys) base = true ∧ plainB (.fence .ar .sys) (later base) = true ∧ plainB (.fence .acq .wave) baseC = true ∧
    plainB (.waitc .gst 5) data = true ∧ (at_ data).t.counter .gst ≤ ((at_ data).t.s 5).toNat ∧ (at_ data).t.deferredOn .gst = none := by decide +kernel
/-- An instruction in flight. -/
def flightOf (i : Instr) (id : Nat) (as : List Access) : Flight :=
  { id := id, i := i, pc := 0x10000, left := some 0, res := false, counted := true, done := false, accs := as, passes := 0, olds := [], clob := [],
    order := .rlx, scope := .wave, owed := 1, fl := 0, arg := 0, fail := none }
def store : Instr := .sst ⟨.g, .b32, 0, 4, 5, 0, 0⟩
def pending : State := onThread base fun t => { t with flights := [flightOf store 0 []], nextId := 1 }
theorem wit_OrderAndCounters_above : issuesB (.waitc .gst 0) pending (at_ pending) = true ∧ ((at_ pending).t.s 0).toNat < (at_ pending).t.counter .gst ∧
    (∀ f ∈ (at_ pending).t.flights, f.olds = []) := by decide +kernel

/-- A barrier word that expects two arrivals at offset 64. -/
def twoExpected : State := onWg data fun g => g.scratchWrite 64 8 0x20000
theorem wit_Barriers : ∀ e ∈ [(data, 0), (twoExpected, 0x20000)],
    ((((at_ e.1).t.s 6).toNat % 2 ^ 32 == 64) && 64 % 8 == 0 && decide (72 ≤ (at_ e.1).g.scratchSize) && (at_ e.1).g.scratchRead 64 8 == e.2 &&
      !(at_ e.1).g.scratchMarked 64 8 && waveB (.bara 6) e.1 && waveB (.baraw 6) e.1 && waveB (.barw 6) e.1 && (at_ e.1).t.drained) = true :=
  List.all_eq_true.mp (by decide +kernel)
theorem wit_Barriers_open : BarrierOpen 0 1 ∧ BarrierOpen 0x20000 1 := ⟨⟨by decide, by decide, by decide⟩, ⟨by decide, by decide, by decide⟩⟩
def withToken : State := onWave data fun w => { w with token := some (64, 0) }
theorem wit_Barriers_token : waveB (.barw 6) withToken = true ∧ (waveAt withToken).token = some (64, 0) := by decide +kernel

def coresident : State := onNode data fun n => { n with cores := 1 }
def okB : Chk → Bool | .ok _ => true | _ => false
theorem ok_of {c : Chk} (h : okB c = true) : ∃ a, c = .ok a := by
  cases c with
  | ok a => exact ⟨a, rfl⟩
  | absent a => simp [okB] at h
  | bad a b c => simp [okB] at h
  | wait m => simp [okB] at h
theorem wit_QueuedAtomics : plainB (.gbar 4) coresident = true ∧ (at_ coresident).n.cores ≠ 0 ∧ (at_ coresident).t.drained = true ∧ (at_ coresident).c.smpK = 0 ∧
    okB (coresident.check (at_ coresident) .g 8 .both 0 ((at_ coresident).t.s 4).toNat) = true ∧ coresident.queueRoom (at_ coresident) 1 = true ∧
    plainB (.cntadd ⟨4, 5⟩) data = true ∧ plainB (.cntadd ⟨4, 5⟩) dataM = true ∧
    okB (dataM.check (at_ dataM) .g 8 .both 0 ((at_ dataM).t.s 4).toNat) = true ∧ dataM.queueRoom (at_ dataM) 1 = true := by decide +kernel

def mwaitOf (c : MCond) (sp : Space) (a : SReg) : MwaitF := ⟨c, sp, .b32, .dev, 0, 2, a, 0, 0⟩
theorem wit_Monitors_scratch : ∀ c ∈ [MCond.eq, .ne, .geu, .ltu],
    (plainB (.mwait (mwaitOf c .s 6)) data && okB (data.check (at_ data) .s 4 .read 0 (((at_ data).t.s 6).toNat % 2 ^ 32 : Nat)) &&
      !(at_ data).g.scratchMarked 64 4 && !(at_ data).t.acqBars (at_ data).t.nextId && (at_ data).t.flights.isEmpty && (at_ data).g.scratchRead 64 4 == 0) = true :=
  List.all_eq_true.mp (by decide +kernel)
theorem wit_Monitors_global : ∀ c ∈ [MCond.eq, .ne], (plainB (.mwait (mwaitOf c .g 4)) data && plainB (.mwait (mwaitOf c .g 4)) dataM &&
    (match data.check (at_ data) .g 4 .read 0 ((at_ data).t.s 4).toNat with | .ok a => a.pa == some 0x20000 | _ => false) && inMemory 0x20000 &&
    !data.ackDue (at_ data).cluster (lineOf 0x20000) &&
    !data.readBarred (at_ data) 0x20000 && fromBytes (data.peek 1 0x20000 4).bytes == 0) = true := List.all_eq_true.mp (by decide +kernel)
theorem wit_Monitors_count : ∀ b ∈ [(5 : SReg), 0], (plainB (.cntwait ⟨4, b, 0⟩) data &&
    (match data.check (at_ data) .g 8 .read 0 ((at_ data).t.s 4).toNat with | .ok a => a.pa == some 0x20000 | _ => false) &&
    !data.readBarred (at_ data) 0x20000 && !data.ackDue (at_ data).cluster (lineOf 0x20000)) = true := List.all_eq_true.mp (by decide +kernel)

def parkedAt (k : Park) : State := { onThread data fun t => { t with park := some k } with cur := none }
def released : State := parkedAt (.release (.fence .rel .dev) 0x10000 .dev)
def asleep : State := parkedAt (.sleep 50)
def watching (c : MCond) (sp : Space) : State :=
  parkedAt (.mwait (mwaitOf c sp (if sp = .g then 4 else 6)) (if sp = .g then 0x11000 else 64) 0x20000 1 0 (some 50))
theorem wit_WaitsEnd_forms : plainB (.sleep 1) base = true ∧ plainB (.sleep 2047) baseM = true ∧ waveB .yield base = true := by decide +kernel
theorem wit_WaitsEnd_release : released.siteOf (.wave 0 0) = some (of_ released (.wave 0 0)) ∧
    (of_ released (.wave 0 0)).t.park = some (.release (.fence .rel .dev) 0x10000 .dev) ∧ (of_ released (.wave 0 0)).g.status = .resident ∧
    released.released (of_ released (.wave 0 0)) .dev = true := by decide +kernel
theorem wit_WaitsEnd_sleep : asleep.siteOf (.wave 0 0) = some (of_ asleep (.wave 0 0)) ∧ (of_ asleep (.wave 0 0)).t.park = some (.sleep 50) ∧ 50 ≤ asleep.time := by
  decide +kernel
theorem wit_WaitsEnd_monitor : ∀ e ∈ [(MCond.eq, Space.g), (.eq, .s), (.ne, .g), (.ne, .s)],
    ((watching e.1 e.2).siteOf (.wave 0 0) == some (of_ (watching e.1 e.2) (.wave 0 0)) &&
      (of_ (watching e.1 e.2) (.wave 0 0)).t.park == some (.mwait (mwaitOf e.1 e.2 (if e.2 = .g then 4 else 6)) (if e.2 = .g then 0x11000 else 64) 0x20000 1 0 (some 50)) &&
      (of_ (watching e.1 e.2) (.wave 0 0)).lives && !(watching e.1 e.2).ackDue 0 (lineOf 0x20000) && (of_ (watching e.1 e.2) (.wave 0 0)).t.flights.isEmpty && inMemory 0x20000) = true :=
  List.all_eq_true.mp (by decide +kernel)

/-! ## Memory instructions -/

def mem4 : MemOp := ⟨.s 4, none, 0⟩
def mem6 : MemOp := ⟨.s 6, none, 0⟩
def loads : List Instr := [.ld ⟨.g, .b128, 4, mem4, tl⟩, .sld ⟨.g, .b64, 2, 4, 8, 0⟩]
theorem wit_LoadsIssue : ∀ i ∈ loads, (plainB i data && touchesB data (at_ data) i .g && (at_ data).c.smpK == 0) = true := List.all_eq_true.mp (by decide +kernel)
theorem wit_LoadsIssue_plain : ∀ i ∈ loads, Plain i data (at_ data) ∧ Touches data (at_ data) i .g (((at_ data).touchLanes i).map (accOf data (at_ data) i)) := by
  intro i hi
  have h := wit_LoadsIssue i hi
  simp only [Bool.and_eq_true] at h
  exact ⟨plain_of h.1.1, touches_of h.1.2⟩
def writes : List Instr :=
  [.st ⟨.g, .b32, 3, .v 9, mem4, tl⟩, .stNb ⟨.g, .b64, 0, .v 8, mem4, ⟨0, false, 0⟩⟩, .sst ⟨.g, .b8, 1, 4, 5, 0, 0⟩,
   .atom ⟨.cas, .g, .b32, 2, .s 4, 0, .v 8, tl⟩, .red ⟨.add, .g, .b64, .s 4, 0, .v 8, tl⟩, .satom ⟨.xchg, .g, .b64, 2, 4, 5, 0, 0⟩]
/-- ST.NB needs a guard: p1 is on in lane 0. -/
def guarded : State := onWave data fun w => { w with preds := [(1, 1)] }
def writeForms : List Instr := writes.map fun i => match i with | .stNb o => .stNb { o with t := ⟨1, false, 0⟩ } | i => i
theorem wit_StoresIssued : ∀ i ∈ writeForms, (plainB i guarded && touchesB guarded (at_ guarded) i .g && (storeKind i).isSome &&
    guarded.queueRoom (at_ guarded) 1 && (guarded.newEntries (at_ guarded) ((storeKind i).getD (.store 0, 4)).1 ((storeKind i).getD (.store 0, 4)).2
      (((at_ guarded).touchLanes i).map (accOf guarded (at_ guarded) i))).length == 1) = true := List.all_eq_true.mp (by decide +kernel)
/-- No write-lane credit: the bucket is limited and empty. -/
def broke : State := onCtx guarded fun c => { c with desc := 0x1FFFFFFFF01FFFFFFFF0000FFFF4002903C320002000000000000000000000000000000000000000000000000000000000000000000000000000000#512 }
theorem wit_StoresIssued_full : ∀ i ∈ writeForms, (plainB i broke && touchesB broke (at_ broke) i .g && !broke.queueRoom (at_ broke) 1) = true :=
  List.all_eq_true.mp (by decide +kernel)

def padForms : List Instr :=
  [.ld ⟨.s, .b32, 2, mem6, tl⟩, .st ⟨.s, .b32, 0, .v 9, mem6, tl⟩, .atom ⟨.add, .s, .b32, 2, .s 6, 0, .v 8, tl⟩, .red ⟨.max, .s, .b32, .s 6, 0, .v 8, tl⟩,
   .sld ⟨.s, .b8, 2, 6, 0, 0⟩, .sst ⟨.s, .b64, 0, 6, 5, 0, 0⟩, .satom ⟨.incb, .s, .b32, 2, 6, 5, 0, 0⟩]
theorem wit_ScratchpadForms_issue : ∀ i ∈ padForms, (plainB i data && touchesB data (at_ data) i .s &&
    (data.watchHit (at_ data).g.id (accSize i) (scratchReads i) (scratchWrites i) (((at_ data).touchLanes i).map (accOf data (at_ data) i))).isNone) = true := List.all_eq_true.mp (by decide +kernel)
def padAcc : Access := { Access.mk0 0 64 with v := 7 }
def padFlight (i : Instr) (n : Nat) : Flight := { flightOf i 0 [padAcc] with passes := n, res := true, owed := 0 }
def passing (i : Instr) (n : Nat) : State := { onThread data fun t => { t with flights := [padFlight i n], nextId := 1 } with cur := none }
def padStore : StF := ⟨.s, .b32, 0, .v 9, mem6, tl⟩
def padLoad : LdF := ⟨.s, .b64, 2, mem6, tl⟩
theorem wit_ScratchpadForms_all : ∀ i ∈ padForms, ((passing i 1).siteOf (.wave 0 0) == some (of_ (passing i 1) (.wave 0 0)) && (of_ (passing i 1) (.wave 0 0)).g.status == .resident &&
    !(of_ (passing i 1) (.wave 0 0)).t.acqBars 0 && (of_ (passing i 1) (.wave 0 0)).t.flights == [padFlight i 1] && i.isScratch && !(waveAt (passing i 1)).ended &&
      (of_ (passing i 1) (.wave 0 0)).g.nowServed (padFlight i 1) == [padAcc] && !(of_ (passing i 1) (.wave 0 0)).g.scratchMarked 64 (accSize i)) = true :=
  List.all_eq_true.mp (by decide +kernel)
theorem wit_ScratchpadForms_results : padForms.map laneResult = [some (2, 1), none, some (2, 1), none, none, none, none] ∧
    padForms.map uniformResult = [none, none, none, none, some 2, none, some 2] ∧ padAcc.lane < 256 ∧ ∀ i ∈ padForms, (padFlight i 1).accs = [padAcc] ∧ (padFlight i 1).clob = [] :=
  ⟨by decide +kernel, by decide +kernel, by decide, fun i _ => ⟨rfl, rfl⟩⟩
theorem wit_ScratchpadForms_pass : ∀ e ∈ [(Instr.st padStore, 2), (.st padStore, 1), (.ld padLoad, 1)],
    ((passing e.1 e.2).siteOf (.wave 0 0) == some (of_ (passing e.1 e.2) (.wave 0 0)) && (of_ (passing e.1 e.2) (.wave 0 0)).g.status == .resident &&
      !(of_ (passing e.1 e.2) (.wave 0 0)).t.acqBars 0 && (of_ (passing e.1 e.2) (.wave 0 0)).w == some (waveAt (passing e.1 e.2)) &&
      (of_ (passing e.1 e.2) (.wave 0 0)).t.flights.find? (fun f => f.i.isScratch && !f.done) == some (padFlight e.1 e.2)) = true :=
  List.all_eq_true.mp (by decide +kernel)
theorem wit_ScratchpadForms_load : (waveAt (passing (.ld padLoad) 1)).t.flights = [padFlight (.ld padLoad) 1] ∧
    (waveAt (passing (.ld padLoad) 1)).ended = false ∧ padLoad.sp = .s ∧ (of_ (passing (.ld padLoad) 1) (.wave 0 0)).g.nowServed (padFlight (.ld padLoad) 1) = [padAcc] ∧ padAcc.lane < 256 ∧
    (of_ (passing (.ld padLoad) 1) (.wave 0 0)).g.scratchMarked 64 8 = false ∧
    ([padAcc].map (·.lane)).Nodup ∧ (∀ k, (of_ (passing (.ld padLoad) 1) (.wave 0 0)).t.early k = []) :=
  ⟨by decide +kernel, by decide +kernel, by decide, by decide +kernel, by decide, by decide +kernel, by decide, fun k => by
    have h : (of_ (passing (.ld padLoad) 1) (.wave 0 0)).t.flights = [padFlight (.ld padLoad) 1] := by decide +kernel
    unfold Thread.early; rw [h]; unfold padFlight flightOf; simp⟩

/-- An LD in flight with its place, the bytes at its home. -/
def globalLoad : LdF := ⟨.g, .b32, 2, mem4, tl⟩
def loadFlight : Flight := { flightOf (.ld globalLoad) 0 [{ Access.mk0 0 0x11000 with pa := some 0x20000, key := 1 }] with res := true, owed := 0 }
def loading : State := { onThread (filled data [1, 2, 3, 4]) fun t => { t with flights := [loadFlight], nextId := 1 } with cur := none }
theorem wit_LoadsReturn : loading.siteOf (.wave 0 0) = some (of_ loading (.wave 0 0)) ∧ (of_ loading (.wave 0 0)).w = some (waveAt loading) ∧
    (waveAt loading).ended = false ∧ (of_ loading (.wave 0 0)).t.acqBars 0 = false ∧ (waveAt loading).t.flights = [loadFlight] ∧ loadFlight.accs ≠ [] ∧
    inMemory 0x20000 = true ∧ 0x20000 % sizeBytes globalLoad.size = 0 ∧ (loading.peek 1 (32 * sectorOf 0x20000) 32).bad = false ∧
    loading.home.copies = [] ∧ loading.home.counts = [] ∧ loading.queue = [] ∧ loading.peers.reqs = [] ∧ (loading.peek 1 0x20000 4).bytes = [1, 2, 3, 4] := by decide +kernel

/-- A lane at 0x11000 of an LD, or of an SLD, whose bytes are the home's. -/
def gotAcc : Access := { Access.mk0 0 0x11000 with pa := some 0x20000, key := 1 }
theorem served_of {f : Flight} (h : f.accs = [gotAcc]) (ha : 0x20000 % accSize f.i = 0) : loading.Served f gotAcc :=
  ⟨rfl, rfl, rfl, 0x20000, rfl, by decide +kernel, ha, by decide +kernel, by rw [h]; simp [gotAcc]⟩
theorem wit_LoadsReturn_served : loading.Served loadFlight gotAcc := served_of rfl (by decide)
def globalSld : SldF := ⟨.g, .b32, 2, 4, 0, 0⟩
def sldFlight : Flight := { loadFlight with i := .sld globalSld }
def sloading (p : Party) : State :=
  { onThread (filled (dataRegs { base with cur := some p }) [1, 2, 3, 4]) fun t => { t with flights := [sldFlight], nextId := 1 } with cur := none }
theorem wit_LoadsReturn_uniform : ∀ p ∈ [Party.wave 0 0, .mseq 0 0, .cseq 0 0], ((sloading p).siteOf p == some (of_ (sloading p) p) && (of_ (sloading p) p).w.all (fun w => !w.ended) &&
    !(of_ (sloading p) p).t.acqBars 0 && (of_ (sloading p) p).t.flights == [sldFlight] && (sloading p).home.copies.isEmpty && (sloading p).home.counts.isEmpty &&
      (sloading p).queue.isEmpty && (sloading p).peers.reqs.isEmpty) = true := List.all_eq_true.mp (by decide +kernel)
theorem wit_LoadsReturn_uniformServed : (sloading (.wave 0 0)).Served sldFlight gotAcc :=
  ⟨rfl, rfl, rfl, 0x20000, rfl, by decide +kernel, by decide, by decide +kernel, by simp [sldFlight, loadFlight, flightOf, gotAcc]⟩

/-- One entry at the head of its line. -/
def entryOf (k : QKind) (as : List Access) : QEntry :=
  { n := 5, owner := .flight (.wave 0 0) 0, ctx := 0, cluster := 0, core := some 0, kind := k, line := 1024, key := 1, lease := 0, host := false,
    bytes := [(0x20000, 7), (0x20001, 8), (0x20000, 9)], accs := as, times := none, held := false, bad := false }
def queued (e : QEntry) : State := { onThread data fun t => { t with flights := [flightOf store 0 []], nextId := 1 } with queue := [e], cur := none }
def atomAcc : Access := { Access.mk0 0 0x11000 with pa := some 0x20000, key := 1, v := 3 }
theorem wit_HomeWrites : ∀ e ∈ [entryOf (.store 0) [], entryOf (.atomic .add .b32) [atomAcc]],
    ((queued e).queue.find? (fun x => x.n == 5) == some e && (queued e).mayApply e && (queued e).groupOf e == [e] && inMemory (128 * e.line) && !(queued e).home.frozen.contains (regionOf (128 * e.line)) &&
      (queued e).isLive (128 * e.line) && !((queued e).peek 1 0x20000 4).bad) = true := List.all_eq_true.mp (by decide +kernel)
def frozen (s : State) : State := { s with home := { s.home with frozen := [0] } }
/-- Two entries of one ATOM, for two lines of a home slice, are served together. -/
def atomFlight : Flight := flightOf (.atom ⟨.add, .g, .b32, 2, .s 4, 0, .v 8, tl⟩) 0 [atomAcc]
def pairedEntries : List QEntry := [entryOf (.atomic .add .b32) [atomAcc], { entryOf (.atomic .add .b32) [{ atomAcc with pa := some 0x20080 }] with n := 6, line := 1025 }]
def grouped : State := { onThread data fun t => { t with flights := [atomFlight], nextId := 1 } with queue := pairedEntries, cur := none }
theorem wit_HomeWrites_group : grouped.groupOf (entryOf (.atomic .add .b32) [atomAcc]) = pairedEntries ∧
    ∀ x ∈ pairedEntries, grouped.mayApply x = true ∧ x.host = false ∧ grouped.isLive (128 * x.line) = true ∧ grouped.home.frozen = [] := by decide +kernel
theorem wit_HomeWrites_waits : (frozen (queued (entryOf (.store 0) []))).mayApply (entryOf (.store 0) []) = true ∧
    (frozen (queued (entryOf (.store 0) []))).home.frozen.contains (regionOf (128 * 1024)) = true ∧
    (queued { entryOf (.store 0) [] with times := some (1, 2, 3) }).mayApply { entryOf (.store 0) [] with times := some (1, 2, 3) } = false := by decide +kernel
/-- The ATOM, or SATOM, of the entry is in flight: its old value is still to be found, or has been. -/
def atoms : List Instr := [.atom ⟨.add, .g, .b32, 2, .s 4, 0, .v 8, tl⟩, .satom ⟨.add, .g, .b32, 2, 4, 5, 0, 0⟩]
def atomState (i : Instr) (old : Option Nat) : State :=
  { onThread data fun t => { t with flights := [{ flightOf i 0 [{ atomAcc with old := old }] with res := true }], nextId := 1 } with
    queue := [{ entryOf (.atomic .add .b32) [atomAcc] with times := old.map fun _ => (1, 2, 3) }], cur := none }
theorem wit_LoadsReturn_old : ∀ i ∈ atoms, ((atomState i none).queue.find? (fun x => x.n == 5) == some (entryOf (.atomic .add .b32) [atomAcc]) &&
    (atomState i none).mayApply (entryOf (.atomic .add .b32) [atomAcc]) && (atomState i none).groupOf (entryOf (.atomic .add .b32) [atomAcc]) == [entryOf (.atomic .add .b32) [atomAcc]] &&
      (atomState i none).threadOf (.wave 0 0) == some (waveAt (atomState i none)).t &&
      (waveAt (atomState i none)).t.flight? 0 == some { flightOf i 0 [atomAcc] with res := true } && (atomState i none).isLive 0x20000 && (atomState i none).home.frozen.isEmpty &&
      !((atomState i none).peek 1 0x20000 4).bad) = true := List.all_eq_true.mp (by decide +kernel)
theorem wit_LoadsReturn_acknowledged : ∀ i ∈ atoms, ((atomState i (some 9)).queue.any (fun e => e.n == 5 && e.times.isSome && (atomState i (some 9)).ackInOrder e) &&
    (atomState i (some 9)).siteOf (.wave 0 0) == some (of_ (atomState i (some 9)) (.wave 0 0)) && !(waveAt (atomState i (some 9))).ended &&
      (of_ (atomState i (some 9)) (.wave 0 0)).t.flights == [{ flightOf i 0 [{ atomAcc with old := some 9 }] with res := true }]) = true :=
  List.all_eq_true.mp (by decide +kernel)
def applied : QEntry := { entryOf (.store 0) [] with times := some (1, 2, 3) }
theorem wit_Acknowledgements : (queued applied).queue.find? (fun x => x.n == 5) = some applied ∧ (queued applied).ackInOrder applied = true ∧ applied.owner = .flight (.wave 0 0) (flightOf store 0 []).id ∧
    (queued applied).threadOf (.wave 0 0) = some (waveAt (queued applied)).t ∧ (waveAt (queued applied)).t.flights = [flightOf store 0 []] ∧
    (flightOf store 0 []).i.isLoad = false ∧ (flightOf store 0 []).fail = none := by decide +kernel

theorem wit_PrefetchAndRecords_pf : waveB (.pf ⟨.clus, mem4, tl⟩) data = true := by decide +kernel
theorem wit_PrefetchAndRecords_recld : waveB (.recld ⟨.b64, 2, none, 0, tl⟩) data = true ∧ ((0 : Nat) % 8 = 0) ∧
    (waveAt data).lanes (.recld ⟨.b64, 2, none, 0, tl⟩) = [0] ∧ (0 : Nat) < (at_ data).g.records.length ∧ (at_ data).g.doneTaken = false := by decide +kernel
def slotted : State := onWg data fun g => { g with slots := [⟨3, 0, 0, zeros 8⟩] }
theorem wit_PrefetchAndRecords_recst : waveB (.recst ⟨.b32, .v 2, .s 5, 4, tl⟩) slotted = true ∧
    (at_ slotted).g.slotOf ((waveAt slotted).a32 0 (.s 5)).toNat = some ⟨3, 0, 0, zeros 8⟩ ∧ 4 + 4 ≤ (zeros 8).length ∧
    (waveAt slotted).lanes (.recst ⟨.b32, .v 2, .s 5, 4, tl⟩) = [0] := by decide +kernel

end Sys2Proof.Tests
end

