-- ==== Sys2Proof/Tests/WitnessC.lean ====
section
/-! SUPPORT. States that meet the hypotheses of the claims about the work graph and scheduling. -/
namespace Sys2Proof.Tests
-- One theorem at a time: each kernel evaluation waits for the ones before it, and a waiting thread costs memory.
set_option Elab.async false
open Sys2Proof Sys2Proof.Machine

/-- Past every completion register; s5 is 2, s7 is 4,096, s3 is 3. -/
def graphed : State := regs { base with time := 100 } [(3, 3), (5, 2), (7, 4096)]
def oallocOf (a : SReg) (f : FReg) (wait : Bool) : Instr := .oalloc ⟨2, a, f, wait, 0, 0⟩
theorem wit_RecordsOut_oalloc : waveB (oallocOf 5 1 false) graphed = true ∧ waveB (oallocOf 7 0 true) graphed = true ∧ waveB (oallocOf 7 1 false) graphed = true ∧
    ((waveAt graphed).t.s 5).toNat = 2 ∧ ((waveAt graphed).t.s 7).toNat = Config.outputSlots ∧ (0 : Nat) < (at_ graphed).n.nout ∧
    (at_ graphed).c.edge? ((at_ graphed).n.edgeIdx 0) = some ⟨0, 0, 64, true, .here⟩ ∧ (at_ graphed).g.slots = [] ∧
    graphed.recordRoom (at_ graphed).c (2 * recSpace ((at_ graphed).c.typeSize 0)) = true ∧
    graphed.recordRoom (at_ graphed).c (4096 * recSpace ((at_ graphed).c.typeSize 0)) = true := by decide +kernel
/-- Slots 3 and 4 of the wave; with them 4,096 more do not fit. -/
def slots34 : List OutSlot := [⟨3, 0, 0, zeros 8⟩, ⟨4, 0, 0, zeros 8⟩]
def emitting : State := onWg graphed fun g => { g with slots := slots34 }
theorem wit_RecordsOut_full : waveB (oallocOf 7 1 false) emitting = true ∧ waveB (oallocOf 7 1 true) emitting = true ∧
    ∀ a : Nat, ¬ (a + 4096 ≤ Config.outputSlots ∧ ∀ x ∈ slots34, x.idx < a ∨ a + 4096 ≤ x.idx) := by
  refine ⟨by decide +kernel, by decide +kernel, ?_⟩
  rintro a ⟨h1, h2⟩
  have h3 : (3 : Nat) < a ∨ a + 4096 ≤ 3 := h2 ⟨3, 0, 0, zeros 8⟩ (by simp [slots34])
  simp only [Config.outputSlots] at h1
  omega
theorem wit_RecordsOut_emit : waveB (.emit ⟨3, 5, true, 0⟩) emitting = true ∧ waveB (.spawn ⟨2, 3, 5, true, 0, 0⟩) emitting = true ∧
    waveB (.emit ⟨3, 4, false, 0⟩) emitting = true ∧ ((waveAt emitting).t.s 4).toNat = 0 ∧
    ((waveAt emitting).t.s 5).toNat = slots34.length ∧ (at_ emitting).g.slotOf (((waveAt emitting).t.s 3).toNat + 0) = slots34[0]? ∧
    (at_ emitting).g.slotOf (((waveAt emitting).t.s 3).toNat + 1) = slots34[1]? ∧ (at_ emitting).g.depth + 1 ≤ 16 ∧
    (at_ emitting).c.node? 0 = some (at_ emitting).n ∧ (at_ emitting).g.depth + 1 ≤ (at_ emitting).n.depth := by decide +kernel

/-- The edge of the slots is bound to a remote node of device 3, or to out ring 1. -/
def boundTo (b : EdgeBind) : State := onCtx emitting fun c => { c with graph := c.graph.map fun g => { g with edges := g.edges.map fun e => { e with bind := b } } }
theorem wit_RecordsOut_bound : ∀ b ∈ [EdgeBind.remote 3 1 0, .outRing 1], (waveB (.emit ⟨3, 5, true, 0⟩) (boundTo b) && ((waveAt (boundTo b)).t.s 5).toNat == slots34.length &&
    (at_ (boundTo b)).g.slotOf (((waveAt (boundTo b)).t.s 3).toNat + 0) == slots34[0]? && (at_ (boundTo b)).g.slotOf (((waveAt (boundTo b)).t.s 3).toNat + 1) == slots34[1]? &&
    ((at_ (boundTo b)).c.edge? ((at_ (boundTo b)).n.edgeIdx 0)).any fun e => e.bind == b && decide ((at_ (boundTo b)).g.depth + 1 ≤ 16)) = true :=
  List.all_eq_true.mp (by decide +kernel)
theorem wit_RecordsOut_open : ∀ b ∈ [EdgeBind.remote 3 1 0, .outRing 1], (boundTo b).edgeOpen ⟨0, 0, 64, true, b⟩ = true ∧
    (at_ (boundTo b)).c.edge? ((at_ (boundTo b)).n.edgeIdx 0) = some ⟨0, 0, 64, true, b⟩ := by
  intro b hb
  simp only [List.mem_cons, List.not_mem_nil, or_false] at hb
  rcases hb with rfl | rfl
  · exact ⟨stationFree_of (by decide +kernel) (by decide +kernel) _, by decide +kernel⟩
  · exact ⟨rfl, by decide +kernel⟩

theorem wit_PhasesAndDone_forms : plainB (.qdepth 2 0) base = true ∧ plainB (.qdepth 2 0) baseC = true ∧ plainB .done base = true ∧
    plainB .done (onWg base fun g => { g with doneTaken := true }) = true := by decide +kernel
/-- The workgroup holds no reservation; a second wave has not reached the boundary, or has. -/
def alone : State := onWg graphed fun g => { g with resv := none }
def twoWaves (p : Option Park) : State := onWg alone fun g => { g with waves := g.waves ++ [{ wave0 with waveid := 1, slot := 1, t := { codeThread with park := p } }] }
theorem wit_PhasesAndDone_boundary : ∀ e ∈ [(Instr.phase, false), (.join, true)], ∀ s ∈ [alone, twoWaves none],
    (waveB e.1 s && (at_ s).n.phased && (at_ s).g.resv.isNone && (at_ s).g.boundaryKind.isNone && (waveAt s).t.quiet && ((waveAt s).t.deferredOn .gst).isNone &&
      s.released (at_ s) .dev && s.recordRoom (at_ s).c ((at_ s).g.phaseSpace (at_ s).c)) = true := by
  intro e he s hs
  simp only [List.mem_cons, List.not_mem_nil, or_false] at he hs
  rcases he with rfl | rfl <;> rcases hs with rfl | rfl <;> decide +kernel
theorem wit_PhasesAndDone_last : waveB .phase (twoWaves (some (.boundary false))) = true ∧
    (at_ (twoWaves (some (.boundary false)))).g.boundaryKind = some false ∧ (twoWaves (some (.boundary false))).released (at_ (twoWaves (some (.boundary false)))) .dev = true := by
  decide +kernel

/-! ## Scheduling -/

/-- The party that ISSUE serves: a NOP stands at the wave's program counter. -/
theorem wit_Scheduling_issue : still.cur = none ∧ still.sweep.passer 0 = none ∧ (still.sweep.tried 0 .uniform).ready 0 .uniform ≠ [] ∧ still.sweep.siteOf (.mseq 0 0) = some (of_ still.sweep (.mseq 0 0)) ∧
    (of_ still.sweep (.mseq 0 0)).runnable = true ∧ (of_ still.sweep (.mseq 0 0)).t.windowShut = false ∧ still.sweep.blocked.contains (.mseq 0 0) = false := by
  decide +kernel
/-- The wave passes over an inactive path. -/
def overPath : State := onWave still fun w => { w with e := 0 }
theorem wit_Scheduling_passer : overPath.cur = none ∧ overPath.sweep.passer 0 = some (.wave 0 0) := by decide +kernel
def waited : State := onWave still fun w => { w with passed := 256 }
theorem wit_Scheduling_promotion : waited.waveOf 0 0 = some (waveAt waited) ∧ 256 ≤ (waveAt waited).passed := by decide +kernel
def aRec (t : Nat) : Rec := ⟨zeros 8, 1, none, t⟩
/-- A thread kind whose slice's oldest record has waited 10 µs. -/
def gathering : State := onCtx (onNode { still with time := 20000 } fun n => { n with kind := 0 }) fun c => { c with slices := [⟨0, 0, [aRec 10000, aRec 15000]⟩] }
theorem wit_Scheduling_timer : gathering.ctx? 0 = some (ctxAt gathering) ∧ (ctxAt gathering).slices.find? (fun q => q.node == 0 && q.die == 0) = some ⟨0, 0, [aRec 10000, aRec 15000]⟩ ∧
    (match (ctxAt gathering).node? 0 with | some n => n.kind == 0 && n.cores == 0 && decide (10000 + n.timer * 250 ≤ gathering.time) | none => false) = true ∧
    gathering.mayForm (ctxAt gathering) 0 = true ∧ ∀ x ∈ [aRec 10000, aRec 15000], x.depth = (aRec 10000).depth := by decide +kernel
/-- One formed workgroup and nothing resident. -/
def launching : State := onCtx { still with wgs := [] } fun c => { c with formed := [⟨0, 0, [aRec 0], 0, none⟩] }
theorem wit_Scheduling_decision : launching.wgs = [] ∧ launching.ctxs = [ctxAt launching] ∧ (ctxAt launching).slices = [] ∧ launching.service.active = false ∧
    (ctxAt launching).run = .running ∧ (ctxAt launching).ladder = .none ∧ (ctxAt launching).weight ≠ 0 ∧ (ctxAt launching).funded = true ∧
    (ctxAt launching).overdrawn = false ∧ (ctxAt launching).holding = none ∧ (ctxAt launching).trapWait = [] ∧ (ctxAt launching).node? 0 = some node0 ∧ node0.cores = 0 ∧
    (launching.place (ctxAt launching) node0 (node0.need [aRec 0])).isSome = true := by decide +kernel

/-- A child ends; its record's parent waits for it. -/
def ending : State := onWg { still with time := 100 } fun g => { g with status := .ending, resv := none, waves := g.waves.map fun w => { w with ended := true }, records := [⟨zeros 8, 1, some 7, 0⟩] }
def parent : Workgroup := { codeWorkgroup with id := 7, join := 1, status := .phase false }
def family : State := { ending with wgs := ending.wgs ++ [parent] }
theorem wit_EndsAndPeriods_end : (match family.wg? 0 with | some g => g.id == 0 && g.status == .ending && family.mayEnd g && g.ctx == 0 && g.node == 0 | none => false) = true ∧
    family.ctx? 0 = some (ctxAt family) ∧ (ctxAt family).node? 0 = some node0 ∧ (ctxAt family).run = .running ∧ (ctxAt family).trapWait = [] ∧
    (∀ h ∈ family.wgs, ∀ w ∈ h.waves, w.t.park = none) := by decide +kernel
theorem wit_EndsAndPeriods_period : base.time < base.period + 20000 ∧ ({ base with time := 20000 } : State).period + 20000 ≤ 20000 ∧ base.ctx? 0 = some (ctxAt base) := by
  decide +kernel
/-- A context whose core-time level has come down to its limit. -/
def spent : State := onCtx { base with time := 20000 } fun c => { c with desc := (c.desc &&& ~~~(BitVec.ofNat 512 (2 ^ 432 - 2 ^ 416))) ||| BitVec.ofNat 512 (2 ^ 416), bktCore := -(2 ^ 40) }
theorem wit_EndsAndPeriods_overdrawn : spent.period + 20000 ≤ spent.time ∧ spent.ctx? 0 = some (ctxAt spent) ∧ spent.service.active = false ∧ (ctxAt spent).run = .running ∧
    (ctxAt spent).ladder = .none ∧ (ctxAt spent).overdrawn = true := by decide +kernel
def rewritten : State := onCtx { base with time := 20000 } fun c => { c with newDesc := some 0 }
theorem wit_EndsAndPeriods_rewritten : rewritten.period + 20000 ≤ rewritten.time ∧ rewritten.ctx? 0 = some (ctxAt rewritten) ∧ (ctxAt rewritten).newDesc = some 0 := by decide +kernel
/-- The ladder's deadline has passed with work left: an instruction in flight; with and without a Wintering store. -/
def selecting : Flight := ⟨0, .cselk 1 0, 0, some 0, true, false, false, [], 0, [], [], .rlx, .wave, 0, 0, 0, none⟩
def draining (wok : Bool) : State :=
  onCtx (onThread { still with time := 100 } fun t => { t with flights := [selecting] }) fun c =>
    { c with ladder := .drain 50 none, desc := if wok then c.desc ||| (BitVec.ofNat 512 (2 ^ 325 + 2 ^ 291)) else c.desc }
theorem wit_EndsAndPeriods_drain : ∀ b ∈ [true, false], ((draining b).ctx? 0 == some (ctxAt (draining b)) && (ctxAt (draining b)).ladder == .drain 50 none &&
    !(draining b).drained 0 && (ctxAt (draining b)).wok == b && (draining b).wgs.any fun g => g.ctx == 0 && g.onCore && !(draining b).settled g false) = true :=
  List.all_eq_true.mp (by decide +kernel)
/-- A service list of one entry for context 0. -/
def served (b : Bool) (from_ : Nat) : State :=
  { still with time := 10 ^ 9, service := ⟨true, none, false, [], [BitVec.ofNat 64 (2 ^ 42 + 2 ^ 26 + 2 ^ 25)], 0, from_, b⟩ }
theorem wit_EndsAndPeriods_slice : (served false 0).service.entry = some (BitVec.ofNat 64 (2 ^ 42 + 2 ^ 26 + 2 ^ 25)) ∧
    serviceCtx (BitVec.ofNat 64 (2 ^ 42 + 2 ^ 26 + 2 ^ 25)) = 0 ∧ (served false 0).ctx? 0 = some (ctxAt (served false 0)) ∧
    serviceSlice (BitVec.ofNat 64 (2 ^ 42 + 2 ^ 26 + 2 ^ 25)) ≤ 10 ^ 9 ∧ (ctxAt (served false 0)).run = .running ∧ (served false 0).drained 0 = false ∧
    (ctxAt (served false 0)).ladder = .none ∧ ({ served true 0 with wgs := [] } : State).service.ending = true ∧ ({ served true 0 with wgs := [] } : State).drained 0 = true := by
  decide +kernel
def saving : State := onCtx (onWg { still with time := 100 } fun g => { g with status := .stopped, why := [.fault 0x12000], resv := none })
  fun c => { c with desc := c.desc ||| (BitVec.ofNat 512 (2 ^ 292)) }
theorem wit_EndsAndPeriods_save : (match saving.wg? 0 with | some g => g.status == .stopped && saving.settled g true && saving.copiesDone 0 && saving.framesFit (ctxAt saving) [g] | none => false) = true ∧
    (ctxAt saving).run = .running ∧ (ctxAt saving).trapWait = [] ∧ (∀ h ∈ saving.wgs, ∀ w ∈ h.waves, w.t.park = none) := by decide +kernel
theorem wit_EndsAndPeriods_rewrite : (8 < ((BitVec.ofNat 512 (9 * 2 ^ 364)).extractLsb' 364 4).toNat) ∧ ((BitVec.ofNat 512 (8 * 2 ^ 364)).extractLsb' 364 4).toNat ≤ 8 ∧
    base.ctx? 0 = some (ctxAt base) ∧ base.host.fw ≠ .reloading ∧ ({ base with host := { base.host with fw := .reloading } } : State).ctx? 0 = some (ctxAt base) ∧
    ({ base with host := { base.host with fw := .reloading } } : State).host.fw = .reloading := by
  decide +kernel

end Sys2Proof.Tests
end

