-- ==== Sys2Proof/Tests/WitnessD.lean ====
section
/-! SUPPORT. States that meet the hypotheses of the claims about reservations, the matrix engine, selection and network evaluation. -/
namespace Sys2Proof.Tests
-- One theorem at a time: each kernel evaluation waits for the ones before it, and a waiting thread costs memory.
set_option Elab.async false
open Sys2Proof Sys2Proof.Machine

/-! ## Reservations -/

def unreserved : State := onWg base fun g => { g with resv := none }
/-- Another workgroup of the cluster holds quadrant 0. -/
def crowded : State := { unreserved with wgs := unreserved.wgs ++ [{ codeWorkgroup with id := 1 }] }
theorem wit_Reservations_mrsv : ∀ e ∈ [(unreserved, (0 : Fin 4)), (unreserved, 3), (crowded, 2), (crowded, 3)],
    (waveB (.mrsv 1 e.2) e.1 && (at_ e.1).g.resv.isNone) = true := List.all_eq_true.mp (by decide +kernel)
theorem wit_Reservations_room :
    (((List.range 4).filter fun q => (crowded.ownerOfQuad (at_ crowded).g.cluster q).isNone) = [1, 2, 3]) ∧
    ((List.range 4).filter fun q => (unreserved.ownerOfQuad (at_ unreserved).g.cluster q).isNone) = [0, 1, 2, 3] := by decide +kernel
/-- Two quadrants with idle threads. -/
def idleResv (s : State) : State := onWg s fun g => { g with resv := some (Reservation.grant [0, 1]) }
theorem wit_Reservations_mrel : ∀ e ∈ [((2 : BitVec 4), 1), (3, 2)], (plainB (.mrel e.1) (idleResv base) && e.1.toNat == 2 ^ 2 - 2 ^ (2 - e.2) &&
    (at_ (idleResv base)).g.resv == some (Reservation.grant [0, 1]) && (Reservation.grant [0, 1]).size == 2 &&
    (Reservation.grant [0, 1]).threads.all fun x => !x.running && !x.uses (2 - e.2) && x.regs.isEmpty) = true :=
  List.all_eq_true.mp (by decide +kernel)
def forkOf (t : Fin 4) (me ce : BitVec 14) : Instr := .fork ⟨t, me, ce, 5, 0⟩
theorem wit_Reservations_fork : ∀ e ∈ [((0 : Fin 4), (0 : BitVec 14), (5 : BitVec 14)), (1, 1023, 0)], (waveB (forkOf e.1 e.2.1 e.2.2) (idleResv base) &&
    !entryBad (at_ (idleResv base)).n.msec (at_ (idleResv base)).n.mlen e.2.1.toNat &&
    !entryBad (at_ (idleResv base)).n.cseq (at_ (idleResv base)).n.clen e.2.2.toNat && decide (e.1.val < (Reservation.grant [0, 1]).size)) = true :=
  List.all_eq_true.mp (by decide +kernel)
theorem wit_Reservations_rdv : ∀ e ∈ [(later base, (8 : Fin 16)), (later base, 15), (later baseM, 0), (later baseC, 7)], (plainB (.rdv e.2) e.1 &&
    (at_ e.1).g.resv == some (resvAt e.1) && ((at_ e.1).w.isNone || (at_ e.1).t.drained) && ((at_ e.1).w.isSome || e.1.threadIdle (at_ e.1)) &&
    (at_ e.1).t.deferred.isEmpty &&
    ((resvAt e.1).arrive (at_ e.1).p e.2).1.rdv.all fun x => !((resvAt e.1).arrive (at_ e.1).p e.2).1.complete (at_ e.1).g.id x.1 x.2.2) = true :=
  List.all_eq_true.mp (by decide +kernel)
theorem wit_Reservations_ends : ∀ e ∈ [(later baseM, Instr.msync), (later baseC, .csync), (later baseM, .exit), (later baseC, .exit)], (plainB e.2 e.1 && (at_ e.1).w.isNone &&
    e.1.threadIdle (at_ e.1) && (at_ e.1).t.deferred.isEmpty) = true := List.all_eq_true.mp (by decide +kernel)

/-! ## The matrix engine -/

/-- A tensor record of 8 rows of 64 elements of a size, its form byte and T0; its data lies at 0x11200. -/
def recordBytes (form elt t0 t1 : Nat) : List Byte :=
  leBytes 128 (0x11200 + form * 2 ^ 64 + (2 ^ 128 * (64 + elt * 2 ^ 64 + (t0 - 1) * 2 ^ 104)) + (2 ^ 256 * (8 + 64 * elt * 2 ^ 64 + (t1 - 1) * 2 ^ 104)) +
    2 ^ 384 + 2 ^ 512 + 2 ^ 640)
/-- A matrix thread with s4 the record, s5 0, and s2 a descriptor that is all its own. -/
def engine : State := regs (filled (paged (later baseM)) (recordBytes 0x21 4 64 1)) [(4, 0x11000), (6, 64), (7, 0x702 * 2 ^ 32 + 512), (10, 64)]
theorem wit_MatrixIssue_site : (at_ engine).g.resv = some (resvAt engine) ∧ (at_ engine).g.seqOf (at_ engine).p = some (seqAt engine (.mseq 0 0)) ∧
    (seqAt engine (.mseq 0 0)).oldTiles = [] ∧ (at_ engine).t.flights = [] ∧ (seqAt engine (.mseq 0 0)).ops = [] := by decide +kernel
def matForms : List Instr :=
  [.mld ⟨.fp32, 7, 4, 8, 0⟩, .mft ⟨.e4m3, 0, 4, 8, 15⟩, .mma ⟨false, false, 0, 1, 3, 0, 1, 0⟩, .mst ⟨.fp32, .rn, 3, 4, 0⟩,
   .msta ⟨none, .g, .fp32, .rn, 0, 4, 0⟩, .msta ⟨some 10, .s, .fp32, .rn, 0, 6, 0⟩, .mzero 3, .mtag 7 .bf16, .munpin 7, .mqbind 3 5]
theorem wit_MatrixIssue_forms : ∀ i ∈ matForms, plainB i engine = true := List.all_eq_true.mp (by decide +kernel)
/-- Tiles 0 and 1 have BF16 tags. -/
def tagged : State := engine.updResv 0 fun r => { r with tiles := r.tiles.map fun t => { t with tag := 1 } }
theorem wit_MatrixIssue_mma : plainB (.mma ⟨false, false, 0, 1, 3, 0, 1, 0⟩) tagged = true ∧
    mmaCheck ⟨false, false, 0, 1, 3, 0, 1, 0⟩ (resvAt tagged) (seqAt tagged (.mseq 0 0)) tagged.tick 0 = none := by decide +kernel
/-- The same with an adapter bound. -/
def adapted : State := tagged.updSeq (.mseq 0 0) fun x => { x with adp := some ⟨0, List.replicate 128 0xFFFFFFFF, 0, 64, 0⟩ }
theorem wit_MatrixIssue_mmaAdapter : plainB (.mma ⟨false, true, 0, 1, 3, 0, 1, 0⟩) adapted = true ∧
    mmaCheck ⟨false, true, 0, 1, 3, 0, 1, 0⟩ (resvAt adapted) (seqAt adapted (.mseq 0 0)) adapted.tick 0 = none := by decide +kernel
theorem wit_MatrixIssue_record : ∀ e ∈ [Fmt.fp32], (match (drainRecord (at_ engine) engine e ((at_ engine).t.s 4).toNat ((at_ engine).t.s 5).toNat).2 with
    | .ok x => x.tile == [64, 1, 1, 1, 1] | _ => false) = true := List.all_eq_true.mp (by decide +kernel)
theorem wit_MatrixIssue_pad : (match indexWords (at_ engine) engine.tick (some 10) with | .ok (some l) => l == List.replicate 128 0 | _ => false) = true ∧
    ((at_ engine).t.s 6).toNat % 2 ^ 32 = 64 ∧ ((at_ engine).t.s 7).toNat / 2 ^ 48 = 0 ∧ ((at_ engine).t.s 7).toNat % 2 ^ 32 % drainBytes .fp32 = 0 ∧
    ((at_ engine).t.s 7).toNat / 2 ^ 32 % 256 + 1 ≤ 128 ∧ ((at_ engine).t.s 7).toNat / 2 ^ 40 % 256 + 1 ≤ 128 := by
  decide +kernel
/-- An adapter descriptor, its 128 handles at 64 or at the end of the allocation. -/
def adapting (rowh : Nat) : State := regs (filled (paged (later baseM)) (leBytes 64 (rowh * 2 ^ 384 + 2 ^ 416))) [(4, 0x11000), (5, 3)]
theorem wit_MatrixIssue_madp : ∀ e ∈ [64, 3584], (plainB (.madp ⟨4, 5, 64, 0⟩) (adapting e) && ((at_ (adapting e)).t.s 4).toNat % 64 == 0 &&
    decide (e + 512 ≤ (at_ (adapting e)).g.scratchSize) && !(at_ (adapting e)).g.scratchMarked e 512 && !(at_ (adapting e)).t.acqBars 0 && !(adapting e).ownQueued (.mseq 0 0) 0 &&
    (match ((adapting e).engRead (.flight (.mseq 0 0) 0) 0 0 0x11000 64 0x10000).2 with
      | .got bs _ =>
        let d : Adapter := ⟨BitVec.ofNat 512 (fromBytes bs), [], 3, 64, 0⟩
        (adapterBad d).isNone && d.fld 0 288 == 0 && d.nh != 0 && d.fld 384 32 == e
      | _ => false)) = true := List.all_eq_true.mp (by decide +kernel)

def fillFlight (i : Instr) : Flight := { flightOf i 0 [] with counted := true, owed := 0 }
def working (w : MatWork) (i : Instr) (s : State) : State :=
  { s.updSeq (.mseq 0 0) fun x => { x with ops := [⟨0, w, none, false⟩], t := { x.t with flights := [fillFlight i], nextId := 1 } } with cur := none }
def fillOf : Instr := .mld ⟨.fp32, 7, 4, 8, 0⟩
def filling : State := working (.fill 7 10 false 0x11000 0 []) fillOf engine
theorem wit_MatrixSteps_fill : filling.siteOf (.mseq 0 0) = some (of_ filling (.mseq 0 0)) ∧ (of_ filling (.mseq 0 0)).w = none ∧
    (of_ filling (.mseq 0 0)).engineLive = true ∧ (of_ filling (.mseq 0 0)).t.acqBars 0 = false ∧ filling.ownQueued (.mseq 0 0) 0 = false ∧ tagMx 10 = false ∧
    (seqAt filling (.mseq 0 0)).ops = [⟨0, .fill 7 10 false 0x11000 0 [], none, false⟩] ∧ (seqAt filling (.mseq 0 0)).oldTiles = [] ∧
    (match filling.readTensor (.flight (.mseq 0 0) 0) 0 0 0x11000 (va64 0x10000) with
      | (s1, .ok t) => fillGeometry 10 t 0 && (match ((s1.keepRecord (.mseq 0 0) 0 (some t)).gather (.flight (.mseq 0 0) 0) 0 0 (va64 0x10000) (t.rowRuns 0 ++ [])).2 with | .ok _ => true | _ => false)
      | _ => false) = true := by decide +kernel
def mulOf (k : Nat) : Mul := ⟨{ Tile.zero with tag := 1 }, { Tile.zero with tag := 1 }, none, none, k, false, none⟩
theorem wit_MatrixSteps_block : ∀ k ∈ [0, 3],
    (let s := working (.mul 3 (mulOf k)) (.mma ⟨false, false, 0, 1, 3, 0, 1, 0⟩) tagged
     s.siteOf (.mseq 0 0) == some (of_ s (.mseq 0 0)) && (of_ s (.mseq 0 0)).engineLive && decide (k < (mulOf k).blocks) && (mulOf k).blocks == 4 &&
      (seqAt s (.mseq 0 0)).ops == [⟨0, .mul 3 (mulOf k), none, false⟩] && (resvAt s).accs[3]?.isSome) = true := List.all_eq_true.mp (by decide +kernel)

/-! ## Selection and network evaluation -/

/-- A descriptor at 64: four rows of two columns at 256, the two best of each, indices at 512, values at 640. -/
def selWord : Nat := 256 + 8 * 2 ^ 32 + 4 * 2 ^ 64 + 2 * 2 ^ 80 + 2 * 2 ^ 96 + 2 ^ 112 + 512 * 2 ^ 128 + 640 * 2 ^ 160
def choosing : State := onWg data fun g => g.scratchWrite 64 32 selWord
theorem wit_Selections_issue : plainB (.cselk 6 15) choosing = true ∧ plainB (.cselk 6 0) choosing = true ∧ ((at_ choosing).t.s 6).toNat % 2 ^ 32 = 64 ∧
    (at_ choosing).g.scratchMarked 64 32 = false ∧ (at_ choosing).g.selAt 64 = selWord ∧ (∀ f ∈ (at_ choosing).t.flights, f.pads = false) ∧ (selOf selWord).check (selReserved selWord) 4096 = none := by
  decide +kernel
def selFlight : Flight := { flightOf (.cselk 6 15) 0 [] with left := none, arg := 64 + 2 ^ 32 * (at_ choosing).g.selAt 64, owed := 0 }
def chosen : State := { onThread choosing fun t => { t with flights := [selFlight], nextId := 1 } with cur := none }
theorem wit_Selections_completion : chosen.siteOf (.wave 0 0) = some (of_ chosen (.wave 0 0)) ∧ (of_ chosen (.wave 0 0)).p = .wave 0 0 ∧
    (of_ chosen (.wave 0 0)).c.run = .running ∧
    (of_ chosen (.wave 0 0)).t.flights.find? (fun f => !f.done && (match f.i with | .cselk _ _ => true | _ => false)) = some selFlight ∧
    (of_ chosen (.wave 0 0)).t.acqBars 0 = false ∧ selFlight.arg / 2 ^ 32 = selWord ∧ (of_ chosen (.wave 0 0)).g.status = .resident ∧
    ∀ j, j < 4 → (of_ chosen (.wave 0 0)).g.scratchMarked (256 + j * 8) 8 = false := by decide +kernel

/-- One layer of one output, two inputs, BF16 weights at 0x11080, no biases. -/
def netWord : Nat := 2 ^ 2 + 0x11080 * 2 ^ 192
def pinning : State := filled data (leBytes 128 netWord)
theorem wit_NetworkEvaluation_pin : plainB (.npin ⟨2, 4⟩) pinning = true ∧ plainB (.nunpin 5) pinning = true ∧ (at_ pinning).t.storesDone = true ∧ (at_ pinning).c.smpK = 0 ∧
    (match pinning.check (at_ pinning) .g 128 .read 0 ((at_ pinning).t.s 4).toNat with | .ok a => a.pa == some 0x20000 && a.key == 1 && !a.host && inMemory 0x20000 | _ => false) = true ∧
    pinning.readBarred (at_ pinning) 0x20000 = false ∧ pinning.peekRun 1 0x20000 128 = ⟨leBytes 128 netWord, false⟩ ∧ netCheck netWord = none ∧
    pinning.home.counts = [] ∧ pinning.ackDue (at_ pinning).cluster (lineOf 0x20000) = false := by decide +kernel
def pinned : State := onCtx pinning fun c => { c with handles := [⟨3, BitVec.ofNat 1024 netWord, true⟩] }
def nevalF : NevalF := ⟨8, 16, .s 5, 1, 1, 0, tl⟩
theorem wit_NetworkEvaluation_accept : waveB (.neval nevalF) pinned = true ∧ (waveAt pinned).lanes (.neval nevalF) = [0] ∧
    (at_ pinned).c.resolve ((waveAt pinned).a32 0 (.s 5)).toNat 2 1 = none ∧ (pinned.gatherer 0).rows = [] := by decide +kernel
theorem wit_NetworkEvaluation_reject : waveB (.neval nevalF) pinning = true ∧ ((at_ pinning).c.resolve ((waveAt pinning).a32 0 (.s 5)).toNat 2 1).isSome = true ∧
    (pinning.gatherer 0).rows = [] := by decide +kernel
def aRow : Row := ⟨0, 3, 0, 0, 0, 0, [0x3F800000, 0x40000000], 50⟩
def binned : State := { pinned with cur := none, time := 2000000, gatherers := [⟨0, [aRow], [], [], 0⟩] }
theorem wit_NetworkEvaluation_timer : binned.ctx? 0 = some (ctxAt binned) ∧ (ctxAt binned).run = .running ∧ ((binned.gatherer 0).rows.filter fun x => x.ctx == 0 && x.h == 3).head? = some aRow ∧
    aRow.time + (ctxAt binned).nevNs ≤ binned.time := by decide +kernel
def nevFlight : Flight := { flightOf (.neval nevalF) 0 [Access.mk0 0 0] with left := none, res := true, owed := 0 }
def tiled : State :=
  { onThread pinned fun t => { t with flights := [nevFlight], nextId := 1 } with cur := none, gatherers := [⟨0, [], [⟨0, 3, [aRow], true, 0⟩], [], 1⟩] }
theorem wit_NetworkEvaluation_tile : (tiled.gatherer 0).tiles = [⟨0, 3, [aRow], true, 0⟩] ∧ tiled.freeQuads 0 ≠ [] ∧ (ctxAt tiled).run = .running ∧ (ctxAt tiled).handle? 3 = some ⟨3, BitVec.ofNat 1024 netWord, true⟩ ∧
    (waveAt tiled).t.flights = [nevFlight] ∧ (waveAt tiled).ended = false ∧
    (match tiled.gather (.tile 0 0) 0 0 0 (netOf netWord).runs with
      | (s1, .ok xs) => s1.wgs == tiled.wgs && s1.gatherers == tiled.gatherers && (netOf netWord).runs.all fun r => !(fromSectors xs r.1 r.2).2
      | _ => false) = true := by decide +kernel

end Sys2Proof.Tests
end

