-- ==== Sys2Proof/Tests/WitnessE.lean ====
section
/-! SUPPORT. States that meet the hypotheses of the claims about the Solstice ring and about remote memory access. -/
namespace Sys2Proof.Tests
-- One theorem at a time: each kernel evaluation waits for the ones before it, and a waiting thread costs memory.
set_option Elab.async false
open Sys2Proof Sys2Proof.Machine

/-! ## The ring -/

/-- Layer 5: two segments at 0x30000 from die 0, ring 0; the fallback may be used. -/
def layer5 : PlanLayer := ⟨0x30000, 1, 5, 2, 1, 10, 0, 0, false, true⟩
def plan5 : LapPlan := ⟨0, 16, 10, [layer5], (0, 0), []⟩
/-- Under that plan, n frames of it seen at cluster 0, with a registration or none. -/
def ringed (n : Nat) (r : Option Registration) (s : State) : State :=
  { s.updSeq (.mseq 0 0) fun x => { x with regs := r.toList } with ring := { s.ring with plan := some plan5, seen := Sparse.set 0 [] 0 n } }
def regOf (st : RegState) (cs : List Claim) : Registration := ⟨5, 2048, 16, st, false, false, false, false, false, none, 0, cs, some layer5, []⟩
def ringRegs (s : State) : State := regs (later s) [(4, 5), (6, 2048), (7, 1)]
def boardM : State := ringRegs baseM
def withFallback (s : State) : State := onNode s fun n => { n with bfirst := 5, blast := 5 }
def rboardOf (n : Byte) : RboardF := ⟨4, 6, n, 0⟩
theorem wit_RingForms_board : ∀ e ∈ [(boardM, (15 : Byte)), (ringed 0 none boardM, 15), (ringed 0 none boardM, 14), (ringed 1 none boardM, 15),
      (ringed 1 none (withFallback boardM), 15), (ringed 0 none boardM, 254)],
    (plainB (.rboard (rboardOf e.2)) e.1 && ((at_ e.1).t.s 4).toNat == 5 && ((at_ e.1).t.s 6).toNat == 2048 && (resvAt e.1).size == 1 &&
      (resvAt e.1).threads.all (·.regs.isEmpty) && ((at_ e.1).g.seqOf (at_ e.1).p).isSome) = true := List.all_eq_true.mp (by decide +kernel)
theorem wit_RingForms_cases : boardM.boardable 0 5 = none ∧ (ringed 0 none boardM).boardable 0 5 = some (plan5, layer5) ∧ layer5.g = 16 ∧
    (ringed 0 none boardM).ring.seenAt 0 0 ≤ plan5.startOf layer5 ∧ plan5.startOf layer5 < (ringed 1 none boardM).ring.seenAt 0 0 ∧
    (ringed 1 none boardM).readsLeft (ctxAt (ringed 1 none boardM)) = true := by decide +kernel
def mldr5 : MldF := ⟨.bf16, 3, 4, 7, 0⟩
theorem wit_RingForms_claim : ∀ st ∈ [RegState.armed, .capturing, .done, .fetching, .refused],
    (let s := ringed 1 (some (regOf st [])) boardM
     plainB (.mldr mldr5) s && (seqAt s (.mseq 0 0)).reg? 5 == some (regOf st []) && (seqAt s (.mseq 0 0)).claims.isEmpty &&
      s.ring.plan.bind (·.find 5) == some layer5 && (at_ s).t.flights.isEmpty && (seqAt s (.mseq 0 0)).oldTiles.isEmpty) = true :=
  List.all_eq_true.mp (by decide +kernel)
/-- Segment 1 is the last; s7 names 2. -/
def pastEnd (st : RegState) : State := ringed 1 (some (regOf st [])) (regs (later baseM) [(4, 5), (6, 2048), (7, 2)])
theorem wit_RingForms_past : layer5.nseg = 2 ∧ ∀ st ∈ [RegState.armed, .capturing, .done, .fetching],
    (plainB (.mldr mldr5) (pastEnd st) && ((at_ (pastEnd st)).t.s 7).toNat == 2 && (seqAt (pastEnd st) (.mseq 0 0)).reg? 5 == some (regOf st []) &&
      (pastEnd st).ring.plan.bind (·.find 5) == some layer5 && (seqAt (pastEnd st) (.mseq 0 0)).claims.isEmpty) = true :=
  ⟨rfl, List.all_eq_true.mp (by decide +kernel)⟩
def claim0 (got : Nat) : Claim := ⟨0, 3, 1, 1, got, false, emptyTile, false, [], 0⟩
theorem wit_RingForms_wait : ∀ r ∈ [none, some (regOf .armed []), some (regOf .armed [claim0 0])],
    (plainB (.rwait ⟨2, 4⟩) (ringed 1 r boardM) && plainB (.rstat ⟨2, 4⟩) (ringed 1 r boardM) && plainB (.rstat ⟨2, 4⟩) (ringRegs base) &&
      (seqAt (ringed 1 r boardM) (.mseq 0 0)).reg? 5 == r) = true := List.all_eq_true.mp (by decide +kernel)

/-- The loader of ring 0 has read n bytes of frame k, and injected those before it. -/
def lapping (k n : Nat) : State :=
  let s := ringed 0 none { still with time := 10 ^ 6 }
  { s with ring := { s.ring with injected := [k, 0], loading := [(0, zeros n, false)] } }
theorem wit_RingSteps_injection : ∀ e ∈ [(0, 0, 0, false, 0), (16, 1, 0, false, 1952), (31, 1, 15, true, 2016), (0, 0, 0, false, 2016)],
    (let s := lapping e.1 e.2.2.2.2
     s.ring.plan == some plan5 && frameIn (plan5.onRing 0) (s.ring.injected.getD 0 0) == some (layer5, e.2.1, e.2.2.1, e.2.2.2.1) &&
      s.ring.loaded 0 == (zeros e.2.2.2.2, false) && (decide (e.2.2.2.2 + 32 < 2048) || (zeros e.2.2.2.2).length == 2016) &&
      decide (s.ring.start + (16 * e.1 / plan5.tempo + s.ring.stalls.getD 0 0) * 1000 / s.power.mhz ≤ s.time)) = true :=
  List.all_eq_true.mp (by decide +kernel)
/-- Key slot 1 holds a key, or is cleared. -/
theorem wit_RingSteps_key : (lapping 0 0).keyOf layer5.key ≠ 0 ∧ ({ lapping 0 0 with keys := [] } : State).keyOf layer5.key = 0 ∧
    (lapping 0 0).ctx? plan5.ctx = some (ctxAt (lapping 0 0)) ∧ ({ lapping 0 0 with keys := [] } : State).ctx? plan5.ctx = some (ctxAt (lapping 0 0)) ∧
    (ctxAt (lapping 0 0)).run = .running := by decide +kernel
def frameAt (k : Nat) : RingFrame := ⟨0, k, 0, zeros 2048⟩
def passingBy (k : Nat) (r : Option Registration) : State :=
  let s := ringed k r still
  { s with ring := { s.ring with flying := [frameAt k] } }
theorem wit_RingSteps_passing : (passingBy 0 none).ring.flying.find? (fun f => f.ring == 0 && f.idx == 0) = some (frameAt 0) ∧
    frameIn (plan5.onRing 0) 0 = some (layer5, 0, 0, false) ∧ (passingBy 0 none).ring.reached layer5 (frameAt 0) 0 = true ∧ (passingBy 0 none).ports 0 layer5 = [] := by
  decide +kernel
theorem wit_RingSteps_capture : ∀ e ∈ [(0, 5), (3, 3)], (let r := regOf .capturing [claim0 e.2]; let s := passingBy (16 + e.1) (some r)
    s.ports 0 layer5 == [(.mseq 0 0, r)] && s.siteOf (.mseq 0 0) == some (of_ s (.mseq 0 0)) && frameIn (plan5.onRing 0) (16 + e.1) == some (layer5, 1, e.1, false) &&
      (e.1 == 0 || e.1 == e.2) && (claim0 e.2).lap == s.ring.lap && !(claim0 e.2).complete && decide (e.1 + 1 < (claim0 e.2).need layer5)) = true := List.all_eq_true.mp (by decide +kernel)
theorem wit_RingSteps_lap : (lapping 32 0).ring.flying = [] ∧ (lapping 32 0).ring.injected.getD 0 0 = plan5.frames 0 ∧ (lapping 32 0).ring.injected.getD 1 0 = plan5.frames 1 ∧
    (∀ x ∈ (resvAt (lapping 32 0)).threads, x.regs = []) := by decide +kernel
def windowed : State :=
  onCtx (onNode (ringed 0 none still) fun n => { n with bfirst := 5, blast := 5 }) fun c => { c with slices := [⟨0, 0, [⟨zeros 8, 0, none, 0⟩]⟩] }
theorem wit_RingSteps_window : windowed.ctx? 0 = some (ctxAt windowed) ∧ (match (ctxAt windowed).node? 0 with
      | some n => n.quota == 1 && windowed.deferral (ctxAt windowed) n == some (plan5, layer5) && decide (windowed.time < 0 + n.timer * 250)
      | none => false) = true ∧ windowed.mayForm (ctxAt windowed) 0 = true := by decide +kernel
def fetching : State := ringed 20 (some (regOf .fetching [claim0 0])) still
theorem wit_RingSteps_fallback : fetching.siteOf (.mseq 0 0) = some (of_ fetching (.mseq 0 0)) ∧ (seqAt fetching (.mseq 0 0)).regs = [regOf .fetching [claim0 0]] ∧
    (of_ fetching (.mseq 0 0)).engineLive = true ∧ fetching.readsLeft (of_ fetching (.mseq 0 0)).c = true ∧ (claim0 0).need layer5 = 16 ∧
    (of_ fetching (.mseq 0 0)).c.run = .running ∧ (seqAt fetching (.mseq 0 0)).oldTiles = [] ∧ (seqAt fetching (.mseq 0 0)).ops = [] ∧
    (seqAt fetching (.mseq 0 0)).t.flights = [] ∧ fetching.home.counts = [] ∧ fetching.keyOf layer5.key ≠ 0 ∧
    ({ fetching with keys := [] } : State).siteOf (.mseq 0 0) = some (of_ fetching (.mseq 0 0)) ∧ ({ fetching with keys := [] } : State).keyOf layer5.key = 0 := by decide +kernel

/-- All but the last sector of the claim's segment is read. -/
def fetched : Claim := { claim0 0 with image := List.replicate (2048 * 16 - 32) 0 }
def lastFetch : State := ringed 20 (some (regOf .fetching [fetched])) still
theorem wit_RingSteps_last : fetched.image.length + 32 = 2048 * fetched.need layer5 ∧ fetched.corrupt = false :=
  ⟨by rw [show fetched.image = List.replicate (2048 * 16 - 32) 0 from rfl, List.length_replicate]; decide, rfl⟩

/-! ## Remote memory access -/

/-- Queue pair 5 of context 0: retry counts 3, queues of 16, a path MTU of 1 KiB. -/
def pairOf (st : QpState) (sends recvs : List WorkReq) : QPair :=
  { n := 5, ctx := 0, state := st, firstErr := 0, params := BitVec.ofNat 512 (3 * 2 ^ 80 + 3 * 2 ^ 88 + 16 * 2 ^ 96 + 16 * 2 ^ 112), sends := sends, recvs := recvs,
    scc := 7, rcc := 0, flc := 0, nextPsn := 100, expPsn := 200, retries := 0, rnr := 0, approved := true, replay := [], cached := true, rate := 0 }
def readReq : Nat := 2 * 2 ^ 36 + 5 * 2 ^ 40 + 8 * 2 ^ 128 + 0x11040 * 2 ^ 448
def recvReq : Nat := 5 * 2 ^ 36 + 5 * 2 ^ 40 + 8 * 2 ^ 128 + 0x11040 * 2 ^ 448
def paired (q : QPair) (x : Nat) (s : State) : State :=
  { regs (filled (paged (later s)) (leBytes 64 x)) [(4, 5), (6, 0x11000), (7, 0x10005), (8, 0x20005), (9, 0x30005)] with qps := [q] }
theorem wit_RdmaRequester_post : ∀ x ∈ [readReq, recvReq],
    (let s := paired (pairOf .rts [] []) x base; let w := (at_ s).workReq s 0x11000 (leBytes 64 x)
     plainB (.qpost ⟨4, 6, 0⟩) s && (match s.check (at_ s) .g 64 .read 0 ((at_ s).t.s 6).toNat with | .ok a => a.va == 0x11000 && a.pa == some 0x20000 && a.key == 1 && !a.host && inMemory 0x20000 | _ => false) &&
      s.home.counts.isEmpty && (at_ s).t.storesDone && !s.readBarred (at_ s) 0x20000 && s.peekRun 1 0x20000 64 == ⟨leBytes 64 x, false⟩ && (at_ s).c.smpK == 0 &&
      !(pairOf .rts [] []).full w && (s.wrBad 0 w).isNone) = true := List.all_eq_true.mp (by decide +kernel)
theorem wit_RdmaRequester_stat : ∀ a ∈ [(4 : SReg), 7, 8, 9, 6], plainB (.qstat ⟨2, a⟩) (paired (pairOf .rts [] []) readReq base) = true :=
  List.all_eq_true.mp (by decide +kernel)
def request (x : Nat) (st : WrStage) : WorkReq := ⟨3, 0x11000, BitVec.ofNat 512 x, .wave 0 0, 0, st, 100, [], 0, 0, 0, 0, false⟩
def owing (x : Nat) (st : WrStage) (left : QPair → QPair) : State :=
  { onThread (paired (left (pairOf .rts [request x st] [])) x base) fun t => { t with flights := [flightOf (.qpost ⟨4, 6, 0⟩) 0 []], nextId := 1 } with
    cur := none, time := 10000 }
theorem wit_RdmaRequester_start : (let s := owing readReq .waiting id; let w := request readReq .waiting
    w.reads && !w.waitv && s.wrAcquired w && !s.paused.contains ((pairOf .rts [w] []).port, (pairOf .rts [w] []).par 17 1) && s.ctx? 0 == some (ctxAt s)) = true := by
  decide +kernel
theorem wit_RdmaRequester_answer : (request readReq (.started 50)).back = 8 ∧ (request readReq .release).cnta = 0 ∧ (request readReq .release).op ≠ 5 ∧
    (owing readReq .release id).wrReleased (request readReq .release) = true ∧ (owing readReq .release id).threadOf (.wave 0 0) = some (waveAt (owing readReq .release id)).t := by
  decide +kernel
theorem wit_RdmaRequester_again : ∀ f ∈ [(id : QPair → QPair), fun q => { q with retries := 3, rnr := 3 }],
    (f (pairOf .rts [request readReq (.started 50)] [])).oldest = some (request readReq (.started 50), 50) ∧
    50 + (f (pairOf .rts [request readReq (.started 50)] [])).timeout ≤ (owing readReq (.started 50) f).time := by
  intro f hf
  simp only [List.mem_cons, List.not_mem_nil, or_false] at hf
  rcases hf with rfl | rfl <;> decide +kernel

theorem wit_RdmaRequester_open : ∀ st ∈ [WrStage.started 50, .release], ((owing readReq st id).qp? 5 == some (pairOf .rts [request readReq st] []) &&
    (pairOf .rts [request readReq st] []).refused.isNone && (pairOf .rts [request readReq st] []).cached && (owing readReq st id).inbox.isEmpty &&
    !(owing readReq st id).pausedPair (pairOf .rts [request readReq st] []) && !(request readReq st).waitv &&
    (owing readReq st id).ctx? 0 == some (ctxAt (owing readReq st id))) = true := List.all_eq_true.mp (by decide +kernel)
/-- Pair 5's request waits for 9 completions of pair 6, which is in ERROR with 7. -/
def chainReq : WorkReq := request (2 ^ 39 + 6 * 2 ^ 40 + 9 * 2 ^ 56 + 2 * 2 ^ 36 + 8 * 2 ^ 128) .waiting
def chained : State := { still with qps := [pairOf .rts [chainReq] [], { pairOf .error [] [] with n := 6 }] }
theorem wit_RdmaRequester_chain : chained.qp? 5 = some (pairOf .rts [chainReq] []) ∧ (pairOf .rts [chainReq] []).waiter = some chainReq ∧
    chained.chain chainReq = some false ∧ chained.ctx? 0 = some (ctxAt chained) ∧ (∀ p ∈ chained.qps, p.n ≠ 5 → ∀ v ∈ p.sends, v.waitv = false) := by decide +kernel

/-- Region 2, key 0, of context 0: the page at 0x11000 with every right. -/
def region2 : Region := ⟨2, BitVec.ofNat 128 (0xF + 2 ^ 40 + 0x11000 * 2 ^ 64)⟩
def responding (recvs : List WorkReq) : State := { paired (pairOf .rts [] recvs) readReq still with regions := [region2], cur := none }
theorem wit_RdmaResponder_expects : (responding []).Expects 5 200 (pairOf .rts [] []) ∧
    (responding [request recvReq .waiting]).Expects 5 200 (pairOf .rts [] [request recvReq .waiting]) :=
  ⟨⟨by decide +kernel, rfl, rfl, by decide +kernel, by decide +kernel, by decide +kernel, rfl, rfl⟩,
   ⟨by decide +kernel, rfl, rfl, by decide +kernel, by decide +kernel, by decide +kernel, rfl, rfl⟩⟩
theorem wit_RdmaResponder_send : (responding [request recvReq .waiting]).qp? 5 = some (pairOf .rts [] [request recvReq .waiting]) ∧
    (request recvReq .waiting).len = 8 ∧ (zeros 8).length ≤ 8 ∧ 8 < (zeros 9).length := by decide +kernel
theorem wit_RdmaResponder_memory : ∀ e ∈ [(0x11000, 32), (0x11FFF, 1), (0x11008, 8)],
    ((responding []).regionOk (pairOf .rts [] []) 2 e.1 e.2 1 && (responding []).regionOk (pairOf .rts [] []) 2 e.1 e.2 2 && (responding []).regionOk (pairOf .rts [] []) 2 e.1 e.2 3 &&
      decide (e.1 % 32 + e.2 ≤ 32) &&
      (match (responding []).translate (ctxAt (responding [])) (32 * (e.1 / 32)) .both with | .ok pa 1 0 false => inMemory pa && pa % 32 == 0 && (responding []).isLive pa | _ => false) &&
      (responding []).covers (ctxAt (responding [])) 32 &&
      !(responding []).home.frozen.contains (regionOf 0x20000) && !(responding []).fillWaits Config.clusters none (sectorOf 0x20000)) = true := List.all_eq_true.mp (by decide +kernel)
theorem wit_RdmaResponder_places : (match (responding []).translate (ctxAt (responding [])) 0x11008 .both with | .ok pa 1 0 false => pa == 0x20008 | _ => false) = true ∧
    (((responding []).ordinary [lineOf 0x20008]).applyAtomic .add 8 1 0x20008 3 0).2.2 = false ∧ (((responding []).ordinary [lineOf 0x20008]).applyAtomic .cas 8 1 0x20008 3 0).2.2 = false ∧
    ((responding []).peek 1 0x20000 32).bad = false ∧ (responding []).home.counts = [] := by decide +kernel
theorem wit_RdmaResponder_refused : (responding []).regionOk (pairOf .rts [] []) 3 0x11000 8 2 = false ∧
    (responding []).regionOk (pairOf .rts [] []) 2 0x11FFF 2 2 = false := by decide +kernel
/-- The class of the pair is paused, or an answer of it waits for that to end. -/
def pausing (held : List Wire) : State := { responding [] with paused := [((pairOf .rts [] []).port, (pairOf .rts [] []).par 17 1)], wireHeld := held }
theorem wit_RdmaResponder_paused : (pausing []).pausedPair (pairOf .rts [] []) = true ∧ (responding []).pausedPair (pairOf .rts [] []) = false ∧
    (pausing [⟨5, .ack, 199, [], 0⟩]).wireHeld = [⟨5, .ack, 199, [], 0⟩] ∧ (pausing [⟨5, .ack, 199, [], 0⟩]).qp? 5 = some (pairOf .rts [] []) ∧
    (pausing []).qp? 5 = some (pairOf .rts [] []) ∧ (pausing []).inbox = [] ∧ (pairOf .rts [] []).replies = [] := by decide +kernel
theorem wit_RdmaResponder_fetch : ({ pairOf .rts [] [] with cached := false } : QPair).cached = false ∧ ((responding []).qps.filter (·.cached)).length < 4096 := by
  decide +kernel

end Sys2Proof.Tests
end

