-- ==== Sys2Proof/Tests/WitnessF.lean ====
section
/-! SUPPORT. States that meet the hypotheses of the claims about debugging, the memory system's own steps and the copy engine. -/
namespace Sys2Proof.Tests
-- One theorem at a time: each kernel evaluation waits for the ones before it, and a waiting thread costs memory.
set_option Elab.async false
open Sys2Proof Sys2Proof.Machine

/-! ## Debugging -/

/-- s4 is the target core 0, slot 0; s5 core 1; on a debug node, or not. -/
def debugging (b : Bool) : State := onNode (regs (later base) [(5, 1), (6, 12)]) fun n => { n with dbg := b }
def dbgrdOf (a : SReg) (off : BitVec 28) : Instr := .dbgrd ⟨2, a, off, 0⟩
def dbgwrOf (off : BitVec 28) : Instr := .dbgwr ⟨4, 6, off, 0⟩
theorem wit_Debugging_forms : ∀ b ∈ [true, false], (plainB (dbgrdOf 4 0) (debugging b) && plainB (dbgrdOf 5 1024) (debugging b) && plainB (dbgrdOf 4 0x17FF8) (debugging b) &&
    plainB (dbgrdOf 4 0x20010) (debugging b) && plainB (dbgwrOf 0x21000) (debugging b) && plainB (dbgwrOf 0xF000018) (debugging b) &&
    (at_ (debugging b)).n.dbg == b && !(debugging b).debugPending (.wave 0 0) && decide ((debugging b).queued 0 (some 0) < Config.storeQueueEntries)) = true :=
  List.all_eq_true.mp (by decide +kernel)
theorem wit_Debugging_target : (debugging true).target 0 0 0 = some ((at_ (debugging true)).g, waveAt (debugging true)) ∧ (debugging true).target 0 1 0 = none ∧
    (waveAt (debugging true)).t.flights = [] ∧ ((at_ (debugging true)).t.s 4).toNat = 0 ∧ ((at_ (debugging true)).t.s 5).toNat % 256 = 1 := by decide +kernel
def debugEntry (off : Nat) (v : DWord) : QEntry := { entryOf (.debug 0 off v) [] with line := 2 ^ 60, owner := .other }
def debugged (halted : Bool) (off : Nat) (v : DWord) : State :=
  { onWave still fun w => { w with dbg := { w.dbg with halted := halted } } with queue := [debugEntry off v] }
/-- A watchpoint of 16 bytes at offset 4,080; the same at 4,096 is not valid; none. -/
def wpAtEnd : DWord := 1 + 4 + 4080 * 2 ^ 12 + 4 * 2 ^ 34
def wpPast : DWord := 1 + 4 + 4096 * 2 ^ 12 + 4 * 2 ^ 34
theorem wit_Debugging_steps : ∀ e ∈ [(false, 0x21000, (12 : DWord)), (true, 0x21000, 26), (false, 0xF000000, wpAtEnd), (false, 0xF000018, wpPast), (false, 0xF000008, 0)],
    (let s := debugged e.1 e.2.1 e.2.2
     s.mayApply (debugEntry e.2.1 e.2.2) && s.target 0 0 0 == some ((of_ s (.wave 0 0)).g, waveAt s) && (waveAt s).dbg.halted == e.1 && (waveAt s).t.settled &&
      (waveAt s).e != 0 && !(waveAt s).passing && !s.recordWaits (waveAt s)) = true := List.all_eq_true.mp (by decide +kernel)
theorem wit_Debugging_valid : wpAtEnd.toNat / 2 ^ 34 % 16 = 4 ∧ wpAtEnd.toNat / 2 ^ 12 % 2 ^ 22 = 4080 ∧ wpPast.toNat / 2 ^ 12 % 2 ^ 22 = 4096 ∧
    (of_ still (.wave 0 0)).g.scratchSize = 4096 ∧ still.wpAt 0 0 = none := by decide +kernel

/-! ## The memory system -/

def dirtyAt (k : Nat) : State := { still with home := { still.home with dirty := [1024], wctr := Sparse.set 0 [] 1024 k } }
theorem wit_MemorySteps_evict : ∀ k ∈ [5, 2 ^ 56 - 2, 2 ^ 56 - 1], ((dirtyAt k).home.dirty.contains 1024 && Sparse.get 0 (dirtyAt k).home.wctr 1024 == k) = true :=
  List.all_eq_true.mp (by decide +kernel)
/-- No region is frozen, nothing is held, and firmware runs, or reloads. -/
def rebooting (s : State) : State := { s with host := { s.host with fw := .reloading } }
theorem wit_MemorySteps_free : (∀ k ∈ [5, 2 ^ 56 - 1], (dirtyAt k).home.frozen = []) ∧ still.host.fw ≠ .reloading ∧ still.home.held = [] ∧ (rebooting still).host.fw = .reloading := by
  decide +kernel
/-- The tree's node over line 1,024 has a counter, at its end or not. -/
def treed (level k : Nat) : State :=
  { dirtyAt 5 with home := { (dirtyAt 5).home with tree := [(level, Sparse.set 0 [] (1024 / nodeLines level) k)] } }
theorem wit_MemorySteps_node : ∀ e ∈ [(0, 0), (0, 2 ^ 32 - 1), (0, 2 ^ 32 - 2), (8, 2 ^ 56 - 1), (8, 2 ^ 32 - 1)],
    (decide (e.1 < rootLevel 0) && (treed e.1 e.2).home.nodeCtr 0 e.1 (1024 / nodeLines e.1) == e.2 &&
      (treed e.1 e.2).home.wctr.any fun x => (treePlace x.1).1 == 0 && (treePlace x.1).2 / nodeLines e.1 == 1024 / nodeLines e.1) = true :=
  List.all_eq_true.mp (by decide +kernel)
def iced : State := { still with keys := [(1, 2), (3, 4)], home := { still.home with frozen := [0], reviving := [1], lineKey := Sparse.set 0 [] 1024 2 } }
theorem wit_MemorySteps_rekey : iced.queue = [] ∧ iced.home.held = [] ∧ iced.home.frozen.contains 0 = true ∧ iced.home.reviving.contains 1 = true ∧ iced.keyOf 3 = 4 ∧ iced.keyOf 1 = 2 ∧
    (∀ e ∈ iced.home.lineKey, e.2 ≠ 4) ∧ (∃ e ∈ iced.home.lineKey, e.2 = 2) ∧ iced.keyOf 5 = 0 ∧
    iced.host.fw ≠ .reloading ∧ (rebooting iced).home.frozen.contains 0 = true ∧ (rebooting iced).host.fw = .reloading := by decide +kernel
/-- A host page at 0x12000. -/
def hostPaged (s : State) : State :=
  { s with home := { s.home with mem :=
    (located (0x5000 + 8 * 18) (leBytes 8 (2 ^ 56 + 2 ^ 52 + 0x99))).foldl (fun m e => Sparse.set 0 m e.1 e.2) s.home.mem } }
def denial : StopRec := ⟨50, 0x10000, 0x12340, some .pageFault, .core, false, false, none, 0, 0, 0, 0, 0, 0, 0, 0, 0, []⟩
def asking (p : List Nat) : State := onCtx (onWg (hostPaged still) fun g => { g with why := [.fault 0x12340], faultAt := [denial] }) fun c => { c with pri := p }
theorem wit_MemorySteps_host : (match (asking []).walk (ctxAt (asking [])) 0x12340 with | .wait => true | _ => false) = true ∧
    (ctxAt (asking [0x12])).pri.contains (0x12345 / 4096) = true ∧ (ctxAt (asking [0x12])).run = .running ∧ (ctxAt (asking [0x12])).denied = [] ∧
    (asking [0x12]).wgs = [(of_ (asking [0x12]) (.wave 0 0)).g] ∧ (of_ (asking [0x12]) (.wave 0 0)).g.why = [.fault 0x12340] ∧
    (of_ (asking [0x12]) (.wave 0 0)).g.faultAt = [denial] ∧ denial.faddr / 4096 = 0x12345 / 4096 := by decide +kernel
def translated (s : State) : State := onCtx s fun c => { c with tlb := [⟨0x11000, 12, 0x20000, 1, 0, false, true, true, false, false⟩] }
theorem wit_MemorySteps_invalidate : (translated still).canInvalidate (ctxAt (translated still)) 0x11000 4096 = true ∧
    (translated (queued (entryOf (.store 0) []))).canInvalidate (ctxAt (translated (queued (entryOf (.store 0) [])))) 0x11000 4096 = false := by decide +kernel
theorem wit_MemorySteps_move : (paged still).leafOf (ctxAt (paged still)) 0x11000 = some (0x5000 + 8 * 17, 0, 2 ^ 56 + 0x20000 + 0x99) ∧
    (2 ^ 56 + 0x20000 + 0x99) / 2 ^ 53 % 2 = 0 ∧ (paged still).canInvalidate (ctxAt (paged still)) 0x11000 4096 = true ∧
    (paged still).entriesOfPage (0x5000 + 8 * 17) 0 (2 ^ 56 + 0x20000 + 0x99) = [0x5000 + 8 * 17] ∧ inMemory 0x20000 = true := by decide +kernel
/-- The page's frame is mapped by its leaf alone. -/
theorem wit_MemorySteps_sharers : (paged still).sharers 0x20000 4096 = [(ctxAt (paged still), 0x11000, 0x5000 + 8 * 17, 0, 2 ^ 56 + 0x20000 + 0x99)] ∧
    (0x5000 + 8 * 17) % 8 = 0 ∧ (paged still).host.fw ≠ .reloading ∧ (paged still).ctx? 0 = some (ctxAt (paged still)) ∧
    (rebooting (paged still)).leafOf (ctxAt (rebooting (paged still))) 0x11000 = some (0x5000 + 8 * 17, 0, 2 ^ 56 + 0x20000 + 0x99) ∧
    (rebooting (paged still)).canInvalidate (ctxAt (rebooting (paged still))) 0x11000 4096 = true := by decide +kernel
def moved : State := (paged still).writeEntries [0x5000 + 8 * 17] (2 ^ 56 + 2 ^ 53 + 0x20000 + 0x99)
/-- The page is mapped as before, and so are the tables. -/
theorem wit_MemorySteps_keeps : moved.KeepsFrames 0 0x11000 4096 := by
  intro c hc f hf a h1 h2
  have h : moved.ctx? 0 = some (ctxAt moved) := by decide +kernel
  have hc : ctxAt moved = c := Option.some.inj (h.symm.trans hc)
  rw [← hc] at hf
  have all : ((ctxAt moved).framesIn 0x11000 4096).all (fun f => moved.usedRuns.any fun r => decide (r.1 ≤ f.1 ∧ f.1 + f.2 ≤ r.1 + r.2)) = true := by
    decide +kernel
  have hr := List.all_eq_true.mp all f hf
  obtain ⟨r, hr, hb⟩ := List.any_eq_true.mp hr
  have hb := of_decide_eq_true hb
  refine List.any_eq_true.mpr ⟨r, hr, ?_⟩
  simp only [overlaps, Bool.and_eq_true, decide_eq_true_eq]
  omega
/-- One gigabyte page that is being moved, as the tables' only leaf. -/
def movingLeaf : Nat := 2 ^ 56 + 2 ^ 53 + 0x99
def moving : State :=
  { still with home := { still.home with mem :=
    (located 0x1000 (leBytes 8 0x2001) ++ located 0x2000 (leBytes 8 0x3001) ++ located 0x3000 (leBytes 8 movingLeaf)).foldl (fun m e => Sparse.set 0 m e.1 e.2) [] } }
theorem wit_MemorySteps_moved : moving.leafOf (ctxAt moving) 0x11000 = some (0x3000, 2, movingLeaf) ∧ leafBits 2 movingLeaf = 30 ∧ pageIn (2 ^ 30) (2 ^ 30) = true ∧
    inMemory (2 ^ 30) = true ∧ moving.canInvalidate (ctxAt moving) 0 (2 ^ 30) = true ∧ moving.inUse (2 ^ 30) (2 ^ 30) = false ∧ moving.frameBusy 0 (2 ^ 30) = false ∧ movingLeaf / 2 ^ 53 % 2 = 1 ∧
    moving.sharers 0 (2 ^ 30) = [(ctxAt moving, 0, 0x3000, 2, movingLeaf)] ∧ moving.entriesOfPage 0x3000 2 movingLeaf = [0x3000] := by decide +kernel
def starving : State := { onThread { base with time := 10 ^ 6 } fun t => { t with stallFrom := some 100 } with cur := none }
theorem wit_MemorySteps_starved : starving.siteOf (.wave 0 0) = some (of_ starving (.wave 0 0)) ∧ (of_ starving (.wave 0 0)).runnable = true ∧
    (of_ starving (.wave 0 0)).t.flights = [] ∧ (of_ starving (.wave 0 0)).t.stallFrom = some 100 ∧ 100 + (ctxAt starving).stallNs < starving.time := by decide +kernel

/-! ## The copy engine -/

/-- s6 is 64, s8 32; s9 a phase. -/
def copying (s : State) : State := regs (paged (later s)) [(4, 0x11000), (6, 64), (8, 32), (9, 1), (10, 5)]
/-- A barrier object at 64 that expects two arrivals, one of them made. -/
def withObject (s : State) : State := onWg (copying s) fun g => g.scratchWrite 64 16 (2 * 2 ^ 12 + 1)
def tbForms : List Instr := [.tbinit ⟨6, 9⟩, .tbarv ⟨6, 9⟩, .tbexp ⟨6, 8⟩, .tbwait ⟨6, 9⟩, .tbwait ⟨6, 0⟩, .tbinit ⟨6, 6⟩, .tbarv ⟨6, 8⟩]
theorem wit_BarriersAndTags : ∀ i ∈ tbForms, (plainB i (withObject base) &&
    (at_ (withObject base)).t.drained && ((at_ (withObject base)).t.s 6).toNat % 2 ^ 32 == 64 &&
    (at_ (withObject base)).g.scratchRead 64 16 == 2 * 2 ^ 12 + 1 && !(at_ (withObject base)).g.scratchMarked 64 16) = true := List.all_eq_true.mp (by decide +kernel)
theorem wit_BarriersAndTags_cases : tbUpdate 8193 1 (.tbarv ⟨6, 9⟩) = some 8194 ∧ tbAfter 8194 = 2 ^ 96 + 8192 ∧ tbUpdate 8193 32 (.tbarv ⟨6, 8⟩) = none ∧
    tbUpdate 8193 64 (.tbinit ⟨6, 6⟩) = none ∧ tbUpdate 8193 63 (.tbinit ⟨6, 6⟩) = some (63 * 2 ^ 12) := by decide
theorem wit_BarriersAndTags_slots : ∀ t ∈ [SlotTag.empty, .filling, .full, .draining], (plainB (.slotset ⟨t, 6, 10⟩) (copying base) && plainB (.slotwait ⟨t, 6, 10⟩) (copying base) &&
    ((at_ (copying base)).t.s 10).toNat == 5 && !(at_ (copying base)).g.scratchMarked 65 1) = true :=
  List.all_eq_true.mp (by decide +kernel)

def acpOf (toG : Bool) : AcpF := ⟨toG, .b32, 0, 9, ⟨.s 4, none, 0⟩, tl⟩
theorem wit_CopyIssue_acp : ∀ g ∈ [true, false], (waveB (.acp (acpOf g)) (copying base) && (waveAt (copying base)).lanes (.acp (acpOf g)) == [0] && ((waveAt (copying base)).v 9 0).toNat == 0 &&
    okB ((copying base).check (at_ (copying base)) .g 4 (if g then .write else .read) 0 ((waveAt (copying base)).place 0 .g (.s 4) none 0))) = true :=
  List.all_eq_true.mp (by decide +kernel)
theorem wit_CopyIssue_tile : ∀ e ∈ [(base, Instr.tcp ⟨none, .b16, 6, 4, 6, 0⟩), (base, .tcp ⟨some 9, .none, 0, 4, 6, 15⟩), (baseC, .tcp ⟨none, .t, 0, 4, 6, 0⟩), (baseC, .cq 6 0)],
    plainB e.2 (copying e.1) = true := List.all_eq_true.mp (by decide +kernel)
theorem wit_CopyIssue_fits : (at_ (copying base)).tbFits 0 ∧ (at_ (copying base)).tbFits 6 ∧ ((at_ (copying base)).t.s 9).toNat = 1 ∧ ((at_ (copying base)).t.s 6).toNat % 64 = 0 := by
  refine ⟨fun off h => by simp [Site.tbOffset] at h, fun off h => ?_, by decide +kernel, by decide +kernel⟩
  have h2 : (at_ (copying base)).tbOffset 6 = some 64 ∧ (at_ (copying base)).g.scratchSize = 4096 := by decide +kernel
  rw [h2.1] at h; cases h; exact ⟨by decide, by rw [h2.2]; decide⟩
def metaReady : State := (copying baseC).updResv 0 fun r => r.setQueue 0 1 ⟨4, []⟩
theorem wit_CopyIssue_meta : plainB (.cqmeta ⟨1, 4, 7, 0⟩) metaReady = true ∧ (resvAt metaReady).queue? (Party.pair (.cseq 0 0)) 1 = some ⟨4, []⟩ := by decide +kernel

def aCommand (st : CmdStage) (ops : List (List Piece)) : Command :=
  { n := 3, req := .cq 0x11000, party := .wave 0 0, flight := 0, ctx := 0, wg := 0, cluster := 0, iaddr := 0x10000, stage := st, ops := ops, staged := false, tb := none,
    total := 0, counted := 0, targets := [0], late := [], tag := none, counter := none, acquire := false, release := none, rc := 0, overrun := false, faulted := false,
    stallFrom := none, owedAcks := 0, wCluster := 0, wDev := 0, wSys := 0 }
def carrying (c : Command) : State := { copying base with cur := none, cmds := [c] }
theorem wit_CopySteps : ∀ c ∈ [aCommand .running [[⟨.made [1, 2], .pad 4094, 2, 0⟩]], aCommand .running [[⟨.pad 0, .pad 4092, 4, 0⟩]], aCommand .running [], aCommand (.signals 0) []],
    ((carrying c).cmd? 3 == some c && (carrying c).cmdLive c && (carrying c).cmdReleased c && ((carrying c).wg? 0).map (·.scratchSize) == some 4096 &&
      (carrying c).covers (ctxAt (carrying c)) 0 && (carrying c).mayRead c && !(of_ (carrying c) (.wave 0 0)).g.scratchMarked 0 4) = true := List.all_eq_true.mp (by decide +kernel)

/-- A FILL of eight bytes at offset 0 with slot tag 5 of the array at 64, read and held by that tag. -/
def taggedCq : BitVec 512 := BitVec.ofNat 512 (2 ^ 102 + 2 * 2 ^ 106 + 5 * 2 ^ 130 + 2 ^ 146 + 64 * 2 ^ 147 + 8 * 2 ^ 256 + 0x01020304 * 2 ^ 448)
def heldCq : Command := { aCommand .tagHeld [] with req := .desc taggedCq }
def tagState (t : Nat) : State := onWg (carrying heldCq) fun g => g.setTag 64 5 t
theorem wit_CopySteps_tag : ∀ t ∈ [0, 1, 2, 3], (let s := tagState t; let g := (of_ s (.wave 0 0)).g
    s.cmd? 3 == some heldCq && s.cmdLive heldCq && s.wg? 0 == some g && s.threadOf heldCq.party == some (waveAt s).t && !(waveAt s).t.acqBars 0 &&
      g.tagAt 64 5 == t && s.cmds.all (fun e => decide (3 ≤ e.n)) &&
      (match ({ heldCq with stage := .new } : Command).acceptCq g taggedCq.toNat with
       | .ok (c', ps, tile) => c'.tag == some (64, 5) && !c'.acquire && ps.length == 1 && tile == none
       | _ => false)) = true := List.all_eq_true.mp (by decide +kernel)

end Sys2Proof.Tests
end

