-- ==== Sys2Proof/Tests/WitnessG.lean ====
section
/-! SUPPORT. States that meet the hypotheses of the claims about firmware's commands, the host link and the pod. -/
namespace Sys2Proof.Tests
-- One theorem at a time: each kernel evaluation waits for the ones before it, and a waiting thread costs memory.
set_option Elab.async false
open Sys2Proof Sys2Proof.Machine

/-! ## Commands -/

/-- A payload of n bytes with fields at byte offsets. -/
def payload (n : Nat) (fs : List (Nat × Nat)) : List Byte := leBytes n (fs.foldl (fun x f => x + f.2 * 2 ^ (8 * f.1)) 0)
def outRing0 : OutRing := ⟨0, none, 0, 0, 0x100000, 4096, .running, 12, 0, 0x200000, [], 0⟩
def edgeRing : OutRing := ⟨9, some 0, 2, 0, 0x101000, 4096, .running, 0, 0, 0x200008, [], 0⟩
def debugRing : OutRing := ⟨8, some 0, 1, 0, 0x102000, 4096, .running, 0, 0, 0x200010, [], 0⟩
/-- Firmware serves ring 0, and a command with a payload stands there alone. -/
def asked (s : State) (code : Nat) (p : List Byte) : State :=
  { s with host := { s.host with
    devstat := 1, fw := .running, outs := [outRing0, edgeRing, debugRing], windows := [(0, 0, 2 ^ 40)]
    ring0 := { Mailbox.zero with size := 65536, state := .running, tail := 4 + p.length
                                 bytes := (located 0 (leBytes 4 (p.length + code * 2 ^ 16) ++ p)).foldl (fun m e => Sparse.set 0 m e.1 e.2) [] } } }
def headAt (s : State) (code act : Nat) : HeadRec := (s.commandAt code act).getD ⟨false, 0, 0, [], []⟩
/-- The command is asked for, with this payload. -/
def asksB (s : State) (code act : Nat) (p : List Byte) : Bool :=
  s.commandAt code act == some ⟨false, code, p.length, p, []⟩ && (s.host.ring0.advance (headAt s code act).size).unread == 0

/-- Contexts, plans, traps, service lists. -/
def ctxPays : List (Nat × Nat × List Byte) :=
  [(1, 0, leBytes 68 (5 + codeContext.desc.toNat * 2 ^ 32)), (2, 0, payload 8 [(0, 7)]), (0x10, 0, payload 8 [(4, 0)]), (0x10, 0, payload 8 [(4, 3)]),
   (3, 0, payload 24 [(8, 0x3FFFF000), (16, 8192)]), (4, 0, payload 24 [(8, 0x11000), (16, 4096)]), (4, 0, payload 24 []), (5, 0, payload 16 [(8, 0x20000)]),
   (6, 0, payload 12 [(5, 1)]), (6, 1, payload 12 [(5, 2), (8, 8)]), (7, 1, payload 16 [(4, 1), (8, 0x20000)]), (7, 0, payload 16 [])]
theorem wit_ContextCommands : ∀ e ∈ ctxPays, (asksB (asked still e.1 e.2.2) e.1 e.2.1 e.2.2 && e.2.2.length == (commandLen e.1).getD 0) = true :=
  List.all_eq_true.mp (by decide +kernel)
theorem wit_ContextCommands_create : (asked still 1 []).freeCtx = some 1 ∧ descOk codeContext.desc = true ∧ still.storesFit (newContext 1 codeContext.desc) = true := by decide +kernel
theorem wit_ContextCommands_destroy : still.drained 0 = false ∧ (ctxAt still).ladder = .none ∧ still.ctx? 3 = none := by decide +kernel
/-- An image of one node, its tables on the last page of a gigabyte page and its section on the first of the next, which is execute-only. -/
def imageBytes : List Byte :=
  payload 64 [(0, 0x49474B56), (4, 1), (6, 1), (8, 1), (10, 1), (16, 64), (24, 128), (32, 128), (40, 132), (48, 4096), (56, 8192)] ++
  leBytes 64 (4096 * 2 ^ 448 + 2 ^ 255 + 2 ^ 231 + 40 * 2 ^ 200 + 0xFFFF * 2 ^ 176 + 0xFFFF * 2 ^ 160) ++ leBytes 8 8
def imaged : State :=
  let mem := located 0x1000 (leBytes 8 0x2001) ++ located 0x2000 (leBytes 8 0x3001) ++ located 0x3000 (leBytes 8 (2 ^ 56 + 0x99) ++ leBytes 8 (2 ^ 56 + 2 ^ 30 + 0xA1)) ++
    located 0x3FFFF000 imageBytes
  onCtx { still with home := { still.home with mem := mem.foldl (fun m e => Sparse.set 0 m e.1 e.2) [], live := [0, 511] } } fun c => { c with graph := none }
theorem wit_ContextCommands_install : (match imaged.readGraph (ctxAt imaged) 0x3FFFF000 8192 with
    | some (g, x) => g.nodes.length == 1 && (imaged.landBytes (imaged.imagePlaces (ctxAt imaged) (imageWrites 0x3FFFF000 x g))).2
    | none => false) = true ∧ (ctxAt imaged).graph = none ∧
    (∀ k, k < 2 → (imaged.imagePage (ctxAt imaged) (0x3FFFF000 + 4096 * k)).all (fun q => !q.moving) = true) := by decide +kernel
/-- A plan of one layer, and a service list of one entry, at 0x20000. -/
def planned : State := ringed 0 none (filled still (leBytes 64 (2 ^ 464 + 15 * 2 ^ 440 + 10 * 2 ^ 428) ++
  leBytes 32 (0x30000 * 2 ^ 192 + 2 ^ 128 + 5 * 2 ^ 112 + 2 * 2 ^ 96 + 2 ^ 88 + 10 * 2 ^ 76)))
theorem wit_ContextCommands_plan : (planned.readPlan 0 0x20000).isSome = true ∧ planned.ring.plan = some plan5 := by decide +kernel
theorem wit_ContextCommands_trap : (match (ctxAt (onCtx still fun c => { c with graph := c.graph.map fun g => { g with types := [64] } })).node? 0 with
    | some n => (ctxAt (onCtx still fun c => { c with graph := c.graph.map fun g => { g with types := [64] } })).typeSize n.intype == 64 | none => false) = true ∧
    (asked still 6 []).outRing? 8 = some debugRing := by decide +kernel
def listed : State := filled still (leBytes 8 (2 ^ 42 + 2 ^ 26 + 2 ^ 25))
theorem wit_ContextCommands_service : ((List.range 64).map fun k => listed.fwRead (0x20000 + 8 * k) 8) = (2 ^ 42 + 2 ^ 26 + 2 ^ 25) :: List.replicate 63 0 ∧
    serviceOk (2 ^ 42 + 2 ^ 26 + 2 ^ 25) = true ∧ serviceOk 0 = true := by decide +kernel

/-- QP_SET of an action for pair 5, with an exponent of the timeout. -/
def qpPay (act exp : Nat) : List Byte := payload 60 [(4, 5), (8, act), (9, exp), (12, 16), (14, 4096)]
theorem wit_DeviceCommands_limits : ∀ act ∈ [0, 1, 2, 3, 4, 5], (asksB (asked still 8 (qpPay act 21)) 8 act (qpPay act 21) && !qpParamsOk (qpPay act 21) && !qpParamsOk (qpPay act 0) &&
    qpParamsOk (qpPay act 20) && qpParamsOk (qpPay act 1)) = true := List.all_eq_true.mp (by decide +kernel)
def pairIn (q : QPair) : State := { still with qps := [q] }
theorem wit_DeviceCommands_pairs : ∀ st ∈ [QpState.init, .rts, .error], (pairIn (pairOf st [] [])).qp? 5 = some (pairOf st [] []) ∧ arg (qpPay 1 14) 4 2 = 5 := by
  intro st h
  simp only [List.mem_cons, List.not_mem_nil, or_false] at h
  rcases h with rfl | rfl | rfl <;> decide +kernel

/-- Queue pairs, regions, exports, edges, keys, rings, stop records, power, windows, memory, images. -/
def devPays : List (Nat × Nat × List Byte) :=
  [(8, 0, payload 60 [(4, 5), (9, 14), (12, 16), (14, 16)]), (8, 1, qpPay 1 14), (8, 2, qpPay 2 20), (8, 3, qpPay 3 1),
   (8, 4, qpPay 4 14), (8, 5, qpPay 5 14), (9, 0, payload 24 [(4, 4095), (8, 0xF + 2 ^ 40)]), (0xA, 0, payload 16 [(8, 0)]),
   (0xB, 0, payload 24 [(12, 1023)]), (0xB, 1, payload 24 [(5, 1), (18, 9)]), (0xB, 2, payload 24 [(5, 2)]), (0xC, 0, payload 8 [(5, 5)]), (0xC, 0, payload 8 [(5, 1)]),
   (0xC, 0, payload 8 []), (0xC, 1, payload 8 [(4, 1), (5, 1)]), (0xC, 2, payload 8 [(4, 2), (5, 1)]), (0xC, 3, payload 8 [(4, 3), (5, 255)]),
   (0xD, 0, payload 32 [(4, 1023), (9, 12), (10, 15)]), (0xD, 1, payload 32 [(4, 1), (6, 1), (7, 2), (12, 0x300000), (20, 0x200020)]), (0xE, 0, payload 20 [(8, 0x1000), (16, 4)]),
   (0xF, 0, payload 8 [(4, 1000)]), (0xF, 0, payload 8 [(4, 4400)]), (0xF, 0, payload 8 [(4, 999)]), (0x11, 0, payload 24 [(5, 63), (16, 4096)]), (0x11, 1, payload 24 [(4, 1)]),
   (0x12, 0, payload 32 [(16, 0x20000), (24, 8), (28, 1)]), (0x12, 1, payload 32 [(16, 0x20000), (24, 4), (28, 1), (29, 1)]), (0x13, 0, payload 24 [(16, 4096)])]
theorem wit_DeviceCommands : ∀ e ∈ devPays, (asksB (asked still e.1 e.2.2) e.1 e.2.1 e.2.2) = true := List.all_eq_true.mp (by decide +kernel)
theorem wit_DeviceCommands_checks : qpParamsOk (payload 60 [(4, 5), (9, 14), (12, 16), (14, 16)]) = true ∧ still.regionEntryOk (0xF + 2 ^ 40) = true ∧ exportOk 0 = true ∧
    (ctxAt still).edge? 0 = some ⟨0, 0, 64, true, .here⟩ ∧ (asked still 0 []).outRing? 9 = some edgeRing ∧ still.keyOf 5 = 0 ∧ still.keyOf 1 = 2 ∧
    inTier 0x20000 8 = true ∧ (asked still 0 []).inWindow 0x300000 4096 = true ∧ (asked still 0 []).inWindow 0x200020 8 = true ∧
    (asked still 0 []).outRing? 1 = none ∧ (∀ e ∈ devPays, e.1 = 8 → arg e.2.2 18 2 = 0 ∧ arg e.2.2 54 6 = 0) ∧ (∀ k, k < 8 → still.home.live.contains (regionOf (0x20000 + k)) = true) := by decide +kernel

/-! ## The host link -/

theorem wit_HostLinkSteps_write : inTier 0x20000 3 = true ∧ inTier 0x6000000000000 3 = false ∧ still.keyOf 1 ≠ 0 ∧ still.keyOf 9 = 0 ∧
    (∀ k, k < 3 → still.home.live.contains (regionOf (0x20000 + k)) = true ∧ still.home.frozen.contains (regionOf (0x20000 + k)) = false) := by decide +kernel
/-- Mailbox ring 4 of context 0 with a record of 8 bytes for entry 0 at HEAD, to be committed after a time. -/
def mailed (t : Nat) : State :=
  { asked still 0 [] with host := { (asked still 0 []).host with mailboxes :=
    [⟨4, 0, 4096, 1, .running, 0, 0, 12, (located 0 (leBytes 4 8 ++ leBytes 8 0x1234)).foldl (fun m e => Sparse.set 0 m e.1 e.2) [], [(12, t, 0)]⟩] } }
theorem wit_HostLinkSteps_merge : ∀ t ∈ [0, 50], ((mailed t).mergeTurns 0 == [4] && (match (mailed t).mailbox? 4 with
      | some r => r.state == .running && (mailed t).mayTake r == (t == 0) && (match r.head? with
        | some h => ((ctxAt (mailed t)).headErrs h).isEmpty && !h.skip && (mailed t).recordRoom (ctxAt (mailed t)) (recSpace h.len) && h.entry == 0 && h.len == 8 && (ctxAt (mailed t)).merging.isEmpty
        | none => false)
      | none => false) && (mailed t).isReady) = true := List.all_eq_true.mp (by decide +kernel)
/-- The same with no record space, the record at HEAD a skip record or not. -/
def crammed (skip : Bool) : State :=
  let s := onCtx (mailed 0) fun c => { c with desc := c.desc &&& ~~~(BitVec.ofNat 512 (2 ^ 323 - 2 ^ 302)) }
  if skip then { s with host := { s.host with mailboxes := [⟨4, 0, 4096, 1, .running, 0, 4084, 0,
    (located 4084 (leBytes 4 (2 ^ 31 + 8))).foldl (fun m e => Sparse.set 0 m e.1 e.2) [], [(12, 0, 0)]⟩] } } else s
theorem wit_HostLinkSteps_noRoom : ∀ b ∈ [true, false], ((crammed b).mergeTurns 0 == [4] && (match (crammed b).mailbox? 4 with
      | some r => r.ctx == 0 && r.state == .running && (match r.head? with
        | some h => ((ctxAt (crammed b)).headErrs h).isEmpty && h.skip == b && !(crammed b).recordRoom (ctxAt (crammed b)) (recSpace h.len) &&
            !(crammed b).recordRoom (ctxAt (crammed b)) (recSpace 4) && (ctxAt (crammed b)).merging.isEmpty
        | none => false)
      | none => false)) = true := List.all_eq_true.mp (by decide +kernel)
theorem wit_HostLinkSteps_tail : ((mailed 0).mailbox? 4).any (fun r => r.size == 4096) = true ∧ (mailed 0).isReady = true ∧ (mailed 0).mailbox? 7 = none ∧
    ({ mailed 0 with host := { (mailed 0).host with devstat := 0x1000000 } } : State).isReady = false := by decide +kernel
theorem wit_HostLinkSteps_ohead : (asked still 0 []).outRing? 0 = some outRing0 ∧ ((12 : Word).toNat + 4096 - 0) % 4096 ≤ (12 + 4096 - 0) % 4096 ∧ (4096 : Word).toNat ≥ outRing0.size ∧
    (12 + 4096 - 0) % 4096 < ((16 : Word).toNat + 4096 - 0) % 4096 ∧ (16 : Word).toNat % 4 = 0 ∧ (2 : Word).toNat % 4 ≠ 0 := by
  decide +kernel
def vectored (masked : Bool) (n : Nat) : State := { still with host := { still.host with vectors := [⟨3, 0, masked, masked, n, if n = 0 then none else some 0, 0⟩] } }
theorem wit_HostLinkSteps_vectors : ((vectored false 0).vector 3).due 0 = false ∧ ((vectored false 1).vector 3).due 0 = true ∧ ((vectored true 1).vector 3).due 0 = true ∧
    ((vectored true 1).vector 3).pending = true := by decide +kernel
def bringing : State := { State.reset with host := { HostLink.reset with devstat := 1, fw := .running, ring0 := { Mailbox.zero with size := 65536, state := .running } } }
theorem wit_HostLinkSteps_evcfg : bringing.isReady = true ∧ bringing.host.heldLost = 0 ∧ still.isReady = false ∧ (BitVec.ofNat 64 (2 ^ 31 + 13)).toNat % 16 = 13 ∧ (BitVec.ofNat 64 12).getLsbD 31 = false ∧ bringing.outRing? 0 = none ∧ bringing.host.heldEvents = [] ∧ bringing.host.ring0.head? = none ∧
    (BitVec.ofNat 64 (2 ^ 31 + 12)).getLsbD 31 = true ∧ (BitVec.ofNat 64 (2 ^ 31 + 12)).toNat % 16 ≤ 12 := by decide +kernel
theorem wit_HostLinkSteps_firmware : bringing.host.fw = .running ∧ bringing.isRecov = false ∧
    ({ bringing with host := { bringing.host with fw := .reloading } } : State).outRing? 0 = none := by decide +kernel

/-- Bring-up in a step that ends at a time, with the primary pair's verdict and the golden pair's. -/
def booting (k at_ : Nat) (ps : Bool × Bool) : State :=
  { State.reset with time := 100, host := { HostLink.reset with devstat := BitVec.ofNat 64 (k * 2 ^ 24), bootAt := at_, pairs := ps } }
theorem wit_HostLinkSteps_boot : ∀ k ∈ [1, 2, 3, 4], ∀ at_ ∈ [100, 101], ((booting k at_ (false, true)).host.devstat.toNat / 2 ^ 24 % 2 ^ 8 == k &&
    !(booting k at_ (false, true)).isReady && (booting k at_ (false, true)).time == 100) = true := by
  intro k hk a ha
  simp only [List.mem_cons, List.not_mem_nil, or_false] at hk ha
  rcases hk with rfl | rfl | rfl | rfl <;> rcases ha with rfl | rfl <;> decide +kernel
/-- Mailbox ring 4 runs, or has stopped with code 3. -/
def readable (st : RingState) (e : Nat) : State :=
  { mailed 0 with host := { (mailed 0).host with mailboxes := (mailed 0).host.mailboxes.map fun r => { r with state := st, err := e } } }
theorem wit_HostLinkSteps_read : ∀ e ∈ [(RingState.running, 0), (.stopped, 3)], ((readable e.1 e.2).isReady && (match (readable e.1 e.2).mailbox? 4 with
      | some r => r.state == e.1 && r.err == e.2 && decide (r.size ≤ 2 ^ 24) && decide (r.head < r.size) && decide (r.tail < 2 ^ 32)
      | none => false) && (match (readable e.1 e.2).outRing? 9 with
      | some r => r.state == .running && r.size == 2 ^ (12 + 0) && decide (r.tail < r.size) && decide (r.ohead < r.size) && decide (r.vec < 2 ^ 8) && decide (r.kind < 2 ^ 8)
      | none => false)) = true := List.all_eq_true.mp (by decide +kernel)
/-- Firmware signalled last at time 0. -/
def silent (t : Nat) (fw : FwState) (golden : Bool) : State := { bringing with time := t, host := { bringing.host with fw := fw, signal := 0, pairs := (true, golden) } }
theorem wit_HostLinkSteps_watchdog : (silent (10 ^ 8) .running true).host.fw = .running ∧ (silent (10 ^ 8) .running true).isRecov = false ∧
    (silent (10 ^ 8) .running true).host.signal + 100000000 ≤ (silent (10 ^ 8) .running true).time ∧ (silent 99999999 .running true).time < 0 + 100000000 := by decide +kernel
theorem wit_HostLinkSteps_reload : ∀ b ∈ [true, false], (silent 0 .reloading b).host.fw = .reloading ∧ (silent 0 .reloading b).outRing? 0 = none ∧ (silent 0 .reloading b).host.pairs.2 = b := by
  intro b _; cases b <;> decide +kernel
/-- Firmware's attempts: at places in a window and in none, a vector whose last message was sent at time 0, and pairs approved and not. -/
def attempting (t : Nat) (m : List (Nat × Nat)) (ok : Bool) : State :=
  { asked still 0 [] with time := t, qps := [{ pairOf .rts [] [] with approved := ok }], host := { (asked still 0 []).host with fwMsi := m } }
theorem wit_HostLinkSteps_bound : (attempting 0 [] true).inWindow 0 1 = true ∧ (attempting 0 [] true).inWindow (2 ^ 40) 1 = false ∧
    (attempting 0 [] true).qp? 5 = some (pairOf .rts [] []) ∧ (attempting 0 [] false).qp? 5 = some { pairOf .rts [] [] with approved := false } ∧
    (pairOf .rts [] []).approved = true ∧ (attempting 9999 [(3, 0)] true).host.fwMsi.lookup 3 = some 0 ∧ (attempting 9999 [(3, 0)] true).time < 0 + 10000 ∧
    (attempting 10000 [(3, 0)] true).host.fwMsi.lookup 3 = some 0 ∧ 0 + 10000 ≤ (attempting 10000 [(3, 0)] true).time ∧
    ((attempting 10000 [(3, 0)] true).vector 3).masked = false ∧ (attempting 0 [] true).host.fwMsi.lookup 3 = none := by decide +kernel

/-! ## The pod -/

/-- Export 0 of the page frame's 2 GiB to device 5, key slot 1, for reading and writing. -/
def exported : State := { still with peers := { still.peers with exports := [(0, BitVec.ofNat 64 (1 + 8 + 16 + 5 * 2 ^ 10 + 2 ^ 23))] } }
theorem wit_PodSteps_inbound : (match exported.exportMap 5 0x20000 true true with | .ok (pa, key, lease) => pa == 0x20000 && key == 1 && lease == 0 | .error _ => false) = true ∧
    (match exported.exportMap 6 0x20000 false true with | .error k => k == 1 | .ok _ => false) = true ∧ inboundSize 32 = true ∧ 0x20000 % 128 + 32 ≤ 128 ∧
    (match exported.exportMap 5 0x20000 true false with | .ok (pa, key, lease) => pa == 0x20000 && key == 1 && lease == 0 | .error _ => false) = true ∧
    (match exported.exportMap 5 0x20000 false true with | .ok (pa, key, lease) => pa == 0x20000 && key == 1 && lease == 0 | .error _ => false) = true ∧
    exported.peekRun 1 0x20000 32 = ⟨zeros 32, false⟩ ∧ exported.home.counts = [] ∧ exported.isLive 0x20000 = true ∧ exported.home.frozen.contains (regionOf 0x20000) = false ∧
    exported.home.held = [] ∧ (∀ j, j < 32 → exported.home.live.contains (regionOf (0x20000 + j)) = true) := by
  decide +kernel
theorem wit_PodSteps_atomic : ((exported.ordinary [lineOf 0x20000]).applyAtomic .add 8 1 0x20000 3 0).2 = (0, false) := by decide +kernel
def remoteStore (dev : Nat) : RemoteReq := ⟨5, .flight (.wave 0 0) 0, 0, 0x4000000020000 + 2 ^ 39 * dev, 32, true, 0, 0x10000, none, 0x11000, some 5, none⟩
def remoteRead (dev : Nat) : RemoteReq := ⟨5, .cmd 3, 0, 0x4000000020000 + 2 ^ 39 * dev, 32, false, 0, 0x10000, none, 0x11000, none, none⟩
/-- Asked at time 0, with the timeout of 100 µs lapsed or not. -/
def requesting (tm : Nat) (r : RemoteReq) : State := { queued (entryOf (.store 0) []) with time := tm, peers := { still.peers with reqs := [r] } }
theorem wit_PodSteps_responses : ∀ tm ∈ [99999, 100000], ∀ r ∈ [remoteStore 0, remoteStore 1, remoteRead 0, remoteRead 1], ((requesting tm r).peers.reqs.find? (fun r => r.n == 5) == some r && r.recs.isNone &&
    (requesting tm r).queue.find? (fun e => e.n == 5) == some (entryOf (.store 0) []) && (requesting tm r).threadOf (.wave 0 0) == some (waveAt (requesting tm r)).t &&
    (requesting tm r).siteOf (.wave 0 0) == some (of_ (requesting tm r) (.wave 0 0)) && !(waveAt (requesting tm r)).ended &&
      (requesting tm r).lapsed r == (tm == 100000) && (requesting tm r).answerDue r) = true := by
  intro tm h r hr
  simp only [List.mem_cons, List.not_mem_nil, or_false] at h hr
  rcases h with rfl | rfl <;> rcases hr with rfl | rfl | rfl | rfl <;> decide +kernel
/-- The copy engine's command 3 asked for 32 bytes, and is there, or is gone. -/
theorem wit_PodSteps_command : ({ requesting 99999 (remoteRead 0) with cmds := [aCommand .running []] } : State).cmd? 3 = some (aCommand .running []) ∧
    ({ requesting 99999 (remoteRead 0) with cmds := [aCommand .running []] } : State).peers.reqs.find? (fun r => r.n == 5) = some (remoteRead 0) ∧
    (requesting 99999 (remoteRead 0)).cmd? 3 = none ∧ (zeros 32).length = (remoteRead 0).len ∧ (remoteStore 0).part = none ∧ (entryOf (.store 0) []).accs = [] ∧
    (requesting 99999 (remoteStore 0)).entryOf (remoteStore 0) = some (entryOf (.store 0) []) ∧ 0 + still.peers.timeoutNs ≤ 100000 := by decide +kernel
/-- Of two devices at most one is this one. -/
theorem wit_PodSteps_other : ownWindow (remoteStore 0).addr = false ∨ ownWindow (remoteStore 1).addr = false := by
  have h : inPeer (remoteStore 0).addr = true ∧ inPeer (remoteStore 1).addr = true ∧ peerDev (remoteStore 0).addr = 0 ∧ peerDev (remoteStore 1).addr = 1 := by decide +kernel
  simp only [ownWindow, h, Bool.true_and, beq_eq_false_iff_ne, ne_eq]
  omega
theorem wit_PodSteps_record : ((ctxAt still).node? 0).map (fun n => (ctxAt still).typeSize n.intype) = some 8 ∧ still.recordRoom (ctxAt still) (recSpace 8 + recSpace 8) = true ∧
    (onCtx still fun c => { c with graph := none }).ctx? 0 = some (ctxAt (onCtx still fun c => { c with graph := none })) ∧
    (ctxAt (onCtx still fun c => { c with graph := none })).node? 0 = none := by decide +kernel
def podded (t : Nat) (b : Bool) : State := { still with time := t, peers := { still.peers with lastSync := some 0, synced := b } }
theorem wit_PodSteps_time : (podded 20000 true).peers.synced = true ∧ 2 ≤ ((podded 20000 true).time - 0) / 10000 ∧ 0 + 1000000 ≤ (podded 1000000 true).time ∧
    (podded 999999 true).time < 0 + 1000000 ∧ still.peers.lastSync = none ∧ still.peers.synced = true ∧ (podded 1000000 true).peers.master = false ∧
    ({ podded 1000000 true with peers := { (podded 1000000 true).peers with master := true } } : State).peers.lastSync = some 0 ∧
    ({ podded 20000 true with peers := { (podded 20000 true).peers with adjust := -3 } } : State).peers.adjust ≠ 0 := by decide +kernel
/-- Records that are none of the node's, and a context with no room for one. -/
theorem wit_PodSteps_refused : ((ctxAt still).node? 0).any (fun n => (ctxAt still).typeSize n.intype != (zeros 4).length) = true ∧
    (crammed false).recordRoom (ctxAt (crammed false)) (recSpace 8) = false ∧ ((ctxAt (crammed false)).node? 0).isSome = true := by decide +kernel
theorem wit_PodSteps_links : (still.peers.remaps.lookup 7).getD 0 < 2 ∧ 2 ≤ (({ still.peers with remaps := [(7, 2)] } : Peers).remaps.lookup 7).getD 0 := by decide +kernel

end Sys2Proof.Tests
end

section
/-! Encoding and assembly (spec/02_encoding_and_assembly.md): the opcodes that no map names, and the words of the worked example. -/
namespace Sys2Proof

/-! ## The decoder, class by class -/

/-- A P-class word of the one-word form that decodes to no instruction is refused for the reason its table gives. -/
theorem decodeWords_of_decodeP1_error {w1 w2 : Nat} {r : Reject} (hclass : field w1 31 1 = 0) (hone : twoWords w1 = false)
    (h : decodeP1 w1 = .error r) : decodeWords w1 w2 = .error r := by
  simp [decodeWords, hclass, hone, h, bind, Except.bind]

/-- A U-class word of the one-word form that decodes to no instruction is refused for the reason its table gives. -/
theorem decodeWords_of_decodeU1_error {w1 w2 : Nat} {r : Reject} (hclass : field w1 31 1 = 1) (hone : twoWords w1 = false)
    (h : decodeU1 w1 = .error r) : decodeWords w1 w2 = .error r := by
  simp [decodeWords, hclass, hone, h, bind, Except.bind]

/-- The two-word form P2 begins at opcode 0x60 (R32). -/
theorem twoWords_of_classP {w1 : Nat} (hclass : field w1 31 1 = 0) (hop : op7 w1 < 0x60) : twoWords w1 = false := by
  simp [twoWords, hclass, hop]

/-- A U-class word is one of the two-word form exactly where its opcode stands among those of U2. -/
theorem twoWords_of_classU {w1 : Nat} (hclass : field w1 31 1 = 1) : twoWords w1 = u2Ops.contains (op7 w1) := by
  simp [twoWords, hclass]

/-! ## The opcodes that no map names -/

/-- R39 names the one-word P-class opcodes 0x01 to 0x23 and no other: the last row alone is left. -/
theorem decodeP1_of_unassigned {w : Nat} (h : op7 w = 0 ∨ 0x24 ≤ op7 w) : decodeP1 w = .error .illegalOpcode := by
  unfold decodeP1
  split
  case h_36 => rfl
  all_goals omega

section
/-! The U-class opcodes that neither R43 nor the extensions of R45 and R46 name. -/
variable {w : Nat} (h : op7 w = 0x0F ∨ 0x5B ≤ op7 w ∧ op7 w ≤ 0x5F ∨ 0x6C ≤ op7 w ∧ op7 w ≤ 0x6F ∨ 0x73 ≤ op7 w)
include h

theorem u2Ops_contains_of_unassigned : u2Ops.contains (op7 w) = false := by
  rw [List.contains_eq_mem, decide_eq_false_iff_not]
  simp only [u2Ops, List.mem_cons, List.not_mem_nil, or_false]
  omega

theorem decodeU1_of_unassigned : decodeU1 w = .error .illegalOpcode := by
  unfold decodeU1
  split
  case h_76 => rfl
  all_goals omega

end

/-- Settles O4: an unassigned opcode is one of a one-word form, in either class, and the class's table has no row for it. -/
theorem unassignedOpcodes : Obligations.UnassignedOpcodes := by
  intro w1 w2 h
  obtain ⟨hclass, hop⟩ | ⟨hclass, hop⟩ := h
  · have hone : twoWords w1 = false := twoWords_of_classP hclass (by omega)
    exact decodeWords_of_decodeP1_error hclass hone (decodeP1_of_unassigned (by omega))
  · have hone : twoWords w1 = false := (twoWords_of_classU hclass).trans (u2Ops_contains_of_unassigned hop)
    exact decodeWords_of_decodeU1_error hclass hone (decodeU1_of_unassigned hop)

/-! ## The worked example -/

/-- Settles O1: the decoder runs on each word, and the record it answers is the one stated. -/
theorem wordsDecode : Obligations.WordsDecode := by
  refine ⟨?iaddI, ?ld, ?st, ?sadd, ?bra, ?emit, ?mma, ?cq⟩ <;> rfl

end Sys2Proof
end

section
/-! Host, firmware and boot (spec/23_host_firmware_and_boot.md): the interrupt vectors and the cycle counter after device reset. -/
namespace Sys2Proof

/-- Every field of a register of zeros reads 0. -/
@[simp] theorem field_zero (lo n : Nat) : field 0 lo n = 0 := by
  rw [field, Nat.zero_div, Nat.zero_mod]

end Sys2Proof

namespace Sys2Proof.Machine

/-- No vector is listed at reset: each is the one with nothing written to it. -/
@[simp] theorem State.vector_reset (v : Nat) : State.reset.vector v = Vector.zero v := rfl

/-- VCFG holds N - 1 (R445), so that a register of zeros gives N = 1. -/
@[simp] theorem Vector.threshold_zero (v : Nat) : (Vector.zero v).threshold = 1 := by
  simp [Vector.threshold, Vector.zero]

/-- VCFG holds H - 1 in µs (R445), so that a register of zeros gives H = 1 µs. -/
@[simp] theorem Vector.holdoff_zero (v : Nat) : (Vector.zero v).holdoff = 1000 := by
  simp [Vector.holdoff, Vector.zero]

/-- The count of main-clock cycles starts at device reset (R404). -/
@[simp] theorem State.cycles_reset : State.reset.cycles = 0 := rfl

end Sys2Proof.Machine

namespace Sys2Proof

open Machine

/-- Settles O9: no vector is listed at reset, so that each has a VCFG of 0, and the cycle count starts at 0. -/
theorem resetVectors : Obligations.ResetVectors := by
  unfold Obligations.ResetVectors
  refine ⟨fun v => ?vector, State.cycles_reset⟩
  rw [State.vector_reset]
  exact ⟨Vector.threshold_zero v, Vector.holdoff_zero v⟩

end Sys2Proof
end
